-- ==== Sys2Proof/Word.lean ====
section
/-!
DEFINITION. The 32-bit words of the block: command words (30_encoding.md R90) and SHA-256 words
(00_scope.md R14, R15). A dense word inside a cell is a field element, held as its canonical natural number.
-/

namespace Sys2Proof

/-- A command word: `OPC[7:0] N[11:8] SEL[15:12] IMM[31:16]` (30_encoding.md R90). -/
abbrev CmdWord := BitVec 32

/-- An unsigned 32-bit word (00_scope.md R14): there are no signed values in the block. -/
abbrev Word32 := BitVec 32

end Sys2Proof
end

