-- ==== Sys2Proof/Syntax.lean ====
section
/-!
DEFINITION. The instructions: one constructor per row of spec/opcode_table.json (30_encoding.md R106).
A constructor carries the fields its row uses, already named: `SEL` and the `N` of BITS_OF are enumerations, the
others are the number the field holds. Operands that are not in the word (30_encoding.md R91) are in State.
-/

namespace Sys2Proof

/-- `SEL` of INIT_FROM (30_encoding.md R96). -/
inductive InitSource
  | data    -- 0
  | digest  -- 1
deriving DecidableEq, Repr

/-- `SEL` of INIT_WORD (30_encoding.md R98). -/
inductive WordSource
  | iv      -- 0
  | data    -- 1
  | digest  -- 2
deriving DecidableEq, Repr

/-- `N` of BITS_OF (30_encoding.md R97). -/
inductive Width
  | w16     -- 0
  | w32     -- 1
deriving DecidableEq, Repr

/-- `SEL` of DECOMP (30_encoding.md R101; 42_gates.md R160). -/
inductive Layout
  | ssig0   -- 0: σ0
  | ssig1   -- 1: σ1
  | bsig0   -- 2: Σ0
  | bsig1   -- 3: Σ1
deriving DecidableEq, Repr

/-- One constructor per row of the opcode map (30_encoding.md R106). -/
inductive Instr
  -- facade commands
  | configure
  | load
  | initIv
  | initFrom (src : InitSource)
  | compress
  | digest
  -- codec commands
  | bitsOf (n : Width)
  | intOf
  | spread
  -- level-1 operations
  | schedIn (t : Nat)
  | sched (t : Nat)
  | round (t : Nat)
  | initWord (src : WordSource) (i : Nat)
  | digestWord (i : Nat)
  -- function operations
  | ssig0
  | ssig1
  | bsig0
  | bsig1
  | ch
  | maj
  -- primitive operations
  | word
  | recomb
  | lookup (e : Nat)
  | range (w : Nat)
  | decomp (layout : Layout)
  | extract (k : Nat)
  | modadd (n : Nat)
  | carry (m : Nat)
  | copy
deriving DecidableEq, Repr

end Sys2Proof
end

