-- ==== Sys2Proof/WellFormed.lean ====
section
/-!
DEFINITION. Which instructions the opcode map admits: the legal sets of 30_encoding.md R96 to R101 and R106.
`SEL` and the `N` of BITS_OF need no check, their enumerations hold the legal values only.
-/

namespace Sys2Proof

/-- The fields are in the row's legal set (30_encoding.md R106). -/
def Instr.wellFormed : Instr → Bool
  | .schedIn t => decide (t ≤ 15)
  | .sched t => decide (16 ≤ t ∧ t ≤ 63)
  | .round t => decide (t ≤ 63)
  | .initWord _ i => decide (i ≤ 7)
  | .digestWord i => decide (i ≤ 7)
  | .lookup e => decide (e ≤ 15)
  | .range w => decide (1 ≤ w ∧ w ≤ 16)
  | .extract k => decide (2 ≤ k ∧ k ≤ 4)
  | .modadd n => decide (1 ≤ n ∧ n ≤ 5)
  | .carry m => decide (m ≤ 5)
  | .configure | .load | .initIv | .initFrom _ | .compress | .digest
  | .bitsOf _ | .intOf | .spread
  | .ssig0 | .ssig1 | .bsig0 | .bsig1 | .ch | .maj
  | .word | .recomb | .decomp _ | .copy => true

end Sys2Proof
end

