-- ==== Sys2Proof/Decode.lean ====
section
/-!
DEFINITION. The decoder of 30_encoding.md R93 over the opcode map of R106, total on every 32-bit word and rejecting
by name, and after it the encoder, written from the same map. `Instr.cls` is the class column of R106 (R94).
-/

namespace Sys2Proof

/-- Why a word is illegal (30_encoding.md R93, R95). -/
inductive DecodeError
  | unassignedOpcode   -- no row has this OPC
  | fieldOutOfRange    -- a used field outside its legal set, or an unused field that is not 0
deriving DecidableEq, Repr

/-- The legal set of one field in one row of the opcode map: `-` is "must be 0". -/
inductive Legal
  | zero
  | between (lo hi : Nat)
deriving DecidableEq, Repr

/-- The field value is in the row's legal set. -/
def Legal.admits : Legal → Nat → Bool
  | .zero, v => v == 0
  | .between lo hi, v => Nat.ble lo v && Nat.ble v hi

/-- One row of the opcode map (30_encoding.md R106): its OPC, the legal sets of N, SEL and IMM, and the
instruction the fields give. -/
structure Row where
  opc : Nat
  n   : Legal
  sel : Legal
  imm : Legal
  build : Nat → Nat → Nat → Instr

/-- `SEL` of INIT_FROM (30_encoding.md R96). -/
def initSourceOf : Nat → InitSource
  | 0 => .data
  | _ => .digest

/-- `SEL` of INIT_WORD (30_encoding.md R98). -/
def wordSourceOf : Nat → WordSource
  | 0 => .iv
  | 1 => .data
  | _ => .digest

/-- `N` of BITS_OF (30_encoding.md R97). -/
def widthOf : Nat → Width
  | 0 => .w16
  | _ => .w32

/-- `SEL` of DECOMP (30_encoding.md R101). -/
def layoutOf : Nat → Layout
  | 0 => .ssig0
  | 1 => .ssig1
  | 2 => .bsig0
  | _ => .bsig1

/-- Facade and codec rows (30_encoding.md R96, R97, R106). -/
def hostRows : List Row :=
  [ ⟨0x01, .zero, .zero, .zero, fun _ _ _ => .configure⟩,
    ⟨0x02, .zero, .zero, .zero, fun _ _ _ => .load⟩,
    ⟨0x03, .zero, .zero, .zero, fun _ _ _ => .initIv⟩,
    ⟨0x04, .zero, .between 0 1, .zero, fun _ sel _ => .initFrom (initSourceOf sel)⟩,
    ⟨0x05, .zero, .zero, .zero, fun _ _ _ => .compress⟩,
    ⟨0x06, .zero, .zero, .zero, fun _ _ _ => .digest⟩,
    ⟨0x08, .between 0 1, .zero, .zero, fun n _ _ => .bitsOf (widthOf n)⟩,
    ⟨0x09, .zero, .zero, .zero, fun _ _ _ => .intOf⟩,
    ⟨0x0A, .zero, .zero, .zero, fun _ _ _ => .spread⟩ ]

/-- Level-1 rows (30_encoding.md R98, R106). -/
def levelOneRows : List Row :=
  [ ⟨0x10, .zero, .zero, .between 0 15, fun _ _ imm => .schedIn imm⟩,
    ⟨0x11, .zero, .zero, .between 16 63, fun _ _ imm => .sched imm⟩,
    ⟨0x12, .zero, .zero, .between 0 63, fun _ _ imm => .round imm⟩,
    ⟨0x13, .zero, .between 0 2, .between 0 7, fun _ sel imm => .initWord (wordSourceOf sel) imm⟩,
    ⟨0x14, .zero, .zero, .between 0 7, fun _ _ imm => .digestWord imm⟩ ]

/-- Function rows (30_encoding.md R100, R106). -/
def functionRows : List Row :=
  [ ⟨0x20, .zero, .zero, .zero, fun _ _ _ => .ssig0⟩,
    ⟨0x21, .zero, .zero, .zero, fun _ _ _ => .ssig1⟩,
    ⟨0x22, .zero, .zero, .zero, fun _ _ _ => .bsig0⟩,
    ⟨0x23, .zero, .zero, .zero, fun _ _ _ => .bsig1⟩,
    ⟨0x24, .zero, .zero, .zero, fun _ _ _ => .ch⟩,
    ⟨0x25, .zero, .zero, .zero, fun _ _ _ => .maj⟩ ]

/-- Primitive rows (30_encoding.md R101, R106). -/
def primitiveRows : List Row :=
  [ ⟨0x30, .zero, .zero, .zero, fun _ _ _ => .word⟩,
    ⟨0x31, .zero, .zero, .zero, fun _ _ _ => .recomb⟩,
    ⟨0x32, .zero, .zero, .between 0 15, fun _ _ imm => .lookup imm⟩,
    ⟨0x33, .zero, .zero, .between 1 16, fun _ _ imm => .range imm⟩,
    ⟨0x34, .zero, .between 0 3, .zero, fun _ sel _ => .decomp (layoutOf sel)⟩,
    ⟨0x35, .between 2 4, .zero, .zero, fun n _ _ => .extract n⟩,
    ⟨0x36, .between 1 5, .zero, .zero, fun n _ _ => .modadd n⟩,
    ⟨0x37, .zero, .zero, .between 0 5, fun _ _ imm => .carry imm⟩,
    ⟨0x38, .zero, .zero, .zero, fun _ _ _ => .copy⟩ ]

/-- The opcode map, 29 rows (30_encoding.md R106). -/
def opcodeMap : List Row := hostRows ++ levelOneRows ++ functionRows ++ primitiveRows

/-- The four fields of a word, bit 0 least significant (30_encoding.md R90). -/
def opcOf (w : CmdWord) : Nat := w.toNat % 2 ^ 8
def nOf (w : CmdWord) : Nat := w.toNat / 2 ^ 8 % 2 ^ 4
def selOf (w : CmdWord) : Nat := w.toNat / 2 ^ 12 % 2 ^ 4
def immOf (w : CmdWord) : Nat := w.toNat / 2 ^ 16

/-- Decode (30_encoding.md R93): find the row by OPC, then check every field against the row's legal set. -/
def decode (w : CmdWord) : Except DecodeError Instr :=
  match opcodeMap.find? (fun r => r.opc == opcOf w) with
  | none => .error .unassignedOpcode
  | some r =>
    if r.n.admits (nOf w) && (r.sel.admits (selOf w) && r.imm.admits (immOf w)) then
      .ok (r.build (nOf w) (selOf w) (immOf w))
    else .error .fieldOutOfRange

/-- The word with these four fields: `OPC | N<<8 | SEL<<12 | IMM<<16` (30_encoding.md R102). -/
def packWord (opc n sel imm : Nat) : CmdWord :=
  BitVec.ofNat 32 (opc + n * 2 ^ 8 + sel * 2 ^ 12 + imm * 2 ^ 16)

/-- `SEL` values (30_encoding.md R96, R98, R101) and the `N` of BITS_OF (R97). -/
def InitSource.code : InitSource → Nat
  | .data => 0
  | .digest => 1
def WordSource.code : WordSource → Nat
  | .iv => 0
  | .data => 1
  | .digest => 2
def Width.code : Width → Nat
  | .w16 => 0
  | .w32 => 1
def Layout.code : Layout → Nat
  | .ssig0 => 0
  | .ssig1 => 1
  | .bsig0 => 2
  | .bsig1 => 3

/-- The word of an instruction (30_encoding.md R96 to R102, R106). -/
def encode : Instr → CmdWord
  | .configure => packWord 0x01 0 0 0
  | .load => packWord 0x02 0 0 0
  | .initIv => packWord 0x03 0 0 0
  | .initFrom src => packWord 0x04 0 src.code 0
  | .compress => packWord 0x05 0 0 0
  | .digest => packWord 0x06 0 0 0
  | .bitsOf n => packWord 0x08 n.code 0 0
  | .intOf => packWord 0x09 0 0 0
  | .spread => packWord 0x0A 0 0 0
  | .schedIn t => packWord 0x10 0 0 t
  | .sched t => packWord 0x11 0 0 t
  | .round t => packWord 0x12 0 0 t
  | .initWord src i => packWord 0x13 0 src.code i
  | .digestWord i => packWord 0x14 0 0 i
  | .ssig0 => packWord 0x20 0 0 0
  | .ssig1 => packWord 0x21 0 0 0
  | .bsig0 => packWord 0x22 0 0 0
  | .bsig1 => packWord 0x23 0 0 0
  | .ch => packWord 0x24 0 0 0
  | .maj => packWord 0x25 0 0 0
  | .word => packWord 0x30 0 0 0
  | .recomb => packWord 0x31 0 0 0
  | .lookup e => packWord 0x32 0 0 e
  | .range w => packWord 0x33 0 0 w
  | .decomp l => packWord 0x34 0 l.code 0
  | .extract k => packWord 0x35 k 0 0
  | .modadd n => packWord 0x36 n 0 0
  | .carry m => packWord 0x37 0 0 m
  | .copy => packWord 0x38 0 0 0

/-- The five classes (30_encoding.md R94). -/
inductive InstrClass
  | facade
  | codec
  | levelOne
  | function
  | primitive
deriving DecidableEq, Repr

/-- The class column of 30_encoding.md R106. -/
def Instr.cls : Instr → InstrClass
  | .configure | .load | .initIv | .initFrom _ | .compress | .digest => .facade
  | .bitsOf _ | .intOf | .spread => .codec
  | .schedIn _ | .sched _ | .round _ | .initWord _ _ | .digestWord _ => .levelOne
  | .ssig0 | .ssig1 | .bsig0 | .bsig1 | .ch | .maj => .function
  | .word | .recomb | .lookup _ | .range _ | .decomp _ | .extract _ | .modadd _ | .carry _ | .copy => .primitive

/-- The host may present facade and codec commands only (30_encoding.md R94; 60_exceptions.md R267). -/
def Instr.fromHost (i : Instr) : Bool :=
  match i.cls with
  | .facade | .codec => true
  | .levelOne | .function | .primitive => false

/-- The instruction the decoder reads from a table word of `nbits` bits; every bit above them is 0. All words have
one format of 32 bits (30_encoding.md R90, R105). -/
def decodeTableWord (nbits w : Nat) : Option Instr :=
  match decode (BitVec.ofNat 32 (w % 2 ^ nbits)) with
  | .ok i => some i
  | .error _ => none

end Sys2Proof
end

