-- ==== Sys2Proof/Config.lean ====
section
/-!
DEFINITION. What is fixed for one machine. `FIELD_P` has no value in the spec (00_scope.md R10, OPEN parameter),
so it is an uninterpreted constant here; the other three parameters have a default in the spec and stand in State
as data that no step writes (`TAG_OF`, `INST`) or that the step consumes (`HOST`).
-/

namespace Sys2Proof.Config

/-- A number nothing is known of. Every prime above 2^66 is `fieldP` for some value of it (itself). -/
opaque fieldSeed : Nat

/-- `FIELD_P` (00_scope.md R10): the prime order of the field, above 2^66. The spec gives no value; it is the least
prime not below both 2^66 + 1 and the uninterpreted `fieldSeed`, so nothing more than R10 can be proved of it. -/
def fieldP : Nat := Nat.find (Nat.exists_infinite_primes (max (2 ^ 66 + 1) fieldSeed))

end Sys2Proof.Config
end

