-- ==== Sys2Proof/Machine/State.lean ====
section
/-!
DEFINITION. The state of one block: `BlockState` (10_state.md R20), its ports (R43) and the data the proving host
supplies (00_scope.md R11 to R13), as plain data; the reasons a step can stop; and the state after reset
(70_reset_and_hazards.md R281).
-/

namespace Sys2Proof.Machine

/-! ### Cell names (20_memory.md R63) -/

/-- One segment of a dotted path below `INST.b<k>`, named as the rules of 41_table.md to 46_facade.md write it. -/
inductive Seg
  -- the seven cells of a word bundle (42_gates.md R151)
  | d | lo | hi | tlo | thi | slo | shi
  -- tag and spread cells of RANGE (41_table.md R140); `t2` is also the T2 of a round
  | t | s | t2 | s2
  -- EXTRACT's outputs, MODADD's result and carry (42_gates.md R164, R169); `e` is also the new e of a round
  | e | o | r | c
  -- sub-names of the function operations (43_functions.md R181 to R187)
  | dc | x | p | q
  -- sub-names of SCHED and ROUND (44_schedule.md R202; 45_compression.md R210)
  | s1 | s0 | add | ch | t1 | maj | a
  -- indexed segments: DECOMP's `p<i>` and `r<i>` (42_gates.md R161), `iv<i>`, `w<t>`, `r<t>`, `dg<i>`
  | pIx (i : Nat) | rIx (i : Nat) | iv (i : Nat) | w (t : Nat) | dg (i : Nat)
deriving DecidableEq, Repr

/-- A dotted path `INST.b<blk>.<segs>`: a handle (a cell-name prefix, 10_state.md R33) or the name of an ADVICE cell. -/
structure Path where
  blk  : Nat
  segs : List Seg
deriving DecidableEq, Repr

/-- The three table columns (41_table.md R130). -/
inductive TabCol
  | tag | dense | spread
deriving DecidableEq, Repr

/-- The name of a cell (20_memory.md R63): `INST.k.K<t>`, `INST.k.iv<i>`, `INST.tab.<col>.<v>` or `INST.b<k>.<path>`. -/
inductive CellName
  | fixK (t : Nat)
  | fixIv (i : Nat)
  | tab (col : TabCol) (v : Nat)
  | adv (path : Path)
deriving DecidableEq, Repr

/-- The kind of a cell (10_state.md R41), fixed by the second segment of its name (20_memory.md R63). -/
inductive CellKind
  | advice | fixed | table
deriving DecidableEq, Repr

/-! ### Values -/

/-- The value of a cell (10_state.md R41): a field element, as its canonical number in 0..p−1, or `Unknown`. -/
inductive Val
  | known (n : Nat)
  | unknown
deriving DecidableEq, Repr

/-- An item of `din` (10_state.md R44): a field element, or, for the codec commands, a list of bits (bit 0 first). -/
inductive DinItem
  | elem (n : Nat)
  | bits (bs : List Bool)
deriving DecidableEq, Repr

/-- An item of `DOUT` (10_state.md R45): a cell's value or a codec result, which in SHAPE mode may be a list of `n`
`Unknown` bits (00_scope.md R17; log 16). -/
inductive DoutItem
  | val (v : Val)
  | bits (bs : List Bool)
  | unknownBits (n : Nat)
deriving DecidableEq, Repr

/-! ### Constraint instances (20_memory.md R70) -/

/-- The seven kinds. -/
inductive ConsKind
  | lookup | recomb | lin | spreadsum | modsum | carry | copy
deriving DecidableEq, Repr

/-- A term of a linear expression: an integer coefficient and a cell. -/
abbrev Term := Int × CellName

/-- A constraint instance: the cells and constants it names (20_memory.md R70). -/
inductive Constraint
  | lookup (t d s : CellName) (m : Nat)
  | recomb (d lo hi : CellName)
  | lin (x : CellName) (terms : List Term)
  | spreadsum (terms : List Term) (k0 : Int) (el eh ol oh : CellName)
  | modsum (ys : List CellName) (k : Nat) (r c : CellName)
  | carry (c : CellName) (m : Nat)
  | copy (a b : CellName)
deriving DecidableEq, Repr

/-! ### Operand records and the queue (30_encoding.md R91, R99) -/

/-- An operand expression of EXTRACT (42_gates.md R164). -/
structure OperandExpr where
  terms : List Term
  const : Int
deriving DecidableEq, Repr

/-- The operand record an internal operation is given (30_encoding.md R91), one shape per operation; `none` is the
record of the operations whose operands are "none but the field". -/
inductive OpRec
  | none
  | value (v : Val)                                      -- SCHED_IN, INIT_WORD
  | sigma (x pfx : Path)                                 -- SSIG0, SSIG1, BSIG0, BSIG1
  | triple (x y z pfx : Path)                            -- CH {e, f, g, pfx}, MAJ {a, b, c, pfx}
  | word (pfx : Path) (v : Val)                          -- WORD
  | recomb (d lo hi : CellName)                          -- RECOMB
  | lookup (d t s : CellName)                            -- LOOKUP
  | range (d : CellName) (pfx : Path)                    -- RANGE
  | decomp (x pfx : Path)                                -- DECOMP
  | extract (ops : List OperandExpr) (pfx : Path)        -- EXTRACT
  | modadd (ys : List Path) (k : Nat) (pfx : Path)       -- MODADD
  | carry (c : CellName)                                 -- CARRY
  | copy (a b : CellName)                                -- COPY
deriving DecidableEq, Repr

/-- An entry of `Q` (10_state.md R23): a command word with its operand record. -/
structure QEntry where
  word : CmdWord
  opnd : OpRec
deriving DecidableEq, Repr

/-- A command the host presents: the word on `cmd_in` and the list on `din` (10_state.md R43, R44). -/
structure Presented where
  word : CmdWord
  din  : List DinItem
deriving DecidableEq, Repr

/-! ### Control state -/

/-- `MODE` (10_state.md R21). -/
inductive Mode
  | shape | witness
deriving DecidableEq, Repr

/-- `PHASE` (10_state.md R22). -/
inductive Phase
  | reset | conf | ready | state | done | digested
deriving DecidableEq, Repr

/-- `FAULT_CODE` (10_state.md R27; 60_exceptions.md R250): codes 0x08 to 0xFF are never taken. -/
inductive FaultCause
  | none | shape | assign | convert | sequence | illegal | unassigned | operand
deriving DecidableEq, Repr

/-! ### Configuration (10_state.md R39; 41_table.md R130) -/

/-- The five logical columns. -/
inductive Column
  | tabTag | tabDense | tabSpread | k | adv
deriving DecidableEq, Repr

/-- The configuration record CONFIGURE writes. -/
structure ConfigRecord where
  columns  : List (CellKind × Column)
  equality : List Column
  lookups  : List ConsKind
  gates    : List ConsKind
deriving DecidableEq, Repr

/-- `TABLE` (10_state.md R40): `empty` or the 2^16 rows. The rows are a function of `TAG_OF` alone (41_table.md R134),
so a loaded table carries none; `tableRow` of Operands.lean is row v (log 10). -/
inductive SpreadTable
  | empty | loaded
deriving DecidableEq, Repr

/-- The parameter `TAG_OF` (00_scope.md R11) as data: the bit length from which the tag is at least 1, and from which
it is 2. Every total function to 0..2 that is non-decreasing in the bit length is one of these. -/
structure TagCuts where
  one : Nat
  two : Nat
deriving DecidableEq, Repr

/-! ### Memory and boundary requests -/

/-- `CELLS` (10_state.md R41). FIXED and ADVICE cells are listed with their values, names strictly falling in the order
of Ops.lean. TABLE cells are written by LOAD only, in one order (41_table.md R133), with values fixed by their names;
`tabCells` says how many of them have been written (log 10). -/
structure Memory where
  cells    : List (CellName × Val)
  tabCells : Nat
deriving DecidableEq, Repr

/-- A boundary request to the proving host (20_memory.md R66). `assignTable n` stands for the first n assign requests
of LOAD, in the order of 41_table.md R133 (log 10). -/
inductive Request
  | allocateColumn (kind : CellKind)
  | enableEquality (col : Column)
  | registerLookup (input : Column) (table : List Column)
  | registerGate (gate : ConsKind)
  | assign (col : Column) (c : CellName) (v : Val)
  | copyEqual (a b : CellName)
  | assignTable (n : Nat)
deriving DecidableEq, Repr

/-! ### The state -/

/-- `BlockState` (10_state.md R20), the input ports (R43) and what the proving host supplies. -/
structure State where
  -- control and status (10_state.md R21 to R32)
  mode      : Mode
  phase     : Phase
  q         : List QEntry
  unsat     : Bool
  halted    : Bool
  faultCode : FaultCause
  faultInfo : CmdWord
  digValid  : Bool
  blk       : Nat
  -- handle register files (10_state.md R33 to R37); `none` is an unwritten entry (R34)
  stateReg  : Vector (Option Path) 8
  ivUsed    : Vector (Option Path) 8
  w         : Vector (Option Path) 64
  dig       : Vector (Option Path) 8
  -- configuration, table, cells, constraint log (10_state.md R39 to R42)
  config    : Option ConfigRecord
  table     : SpreadTable
  mem       : Memory
  cons      : List Constraint
  -- output registers (10_state.md R45, R46)
  dout      : List DoutItem
  hout      : List Path
  -- input pins (10_state.md R43): `cmds` is what the host still presents on cmd_in and din, the head on the pins
  resetIn   : Bool
  modeIn    : Bool
  cmds      : List Presented
  -- the proving host: its coming answers (true = accept; past the end it accepts) and the requests it was sent,
  -- newest first
  hostAnswers : List Bool
  requests    : List Request
  -- parameters TAG_OF and INST, which no step writes
  tagCuts   : TagCuts
  inst      : String
deriving DecidableEq, Repr

/-- Why the machine stops without a next state. None of these is one of the block's own faults, whose entry
(60_exceptions.md R256) is a next state. -/
inductive Fault
  /-- Raised by `step` when `HALTED = 1` and `reset` is low: "the block has no step" (10_state.md R26). Safe. -/
  | halted
  /-- Raised by `record` when the instance's kind is not registered in CONFIG, or for a LOOKUP when the table is empty
  (20_memory.md R71 requires it and gives no effect otherwise; no run reaches it). Safe. -/
  | unregistered (k : ConsKind)
  /-- Raised by an internal operation performed with an operand record of another operation's shape, or with none
  (30_encoding.md R91 gives every operation its record; no run reaches it). Safe. -/
  | noOperandRecord
  /-- Raised by `step` when the head of Q is not the word of an internal operation (30_encoding.md R94; no run reaches
  it). Safe. -/
  | badQueueEntry (w : CmdWord)
deriving DecidableEq, Repr

/-- Instructions with no meaning. -/
inductive Refusal
  /-- Raised by `exec` in an arm that has no meaning yet; no arm of this model is one. Safe. -/
  | notModelled (mnemonic : String)
deriving DecidableEq, Repr

/-- `MODE` as sampled from `mode_in` (10_state.md R21). -/
def Mode.ofPin : Bool → Mode
  | false => .shape
  | true => .witness

/-- The reset state (70_reset_and_hazards.md R281) with `mode_in` at `pin`. The pins and the host's side are at rest:
nothing presented, every request accepted (00_scope.md R13), `TAG_OF` and `INST` at the defaults of R11 and R12. -/
def State.resetWith (pin : Bool) : State where
  mode := .ofPin pin
  phase := .reset
  q := []
  unsat := false
  halted := false
  faultCode := .none
  faultInfo := 0
  digValid := false
  blk := 0
  stateReg := Vector.replicate 8 none
  ivUsed := Vector.replicate 8 none
  w := Vector.replicate 64 none
  dig := Vector.replicate 8 none
  config := none
  table := .empty
  mem := ⟨[], 0⟩
  cons := []
  dout := []
  hout := []
  resetIn := false
  modeIn := pin
  cmds := []
  hostAnswers := []
  requests := []
  tagCuts := ⟨9, 13⟩
  inst := "sha"

/-- The machine right after reset, `mode_in` at 1 (DESIGN CHOICE, log 3: the spec leaves the pin to the host). -/
def State.reset : State := State.resetWith true

end Sys2Proof.Machine
end

