-- ==== Sys2Proof/Machine/Operands.lean ====
section
/-!
DEFINITION. Operand forms: the value functions of the codec (00_scope.md R16; 40_codec.md R123), the rows of the spread
table (41_table.md R134), the names of word bundles and sub-operations (42_gates.md R151), the piece layouts and term
exponents of the rotations (42_gates.md R160, R162), and the text of a cell name (20_memory.md R63).
-/

namespace Sys2Proof.Machine

/-! ### Values: halves, spread, even and odd bits -/

/-- `lo16`, `hi16` (00_scope.md R14). -/
def lo16 (x : Nat) : Nat := x % 2 ^ 16
def hi16 (x : Nat) : Nat := x / 2 ^ 16

/-- The low `n` bits of `v`, bit i moved to bit 2i (00_scope.md R16; 40_codec.md R122). -/
def spreadBits : Nat → Nat → Nat
  | 0, _ => 0
  | n + 1, v => v % 2 + 4 * spreadBits n (v / 2)

/-- `spread16(v)` for 0 <= v < 2^16 (00_scope.md R16). -/
def spread16 (v : Nat) : Nat := spreadBits 16 v

/-- `spread32(x)` for 0 <= x < 2^32 (00_scope.md R16). -/
def spread32 (x : Nat) : Nat := spread16 (lo16 x) + 4 ^ 16 * spread16 (hi16 x)

/-- The bits of `S` at the `n` lowest even positions, packed (00_scope.md R16). -/
def evenBits : Nat → Nat → Nat
  | 0, _ => 0
  | n + 1, S => S % 2 + 2 * evenBits n (S / 4)

/-- `even32`, `odd32` (00_scope.md R16). -/
def even32 (S : Nat) : Nat := evenBits 32 S
def odd32 (S : Nat) : Nat := evenBits 32 (S / 2)

/-- `wv` of a cell's value (00_scope.md R17). -/
def wordOf (n : Nat) : Nat := n % 2 ^ 32

/-- A function of an `Unknown` argument is `Unknown` (00_scope.md R17). -/
def Val.map (f : Nat → Nat) : Val → Val
  | .known n => .known (f n)
  | .unknown => .unknown

/-- The number a value holds, if it is known. -/
def Val.num? : Val → Option Nat
  | .known n => some n
  | .unknown => none

/-- A known number, or `Unknown`. -/
def Val.ofOption : Option Nat → Val
  | some n => .known n
  | none => .unknown

/-! ### Bit lists (40_codec.md R120 to R122), bit 0 first -/

/-- `bits_of(x, n)` for x < 2^n. -/
def bitsOfNat : Nat → Nat → List Bool
  | 0, _ => []
  | n + 1, x => (x % 2 == 1) :: bitsOfNat n (x / 2)

/-- `int_of(bits)`. -/
def intOfBits : List Bool → Nat
  | [] => 0
  | b :: bs => b.toNat + 2 * intOfBits bs

/-- `spread(bits)`: a 0 after every bit. -/
def spreadList : List Bool → List Bool
  | [] => []
  | b :: bs => b :: false :: spreadList bs

/-- `N` of BITS_OF as a number of bits (40_codec.md R120). -/
def widthBits : Width → Nat
  | .w16 => 16
  | .w32 => 32

/-! ### The spread table (41_table.md R133, R134) -/

/-- The bit length of a number. -/
def bitLength (v : Nat) : Nat := if v = 0 then 0 else Nat.log2 v + 1

/-- `TAG_OF(v)` (00_scope.md R11). -/
def tagOf (cuts : TagCuts) (v : Nat) : Nat :=
  if bitLength v < cuts.one then 0 else if bitLength v < cuts.two then 1 else 2

/-- The value of a table cell. -/
def tableVal (cuts : TagCuts) (col : TabCol) (v : Nat) : Nat :=
  match col with
  | .tag => tagOf cuts v
  | .dense => v
  | .spread => spread16 v

/-- Row v of a loaded table, `(TAG_OF(v), v, spread16(v))` for v in 0..65535 and no other row (41_table.md R134). -/
def tableRow (cuts : TagCuts) (v : Nat) : Option (Nat × Nat × Nat) :=
  if v < 65536 then some (tagOf cuts v, v, spread16 v) else none

/-- The place of a table cell in the order LOAD writes them (41_table.md R133): ascending v, then tag, dense, spread. -/
def tabIndex : TabCol → Nat → Nat
  | .tag, v => 3 * v
  | .dense, v => 3 * v + 1
  | .spread, v => 3 * v + 2

/-- The number of TABLE cells (41_table.md R133). -/
def tableCells : Nat := 196608

/-! ### Names -/

/-- The path one segment below another. -/
def Path.sub (p : Path) (g : Seg) : Path := ⟨p.blk, p.segs ++ [g]⟩

/-- The ADVICE cell `p.g`. -/
def Path.cell (p : Path) (g : Seg) : CellName := .adv (p.sub g)

/-- A word bundle's spread as linear terms, `spr(h)` (42_gates.md R151). -/
def spr (h : Path) : List Term := [(1, h.cell .slo), (4 ^ 16, h.cell .shi)]

/-- The kind of a cell, fixed by its name (20_memory.md R63). -/
def CellName.kind : CellName → CellKind
  | .fixK _ => .fixed
  | .fixIv _ => .fixed
  | .tab _ _ => .table
  | .adv _ => .advice

/-- `column_of(c)` (20_memory.md R64; 41_table.md R130). -/
def CellName.column : CellName → Column
  | .fixK _ => .k
  | .fixIv _ => .k
  | .tab .tag _ => .tabTag
  | .tab .dense _ => .tabDense
  | .tab .spread _ => .tabSpread
  | .adv _ => .adv

/-- The cells a constraint names (20_memory.md R70). -/
def Constraint.cells : Constraint → List CellName
  | .lookup t d s _ => [t, d, s]
  | .recomb d lo hi => [d, lo, hi]
  | .lin x ts => x :: ts.map Prod.snd
  | .spreadsum ts _ el eh ol oh => ts.map Prod.snd ++ [el, eh, ol, oh]
  | .modsum ys _ r c => ys ++ [r, c]
  | .carry c _ => [c]
  | .copy a b => [a, b]

/-- The kind of a constraint. -/
def Constraint.kind : Constraint → ConsKind
  | .lookup _ _ _ _ => .lookup
  | .recomb _ _ _ => .recomb
  | .lin _ _ => .lin
  | .spreadsum _ _ _ _ _ _ => .spreadsum
  | .modsum _ _ _ _ => .modsum
  | .carry _ _ => .carry
  | .copy _ _ => .copy

/-! ### Piece layouts and term exponents -/

/-- Width and offset of each piece, p0 first (42_gates.md R160). -/
def pieces : Layout → List (Nat × Nat)
  | .ssig0 => [(3, 0), (4, 3), (11, 7), (14, 18)]
  | .ssig1 => [(10, 0), (7, 10), (2, 17), (13, 19)]
  | .bsig0 => [(2, 0), (11, 2), (9, 13), (10, 22)]
  | .bsig1 => [(6, 0), (5, 6), (14, 11), (7, 25)]

/-- The exponents j of the three terms, one per piece; `none` is a dropped piece (42_gates.md R162). -/
def exponents : Layout → List (List (Option Nat))
  | .ssig0 =>
    [ [some 25, some 28, some 0, some 11],     -- rotr 7
      [some 14, some 17, some 21, some 0],     -- rotr 18
      [none, some 0, some 4, some 15] ]        -- shr 3
  | .ssig1 =>
    [ [some 15, some 25, some 0, some 2],      -- rotr 17
      [some 13, some 23, some 30, some 0],     -- rotr 19
      [none, some 0, some 7, some 9] ]         -- shr 10
  | .bsig0 =>
    [ [some 30, some 0, some 11, some 20],     -- rotr 2
      [some 19, some 21, some 0, some 9],      -- rotr 13
      [some 10, some 12, some 23, some 0] ]    -- rotr 22
  | .bsig1 =>
    [ [some 26, some 0, some 5, some 19],      -- rotr 6
      [some 21, some 27, some 0, some 14],     -- rotr 11
      [some 7, some 13, some 18, some 0] ]     -- rotr 25

/-- The spread cell of piece i of a split under `pfx`, `pfx.r<i>.s` (42_gates.md R161). -/
def pieceSpread (pfx : Path) (i : Nat) : CellName := (pfx.sub (.rIx i)).cell .s

/-- The spread expression of one term, from piece i on (42_gates.md R162): `4^j` times the spread of each piece that is
not dropped. -/
def termExpr (pfx : Path) : Nat → List (Option Nat) → List Term
  | _, [] => []
  | i, some j :: js => (4 ^ j, pieceSpread pfx i) :: termExpr pfx (i + 1) js
  | i, none :: js => termExpr pfx (i + 1) js

/-- The three operands of a σ/Σ extraction over the split under `pfx` (43_functions.md R181 to R184). -/
def rotationOperands (l : Layout) (pfx : Path) : List OperandExpr :=
  (exponents l).map fun js => ⟨termExpr pfx 0 js, 0⟩

/-- `spread32(¬e)` as an operand: `0x5555555555555555 − spr(e)` (43_functions.md R186). -/
def notSpr (e : Path) : OperandExpr :=
  ⟨[(-1, e.cell .slo), (-4 ^ 16, e.cell .shi)], 0x5555555555555555⟩

/-- The carry bound `cmax(n, K)` (42_gates.md R170). -/
def cmax (n K : Nat) : Nat := if K = 0 then n - 1 else n

/-! ### The text of a name (20_memory.md R63; 00_scope.md R18) -/

def Seg.render : Seg → String
  | .d => "d" | .lo => "lo" | .hi => "hi" | .tlo => "tlo" | .thi => "thi" | .slo => "slo" | .shi => "shi"
  | .t => "t" | .s => "s" | .t2 => "t2" | .s2 => "s2"
  | .e => "e" | .o => "o" | .r => "r" | .c => "c"
  | .dc => "dc" | .x => "x" | .p => "p" | .q => "q"
  | .s1 => "s1" | .s0 => "s0" | .add => "add" | .ch => "ch" | .t1 => "t1" | .maj => "maj" | .a => "a"
  | .pIx i => "p" ++ toString i
  | .rIx i => "r" ++ toString i
  | .iv i => "iv" ++ toString i
  | .w i => "w" ++ toString i
  | .dg i => "dg" ++ toString i

def renderSegs : List Seg → String
  | [] => ""
  | g :: gs => "." ++ g.render ++ renderSegs gs

/-- A handle or ADVICE cell name as the dotted text the spec writes. -/
def Path.render (inst : String) (p : Path) : String :=
  inst ++ ".b" ++ toString p.blk ++ renderSegs p.segs

/-- A cell name as the dotted text the spec writes. -/
def CellName.render (inst : String) : CellName → String
  | .fixK t => inst ++ ".k.K" ++ toString t
  | .fixIv i => inst ++ ".k.iv" ++ toString i
  | .tab .tag v => inst ++ ".tab.tag." ++ toString v
  | .tab .dense v => inst ++ ".tab.dense." ++ toString v
  | .tab .spread v => inst ++ ".tab.spread." ++ toString v
  | .adv p => p.render inst

end Sys2Proof.Machine
end

