-- ==== Sys2Proof/Machine/Flags.lean ====
section
/-!
DEFINITION. Field arithmetic, the predicate of every constraint kind (20_memory.md R70), which is what sets `UNSAT`
(R72), and the status outputs (10_state.md R30, R31).
-/

namespace Sys2Proof.Machine

open Sys2Proof

/-- An integer as a field element, in 0..p−1 (00_scope.md R15). It is `x mod p`: the first branch only spares the
reduction where it changes nothing, since p > 2^66 (00_scope.md R10). -/
def red (x : Int) : Nat :=
  if 0 ≤ x ∧ x < 2 ^ 66 then x.toNat else (x % (Config.fieldP : Int)).toNat

/-- The number is a field element, an integer in 0..p−1 (10_state.md R44). -/
def isFieldElem (n : Nat) : Bool := Nat.blt n (2 ^ 66) || decide (n < Config.fieldP)

/-- The integer value of a linear expression over cell values; `none` when a cell has no known value. -/
def sumTerms (rd : CellName → Option Nat) : List Term → Option Int
  | [] => some 0
  | (c, y) :: ts =>
    match rd y, sumTerms rd ts with
    | some v, some r => some (c * (v : Int) + r)
    | _, _ => none

/-- The sum of some cells. -/
def sumCells (rd : CellName → Option Nat) : List CellName → Option Nat
  | [] => some 0
  | y :: ys =>
    match rd y, sumCells rd ys with
    | some v, some r => some (v + r)
    | _, _ => none

/-- `prod_{i=0}^{m} (c − i)` as an integer (42_gates.md R171). -/
def carryProd (c : Int) : Nat → Int
  | 0 => c
  | m + 1 => carryProd c m * (c - ((m + 1 : Nat) : Int))

/-- The predicate of a constraint over cell values (20_memory.md R70), all arithmetic in the field; `none` when a cell
it names has no known value (every function of an `Unknown` argument is `Unknown`, 00_scope.md R17). -/
def Constraint.holds (cuts : TagCuts) (rd : CellName → Option Nat) : Constraint → Option Bool
  | .lookup t d s m =>
    match rd t, rd d, rd s with
    | some vt, some vd, some vs =>
      some (tableRow cuts (red ((m : Int) * vd)) == some (vt, red ((m : Int) * vd), vs))
    | _, _, _ => none
  | .recomb d lo hi =>
    match rd d, rd lo, rd hi with
    | some vd, some vlo, some vhi => some (red vd == red ((vlo : Int) + 2 ^ 16 * vhi))
    | _, _, _ => none
  | .lin x ts =>
    match rd x, sumTerms rd ts with
    | some vx, some sum => some (red vx == red sum)
    | _, _ => none
  | .spreadsum ts k0 el eh ol oh =>
    match sumTerms rd ts, rd el, rd eh, rd ol, rd oh with
    | some sum, some vel, some veh, some vol, some voh =>
      some (red (sum + k0) == red ((vel : Int) + 4 ^ 16 * veh + 2 * (vol + 4 ^ 16 * voh)))
    | _, _, _, _, _ => none
  | .modsum ys k r c =>
    match sumCells rd ys, rd r, rd c with
    | some sum, some vr, some vc => some (red ((sum : Int) + k) == red ((vr : Int) + 2 ^ 32 * vc))
    | _, _, _ => none
  | .carry c m =>
    match rd c with
    | some vc => some (red (carryProd vc m) == 0)
    | none => none
  | .copy a b =>
    match rd a, rd b with
    | some va, some vb => some (red va == red vb)
    | _, _ => none

/-! ### Status outputs -/

/-- `MODE` as a bit (10_state.md R21). -/
def Mode.bit : Mode → Nat
  | .shape => 0
  | .witness => 1

/-- `PHASE` as its 3-bit code (10_state.md R22). -/
def Phase.code : Phase → Nat
  | .reset => 0
  | .conf => 1
  | .ready => 2
  | .state => 3
  | .done => 4
  | .digested => 5

/-- `FAULT_CODE` as its 8-bit code (60_exceptions.md R250). -/
def FaultCause.code : FaultCause → Nat
  | .none => 0x00
  | .shape => 0x01
  | .assign => 0x02
  | .convert => 0x03
  | .sequence => 0x04
  | .illegal => 0x05
  | .unassigned => 0x06
  | .operand => 0x07

/-- `BUSY` (10_state.md R23). -/
def State.busy (s : State) : Bool := !s.q.isEmpty

/-- `STATUS` on `status_out` (10_state.md R30); bits 31:16 are 0. -/
def State.status (s : State) : BitVec 32 :=
  BitVec.ofNat 32 (s.unsat.toNat + s.halted.toNat * 2 + s.mode.bit * 4 + s.busy.toNat * 8
    + s.phase.code * 16 + s.digValid.toNat * 128 + s.faultCode.code * 256)

/-- `faultinfo_out` (10_state.md R31). -/
def State.faultinfoOut (s : State) : BitVec 32 := s.faultInfo

/-- `block_out`, `B mod 2^32` (10_state.md R31). -/
def State.blockOut (s : State) : BitVec 32 := BitVec.ofNat 32 s.blk

end Sys2Proof.Machine
end

