-- ==== Sys2Proof/Machine/Ops.lean ====
section
/-!
DEFINITION. The named operations every meaning is built from: the cell store (10_state.md R41; 20_memory.md R63 to
R65), boundary requests (R66, R67), fault entry (60_exceptions.md R256), recording and evaluating a constraint instance
(20_memory.md R71, R72), handle registers (10_state.md R34), the sequencing check (60_exceptions.md R262), accepting a
command and performing a queue entry (46_facade.md R230; 10_state.md R24), and reset (70_reset_and_hazards.md R280).
-/

namespace Sys2Proof.Machine

open Sys2Proof

/-! ### The cell store -/

/-- Where a segment stands in the order of names: roughly the order in which operations write them, so that in the
falling order of the store the cells just written come first (log 9). -/
def Seg.rank : Seg → Nat
  | .d => 0 | .lo => 1 | .hi => 2 | .tlo => 3 | .slo => 4 | .thi => 5 | .shi => 6
  | .t => 7 | .s => 8 | .r => 20 | .c => 21
  | .s1 => 22 | .ch => 23 | .t1 => 24 | .s0 => 25 | .add => 26 | .maj => 27 | .t2 => 28 | .s2 => 29
  | .a => 30 | .e => 31 | .o => 32 | .dc => 33 | .x => 34 | .p => 35 | .q => 36
  | .pIx _ => 37 | .iv _ => 38 | .w _ => 39 | .rIx _ => 40 | .dg _ => 41

/-- The number in an indexed segment. -/
def Seg.index : Seg → Nat
  | .pIx i => i
  | .rIx i => i
  | .iv i => i
  | .w i => i
  | .dg i => i
  | _ => 0

def segsKey : List Seg → List Nat
  | [] => []
  | g :: gs => g.rank :: g.index :: segsKey gs

/-- A name as a key; different names have different keys (Laws/Memory.lean). -/
def CellName.key : CellName → List Nat
  | .tab col v => [0, tabIndex col v]
  | .fixK t => [1, t]
  | .fixIv i => [2, i]
  | .adv p => 3 :: p.blk :: segsKey p.segs

/-- Lexicographic order of keys. -/
def keyCmp : List Nat → List Nat → Ordering
  | [], [] => .eq
  | [], _ :: _ => .lt
  | _ :: _, [] => .gt
  | a :: as, b :: bs => if Nat.blt a b then .lt else if Nat.blt b a then .gt else keyCmp as bs

/-- The value listed under a key; the list falls, so the search stops below the key's place. -/
def findCell (k : List Nat) : List (CellName × Val) → Option Val
  | [] => none
  | (c, v) :: rest =>
    match keyCmp k c.key with
    | .eq => some v
    | .gt => none
    | .lt => findCell k rest

/-- The list with `c` holding `v`, in its place. -/
def insertCell (c : CellName) (v : Val) : List (CellName × Val) → List (CellName × Val)
  | [] => [(c, v)]
  | (c', v') :: rest =>
    match keyCmp c.key c'.key with
    | .eq => (c, v) :: rest
    | .gt => (c, v) :: (c', v') :: rest
    | .lt => (c', v') :: insertCell c v rest

/-- The value of a cell, or nothing where the name has no entry (10_state.md R41). A TABLE cell has one when LOAD has
written that far (log 10). -/
def Memory.get (m : Memory) (cuts : TagCuts) : CellName → Option Val
  | .tab col v =>
    if Nat.blt v 65536 && Nat.blt (tabIndex col v) m.tabCells then some (.known (tableVal cuts col v)) else none
  | c => findCell c.key m.cells

/-- The store with a FIXED or ADVICE cell written. -/
def Memory.insert (m : Memory) (c : CellName) (v : Val) : Memory := { m with cells := insertCell c v m.cells }

/-- The names fall strictly. -/
def cellsFalling : List (CellName × Val) → Bool
  | [] => true
  | [_] => true
  | (c, _) :: (c', v') :: rest => (keyCmp c.key c'.key == .gt) && cellsFalling ((c', v') :: rest)

/-- The canonical form: names strictly falling, no TABLE cell listed, at most 3 * 2^16 TABLE cells written. -/
def Memory.wf (m : Memory) : Bool :=
  cellsFalling m.cells && (m.cells.all (fun e => e.1.kind != .table) && Nat.ble m.tabCells tableCells)

/-- The value of cell c in a state, or nothing where c is not in `CELLS`. -/
def State.cell (s : State) (c : CellName) : Option Val := s.mem.get s.tagCuts c

/-- The known number a cell holds. -/
def State.num (s : State) (c : CellName) : Option Nat :=
  match s.cell c with
  | some (.known n) => some n
  | _ => none

/-! ### Computations, faults -/

/-- Why a computation ended early: a fault of the block was raised and its entry performed, or the machine stops. -/
inductive Stop
  | raised
  | stuck (f : Fault)
deriving DecidableEq, Repr

/-- A piece of an operation: it reads and changes the state and gives a result, or ends the operation. -/
abbrev M := EStateM Stop State

/-- Fault entry (60_exceptions.md R256): everything not named is unchanged. -/
def faultEntry (cause : FaultCause) (cmd : CmdWord) (s : State) : State :=
  { s with halted := true, faultCode := cause, faultInfo := cmd, q := [], dout := [], hout := [] }

/-- `raise F_<cause>(cmd)`: the entry is performed and the operation ends (60_exceptions.md R255, R256). -/
def raise {α : Type} (cause : FaultCause) (cmd : CmdWord) : M α :=
  fun s => .error .raised (faultEntry cause cmd s)

/-- The machine stops under a name of its own. -/
def stuck {α : Type} (f : Fault) : M α := fun s => .error (.stuck f) s

/-- What a computation makes of a step: after a fault of the block the step ends in the state after its entry. -/
def toOutcome {α : Type} (m : M α) (s : State) : Host.Outcome State Fault Refusal :=
  match m s with
  | .ok _ t => .next t
  | .error .raised t => .next t
  | .error (.stuck f) _ => .fault f

/-! ### Boundary requests -/

/-- Issue a boundary request and take the host's answer; a refusal raises `cause` (20_memory.md R66, R67). -/
def request (rq : Request) (cause : FaultCause) (cmd : CmdWord) : M Unit := fun s =>
  match s.hostAnswers with
  | [] => .ok () { s with requests := rq :: s.requests }
  | true :: rest => .ok () { s with requests := rq :: s.requests, hostAnswers := rest }
  | false :: rest => raise cause cmd { s with requests := rq :: s.requests, hostAnswers := rest }

/-! ### Cells -/

/-- `cell(c)`, that is `MemRead(c, 1)` (20_memory.md R65). -/
def memRead (cmd : CmdWord) (c : CellName) : M Val := fun s =>
  match s.cell c with
  | some v => .ok v s
  | none => raise .unassigned cmd s

/-- A value as a witness function computes with it: `Unknown` in SHAPE mode (42_gates.md R150). -/
def witnessVal (mode : Mode) (v : Val) : Val :=
  match mode with
  | .witness => v
  | .shape => .unknown

/-- The value a write leaves in a cell: `Unknown` in an ADVICE cell in SHAPE mode (20_memory.md R64). -/
def storedVal (mode : Mode) (c : CellName) (v : Val) : Val :=
  match c.kind, mode with
  | .advice, .shape => .unknown
  | _, _ => v

/-- `cell(c) <- v`, that is `MemWrite(c, 1, v)` (20_memory.md R64), by any command but LOAD, whose writes are
`loadTable`: existing name, then kind, then the host's refusal (60_exceptions.md R255). The request carries `v`,
in SHAPE mode too, where an ADVICE cell then holds `Unknown`. -/
def memWrite (cmd : CmdWord) (configuring : Bool) (c : CellName) (v : Val) : M Unit := fun s =>
  match s.cell c with
  | some _ => raise .assign cmd s
  | none =>
    if c.kind == .table || (c.kind == .fixed && !configuring) then raise .assign cmd s
    else
      match request (.assign c.column c v) .assign cmd s with
      | .ok _ t => .ok () { t with mem := t.mem.insert c (storedVal s.mode c v) }
      | .error e t => .error e t

/-- `cell(c) <- v` by an internal operation. -/
def assign (cmd : CmdWord) (c : CellName) (v : Val) : M Unit := memWrite cmd false c v

/-! ### Constraint instances -/

/-- The instance's kind is registered in CONFIG, and for a LOOKUP the table is loaded (20_memory.md R71). COPY is
registered by the equality set: both columns must be in it (42_gates.md R176). -/
def State.registered (s : State) (k : Constraint) : Bool :=
  match s.config with
  | none => false
  | some cfg =>
    match k with
    | .lookup _ _ _ _ => cfg.lookups.contains .lookup && (s.table == .loaded)
    | .copy a b => cfg.equality.contains a.column && cfg.equality.contains b.column
    | k => cfg.gates.contains k.kind

/-- `UNSAT` after an instance is recorded (20_memory.md R72): in WITNESS mode a false predicate sets it. -/
def State.unsatAfter (s : State) (k : Constraint) : Bool :=
  match s.mode with
  | .shape => s.unsat
  | .witness => s.unsat || (k.holds s.tagCuts s.num == some false)

/-- `record(k, args)` (20_memory.md R71, R72). -/
def record (cmd : CmdWord) (k : Constraint) : M Unit := fun s =>
  if k.cells.all (fun c => (s.cell c).isSome) then
    if s.registered k then .ok () { s with cons := s.cons ++ [k], unsat := s.unsatAfter k }
    else stuck (.unregistered k.kind) s
  else raise .unassigned cmd s

/-! ### Handle registers -/

/-- Entry i of a handle register file; nothing where it is unwritten (10_state.md R34). -/
def handle? {n : Nat} (file : Vector (Option Path) n) (i : Nat) : Option Path :=
  match file[i]? with
  | some h => h
  | none => none

/-- Read a handle register entry (10_state.md R34). -/
def readHandle {n : Nat} (cmd : CmdWord) (file : State → Vector (Option Path) n) (i : Nat) : M Path := fun s =>
  match handle? (file s) i with
  | some h => .ok h s
  | none => raise .unassigned cmd s

/-! ### Reading values -/

/-- `int(cell(y))` summed with coefficients (42_gates.md R164): the sum, or nothing where a cell is `Unknown`. -/
def readTerms (cmd : CmdWord) : List Term → M (Option Int)
  | [] => pure (some 0)
  | (c, y) :: ts => do
    let v ← memRead cmd y
    let r ← readTerms cmd ts
    match v, r with
    | .known n, some r => pure (some (c * (n : Int) + r))
    | _, _ => pure none

/-- `wv(y.d)` summed over word bundles (42_gates.md R169). -/
def readWords (cmd : CmdWord) : List Path → M (Option Nat)
  | [] => pure (some 0)
  | y :: ys => do
    let v ← memRead cmd (y.cell .d)
    let r ← readWords cmd ys
    match v, r with
    | .known n, some r => pure (some (wordOf n + r))
    | _, _ => pure none

/-- The values of some cells, as `DOUT` reports them (10_state.md R45). -/
def readAll (cmd : CmdWord) : List CellName → M (List Val)
  | [] => pure []
  | c :: cs => do
    let v ← memRead cmd c
    let vs ← readAll cmd cs
    pure (v :: vs)

/-- Entries i of a handle register file, in the given order. -/
def readHandles {n : Nat} (cmd : CmdWord) (file : State → Vector (Option Path) n) : List Nat → M (List Path)
  | [] => pure []
  | i :: is => do
    let h ← readHandle cmd file i
    let hs ← readHandles cmd file is
    pure (h :: hs)

/-! ### Commands and the queue -/

/-- The sequencing check (60_exceptions.md R262). -/
def sequenceOk (i : Instr) (s : State) : Bool :=
  match i with
  | .configure => s.phase == .reset
  | .load => s.phase == .conf
  | .initIv | .initFrom .data =>
    s.phase == .ready || s.phase == .state || s.phase == .done || s.phase == .digested
  | .initFrom .digest =>
    (s.phase == .ready || s.phase == .state || s.phase == .done || s.phase == .digested) && s.digValid
  | .compress => s.phase == .state
  | .digest => s.phase == .done
  | _ => true

/-- A check that raises `cause` when it fails. -/
def require (ok : Bool) (cause : FaultCause) (cmd : CmdWord) : M Unit :=
  if ok then pure () else raise cause cmd

/-- Make the sequencing check of a command (60_exceptions.md R254, R262). -/
def checkSequence (i : Instr) : M Unit := fun s => require (sequenceOk i s) .sequence (encode i) s

/-- The item is a field element (10_state.md R44). -/
def DinItem.isElem : DinItem → Bool
  | .elem n => isFieldElem n
  | .bits _ => false

/-- The value an accepted item gives the command: ignored in SHAPE mode (10_state.md R44). -/
def dinVal (mode : Mode) : DinItem → Val
  | .elem n =>
    match mode with
    | .witness => .known n
    | .shape => .unknown
  | .bits _ => .unknown

/-- Accept the command on `cmd_in`: it leaves the pins and its `din` is what the command works on (46_facade.md R230;
log 1). -/
def runCommand (s : State) (body : List DinItem → M Unit) : Host.Outcome State Fault Refusal :=
  match s.cmds with
  | [] => toOutcome (body []) s
  | c :: rest => toOutcome (body c.din) { s with cmds := rest }

/-- Perform the head of Q: it is removed and its operand record is what the operation works on (10_state.md R24). -/
def runEntry (s : State) (body : OpRec → M Unit) : Host.Outcome State Fault Refusal :=
  match s.q with
  | [] => toOutcome (body .none) s
  | e :: rest => toOutcome (body e.opnd) { s with q := rest }

/-- A command's completion actions are performed by the step that leaves `Q = []` (46_facade.md R230). -/
def whenDrained (completion : M Unit) : M Unit := fun s =>
  if s.busy then .ok () s else completion s

/-- Write `DOUT` and `HOUT`. -/
def setOutputs (d : List DoutItem) (h : List Path) : M Unit := fun s => .ok () { s with dout := d, hout := h }

/-! ### Reset -/

/-- A reset (70_reset_and_hazards.md R280, R281): every component of `BlockState` takes its reset value, `MODE` is
sampled from `mode_in`, and `reset` is low again: the step is a whole pulse (log 2). What belongs to the host (its
commands, answers, trace and the parameters) is not the block's to change. -/
def resetBlock (s : State) : State :=
  { State.resetWith s.modeIn with
    cmds := s.cmds, hostAnswers := s.hostAnswers, requests := s.requests, tagCuts := s.tagCuts, inst := s.inst }

end Sys2Proof.Machine
end

