-- ==== Sys2Proof/Machine/Codec.lean ====
section
/-!
DEFINITION. The codec commands BITS_OF, INT_OF and SPREAD (40_codec.md). They write the outputs only: no cell, no
constraint instance, no host request, and `PHASE` stays (R120 to R122, R124). `DOUT` is the codec result (10_state.md R45)
and `HOUT` is `[]`, as after every command but the INIT commands, COMPRESS and DIGEST (R46; log 15).
-/

namespace Sys2Proof.Machine

open Sys2Proof

/-- A completed codec command: the result on `DOUT`, nothing on `HOUT` (10_state.md R45, R46; log 15). -/
def setDout (d : DoutItem) : M Unit := setOutputs [d] []

/-- What BITS_OF makes of its item's value (40_codec.md R120). In SHAPE mode the value is ignored (10_state.md R44): it is
`Unknown`, so are its N bits (00_scope.md R17), and no value is found too wide (log 16). -/
def opBitsOf (n : Width) : Val → M Unit
  | .known x => do
    require (Nat.blt x (2 ^ widthBits n)) .convert (encode (.bitsOf n))
    setDout (.bits (bitsOfNat (widthBits n) x))
  | .unknown => setDout (.unknownBits (widthBits n))

/-- BITS_OF (40_codec.md R120). -/
def execBitsOf (n : Width) (s : State) : Host.Outcome State Fault Refusal :=
  runCommand s fun din =>
    match din with
    | [.elem x] => do
      require (isFieldElem x) .operand (encode (.bitsOf n))
      let st ← get
      opBitsOf n (dinVal st.mode (.elem x))
    | _ => raise .operand (encode (.bitsOf n))

/-- INT_OF (40_codec.md R121). Its item is a bit list, which no rule ignores in SHAPE mode (log 16). -/
def execIntOf (s : State) : Host.Outcome State Fault Refusal :=
  runCommand s fun din =>
    match din with
    | [.bits b] => do
      require (Nat.ble b.length 64) .convert (encode .intOf)
      setDout (.val (.known (intOfBits b)))
    | _ => raise .operand (encode .intOf)

/-- SPREAD (40_codec.md R122). Its item is a bit list, which no rule ignores in SHAPE mode (log 16). -/
def execSpread (s : State) : Host.Outcome State Fault Refusal :=
  runCommand s fun din =>
    match din with
    | [.bits b] => setDout (.bits (spreadList b))
    | _ => raise .operand (encode .spread)

end Sys2Proof.Machine
end

