-- ==== Sys2Proof/Machine/Gates.lean ====
section
/-!
DEFINITION. The primitive operations: LOOKUP and RANGE (41_table.md R136, R140) and the gate library (42_gates.md).
`op…` is the operation as another operation calls it, on its operands; `exec…` performs it as the head of Q, on that
entry's operand record. Each raises with its own word (60_exceptions.md R253).
-/

namespace Sys2Proof.Machine

open Sys2Proof

/-- The scaled input of a LOOKUP, `int(2^e *F cell(d))`, `Unknown` in SHAPE mode, where it is not read
(41_table.md R136). -/
def lookupInput (cmd : CmdWord) (e : Nat) (d : CellName) : M Val := fun s =>
  match s.mode with
  | .shape => .ok .unknown s
  | .witness => ((fun v => v.map fun n => red (((2 ^ e : Nat) : Int) * n)) <$> memRead cmd d) s

/-- LOOKUP (41_table.md R136): the honest tag and spread of the input, then the instance. -/
def opLookup (e : Nat) (d t s : CellName) : M Unit := do
  let cmd := encode (.lookup e)
  let st ← get
  let y ← lookupInput cmd e d
  assign cmd t (y.map fun y => tagOf st.tagCuts (y % 2 ^ 16))
  assign cmd s (y.map fun y => spread16 (y % 2 ^ 16))
  record cmd (.lookup t d s (2 ^ e))

/-- RANGE (41_table.md R140): the second query is scaled so that it bounds d by 2^w. -/
def opRange (w : Nat) (d : CellName) (pfx : Path) : M Unit := do
  opLookup 0 d (pfx.cell .t) (pfx.cell .s)
  if w < 16 then opLookup (16 - w) d (pfx.cell .t2) (pfx.cell .s2) else pure ()

/-- RECOMB (42_gates.md R155). -/
def opRecomb (d lo hi : CellName) : M Unit := record (encode .recomb) (.recomb d lo hi)

/-- WORD (42_gates.md R152): the seven cells of a word bundle and its three instances. The number `x` of which the halves
are computed is `Unknown` in SHAPE mode, also where `v` is known. -/
def opWord (pfx : Path) (v : Val) : M Unit := do
  let cmd := encode .word
  let st ← get
  let x := witnessVal st.mode v
  assign cmd (pfx.cell .d) v
  assign cmd (pfx.cell .lo) (x.map lo16)
  assign cmd (pfx.cell .hi) (x.map hi16)
  opRecomb (pfx.cell .d) (pfx.cell .lo) (pfx.cell .hi)
  opLookup 0 (pfx.cell .lo) (pfx.cell .tlo) (pfx.cell .slo)
  opLookup 0 (pfx.cell .hi) (pfx.cell .thi) (pfx.cell .shi)

/-- The pieces of a split from piece i on (42_gates.md R161): each is written and range-checked. -/
def opPieces (cmd : CmdWord) (xv : Val) (pfx : Path) : Nat → List (Nat × Nat) → M Unit
  | _, [] => pure ()
  | i, (width, offset) :: rest => do
    assign cmd (pfx.cell (.pIx i)) (xv.map fun x => x / 2 ^ offset % 2 ^ width)
    opRange width (pfx.cell (.pIx i)) (pfx.sub (.rIx i))
    opPieces cmd xv pfx (i + 1) rest

/-- The terms of a split's LIN instance, from piece i on: piece i weighted by 2^offset (42_gates.md R161). -/
def pieceTerms (pfx : Path) : Nat → List (Nat × Nat) → List Term
  | _, [] => []
  | i, (_, offset) :: rest => (2 ^ offset, pfx.cell (.pIx i)) :: pieceTerms pfx (i + 1) rest

/-- DECOMP (42_gates.md R161). -/
def opDecomp (l : Layout) (x pfx : Path) : M Unit := do
  let cmd := encode (.decomp l)
  let v ← memRead cmd (x.cell .d)
  opPieces cmd (v.map wordOf) pfx 0 (pieces l)
  record cmd (.lin (x.cell .d) (pieceTerms pfx 0 (pieces l)))

/-- `S mod 4^32` (42_gates.md R164). -/
def spreadSumMod (S : Int) : Nat := (S % (4 ^ 32 : Int)).toNat

/-- EXTRACT (42_gates.md R164): the outputs are the bundles `pfx.e` (even bits) and `pfx.o` (odd bits). -/
def opExtract (k : Nat) (ops : List OperandExpr) (pfx : Path) : M Unit := do
  let cmd := encode (.extract k)
  require (ops.length == k) .operand cmd
  let terms := ops.flatMap (·.terms)
  let k0 := (ops.map (·.const)).sum
  let st ← get
  let sum ← readTerms cmd terms
  let S := witnessVal st.mode (Val.ofOption (sum.map fun r => spreadSumMod (r + k0)))
  opWord (pfx.sub .e) (S.map even32)
  opWord (pfx.sub .o) (S.map odd32)
  record cmd (.spreadsum terms k0 ((pfx.sub .e).cell .slo) ((pfx.sub .e).cell .shi)
    ((pfx.sub .o).cell .slo) ((pfx.sub .o).cell .shi))

/-- CARRY (42_gates.md R171). -/
def opCarry (m : Nat) (c : CellName) : M Unit := record (encode (.carry m)) (.carry c m)

/-- MODADD (42_gates.md R169): the result is the bundle `pfx.r`, the carry the cell `pfx.c`. -/
def opModadd (n : Nat) (ys : List Path) (k : Nat) (pfx : Path) : M Unit := do
  let cmd := encode (.modadd n)
  require (ys.length == n) .operand cmd
  let words ← readWords cmd ys
  let sum := Val.ofOption (words.map (· + k))
  opWord (pfx.sub .r) (sum.map (· % 2 ^ 32))
  assign cmd (pfx.cell .c) (sum.map (· / 2 ^ 32))
  record cmd (.modsum (ys.map (·.cell .d)) k ((pfx.sub .r).cell .d) (pfx.cell .c))
  opCarry (cmax n k) (pfx.cell .c)

/-- COPY (42_gates.md R176): a TABLE cell has no equality (`F_SHAPE`), then the request, then the instance (log 14). -/
def opCopy (a b : CellName) : M Unit := do
  let cmd := encode .copy
  require (a.kind != .table && b.kind != .table) .shape cmd
  request (.copyEqual a b) .assign cmd
  record cmd (.copy a b)

/-! ### Performed as the head of Q -/

/-- WORD (42_gates.md R152) on its operand record `{pfx, v}`. -/
def execWord (s : State) : Host.Outcome State Fault Refusal :=
  runEntry s fun r =>
    match r with
    | .word pfx v => opWord pfx v
    | _ => stuck .noOperandRecord

/-- RECOMB (42_gates.md R155) on `{d, lo, hi}`. -/
def execRecomb (s : State) : Host.Outcome State Fault Refusal :=
  runEntry s fun r =>
    match r with
    | .recomb d lo hi => opRecomb d lo hi
    | _ => stuck .noOperandRecord

/-- LOOKUP (41_table.md R136) on `{d, t, s}`. -/
def execLookup (e : Nat) (s : State) : Host.Outcome State Fault Refusal :=
  runEntry s fun r =>
    match r with
    | .lookup d t sp => opLookup e d t sp
    | _ => stuck .noOperandRecord

/-- RANGE (41_table.md R140) on `{d, pfx}`. -/
def execRange (w : Nat) (s : State) : Host.Outcome State Fault Refusal :=
  runEntry s fun r =>
    match r with
    | .range d pfx => opRange w d pfx
    | _ => stuck .noOperandRecord

/-- DECOMP (42_gates.md R161) on `{x, pfx}`. -/
def execDecomp (l : Layout) (s : State) : Host.Outcome State Fault Refusal :=
  runEntry s fun r =>
    match r with
    | .decomp x pfx => opDecomp l x pfx
    | _ => stuck .noOperandRecord

/-- EXTRACT (42_gates.md R164) on `{ops, pfx}`. -/
def execExtract (k : Nat) (s : State) : Host.Outcome State Fault Refusal :=
  runEntry s fun r =>
    match r with
    | .extract ops pfx => opExtract k ops pfx
    | _ => stuck .noOperandRecord

/-- MODADD (42_gates.md R169) on `{ys, K, pfx}`. -/
def execModadd (n : Nat) (s : State) : Host.Outcome State Fault Refusal :=
  runEntry s fun r =>
    match r with
    | .modadd ys k pfx => opModadd n ys k pfx
    | _ => stuck .noOperandRecord

/-- CARRY (42_gates.md R171) on `{c}`. -/
def execCarry (m : Nat) (s : State) : Host.Outcome State Fault Refusal :=
  runEntry s fun r =>
    match r with
    | .carry c => opCarry m c
    | _ => stuck .noOperandRecord

/-- COPY (42_gates.md R176) on `{a, b}`. -/
def execCopy (s : State) : Host.Outcome State Fault Refusal :=
  runEntry s fun r =>
    match r with
    | .copy a b => opCopy a b
    | _ => stuck .noOperandRecord

end Sys2Proof.Machine
end

