-- ==== Sys2Proof/Machine/Functions.lean ====
section
/-!
DEFINITION. The SHA-256 functions as operations on word bundles (43_functions.md R181 to R187). The result of a σ or Σ
operation is the bundle `pfx.x.e`, of CH the two bundles `pfx.p.o` and `pfx.q.o`, of MAJ the bundle `pfx.x.o`.
-/

namespace Sys2Proof.Machine

open Sys2Proof

/-- What R181 to R184 have in common (43_functions.md R185): split, then extract the sum of the three terms. -/
def opRotations (l : Layout) (x pfx : Path) : M Unit := do
  opDecomp l x (pfx.sub .dc)
  opExtract 3 (rotationOperands l (pfx.sub .dc)) (pfx.sub .x)

/-- The result bundle of a σ or Σ operation. -/
def sigmaResult (pfx : Path) : Path := (pfx.sub .x).sub .e

/-- CH (43_functions.md R186). -/
def opCh (e f g pfx : Path) : M Unit := do
  opExtract 2 [⟨spr e, 0⟩, ⟨spr f, 0⟩] (pfx.sub .p)
  opExtract 2 [notSpr e, ⟨spr g, 0⟩] (pfx.sub .q)

/-- The two result bundles P and Q of CH. -/
def chP (pfx : Path) : Path := (pfx.sub .p).sub .o
def chQ (pfx : Path) : Path := (pfx.sub .q).sub .o

/-- MAJ (43_functions.md R187). -/
def opMaj (a b c pfx : Path) : M Unit :=
  opExtract 3 [⟨spr a, 0⟩, ⟨spr b, 0⟩, ⟨spr c, 0⟩] (pfx.sub .x)

/-- The result bundle of MAJ. -/
def majResult (pfx : Path) : Path := (pfx.sub .x).sub .o

/-! ### Performed as the head of Q -/

/-- SSIG0, σ0 (43_functions.md R181) on `{x, pfx}`. -/
def execSsig0 (s : State) : Host.Outcome State Fault Refusal :=
  runEntry s fun r =>
    match r with
    | .sigma x pfx => opRotations .ssig0 x pfx
    | _ => stuck .noOperandRecord

/-- SSIG1, σ1 (43_functions.md R182) on `{x, pfx}`. -/
def execSsig1 (s : State) : Host.Outcome State Fault Refusal :=
  runEntry s fun r =>
    match r with
    | .sigma x pfx => opRotations .ssig1 x pfx
    | _ => stuck .noOperandRecord

/-- BSIG0, Σ0 (43_functions.md R183) on `{x, pfx}`. -/
def execBsig0 (s : State) : Host.Outcome State Fault Refusal :=
  runEntry s fun r =>
    match r with
    | .sigma x pfx => opRotations .bsig0 x pfx
    | _ => stuck .noOperandRecord

/-- BSIG1, Σ1 (43_functions.md R184) on `{x, pfx}`. -/
def execBsig1 (s : State) : Host.Outcome State Fault Refusal :=
  runEntry s fun r =>
    match r with
    | .sigma x pfx => opRotations .bsig1 x pfx
    | _ => stuck .noOperandRecord

/-- CH (43_functions.md R186) on `{e, f, g, pfx}`. -/
def execCh (s : State) : Host.Outcome State Fault Refusal :=
  runEntry s fun r =>
    match r with
    | .triple e f g pfx => opCh e f g pfx
    | _ => stuck .noOperandRecord

/-- MAJ (43_functions.md R187) on `{a, b, c, pfx}`. -/
def execMaj (s : State) : Host.Outcome State Fault Refusal :=
  runEntry s fun r =>
    match r with
    | .triple a b c pfx => opMaj a b c pfx
    | _ => stuck .noOperandRecord

end Sys2Proof.Machine
end

