-- ==== Sys2Proof/Machine/Compression.lean ====
section
/-!
DEFINITION. ROUND (45_compression.md R211), with the completion of COMPRESS (46_facade.md R235) in the step that
performs its last entry.
-/

namespace Sys2Proof.Machine

open Sys2Proof

/-- `RND`, the path of round t (45_compression.md R210). -/
def roundPath (blk t : Nat) : Path := ⟨blk, [.rIx t]⟩

/-- `STATE[0..7] <- (a, …, h)`. -/
def setStateReg (a b c d e f g h : Path) : M Unit := modify fun s =>
  { s with stateReg := #v[some a, some b, some c, some d, some e, some f, some g, some h] }

/-- ROUND (45_compression.md R211). -/
def opRound (t : Nat) : M Unit := do
  let cmd := encode (.round t)
  let st ← get
  let rnd := roundPath st.blk t
  let a ← readHandle cmd State.stateReg 0
  let b ← readHandle cmd State.stateReg 1
  let c ← readHandle cmd State.stateReg 2
  let d ← readHandle cmd State.stateReg 3
  let e ← readHandle cmd State.stateReg 4
  let f ← readHandle cmd State.stateReg 5
  let g ← readHandle cmd State.stateReg 6
  let h ← readHandle cmd State.stateReg 7
  opRotations .bsig1 e (rnd.sub .s1)
  opCh e f g (rnd.sub .ch)
  let wt ← readHandle cmd State.w t
  opModadd 5 [h, sigmaResult (rnd.sub .s1), chP (rnd.sub .ch), chQ (rnd.sub .ch), wt] (kRom t) (rnd.sub .t1)
  opRotations .bsig0 a (rnd.sub .s0)
  opMaj a b c (rnd.sub .maj)
  opModadd 2 [sigmaResult (rnd.sub .s0), majResult (rnd.sub .maj)] 0 (rnd.sub .t2)
  opModadd 2 [(rnd.sub .t1).sub .r, (rnd.sub .t2).sub .r] 0 (rnd.sub .a)
  opModadd 2 [d, (rnd.sub .t1).sub .r] 0 (rnd.sub .e)
  setStateReg ((rnd.sub .a).sub .r) a b c ((rnd.sub .e).sub .r) e f g

/-- The completion of COMPRESS (46_facade.md R235): the terminal state on `DOUT`, its handles and the names of the 16
input words on `HOUT`. -/
def finishCompress (cmd : CmdWord) : M Unit := do
  let hs ← readHandles cmd State.stateReg (List.range 8)
  let vs ← readAll cmd (hs.map (·.cell .d))
  let ws ← readHandles cmd State.w (List.range 16)
  setOutputs (vs.map .val) (hs ++ ws.map (·.sub .d))

/-- ROUND t, whose operands are "none but the field". -/
def execRound (t : Nat) (s : State) : Host.Outcome State Fault Refusal :=
  runEntry s fun _ => do
    opRound t
    whenDrained (finishCompress (encode (.round t)))

end Sys2Proof.Machine
end

