-- ==== Sys2Proof/Machine/Facade.lean ====
section
/-!
DEFINITION. The facade commands INIT_IV, INIT_FROM, COMPRESS and DIGEST (46_facade.md R231, R233, R235, R238) and the
level-1 operations INIT_WORD and DIGEST_WORD (R232, R239) with the completions they perform (R231, R233, R240).
-/

namespace Sys2Proof.Machine

open Sys2Proof

/-! ### Acceptance -/

/-- The accept actions of the INIT commands (46_facade.md R231, R233): a new block, nothing written in its register
files, and the eight INIT_WORD entries queued. -/
def beginBlock (entries : List QEntry) : M Unit := modify fun s =>
  { s with
    blk := s.blk + 1
    stateReg := Vector.replicate 8 none
    ivUsed := Vector.replicate 8 none
    w := Vector.replicate 64 none
    phase := .state
    q := entries }

/-- INIT_WORD i for i = 0..7 with no operand record (30_encoding.md R99). -/
def initEntries (src : WordSource) : List QEntry :=
  (List.range 8).map fun i => ⟨encode (.initWord src i), .none⟩

/-- Entries that carry one item each, `first` the index of the first (30_encoding.md R99). -/
def itemEntries (op : Nat → Instr) : Nat → List Val → List QEntry
  | _, [] => []
  | i, v :: vs => ⟨encode (op i), .value v⟩ :: itemEntries op (i + 1) vs

/-- INIT_IV (46_facade.md R231). -/
def execInitIv (s : State) : Host.Outcome State Fault Refusal :=
  runCommand s fun din => do
    checkSequence .initIv
    require din.isEmpty .operand (encode .initIv)
    beginBlock (initEntries .iv)

/-- The `din` shape of INIT_FROM (46_facade.md R233): 8 field elements for `data`, nothing for `digest`. -/
def initDinOk : InitSource → List DinItem → Bool
  | .data, din => din.length == 8 && din.all DinItem.isElem
  | .digest, din => din.isEmpty

/-- INIT_FROM (46_facade.md R233). -/
def execInitFrom (src : InitSource) (s : State) : Host.Outcome State Fault Refusal :=
  runCommand s fun din => do
    checkSequence (.initFrom src)
    require (initDinOk src din) .operand (encode (.initFrom src))
    let st ← get
    beginBlock (match src with
      | .data => itemEntries (.initWord .data) 0 (din.map (dinVal st.mode))
      | .digest => initEntries .digest)

/-- The queue of COMPRESS (30_encoding.md R99): SCHED_IN 0..15 with its item, SCHED 16..63, ROUND 0..63. -/
def compressEntries (vs : List Val) : List QEntry :=
  itemEntries .schedIn 0 vs
    ++ (List.range' 16 48).map (fun t => ⟨encode (.sched t), .none⟩)
    ++ (List.range 64).map (fun t => ⟨encode (.round t), .none⟩)

/-- COMPRESS (46_facade.md R235). -/
def execCompress (s : State) : Host.Outcome State Fault Refusal :=
  runCommand s fun din => do
    checkSequence .compress
    require (din.length == 16 && din.all DinItem.isElem) .operand (encode .compress)
    modify fun s => { s with phase := .done, q := compressEntries (din.map (dinVal s.mode)) }

/-- The queue of DIGEST (30_encoding.md R99). -/
def digestEntries : List QEntry := (List.range 8).map fun i => ⟨encode (.digestWord i), .none⟩

/-- DIGEST (46_facade.md R238). -/
def execDigest (s : State) : Host.Outcome State Fault Refusal :=
  runCommand s fun din => do
    checkSequence .digest
    require din.isEmpty .operand (encode .digest)
    modify fun s => { s with phase := .digested, q := digestEntries }

/-! ### INIT_WORD -/

/-- `BLK.iv<i>` (46_facade.md R232). -/
def ivPath (blk i : Nat) : Path := ⟨blk, [.iv i]⟩

/-- `STATE[i] <- h; IV_USED[i] <- h` (46_facade.md R232). -/
def setInitial (i : Nat) (h : Path) : M Unit := modify fun s =>
  { s with stateReg := s.stateReg.setIfInBounds i (some h), ivUsed := s.ivUsed.setIfInBounds i (some h) }

/-- The bundle of initial state word i under `h`, by source (46_facade.md R232): the IV constant pinned to its FIXED
cell, the item of the operand record, or the previous digest word with a copy of it. -/
def initBundle (cmd : CmdWord) (h : Path) (i : Nat) (r : OpRec) : WordSource → M Unit
  | .iv => do
    opWord h (.known (ivRom i))
    opCopy (h.cell .d) (.fixIv i)
  | .data =>
    match r with
    | .value v => opWord h v
    | _ => stuck .noOperandRecord
  | .digest => do
    let g ← readHandle cmd State.dig i
    let v ← memRead cmd (g.cell .d)
    opWord h v
    opCopy (h.cell .d) (g.cell .d)

/-- INIT_WORD (46_facade.md R232); `r` is its operand record, used by SEL = 1 only. -/
def opInitWord (src : WordSource) (i : Nat) (r : OpRec) : M Unit := do
  let st ← get
  initBundle (encode (.initWord src i)) (ivPath st.blk i) i r src
  setInitial i (ivPath st.blk i)

/-- The completion of INIT_IV and INIT_FROM (46_facade.md R231, R233). -/
def finishInit (cmd : CmdWord) : M Unit := do
  let hs ← readHandles cmd State.stateReg (List.range 8)
  setOutputs [] hs

/-- INIT_WORD i (46_facade.md R232), with the completion of its command when it is the last entry. -/
def execInitWord (src : WordSource) (i : Nat) (s : State) : Host.Outcome State Fault Refusal :=
  runEntry s fun r => do
    opInitWord src i r
    whenDrained (finishInit (encode (.initWord src i)))

/-! ### DIGEST_WORD -/

/-- `BLK.dg<i>` (46_facade.md R239). -/
def digestPath (blk i : Nat) : Path := ⟨blk, [.dg i]⟩

/-- `DIG[i] <- h`. -/
def setDig (i : Nat) (h : Path) : M Unit := modify fun s => { s with dig := s.dig.setIfInBounds i (some h) }

/-- DIGEST_WORD (46_facade.md R239). -/
def opDigestWord (i : Nat) : M Unit := do
  let cmd := encode (.digestWord i)
  let st ← get
  let a ← readHandle cmd State.stateReg i
  let b ← readHandle cmd State.ivUsed i
  opModadd 2 [a, b] 0 (digestPath st.blk i)
  setDig i ((digestPath st.blk i).sub .r)

/-- The completion of DIGEST (46_facade.md R240). -/
def finishDigest (cmd : CmdWord) : M Unit := do
  let hs ← readHandles cmd State.dig (List.range 8)
  let vs ← readAll cmd (hs.map (·.cell .d))
  modify fun s => { s with digValid := true }
  setOutputs (vs.map .val) (hs.map (·.sub .d))

/-- DIGEST_WORD i, whose operands are "none but the field", with the completion of DIGEST when it is the last entry. -/
def execDigestWord (i : Nat) (s : State) : Host.Outcome State Fault Refusal :=
  runEntry s fun _ => do
    opDigestWord i
    whenDrained (finishDigest (encode (.digestWord i)))

end Sys2Proof.Machine
end

