-- ==== Sys2Proof/Machine/Schedule.lean ====
section
/-!
DEFINITION. The message schedule: SCHED_IN and SCHED (44_schedule.md R200, R202).
-/

namespace Sys2Proof.Machine

open Sys2Proof

/-- The path of word t, `BLK.w<t>` (44_schedule.md R200, R202). -/
def wordPath (blk t : Nat) : Path := ⟨blk, [.w t]⟩

/-- `W[t] <- h`. -/
def setW (t : Nat) (h : Path) : M Unit := modify fun s => { s with w := s.w.setIfInBounds t (some h) }

/-- SCHED_IN (44_schedule.md R200). -/
def opSchedIn (t : Nat) (v : Val) : M Unit := do
  let st ← get
  opWord (wordPath st.blk t) v
  setW t (wordPath st.blk t)

/-- SCHED (44_schedule.md R202), handles read where the rule names them. -/
def opSched (t : Nat) : M Unit := do
  let cmd := encode (.sched t)
  let st ← get
  let wt := wordPath st.blk t
  let w2 ← readHandle cmd State.w (t - 2)
  opRotations .ssig1 w2 (wt.sub .s1)
  let w15 ← readHandle cmd State.w (t - 15)
  opRotations .ssig0 w15 (wt.sub .s0)
  let w7 ← readHandle cmd State.w (t - 7)
  let w16 ← readHandle cmd State.w (t - 16)
  opModadd 4 [sigmaResult (wt.sub .s1), w7, sigmaResult (wt.sub .s0), w16] 0 (wt.sub .add)
  setW t ((wt.sub .add).sub .r)

/-- SCHED_IN t on its operand record `{v}`. It is never the last entry of its command (30_encoding.md R99). -/
def execSchedIn (t : Nat) (s : State) : Host.Outcome State Fault Refusal :=
  runEntry s fun r =>
    match r with
    | .value v => opSchedIn t v
    | _ => stuck .noOperandRecord

/-- SCHED t, whose operands are "none but the field". It is never the last entry of its command (30_encoding.md R99). -/
def execSched (t : Nat) (s : State) : Host.Outcome State Fault Refusal :=
  runEntry s fun _ => opSched t

end Sys2Proof.Machine
end

