-- ==== Sys2Proof/Machine/Setup.lean ====
section
/-!
DEFINITION. CONFIGURE and LOAD (41_table.md R130, R133). Both do all their work in the accepting step.
-/

namespace Sys2Proof.Machine

open Sys2Proof

/-- Computations one after another. -/
def seqAll : List (M Unit) → M Unit
  | [] => pure ()
  | m :: ms => do
    m
    seqAll ms

/-- The record CONFIGURE writes (41_table.md R130). -/
def stdConfig : ConfigRecord where
  columns := [(.table, .tabTag), (.table, .tabDense), (.table, .tabSpread), (.fixed, .k), (.advice, .adv)]
  equality := [.adv, .k]
  lookups := [.lookup]
  gates := [.recomb, .lin, .spreadsum, .modsum, .carry]

/-- The configuration requests in the order of 41_table.md R130. -/
def configRequests : List Request :=
  stdConfig.columns.map (fun kc => .allocateColumn kc.1)
    ++ stdConfig.equality.map .enableEquality
    ++ [.registerLookup .adv [.tabTag, .tabDense, .tabSpread]]
    ++ stdConfig.gates.map .registerGate

/-- CONFIGURE (41_table.md R130). -/
def execConfigure (s : State) : Host.Outcome State Fault Refusal :=
  runCommand s fun din => do
    let cmd := encode .configure
    checkSequence .configure
    require din.isEmpty .operand cmd
    seqAll (configRequests.map fun rq => request rq .shape cmd)
    modify fun s => { s with config := some stdConfig }
    seqAll ((List.range 64).map fun t => memWrite cmd true (.fixK t) (.known (kRom t)))
    seqAll ((List.range 8).map fun i => memWrite cmd true (.fixIv i) (.known (ivRom i)))
    modify fun s => { s with phase := .conf }
    setOutputs [] []

/-- Of the next `n` requests: how many the host accepts before it refuses one, whether it refuses one, and the answers
left. Past the end of its answers it accepts (00_scope.md R13). -/
def takeAnswers : List Bool → Nat → Nat × Bool × List Bool
  | as, 0 => (0, false, as)
  | [], n + 1 => (n + 1, false, [])
  | true :: as, n + 1 =>
    let (k, refused, rest) := takeAnswers as n
    (k + 1, refused, rest)
  | false :: as, _ + 1 => (0, true, as)

/-- The 3 * 2^16 writes of LOAD (41_table.md R133) at once: `INST.tab.tag.<v>`, `.dense.<v>`, `.spread.<v>` for
ascending v, each with its assign request, up to the first refusal (`F_ASSIGN`, with the cells before it kept). The same
cell by cell is `loadLoop` of LoadLoop.lean. A TABLE cell that exists is a second write
(20_memory.md R64). -/
def loadTable (cmd : CmdWord) : M Unit := fun s =>
  if s.mem.tabCells == 0 then
    match takeAnswers s.hostAnswers tableCells with
    | (n, false, rest) =>
      .ok () { s with mem := { s.mem with tabCells := n }, hostAnswers := rest,
                      requests := .assignTable n :: s.requests }
    | (n, true, rest) =>
      raise .assign cmd { s with mem := { s.mem with tabCells := n }, hostAnswers := rest,
                                 requests := .assignTable (n + 1) :: s.requests }
  else raise .assign cmd s

/-- LOAD (41_table.md R133). -/
def execLoad (s : State) : Host.Outcome State Fault Refusal :=
  runCommand s fun din => do
    let cmd := encode .load
    checkSequence .load
    require din.isEmpty .operand cmd
    loadTable cmd
    modify fun s => { s with table := .loaded, phase := .ready }
    setOutputs [] []

end Sys2Proof.Machine
end

