-- ==== Sys2Proof/Machine/Dispatch.lean ====
section
/-! DEFINITION. One arm per instruction (30_encoding.md R106). -/

namespace Sys2Proof.Machine

open Sys2Proof

def exec (i : Instr) (s : State) : Host.Outcome State Fault Refusal :=
  match i with
  -- facade commands
  | .configure => Sys2Proof.Machine.execConfigure s
  | .load => Sys2Proof.Machine.execLoad s
  | .initIv => Sys2Proof.Machine.execInitIv s
  | .initFrom src => Sys2Proof.Machine.execInitFrom src s
  | .compress => Sys2Proof.Machine.execCompress s
  | .digest => Sys2Proof.Machine.execDigest s
  -- codec commands
  | .bitsOf n => Sys2Proof.Machine.execBitsOf n s
  | .intOf => Sys2Proof.Machine.execIntOf s
  | .spread => Sys2Proof.Machine.execSpread s
  -- level-1 operations
  | .schedIn t => Sys2Proof.Machine.execSchedIn t s
  | .sched t => Sys2Proof.Machine.execSched t s
  | .round t => Sys2Proof.Machine.execRound t s
  | .initWord src j => Sys2Proof.Machine.execInitWord src j s
  | .digestWord j => Sys2Proof.Machine.execDigestWord j s
  -- function operations
  | .ssig0 => Sys2Proof.Machine.execSsig0 s
  | .ssig1 => Sys2Proof.Machine.execSsig1 s
  | .bsig0 => Sys2Proof.Machine.execBsig0 s
  | .bsig1 => Sys2Proof.Machine.execBsig1 s
  | .ch => Sys2Proof.Machine.execCh s
  | .maj => Sys2Proof.Machine.execMaj s
  -- primitive operations
  | .word => Sys2Proof.Machine.execWord s
  | .recomb => Sys2Proof.Machine.execRecomb s
  | .lookup e => Sys2Proof.Machine.execLookup e s
  | .range w => Sys2Proof.Machine.execRange w s
  | .decomp layout => Sys2Proof.Machine.execDecomp layout s
  | .extract k => Sys2Proof.Machine.execExtract k s
  | .modadd n => Sys2Proof.Machine.execModadd n s
  | .carry m => Sys2Proof.Machine.execCarry m s
  | .copy => Sys2Proof.Machine.execCopy s

end Sys2Proof.Machine
end

