-- ==== Sys2Proof/Machine/Fetch.lean ====
section
/-!
DEFINITION. What the next step performs: a reset, the head of Q, or the command on `cmd_in`
(70_reset_and_hazards.md R280, R282, R288; 10_state.md R24, R26; 46_facade.md R230).
-/

namespace Sys2Proof.Machine

open Sys2Proof

/-- What the next step does. -/
inductive Fetched
  | run (i : Instr)     -- perform this instruction
  | next (s : State)    -- nothing is performed: a reset, an illegal word, or idle
  | stop (f : Fault)    -- there is no step

/-- The word on `cmd_in` is no command of the host: `F_ILLEGAL` with that word (30_encoding.md R93 to R95). -/
def illegalCommand (w : CmdWord) (rest : List Presented) (s : State) : State :=
  faultEntry .illegal w { s with cmds := rest }

/-- `reset` goes before everything; a halted block has no step; a queued operation goes before a command on `cmd_in`,
which waits unsampled while BUSY; with neither the block is idle and keeps its state (60_exceptions.md R272). -/
def fetch (s : State) : Fetched :=
  if s.resetIn then .next (resetBlock s)
  else if s.halted then .stop .halted
  else
    match s.q with
    | e :: _ =>
      match decode e.word with
      | .ok i => if i.fromHost then .stop (.badQueueEntry e.word) else .run i
      | .error _ => .stop (.badQueueEntry e.word)
    | [] =>
      match s.cmds with
      | [] => .next s
      | c :: rest =>
        match decode c.word with
        | .ok i => if i.fromHost then .run i else .next (illegalCommand c.word rest s)
        | .error _ => .next (illegalCommand c.word rest s)

/-! ### A lone instruction, for `withFetchWord` (log 19, log 20) -/

/-- A `din` of zeros of the shape a command takes (30_encoding.md R96, R97). -/
def zeroDin : Instr → List DinItem
  | .initFrom .data => List.replicate 8 (.elem 0)
  | .compress => List.replicate 16 (.elem 0)
  | .bitsOf _ => [.elem 0]
  | .intOf | .spread => [.bits []]
  | _ => []

/-- A path under the current block for an operation performed alone. -/
def lonePath (s : State) (g : Seg) : Path := ⟨s.blk, [g]⟩

/-- An operand record of the operation's shape (30_encoding.md R91): existing operands stand for the initial state
words, results go under names of their own, numbers are zeros. -/
def loneRecord (s : State) : Instr → OpRec
  | .schedIn _ => .value (.known 0)
  | .initWord .data _ => .value (.known 0)
  | .ssig0 | .ssig1 | .bsig0 | .bsig1 => .sigma (lonePath s (.iv 0)) (lonePath s .x)
  | .ch | .maj => .triple (lonePath s (.iv 0)) (lonePath s (.iv 1)) (lonePath s (.iv 2)) (lonePath s .x)
  | .word => .word (lonePath s .x) (.known 0)
  | .recomb =>
    .recomb ((lonePath s (.iv 0)).cell .d) ((lonePath s (.iv 0)).cell .lo) ((lonePath s (.iv 0)).cell .hi)
  | .lookup _ => .lookup ((lonePath s (.iv 0)).cell .lo) ((lonePath s .x).cell .t) ((lonePath s .x).cell .s)
  | .range _ => .range ((lonePath s (.iv 0)).cell .lo) (lonePath s .x)
  | .decomp _ => .decomp (lonePath s (.iv 0)) (lonePath s .x)
  | .extract k => .extract ((List.range k).map fun i => ⟨spr (lonePath s (.iv i)), 0⟩) (lonePath s .x)
  | .modadd n => .modadd ((List.range n).map fun i => lonePath s (.iv i)) 0 (lonePath s .x)
  | .carry _ => .carry ((lonePath s (.iv 0)).cell .lo)
  | .copy => .copy ((lonePath s (.iv 0)).cell .d) (.fixIv 0)
  | _ => .none

/-- The state whose next step performs the instruction of word `w`: on `cmd_in` when the host may present it (and when
it is illegal), else as the head of Q. The sequencer performs an internal operation only in a block that is configured
and whose table is loaded (60_exceptions.md R262), so those two are set with it (log 20). -/
def placeWord (s : State) (w : CmdWord) : State :=
  match decode w with
  | .ok i =>
    if i.fromHost then
      { s with resetIn := false, halted := false, q := [], cmds := ⟨w, zeroDin i⟩ :: s.cmds }
    else
      { s with
        resetIn := false, halted := false, q := ⟨w, loneRecord s i⟩ :: s.q, config := some stdConfig, table := .loaded }
  | .error _ => { s with resetIn := false, halted := false, q := [], cmds := ⟨w, []⟩ :: s.cmds }

end Sys2Proof.Machine
end

