-- ==== Sys2Proof/Machine/Step.lean ====
section
/-!
DEFINITION. One step of the block: one accepted command or one queued operation (70_reset_and_hazards.md R296), or a
reset, or nothing when it is idle.
-/

namespace Sys2Proof.Machine

open Sys2Proof

def step (s : State) : Host.Outcome State Fault Refusal :=
  match fetch s with
  | .run i => exec i s
  | .next t => .next t
  | .stop f => .fault f

/-- `s` with the instruction of a table word placed so that the very next step performs it (log 20). -/
def State.withFetchWord (s : State) (nbits w : Nat) : State := placeWord s (BitVec.ofNat 32 (w % 2 ^ nbits))

end Sys2Proof.Machine
end

