-- ==== Sys2Proof/Machine/LoadLoop.lean ====
section
/-!
DEFINITION. LOAD's 3 * 2^16 writes one by one, as the pseudocode of 41_table.md R133 makes them, and the boundary requests
a run-length request stands for: what `loadTable` of Setup.lean is claimed to equal (log 10). No meaning uses them.
-/

namespace Sys2Proof.Machine

open Sys2Proof

/-- The k-th TABLE cell in the order of 41_table.md R133. -/
def tabCellAt (k : Nat) : CellName :=
  match k % 3 with
  | 0 => .tab .tag (k / 3)
  | 1 => .tab .dense (k / 3)
  | _ => .tab .spread (k / 3)

/-- Its assign request (20_memory.md R64, R66). -/
def tabRequest (cuts : TagCuts) (k : Nat) : Request :=
  match k % 3 with
  | 0 => .assign .tabTag (.tab .tag (k / 3)) (.known (tagOf cuts (k / 3)))
  | 1 => .assign .tabDense (.tab .dense (k / 3)) (.known (k / 3))
  | _ => .assign .tabSpread (.tab .spread (k / 3)) (.known (spread16 (k / 3)))

/-- `MemWrite` of the k-th TABLE cell while LOAD runs (20_memory.md R64). -/
def tableWrite (cmd : CmdWord) (k : Nat) : M Unit := fun s =>
  match s.cell (tabCellAt k) with
  | some _ => raise .assign cmd s
  | none =>
    match request (tabRequest s.tagCuts k) .assign cmd s with
    | .ok _ t => .ok () { t with mem := { t.mem with tabCells := t.mem.tabCells + 1 } }
    | .error e t => .error e t

/-- The first `n` writes. -/
def loadLoop (cmd : CmdWord) : Nat → M Unit
  | 0 => pure ()
  | n + 1 => do
    loadLoop cmd n
    tableWrite cmd n

/-- The requests a trace entry stands for, newest first. -/
def Request.expand (cuts : TagCuts) : Request → List Request
  | .assignTable n => ((List.range n).map (tabRequest cuts)).reverse
  | rq => [rq]

/-- The state with every entry of the request trace written out. -/
def State.expanded (s : State) : State := { s with requests := s.requests.flatMap (Request.expand s.tagCuts) }

end Sys2Proof.Machine
end

