-- ==== Sys2Proof/Machine/Recorded.lean ====
section
/-!
DEFINITION. The cells each operation writes and the constraint instances it records, in order, as the pseudocode of its
rule lists them, and the values of linear expressions: the terms claims about operations are stated in. No meaning uses
them.
-/

namespace Sys2Proof.Machine

open Sys2Proof

/-- The value of a linear expression when cell `c` holds `f c` (42_gates.md R164). -/
def termsValue (f : CellName → Nat) (ts : List Term) : Int := (ts.map fun t => t.1 * (f t.2 : Int)).sum

/-- `S` of EXTRACT: every term and the sum of the constants (42_gates.md R164). -/
def opsValue (f : CellName → Nat) (ops : List OperandExpr) : Int :=
  termsValue f (ops.flatMap (·.terms)) + (ops.map (·.const)).sum

/-! ### Cells written -/

/-- RANGE (41_table.md R140): two cells, four for a width below 16. -/
def rangeCells (w : Nat) (p : Path) : List CellName :=
  [p.cell .t, p.cell .s] ++ if w < 16 then [p.cell .t2, p.cell .s2] else []

/-- WORD (42_gates.md R152). -/
def wordCells (p : Path) : List CellName :=
  [p.cell .d, p.cell .lo, p.cell .hi, p.cell .tlo, p.cell .slo, p.cell .thi, p.cell .shi]

/-- The pieces of a split from piece i on, each with its range check (42_gates.md R161). -/
def pieceCells (p : Path) : Nat → List (Nat × Nat) → List CellName
  | _, [] => []
  | i, (width, _) :: rest => p.cell (.pIx i) :: rangeCells width (p.sub (.rIx i)) ++ pieceCells p (i + 1) rest

/-- DECOMP (42_gates.md R161). -/
def decompCells (l : Layout) (p : Path) : List CellName := pieceCells p 0 (pieces l)

/-- EXTRACT (42_gates.md R164). -/
def extractCells (p : Path) : List CellName := wordCells (p.sub .e) ++ wordCells (p.sub .o)

/-- MODADD (42_gates.md R169). -/
def modaddCells (p : Path) : List CellName := wordCells (p.sub .r) ++ [p.cell .c]

/-- SSIG0, SSIG1, BSIG0, BSIG1 (43_functions.md R181 to R184). -/
def sigmaCells (l : Layout) (p : Path) : List CellName := decompCells l (p.sub .dc) ++ extractCells (p.sub .x)

/-- CH (43_functions.md R186). -/
def chCells (p : Path) : List CellName := extractCells (p.sub .p) ++ extractCells (p.sub .q)

/-- MAJ (43_functions.md R187). -/
def majCells (p : Path) : List CellName := extractCells (p.sub .x)

/-- SCHED under the path of its word (44_schedule.md R202). -/
def schedCells (p : Path) : List CellName :=
  sigmaCells .ssig1 (p.sub .s1) ++ sigmaCells .ssig0 (p.sub .s0) ++ modaddCells (p.sub .add)

/-- ROUND under the path of the round (45_compression.md R210, R211). -/
def roundCells (p : Path) : List CellName :=
  sigmaCells .bsig1 (p.sub .s1) ++ chCells (p.sub .ch) ++ modaddCells (p.sub .t1) ++ sigmaCells .bsig0 (p.sub .s0)
    ++ majCells (p.sub .maj) ++ modaddCells (p.sub .t2) ++ modaddCells (p.sub .a) ++ modaddCells (p.sub .e)

/-! ### Instances recorded -/

/-- RANGE (41_table.md R140): one instance, two for a width below 16. -/
def rangeCons (w : Nat) (d : CellName) (p : Path) : List Constraint :=
  .lookup (p.cell .t) d (p.cell .s) 1
    :: if w < 16 then [.lookup (p.cell .t2) d (p.cell .s2) (2 ^ (16 - w))] else []

/-- WORD (42_gates.md R152). -/
def wordCons (p : Path) : List Constraint :=
  [.recomb (p.cell .d) (p.cell .lo) (p.cell .hi), .lookup (p.cell .tlo) (p.cell .lo) (p.cell .slo) 1,
    .lookup (p.cell .thi) (p.cell .hi) (p.cell .shi) 1]

/-- The range checks of a split, from piece i on (42_gates.md R161). -/
def pieceCons (p : Path) : Nat → List (Nat × Nat) → List Constraint
  | _, [] => []
  | i, (width, _) :: rest => rangeCons width (p.cell (.pIx i)) (p.sub (.rIx i)) ++ pieceCons p (i + 1) rest

/-- DECOMP (42_gates.md R161). -/
def decompCons (l : Layout) (x p : Path) : List Constraint :=
  pieceCons p 0 (pieces l) ++ [.lin (x.cell .d) (pieceTerms p 0 (pieces l))]

/-- EXTRACT (42_gates.md R164). -/
def extractCons (ops : List OperandExpr) (p : Path) : List Constraint :=
  wordCons (p.sub .e) ++ wordCons (p.sub .o)
    ++ [.spreadsum (ops.flatMap (·.terms)) (ops.map (·.const)).sum ((p.sub .e).cell .slo) ((p.sub .e).cell .shi)
      ((p.sub .o).cell .slo) ((p.sub .o).cell .shi)]

/-- MODADD (42_gates.md R169). -/
def modaddCons (ys : List Path) (k : Nat) (p : Path) : List Constraint :=
  wordCons (p.sub .r)
    ++ [.modsum (ys.map (·.cell .d)) k ((p.sub .r).cell .d) (p.cell .c), .carry (p.cell .c) (cmax ys.length k)]

/-- SSIG0, SSIG1, BSIG0, BSIG1 (43_functions.md R181 to R184). -/
def sigmaCons (l : Layout) (x p : Path) : List Constraint :=
  decompCons l x (p.sub .dc) ++ extractCons (rotationOperands l (p.sub .dc)) (p.sub .x)

/-- The operands of CH's two extractions (43_functions.md R186). -/
def chOperandsP (e f : Path) : List OperandExpr := [⟨spr e, 0⟩, ⟨spr f, 0⟩]
def chOperandsQ (e g : Path) : List OperandExpr := [notSpr e, ⟨spr g, 0⟩]

/-- CH (43_functions.md R186). -/
def chCons (e f g p : Path) : List Constraint :=
  extractCons (chOperandsP e f) (p.sub .p) ++ extractCons (chOperandsQ e g) (p.sub .q)

/-- MAJ (43_functions.md R187). -/
def majCons (a b c p : Path) : List Constraint := extractCons [⟨spr a, 0⟩, ⟨spr b, 0⟩, ⟨spr c, 0⟩] (p.sub .x)

/-- SCHED t over the words t−2, t−7, t−15, t−16 (44_schedule.md R202), `p` the path of word t. -/
def schedCons (w2 w7 w15 w16 p : Path) : List Constraint :=
  sigmaCons .ssig1 w2 (p.sub .s1) ++ sigmaCons .ssig0 w15 (p.sub .s0)
    ++ modaddCons [sigmaResult (p.sub .s1), w7, sigmaResult (p.sub .s0), w16] 0 (p.sub .add)

/-- The eight handles of the running state (10_state.md R33). -/
structure Handles where
  a : Path
  b : Path
  c : Path
  d : Path
  e : Path
  f : Path
  g : Path
  h : Path
deriving DecidableEq, Repr

/-- ROUND t on the state handles `s` and the schedule word `w` (45_compression.md R211), `p` the path of the round. -/
def roundCons (t : Nat) (s : Handles) (w p : Path) : List Constraint :=
  sigmaCons .bsig1 s.e (p.sub .s1) ++ chCons s.e s.f s.g (p.sub .ch)
    ++ modaddCons [s.h, sigmaResult (p.sub .s1), chP (p.sub .ch), chQ (p.sub .ch), w] (kRom t) (p.sub .t1)
    ++ sigmaCons .bsig0 s.a (p.sub .s0) ++ majCons s.a s.b s.c (p.sub .maj)
    ++ modaddCons [sigmaResult (p.sub .s0), majResult (p.sub .maj)] 0 (p.sub .t2)
    ++ modaddCons [(p.sub .t1).sub .r, (p.sub .t2).sub .r] 0 (p.sub .a)
    ++ modaddCons [s.d, (p.sub .t1).sub .r] 0 (p.sub .e)

/-- The handles ROUND leaves: six move, a and e are new (45_compression.md R211). -/
def Handles.next (s : Handles) (p : Path) : Handles where
  a := (p.sub .a).sub .r
  b := s.a
  c := s.b
  d := s.c
  e := (p.sub .e).sub .r
  f := s.e
  g := s.f
  h := s.g

/-- The register file that holds these handles. -/
def Handles.toFile (s : Handles) : Vector (Option Path) 8 :=
  #v[some s.a, some s.b, some s.c, some s.d, some s.e, some s.f, some s.g, some s.h]

/-- The eight handles, a first. -/
def Handles.toList (s : Handles) : List Path := [s.a, s.b, s.c, s.d, s.e, s.f, s.g, s.h]

/-- INIT_WORD i (46_facade.md R232): the word's instances and, for `iv` and `digest`, the copy; `g` is `DIG[i]`. -/
def initWordCons (h : Path) (i : Nat) (g : Path) : WordSource → List Constraint
  | .iv => wordCons h ++ [.copy (h.cell .d) (.fixIv i)]
  | .data => wordCons h
  | .digest => wordCons h ++ [.copy (h.cell .d) (g.cell .d)]

/-! ### A whole block -/

/-- `W[t]` after the schedule of block `b` (44_schedule.md R200, R202). -/
def wordHandle (b t : Nat) : Path := if t < 16 then wordPath b t else ((wordPath b t).sub .add).sub .r

/-- The handles of the initial state of block `b` (46_facade.md R232). -/
def initHandles (b : Nat) : Handles :=
  ⟨ivPath b 0, ivPath b 1, ivPath b 2, ivPath b 3, ivPath b 4, ivPath b 5, ivPath b 6, ivPath b 7⟩

/-- The handles in `STATE` after the first `n` rounds of block `b` (45_compression.md R211, R215). -/
def stateHandles (b : Nat) : Nat → Handles
  | 0 => initHandles b
  | n + 1 => (stateHandles b n).next (roundPath b n)

/-- `DIG[i]` after the digest of block `b` (46_facade.md R239). -/
def digestHandle (b i : Nat) : Path := (digestPath b i).sub .r

/-- Every instance SCHED_IN 0..15 and SCHED 16..63 record for block `b` (44_schedule.md R200, R202). -/
def scheduleCons (b : Nat) : List Constraint :=
  ((List.range 16).flatMap fun t => wordCons (wordPath b t))
    ++ ((List.range' 16 48).flatMap fun t =>
      schedCons (wordHandle b (t - 2)) (wordHandle b (t - 7)) (wordHandle b (t - 15)) (wordHandle b (t - 16))
        (wordPath b t))

/-- Every instance one `INIT_*`, `COMPRESS`, `DIGEST` sequence records for block `b` (46_facade.md R234, R242); `g i` is
`DIG[i]` before it, named for the source `digest` only. -/
def blockCons (b : Nat) (src : WordSource) (g : Nat → Path) : List Constraint :=
  ((List.range 8).flatMap fun i => initWordCons (ivPath b i) i (g i) src)
    ++ scheduleCons b
    ++ ((List.range 64).flatMap fun t => roundCons t (stateHandles b t) (wordHandle b t) (roundPath b t))
    ++ ((List.range 8).flatMap fun i =>
      modaddCons [(stateHandles b 64).toList.getD i (ivPath b i), ivPath b i] 0 (digestPath b i))

end Sys2Proof.Machine
end

