-- ==== Sys2Proof/Machine/Sha256.lean ====
section
/-!
DEFINITION. The SHA-256 functions on 32-bit words as the spec states them (00_scope.md R15; 43_functions.md R180;
44_schedule.md R201; 45_compression.md R212; 46_facade.md R234, R239): what the block's operations are claimed to
compute. No meaning uses them; claims are stated with them.
-/

namespace Sys2Proof.Machine

open Sys2Proof

/-- `rotr(x, r)` for 0 < r < 32 (00_scope.md R15). -/
def rotr (x : Word32) (r : Nat) : Word32 := (x >>> r) ||| (x <<< (32 - r))

/-- `shr(x, r)` (00_scope.md R15). -/
def shr (x : Word32) (r : Nat) : Word32 := x >>> r

/-- σ0, σ1, Σ0, Σ1 (43_functions.md R180). -/
def sigma : Layout → Word32 → Word32
  | .ssig0, x => rotr x 7 ^^^ rotr x 18 ^^^ shr x 3
  | .ssig1, x => rotr x 17 ^^^ rotr x 19 ^^^ shr x 10
  | .bsig0, x => rotr x 2 ^^^ rotr x 13 ^^^ rotr x 22
  | .bsig1, x => rotr x 6 ^^^ rotr x 11 ^^^ rotr x 25

/-- Ch (43_functions.md R180). -/
def chWord (e f g : Word32) : Word32 := (e &&& f) ^^^ (~~~e &&& g)

/-- Maj (43_functions.md R180). -/
def majWord (a b c : Word32) : Word32 := (a &&& b) ^^^ (a &&& c) ^^^ (b &&& c)

/-- The running state a..h (10_state.md R33). -/
structure ShaState where
  a : Word32
  b : Word32
  c : Word32
  d : Word32
  e : Word32
  f : Word32
  g : Word32
  h : Word32
deriving DecidableEq, Repr

/-- T1 and T2 of a round with round constant `k` and schedule word `w` (45_compression.md R212). -/
def roundT1 (k w : Word32) (s : ShaState) : Word32 := s.h + sigma .bsig1 s.e + chWord s.e s.f s.g + k + w
def roundT2 (s : ShaState) : Word32 := sigma .bsig0 s.a + majWord s.a s.b s.c

/-- One round (45_compression.md R212, R213). -/
def shaRound (k w : Word32) (s : ShaState) : ShaState where
  a := roundT1 k w s + roundT2 s
  b := s.a
  c := s.b
  d := s.c
  e := s.d + roundT1 k w s
  f := s.e
  g := s.f
  h := s.g

/-- `W[t]` for t >= 16 from the words before it (44_schedule.md R201). -/
def nextWord (ws : List Word32) (t : Nat) : Word32 :=
  sigma .ssig1 (ws.getD (t - 2) 0) + ws.getD (t - 7) 0 + sigma .ssig0 (ws.getD (t - 15) 0) + ws.getD (t - 16) 0

/-- The first words of the schedule, extended by `n` computed words (44_schedule.md R201). -/
def extendSchedule : Nat → List Word32 → List Word32
  | 0, ws => ws
  | n + 1, ws => extendSchedule n (ws ++ [nextWord ws ws.length])

/-- The 64 schedule words of a block of 16 (44_schedule.md R201). -/
def schedule (block : List Word32) : List Word32 := extendSchedule 48 block

/-- The first `n` rounds, t ascending (45_compression.md R215). -/
def shaRounds (ws : List Word32) : Nat → ShaState → ShaState
  | 0, s => s
  | n + 1, s => shaRound (BitVec.ofNat 32 (kRom n)) (ws.getD n 0) (shaRounds ws n s)

/-- The state as its eight words, a first. -/
def ShaState.words (s : ShaState) : List Word32 := [s.a, s.b, s.c, s.d, s.e, s.f, s.g, s.h]

/-- The eight words as a state, a first. -/
def ShaState.ofWords (l : List Word32) : ShaState :=
  ⟨l.getD 0 0, l.getD 1 0, l.getD 2 0, l.getD 3 0, l.getD 4 0, l.getD 5 0, l.getD 6 0, l.getD 7 0⟩

/-- The compression of one block from the initial state `s`, added word by word to it (46_facade.md R234, R239). -/
def shaCompress (s : ShaState) (block : List Word32) : List Word32 :=
  List.zipWith (· + ·) s.words (shaRounds (schedule block) 64 s).words

end Sys2Proof.Machine
end

