-- ==== Sys2Proof/Safety.lean ====
section
/-!
DEFINITION. The terms claims are stated in: what a block must be given for an internal operation to run (a host that
accepts, a configured block, fresh names, operands that exist), what a word bundle holds, what an operation leaves
unchanged, and the invariants of the machine.
-/

namespace Sys2Proof.Machine

open Sys2Proof

/-! ### What an internal operation needs -/

/-- The host accepts every coming request (00_scope.md R13; 20_memory.md R67). -/
def State.hostAccepts (s : State) : Bool := s.hostAnswers.all id

/-- The block has been configured and its table loaded (41_table.md R130, R133). -/
def State.booted (s : State) : Bool := s.config == some stdConfig && s.table == .loaded

/-- The cell's name is at or below a path: the path is a prefix of the name (10_state.md R33). -/
def CellName.isBelow (p : Path) : CellName → Bool
  | .adv c => c.blk == p.blk && p.segs.isPrefixOf c.segs
  | _ => false

/-- A fresh name prefix: no cell at or below it is in `CELLS`. -/
def State.fresh (s : State) (p : Path) : Bool := s.mem.cells.all fun e => !e.1.isBelow p

/-- The cell is in `CELLS`. -/
def State.has (s : State) (c : CellName) : Bool := (s.cell c).isSome

/-! ### Values -/

/-- An ADVICE cell's value: the number in WITNESS mode, `Unknown` in SHAPE mode (10_state.md R21). -/
def State.seen (s : State) (n : Nat) : Val :=
  match s.mode with
  | .witness => .known n
  | .shape => .unknown

/-- The cell exists and in WITNESS mode holds the number `n`; what it holds in SHAPE mode is not read. -/
abbrev State.Reads (s : State) (c : CellName) (n : Nat) : Prop :=
  s.has c = true ∧ (s.mode = .witness → s.cell c = some (.known n))

/-- The bundle `h` exists and reads as the word value `n`: its dense cell and the spreads of its halves. -/
abbrev State.ReadsWord (s : State) (h : Path) (n : Nat) : Prop :=
  s.Reads (h.cell .d) n ∧ s.Reads (h.cell .slo) (spread16 (lo16 n)) ∧
  s.Reads (h.cell .shi) (spread16 (hi16 n % 2 ^ 16))

/-- The bundle `h` holds the word value `n`: its seven cells as WORD writes them (42_gates.md R151, R152). In SHAPE mode
all seven are `Unknown`, whatever `n`. -/
abbrev State.HoldsWord (s : State) (h : Path) (n : Nat) : Prop :=
  s.cell (h.cell .d) = some (s.seen n) ∧
  s.cell (h.cell .lo) = some (s.seen (lo16 n)) ∧
  s.cell (h.cell .hi) = some (s.seen (hi16 n)) ∧
  s.cell (h.cell .tlo) = some (s.seen (tagOf s.tagCuts (lo16 n))) ∧
  s.cell (h.cell .slo) = some (s.seen (spread16 (lo16 n))) ∧
  s.cell (h.cell .thi) = some (s.seen (tagOf s.tagCuts (hi16 n % 2 ^ 16))) ∧
  s.cell (h.cell .shi) = some (s.seen (spread16 (hi16 n % 2 ^ 16)))

/-- Numbers for the eight state words a..h (10_state.md R33). -/
structure StateValues where
  a : Nat
  b : Nat
  c : Nat
  d : Nat
  e : Nat
  f : Nat
  g : Nat
  h : Nat
deriving DecidableEq, Repr

/-- The eight numbers, a first. -/
def StateValues.toList (v : StateValues) : List Nat := [v.a, v.b, v.c, v.d, v.e, v.f, v.g, v.h]

/-- Their word values, `wv` of each (00_scope.md R17). -/
def StateValues.words (v : StateValues) : ShaState :=
  ⟨BitVec.ofNat 32 v.a, BitVec.ofNat 32 v.b, BitVec.ofNat 32 v.c, BitVec.ofNat 32 v.d, BitVec.ofNat 32 v.e,
    BitVec.ofNat 32 v.f, BitVec.ofNat 32 v.g, BitVec.ofNat 32 v.h⟩

/-- The eight bundles exist and read as these numbers. -/
abbrev State.ReadsState (s : State) (h : Handles) (v : StateValues) : Prop :=
  s.ReadsWord h.a v.a ∧ s.ReadsWord h.b v.b ∧ s.ReadsWord h.c v.c ∧ s.ReadsWord h.d v.d ∧
  s.ReadsWord h.e v.e ∧ s.ReadsWord h.f v.f ∧ s.ReadsWord h.g v.g ∧ s.ReadsWord h.h v.h

/-- A false instance was recorded when `bad` and the mode is WITNESS (20_memory.md R72). -/
def State.unsatIf (s : State) (bad : Bool) : Bool := s.unsat || (s.mode == .witness && bad)

/-! ### Frames -/

/-- What a gate operation may change: cells, the log, `UNSAT` and the host's side. Everything else is as in `s`: every
register, every status bit, `Q`, the outputs, CONFIG and the table. -/
abbrev GateFrame (s t : State) : Prop :=
  t = { s with mem := t.mem, cons := t.cons, unsat := t.unsat, requests := t.requests, hostAnswers := t.hostAnswers }

/-- Exactly the cells `cs` are new: every other cell reads as before, no cell that was in `CELLS` changed, and as many
cells more are listed as `cs` has. -/
abbrev Wrote (s t : State) (cs : List CellName) : Prop :=
  (∀ c, c ∉ cs → t.cell c = s.cell c) ∧ (∀ c v, s.cell c = some v → t.cell c = some v) ∧
  t.mem.cells.length = s.mem.cells.length + cs.length

/-- An operation that took the state `s` (its entry gone from Q, its own registers already as it leaves them) to `t`: it
wrote exactly `cs`, appended exactly `ks` to the log, made `UNSAT` 1 exactly when `bad` in WITNESS mode, and changed
nothing else of the block. -/
abbrev Performed (s t : State) (cs : List CellName) (ks : List Constraint) (bad : Bool) : Prop :=
  GateFrame s t ∧ Wrote s t cs ∧ t.cons = s.cons ++ ks ∧ t.unsat = s.unsatIf bad

/-- The outcome `o` of an operation that faulted after some of its work: from the state `s`, its entry gone from Q, it wrote
exactly `cs` and appended exactly `ks`, then raised `F_UNASSIGNED` with the word of `i` (60_exceptions.md R256: what was
done before the raise is kept, nothing after it is done). -/
abbrev RaisedAfter (s : State) (rest : List QEntry) (i : Instr) (o : Host.Outcome State Fault Refusal)
    (cs : List CellName) (ks : List Constraint) : Prop :=
  ∃ u, o = .next u ∧
    u = faultEntry .unassigned (encode i) { s with
      q := rest, mem := u.mem, cons := u.cons, unsat := u.unsat, requests := u.requests, hostAnswers := u.hostAnswers } ∧
    Wrote s u cs ∧ u.cons = s.cons ++ ks

/-- An internal operation can complete: the block is configured, its table loaded, and the host accepts. -/
abbrev State.ready (s : State) : Prop := s.booted = true ∧ s.hostAccepts = true

/-! ### Invariants of the machine -/

/-- The verdict invariant (20_memory.md R73): every cell a recorded instance names exists, and `UNSAT` says whether, in
WITNESS mode, some recorded instance is false on the cells as they are now. -/
abbrev State.verdictInv (s : State) : Prop :=
  (∀ k ∈ s.cons, ∀ c ∈ k.cells, s.has c = true) ∧
  s.unsat = (s.mode == .witness && s.cons.any fun k => k.holds s.tagCuts s.num == some false)

/-- A value an ADVICE cell may hold: `Unknown` in SHAPE mode, a known field element in WITNESS mode (10_state.md R21). -/
abbrev Val.okIn (mode : Mode) : Val → Prop
  | .unknown => mode = .shape
  | .known n => mode = .witness ∧ n < Config.fieldP

/-- A listed cell's value is one its name allows (20_memory.md R63, R64): a ROM constant or an ADVICE value. -/
abbrev cellOk (mode : Mode) : CellName → Val → Prop
  | .fixK t, v => t < 64 ∧ v = .known (kRom t)
  | .fixIv i, v => i < 8 ∧ v = .known (ivRom i)
  | .tab _ _, _ => False
  | .adv _, v => v.okIn mode

/-- The value a queued operation carries is one an ADVICE cell may hold, and a constant is one of MODADD's
(42_gates.md R169). -/
abbrev OpRec.valueOk (mode : Mode) : OpRec → Prop
  | .value v => v.okIn mode
  | .word _ v => v.okIn mode
  | .modadd _ k _ => k < 2 ^ 32
  | _ => True

/-- Every cell and every queued value is one its name and the mode allow. -/
abbrev State.valuesInv (s : State) : Prop :=
  (∀ e ∈ s.mem.cells, cellOk s.mode e.1 e.2) ∧ (∀ e ∈ s.q, e.opnd.valueOk s.mode)

/-- A queue entry the sequencer may hold (30_encoding.md R94, R99): the word of a level-1 operation, with an item where the
operation takes one. -/
def QEntry.wf (e : QEntry) : Bool :=
  match decode e.word with
  | .ok (.schedIn _) => (match e.opnd with | .value _ => true | _ => false)
  | .ok (.initWord .data _) => (match e.opnd with | .value _ => true | _ => false)
  | .ok (.initWord _ _) | .ok (.sched _) | .ok (.round _) | .ok (.digestWord _) => true
  | _ => false

/-- The sequencer invariant: the queue holds level-1 operations only; whenever it holds any, and in every phase from READY
on, the block is configured and its table loaded (in CONF it is configured); a halted block has an empty queue. -/
abbrev State.sequencerInv (s : State) : Prop :=
  (∀ e ∈ s.q, e.wf = true) ∧
  (s.q ≠ [] → s.phase ≠ .reset ∧ s.phase ≠ .conf) ∧
  (s.phase = .conf → s.config = some stdConfig) ∧
  (s.phase ≠ .reset → s.phase ≠ .conf → s.booted = true) ∧
  (s.halted = true → s.q = [])

/-! ### The shape of a state -/

/-- The item without its value (46_facade.md R241): a field element is one, a bit list is kept. -/
def DinItem.erase : DinItem → DinItem
  | .elem _ => .elem 0
  | .bits b => .bits b

/-- A codec result or a value without its value: of a bit list, its length. -/
def DoutItem.erase : DoutItem → DoutItem
  | .val _ => .val .unknown
  | .bits b => .unknownBits b.length
  | .unknownBits n => .unknownBits n

/-- The operand record without the value it carries. -/
def OpRec.erase : OpRec → OpRec
  | .value _ => .value .unknown
  | .word p _ => .word p .unknown
  | r => r

/-- The request without the value it assigns. -/
def Request.erase : Request → Request
  | .assign col c _ => .assign col c .unknown
  | rq => rq

/-- What is left of a state when MODE, `UNSAT` and every value are taken away: names, instances, requests, registers,
queue, command words and the shapes of `din` (46_facade.md R241). -/
def State.erased (s : State) : State :=
  { s with
    mode := .shape
    unsat := false
    mem := { s.mem with cells := s.mem.cells.map fun e => (e.1, .unknown) }
    q := s.q.map fun e => ⟨e.word, e.opnd.erase⟩
    dout := s.dout.map DoutItem.erase
    requests := s.requests.map Request.erase
    cmds := s.cmds.map fun c => ⟨c.word, c.din.map DinItem.erase⟩ }

/-! ### Runs -/

/-- The state after `n` steps, or nothing where a step answers no next state. -/
def State.after : Nat → State → Option State
  | 0, s => some s
  | n + 1, s =>
    match step s with
    | .next t => t.after n
    | _ => none

/-- The block waits for a command (60_exceptions.md R272). -/
abbrev State.waiting (s : State) : Prop := s.resetIn = false ∧ s.halted = false ∧ s.q = []

/-- A value list of field elements. -/
def elemItems (ws : List Word32) : List DinItem := ws.map fun w => .elem w.toNat

end Sys2Proof.Machine
end

