-- ==== Sys2Proof/Certificates/Slice0/Obligations.lean ====
section
/-!
DEFINITION. The statements for the provers, in the order of OBLIGATIONS.json: encoding, the step, reset, the codec, setup,
the facade commands, the operations, faults, the invariants of the machine, soundness of the recorded instances, and the
relation the block encodes. In a statement about an operation, `w` is the word of its queue entry, which an operation
does not read; the host's answers are a list, past whose end it accepts (log 8); and a number such as `n` is what a cell
holds in WITNESS mode; in SHAPE mode nothing is read and every cell written holds `Unknown` (`State.seen`).
-/

open Sys2Proof Sys2Proof.Machine

/-! ### Encoding -/

/-- Every word of a well-formed instruction decodes to it: no bit of an encoding is dropped (30_encoding.md R93, R106). -/
def Obligations.DecodeOfEncode : Prop := ∀ i : Instr, i.wellFormed = true → decode (encode i) = .ok i

/-- Every word that decodes is the word of the well-formed instruction it decodes to, so no word with a nonzero unused
field or an out-of-range field decodes (30_encoding.md R93, R95). -/
def Obligations.EncodeOfDecode : Prop := ∀ w i, decode w = .ok i → i.wellFormed = true ∧ encode i = w

/-- Words written out from the encodings of 30_encoding.md R96 to R101 decode to the instructions they stand for. -/
def Obligations.SpecWords : Prop :=
  decode 0x00000001 = .ok .configure ∧ decode 0x00001004 = .ok (.initFrom .digest) ∧
  decode 0x00000108 = .ok (.bitsOf .w32) ∧ decode 0x003F0011 = .ok (.sched 63) ∧
  decode 0x00050012 = .ok (.round 5) ∧ decode 0x00072013 = .ok (.initWord .digest 7) ∧
  decode 0x00000022 = .ok .bsig0 ∧ decode 0x00050032 = .ok (.lookup 5) ∧ decode 0x000B0033 = .ok (.range 11) ∧
  decode 0x00003034 = .ok (.decomp .bsig1) ∧ decode 0x00000335 = .ok (.extract 3) ∧
  decode 0x00000536 = .ok (.modadd 5) ∧ decode 0x00020037 = .ok (.carry 2)

/-! ### The step -/

/-- A step performs the decoded instruction: while `HALTED = 0` and Q is not empty, its head, the word of an internal
operation, whatever the host presents meanwhile (a word on `cmd_in` waits: 10_state.md R24; 70_reset_and_hazards.md R288);
with Q empty, the command on `cmd_in` (46_facade.md R230). -/
def Obligations.StepRunsInstruction : Prop :=
  (∀ (s : State) (e : QEntry) (rest : List QEntry) (i : Instr), s.resetIn = false → s.halted = false →
    s.q = e :: rest → decode e.word = .ok i → i.fromHost = false → step s = exec i s) ∧
  (∀ (s : State) (c : Presented) (rest : List Presented) (i : Instr), s.waiting → s.cmds = c :: rest →
    decode c.word = .ok i → i.fromHost = true → step s = exec i s)

/-- A word of class level-1, function or primitive on `cmd_in`, and a word no row of the opcode map admits, raise
`F_ILLEGAL` with that word (30_encoding.md R94, R95). -/
def Obligations.StepRefusesIllegalWord : Prop :=
  ∀ (s : State) (c : Presented) (rest : List Presented), s.waiting → s.cmds = c :: rest →
    (∀ i, decode c.word = .ok i → i.cls ≠ .facade ∧ i.cls ≠ .codec) →
    step s = .next { s with
      cmds := rest, halted := true, faultCode := .illegal, faultInfo := c.word, q := [], dout := [], hout := [] }

/-- While `HALTED = 1` the block has no step and accepts no command (10_state.md R26); a waiting block with nothing on
`cmd_in` keeps all its state (60_exceptions.md R272). That no step is the model's fault `halted`, and that an idle block
takes a step at all, are the model's choices (log 11, log 12). -/
def Obligations.HaltedOrIdle : Prop :=
  (∀ s : State, s.resetIn = false → s.halted = true → step s = .fault .halted) ∧
  (∀ s : State, s.waiting → s.cmds = [] → step s = .next s)

/-- A reset, whatever the state: every component of `BlockState` and every output is at the value of
70_reset_and_hazards.md R281, `MODE` and `STATUS` by the pin as it is when `reset` falls (R280). That a step with `reset`
high answers a next state and is a whole pulse, where R280 gives the block no step while `reset` is 1, is the model's choice
(log 2). -/
def Obligations.ResetStep : Prop :=
  ∀ s : State, s.resetIn = true → ∃ t, step s = .next t ∧
    t.mode = .ofPin s.modeIn ∧ t.phase = .reset ∧ t.q = [] ∧ t.busy = false ∧ t.unsat = false ∧ t.halted = false ∧
    t.faultCode.code = 0 ∧ t.faultInfo = 0 ∧ t.digValid = false ∧
    t.status = (if s.modeIn then 4 else 0) ∧ t.faultinfoOut = 0 ∧ t.blockOut = 0 ∧ t.blk = 0 ∧
    (∀ i < 8, handle? t.stateReg i = none ∧ handle? t.ivUsed i = none ∧ handle? t.dig i = none) ∧
    (∀ i < 64, handle? t.w i = none) ∧ t.config = none ∧ t.table = .empty ∧ (∀ c, t.cell c = none) ∧ t.cons = [] ∧
    t.dout = [] ∧ t.hout = []

/-! ### The codec -/

/-- BITS_OF (40_codec.md R120). In WITNESS mode: the N bits of a value below 2^N, bit 0 first, and `F_CONVERT` at 2^N and
above. In SHAPE mode the value is ignored (10_state.md R44): N `Unknown` bits, the model's choice (log 16). `F_OPERAND` for
any other `din`. Nothing but `DOUT` and `HOUT` changes, in every PHASE; that `HOUT` becomes `[]`, by 10_state.md R46, where
R120 says "`DOUT` only", is the model's choice too (log 15). Its two words. -/
def Obligations.BitsOfResult : Prop :=
  (decode 0x00000008 = .ok (.bitsOf .w16) ∧ decode 0x00000108 = .ok (.bitsOf .w32)) ∧
  ∀ (s : State) (n : Width) (w : CmdWord) (rest : List Presented) (din : List DinItem), s.cmds = ⟨w, din⟩ :: rest →
    (∀ x, din = [.elem x] → s.mode = .witness → x < 2 ^ widthBits n → ∃ bs : List Bool,
      exec (.bitsOf n) s = .next { s with cmds := rest, dout := [.bits bs], hout := [] } ∧ bs.length = widthBits n ∧
      ∀ i < widthBits n, bs[i]? = some (x.testBit i)) ∧
    (∀ x, din = [.elem x] → s.mode = .witness → x < Config.fieldP → 2 ^ widthBits n ≤ x →
      exec (.bitsOf n) s = .next (faultEntry .convert (encode (.bitsOf n)) { s with cmds := rest })) ∧
    (∀ x, din = [.elem x] → s.mode = .shape → x < Config.fieldP →
      exec (.bitsOf n) s
        = .next { s with cmds := rest, dout := [.unknownBits (match n with | .w16 => 16 | .w32 => 32)], hout := [] }) ∧
    ((∀ x, din = [.elem x] → ¬ x < Config.fieldP) →
      exec (.bitsOf n) s = .next (faultEntry .operand (encode (.bitsOf n)) { s with cmds := rest }))

/-- INT_OF (40_codec.md R121): bit i has weight 2^i, at most 64 bits, else `F_CONVERT`; `F_OPERAND` for any other `din`; it
inverts the 32 bits of BITS_OF. That it reads its bit list in SHAPE mode too, and that `HOUT` becomes `[]`, by 10_state.md
R46, where R121 says "`DOUT` only", are the model's choices (log 16, log 15). Its word. -/
def Obligations.IntOfResult : Prop :=
  decode 0x00000009 = .ok .intOf ∧ (∀ x, x < 2 ^ 32 → intOfBits (bitsOfNat 32 x) = x) ∧
  ∀ (s : State) (w : CmdWord) (rest : List Presented) (din : List DinItem), s.cmds = ⟨w, din⟩ :: rest →
    (∀ b, din = [.bits b] → b.length ≤ 64 →
      exec .intOf s = .next { s with
        cmds := rest, hout := [],
        dout := [.val (.known ((List.range b.length).map fun i => (b.getD i false).toNat * 2 ^ i).sum)] }) ∧
    (∀ b, din = [.bits b] → 64 < b.length →
      exec .intOf s = .next (faultEntry .convert (encode .intOf) { s with cmds := rest })) ∧
    ((∀ b, din ≠ [.bits b]) →
      exec .intOf s = .next (faultEntry .operand (encode .intOf) { s with cmds := rest }))

/-- SPREAD (40_codec.md R122): bit i goes to position 2i, and 0 to position 2i+1; `F_OPERAND` for any other `din`. That it
reads its bit list in SHAPE mode too, and that `HOUT` becomes `[]`, by 10_state.md R46, where R122 says "`DOUT` only", are
the model's choices (log 16, log 15). Its word. -/
def Obligations.SpreadResult : Prop :=
  decode 0x0000000A = .ok .spread ∧
  ∀ (s : State) (w : CmdWord) (rest : List Presented) (din : List DinItem), s.cmds = ⟨w, din⟩ :: rest →
    (∀ b, din = [.bits b] → ∃ r : List Bool,
      exec .spread s = .next { s with cmds := rest, dout := [.bits r], hout := [] } ∧ r.length = 2 * b.length ∧
      ∀ i < b.length, r[2 * i]? = b[i]? ∧ r[2 * i + 1]? = some false) ∧
    ((∀ b, din ≠ [.bits b]) →
      exec .spread s = .next (faultEntry .operand (encode .spread) { s with cmds := rest }))

/-- The value functions of the gates come from the codec, and even-bit extraction inverts spread (40_codec.md R123); the
properties of spread the gates rely on (R125). -/
def Obligations.SpreadFunctions : Prop :=
  (∀ v, v < 2 ^ 16 → spread16 v = intOfBits (spreadList (bitsOfNat 16 v)) ∧ spread16 v < 2 ^ 32) ∧
  (∀ x, x < 2 ^ 32 → spread32 x = spread16 (lo16 x) + 4 ^ 16 * spread16 (hi16 x) ∧
    spread32 x = intOfBits (spreadList (bitsOfNat 32 x)) ∧ even32 (spread32 x) = x ∧ odd32 (spread32 x) = 0) ∧
  spread16 0 = 0 ∧ spread16 0xFFFF = 0x55555555 ∧
  (∀ v, v < 2 ^ 16 → spread16 (v ^^^ 0xFFFF) = 0x55555555 - spread16 v) ∧
  (∀ v w, v < 2 ^ 16 → w < 2 ^ 16 → spread16 v = spread16 w → v = w) ∧
  (∀ x : Word32, spread32 (~~~x).toNat = 0x5555555555555555 - spread32 x.toNat)

/-! ### CONFIGURE and LOAD -/

/-- CONFIGURE from PHASE RESET with every request accepted (41_table.md R130): the record, the 72 FIXED cells with the ROM
constants in both modes, PHASE CONF, and empty outputs; the requests in the order of R130. The constants are the numbers
of 10_state.md R47 and R48, written out. -/
def Obligations.ConfigureResult : Prop :=
  (List.range 64).map kRom =
    [0x428a2f98, 0x71374491, 0xb5c0fbcf, 0xe9b5dba5, 0x3956c25b, 0x59f111f1, 0x923f82a4, 0xab1c5ed5] ++
    [0xd807aa98, 0x12835b01, 0x243185be, 0x550c7dc3, 0x72be5d74, 0x80deb1fe, 0x9bdc06a7, 0xc19bf174] ++
    [0xe49b69c1, 0xefbe4786, 0x0fc19dc6, 0x240ca1cc, 0x2de92c6f, 0x4a7484aa, 0x5cb0a9dc, 0x76f988da] ++
    [0x983e5152, 0xa831c66d, 0xb00327c8, 0xbf597fc7, 0xc6e00bf3, 0xd5a79147, 0x06ca6351, 0x14292967] ++
    [0x27b70a85, 0x2e1b2138, 0x4d2c6dfc, 0x53380d13, 0x650a7354, 0x766a0abb, 0x81c2c92e, 0x92722c85] ++
    [0xa2bfe8a1, 0xa81a664b, 0xc24b8b70, 0xc76c51a3, 0xd192e819, 0xd6990624, 0xf40e3585, 0x106aa070] ++
    [0x19a4c116, 0x1e376c08, 0x2748774c, 0x34b0bcb5, 0x391c0cb3, 0x4ed8aa4a, 0x5b9cca4f, 0x682e6ff3] ++
    [0x748f82ee, 0x78a5636f, 0x84c87814, 0x8cc70208, 0x90befffa, 0xa4506ceb, 0xbef9a3f7, 0xc67178f2] ∧
  (List.range 8).map ivRom =
    [0x6a09e667, 0xbb67ae85, 0x3c6ef372, 0xa54ff53a, 0x510e527f, 0x9b05688c, 0x1f83d9ab, 0x5be0cd19] ∧
  ∀ (s : State) (w : CmdWord) (rest : List Presented), s.phase = .reset → s.cmds = ⟨w, []⟩ :: rest →
    s.hostAccepts = true → (∀ t < 64, s.cell (.fixK t) = none) → (∀ i < 8, s.cell (.fixIv i) = none) →
    ∃ t, exec .configure s = .next t ∧
      t = { s with
        cmds := rest, config := some stdConfig, phase := .conf, dout := [], hout := [],
        mem := t.mem, requests := t.requests, hostAnswers := t.hostAnswers } ∧
      (∀ i < 64, t.cell (.fixK i) = some (.known (kRom i))) ∧ (∀ i < 8, t.cell (.fixIv i) = some (.known (ivRom i))) ∧
      (∀ c, (∀ i < 64, c ≠ .fixK i) → (∀ i < 8, c ≠ .fixIv i) → t.cell c = s.cell c) ∧
      t.requests = ((configRequests
        ++ (List.range 64).map (fun i => Request.assign .k (.fixK i) (.known (kRom i)))
        ++ (List.range 8).map (fun i => Request.assign .k (.fixIv i) (.known (ivRom i)))).reverse ++ s.requests)

/-- CONFIGURE when the host refuses (41_table.md R130; 20_memory.md R67): a refused configuration request raises `F_SHAPE`
and leaves CONFIG and the cells as they were; a refused FIXED cell raises `F_ASSIGN`, with CONFIG written and the cells
before it kept, and no other cell changed; the requests up to the refused one, in the order of R130. -/
def Obligations.ConfigureRefused : Prop :=
  ∀ (s : State) (w : CmdWord) (rest : List Presented) (n : Nat) (as : List Bool), s.phase = .reset →
    s.cmds = ⟨w, []⟩ :: rest → s.hostAnswers = List.replicate n true ++ false :: as →
    (∀ t < 64, s.cell (.fixK t) = none) → (∀ i < 8, s.cell (.fixIv i) = none) →
    (n < 13 → exec .configure s = .next (faultEntry .shape (encode .configure) { s with
      cmds := rest, hostAnswers := as, requests := (configRequests.take (n + 1)).reverse ++ s.requests })) ∧
    (13 ≤ n → n < 85 → ∃ t, exec .configure s = .next t ∧
      t = faultEntry .assign (encode .configure) { s with
        cmds := rest, config := some stdConfig, mem := t.mem, requests := t.requests, hostAnswers := as } ∧
      (∀ i < 64, t.cell (.fixK i) = if i < n - 13 then some (.known (kRom i)) else none) ∧
      (∀ i < 8, t.cell (.fixIv i) = if i + 64 < n - 13 then some (.known (ivRom i)) else none) ∧
      (∀ c, (∀ i < 64, c ≠ .fixK i) → (∀ i < 8, c ≠ .fixIv i) → t.cell c = s.cell c) ∧
      t.requests = ((configRequests
        ++ (List.range 64).map (fun i => Request.assign .k (.fixK i) (.known (kRom i)))
        ++ (List.range 8).map (fun i => Request.assign .k (.fixIv i) (.known (ivRom i)))).take (n + 1)).reverse
        ++ s.requests)

/-- LOAD from PHASE CONF with every request accepted (41_table.md R133, R134): 3 * 2^16 TABLE cells, row v holding its tag,
v and its spread, `TABLE` loaded, PHASE READY; no other cell changes. The rows a LOOKUP is checked against are those, and
no other. -/
def Obligations.LoadResult : Prop :=
  ∀ (s : State) (w : CmdWord) (rest : List Presented), s.phase = .conf → s.cmds = ⟨w, []⟩ :: rest →
    s.hostAccepts = true → (∀ col v, s.cell (.tab col v) = none) →
    ∃ t, exec .load s = .next t ∧
      t = { s with
        cmds := rest, table := .loaded, phase := .ready, dout := [], hout := [],
        mem := t.mem, requests := t.requests, hostAnswers := t.hostAnswers } ∧
      (∀ v < 2 ^ 16, t.cell (.tab .tag v) = some (.known (tagOf s.tagCuts v)) ∧
        t.cell (.tab .dense v) = some (.known v) ∧ t.cell (.tab .spread v) = some (.known (spread16 v))) ∧
      (∀ col v, 2 ^ 16 ≤ v → t.cell (.tab col v) = none) ∧
      (∀ v, tableRow t.tagCuts v = if v < 2 ^ 16 then some (tagOf s.tagCuts v, v, spread16 v) else none) ∧
      (∀ c : CellName, c.kind ≠ .table → t.cell c = s.cell c)

/-- LOAD when the host refuses an assign request (41_table.md R133): `F_ASSIGN`, `TABLE` still empty, and exactly the TABLE
cells before the refused one written, in the order of R133. -/
def Obligations.LoadRefused : Prop :=
  ∀ (s : State) (w : CmdWord) (rest : List Presented) (n : Nat) (as : List Bool), s.phase = .conf →
    s.cmds = ⟨w, []⟩ :: rest → s.hostAnswers = List.replicate n true ++ false :: as → n < 196608 →
    (∀ col v, s.cell (.tab col v) = none) →
    ∃ t, exec .load s = .next t ∧
      t = faultEntry .assign (encode .load) { s with
        cmds := rest, mem := t.mem, requests := t.requests, hostAnswers := as } ∧
      (∀ v < 2 ^ 16, t.cell (.tab .tag v) = (if 3 * v < n then some (.known (tagOf s.tagCuts v)) else none) ∧
        t.cell (.tab .dense v) = (if 3 * v + 1 < n then some (.known v) else none) ∧
        t.cell (.tab .spread v) = (if 3 * v + 2 < n then some (.known (spread16 v)) else none)) ∧
      (∀ c : CellName, c.kind ≠ .table → t.cell c = s.cell c)

/-! ### Facade commands that queue -/

/-- The accept actions of INIT_IV and INIT_FROM (46_facade.md R231, R233): a new block with unwritten register files and
the eight INIT_WORD entries of the source, each with its item where the source is `data`. -/
def Obligations.InitAccepted : Prop :=
  ∀ (s : State) (w : CmdWord) (rest : List Presented) (din : List DinItem),
    s.phase ≠ .reset → s.phase ≠ .conf → s.cmds = ⟨w, din⟩ :: rest →
    (din = [] → exec .initIv s = .next { s with
      cmds := rest, blk := s.blk + 1, stateReg := Vector.replicate 8 none, ivUsed := Vector.replicate 8 none,
      w := Vector.replicate 64 none, phase := .state,
      q := (List.range 8).map fun i => ⟨encode (.initWord .iv i), .none⟩ }) ∧
    (din.length = 8 → (∀ d ∈ din, ∃ x < Config.fieldP, d = .elem x) →
      exec (.initFrom .data) s = .next { s with
        cmds := rest, blk := s.blk + 1, stateReg := Vector.replicate 8 none, ivUsed := Vector.replicate 8 none,
        w := Vector.replicate 64 none, phase := .state,
        q := (List.range 8).map fun i =>
          ⟨encode (.initWord .data i), .value (dinVal s.mode (din.getD i (.elem 0)))⟩ }) ∧
    (din = [] → s.digValid = true → exec (.initFrom .digest) s = .next { s with
      cmds := rest, blk := s.blk + 1, stateReg := Vector.replicate 8 none, ivUsed := Vector.replicate 8 none,
      w := Vector.replicate 64 none, phase := .state,
      q := (List.range 8).map fun i => ⟨encode (.initWord .digest i), .none⟩ })

/-- The accept actions of COMPRESS and DIGEST (46_facade.md R235, R238): PHASE and the queue, nothing else. The queue of
COMPRESS is the 128 entries of the pseudocode, where the prose says 144 (log 26). -/
def Obligations.CompressDigestAccepted : Prop :=
  ∀ (s : State) (w : CmdWord) (rest : List Presented) (din : List DinItem), s.cmds = ⟨w, din⟩ :: rest →
    (s.phase = .state → din.length = 16 → (∀ d ∈ din, ∃ x < Config.fieldP, d = .elem x) →
      exec .compress s = .next { s with
        cmds := rest, phase := .done,
        q := (List.range 16).map (fun t =>
            ⟨encode (.schedIn t), .value (dinVal s.mode (din.getD t (.elem 0)))⟩)
          ++ (List.range' 16 48).map (fun t => ⟨encode (.sched t), .none⟩)
          ++ (List.range 64).map (fun t => ⟨encode (.round t), .none⟩) }) ∧
    (s.phase = .done → din = [] →
      exec .digest s = .next { s with
        cmds := rest, phase := .digested,
        q := (List.range 8).map fun i => ⟨encode (.digestWord i), .none⟩ })

/-- The sequencing check (60_exceptions.md R262): a facade command out of its PHASE raises `F_SEQUENCE` with its word,
whatever its `din`. -/
def Obligations.SequenceFault : Prop :=
  ∀ (s : State) (c : Presented) (rest : List Presented), s.cmds = c :: rest →
    (s.phase ≠ .reset →
      exec .configure s = .next (faultEntry .sequence (encode .configure) { s with cmds := rest })) ∧
    (s.phase ≠ .conf → exec .load s = .next (faultEntry .sequence (encode .load) { s with cmds := rest })) ∧
    (s.phase = .reset ∨ s.phase = .conf →
      exec .initIv s = .next (faultEntry .sequence (encode .initIv) { s with cmds := rest }) ∧
      ∀ src, exec (.initFrom src) s = .next (faultEntry .sequence (encode (.initFrom src)) { s with cmds := rest })) ∧
    (s.digValid = false →
      exec (.initFrom .digest) s = .next (faultEntry .sequence (encode (.initFrom .digest)) { s with cmds := rest })) ∧
    (s.phase ≠ .state →
      exec .compress s = .next (faultEntry .sequence (encode .compress) { s with cmds := rest })) ∧
    (s.phase ≠ .done → exec .digest s = .next (faultEntry .sequence (encode .digest) { s with cmds := rest }))

/-- The `din` check, made after the sequencing check (60_exceptions.md R254; 46_facade.md R230): a list of the wrong length
or item kind raises `F_OPERAND`. -/
def Obligations.DinFault : Prop :=
  ∀ (s : State) (w : CmdWord) (din : List DinItem) (rest : List Presented), s.cmds = ⟨w, din⟩ :: rest →
    (∀ i, ((i = .configure ∧ s.phase = .reset) ∨ (i = .load ∧ s.phase = .conf) ∨ (i = .digest ∧ s.phase = .done) ∨
          ((i = .initIv ∨ (i = .initFrom .digest ∧ s.digValid = true)) ∧ s.phase ≠ .reset ∧ s.phase ≠ .conf)) →
        din ≠ [] → exec i s = .next (faultEntry .operand (encode i) { s with cmds := rest })) ∧
    (s.phase ≠ .reset → s.phase ≠ .conf → ¬ (din.length = 8 ∧ ∀ d ∈ din, ∃ x < Config.fieldP, d = .elem x) →
      exec (.initFrom .data) s = .next (faultEntry .operand (encode (.initFrom .data)) { s with cmds := rest })) ∧
    (s.phase = .state → ¬ (din.length = 16 ∧ ∀ d ∈ din, ∃ x < Config.fieldP, d = .elem x) →
      exec .compress s = .next (faultEntry .operand (encode .compress) { s with cmds := rest }))

/-! ### Primitive operations -/

/-- LOOKUP (41_table.md R136) into two new cells of one block: the honest tag and spread of `y mod 2^16`, one instance, and
`UNSAT` exactly when `y = int(2^e *F cell(d)) >= 2^16`. -/
def Obligations.LookupResult : Prop :=
  ∀ (s : State) (w : CmdWord) (rest : List QEntry) (e : Nat) (d t sp : CellName) (b : Nat) (lt ls : List Seg) (n : Nat),
    e ≤ 15 → s.q = ⟨w, .lookup d t sp⟩ :: rest → s.ready → s.Reads d n → n < Config.fieldP →
    t = .adv ⟨b, lt⟩ → sp = .adv ⟨b, ls⟩ → t ≠ sp → s.cell t = none → s.cell sp = none →
    ∃ u, exec (.lookup e) s = .next u ∧
      Performed { s with q := rest } u [t, sp] [.lookup t d sp (2 ^ e)] (decide (2 ^ 16 ≤ red (2 ^ e * n))) ∧
      u.cell t = some (s.seen (tagOf s.tagCuts (red (2 ^ e * n) % 2 ^ 16))) ∧
      u.cell sp = some (s.seen (spread16 (red (2 ^ e * n) % 2 ^ 16)))

/-- RANGE (41_table.md R140): one instance for width 16, two below, and `UNSAT` exactly when `int(cell(d)) >= 2^w`. -/
def Obligations.RangeResult : Prop :=
  ∀ (s : State) (w : CmdWord) (rest : List QEntry) (k : Nat) (d : CellName) (p : Path) (n : Nat),
    1 ≤ k → k ≤ 16 → s.q = ⟨w, .range d p⟩ :: rest → s.ready → s.Reads d n → n < Config.fieldP → s.fresh p = true →
    ∃ u, exec (.range k) s = .next u ∧
      Performed { s with q := rest } u (rangeCells k p) (rangeCons k d p) (decide (2 ^ k ≤ n)) ∧
      u.cell (p.cell .s) = some (s.seen (spread16 (n % 2 ^ 16)))

/-- RECOMB (42_gates.md R155): one instance, `UNSAT` exactly when `cell(d) ≠ cell(lo) +F 2^16 *F cell(hi)`. -/
def Obligations.RecombResult : Prop :=
  ∀ (s : State) (w : CmdWord) (rest : List QEntry) (d lo hi : CellName) (x y z : Nat),
    s.q = ⟨w, .recomb d lo hi⟩ :: rest → s.ready → s.Reads d x → s.Reads lo y → s.Reads hi z →
    ∃ u, exec .recomb s = .next u ∧
      Performed { s with q := rest } u [] [.recomb d lo hi]
        (decide ((x : Int) % Config.fieldP ≠ (y + 2 ^ 16 * z : Int) % Config.fieldP))

/-- CARRY (42_gates.md R171): one instance, `UNSAT` exactly when the cell is not one of 0..m. -/
def Obligations.CarryResult : Prop :=
  ∀ (s : State) (w : CmdWord) (rest : List QEntry) (m : Nat) (c : CellName) (x : Nat), m ≤ 5 →
    s.q = ⟨w, .carry c⟩ :: rest → s.ready → s.Reads c x → x < Config.fieldP →
    ∃ u, exec (.carry m) s = .next u ∧ Performed { s with q := rest } u [] [.carry c m] (decide (m < x))

/-- COPY (42_gates.md R176) of ADVICE or FIXED cells: one request, one instance, `UNSAT` exactly when the cells differ; a
TABLE cell raises `F_SHAPE`, a refused request `F_ASSIGN`, and a missing cell `F_UNASSIGNED`. That the kinds are checked
before the request is sent, and that the request is sent before a missing cell is found, is read from the pseudocode and
is the model's choice (log 14). -/
def Obligations.CopyResult : Prop :=
  ∀ (s : State) (w : CmdWord) (rest : List QEntry) (a b : CellName), s.q = ⟨w, .copy a b⟩ :: rest →
    (∀ x y : Nat, a.kind ≠ .table → b.kind ≠ .table → s.ready → s.Reads a x → s.Reads b y →
      x < Config.fieldP → y < Config.fieldP →
      ∃ u, exec .copy s = .next u ∧ Performed { s with q := rest } u [] [.copy a b] (decide (x ≠ y)) ∧
        u.requests = .copyEqual a b :: s.requests) ∧
    (a.kind = .table ∨ b.kind = .table →
      exec .copy s = .next (faultEntry .shape (encode .copy) { s with q := rest })) ∧
    (∀ as, a.kind ≠ .table → b.kind ≠ .table → s.hostAnswers = false :: as →
      exec .copy s = .next (faultEntry .assign (encode .copy) { s with
        q := rest, hostAnswers := as, requests := .copyEqual a b :: s.requests })) ∧
    (a.kind ≠ .table → b.kind ≠ .table → s.hostAnswers.head? ≠ some false → s.has a = false ∨ s.has b = false →
      exec .copy s = .next (faultEntry .unassigned (encode .copy) { s with
        q := rest, hostAnswers := s.hostAnswers.tail, requests := .copyEqual a b :: s.requests }))

/-- WORD (42_gates.md R152): the seven cells of the bundle, three instances, `UNSAT` exactly when `int(v) >= 2^32`. -/
def Obligations.WordResult : Prop :=
  ∀ (s : State) (w : CmdWord) (rest : List QEntry) (p : Path) (v : Val) (n : Nat),
    s.q = ⟨w, .word p v⟩ :: rest → s.ready → (s.mode = .witness → v = .known n) → n < Config.fieldP →
    s.fresh p = true →
    ∃ u, exec .word s = .next u ∧
      Performed { s with q := rest } u (wordCells p) (wordCons p) (decide (2 ^ 32 ≤ n)) ∧ u.HoldsWord p n

/-- DECOMP (42_gates.md R160, R161): piece i is bits `o_i + w_i − 1 : o_i` of the word, with its spread; 20 cells, 9
instances, and `UNSAT` exactly when `int(cell(x.d)) >= 2^32`. -/
def Obligations.DecompResult : Prop :=
  ∀ (s : State) (w : CmdWord) (rest : List QEntry) (l : Layout) (x p : Path) (n : Nat),
    s.q = ⟨w, .decomp x p⟩ :: rest → s.ready → s.Reads (x.cell .d) n → n < Config.fieldP → s.fresh p = true →
    ∃ u, exec (.decomp l) s = .next u ∧
      Performed { s with q := rest } u (decompCells l p) (decompCons l x p) (decide (2 ^ 32 ≤ n)) ∧
      (decompCells l p).length = 20 ∧ (decompCons l x p).length = 9 ∧
      ∀ i width offset, (pieces l)[i]? = some (width, offset) →
        u.cell (p.cell (.pIx i)) = some (s.seen (n % 2 ^ 32 / 2 ^ offset % 2 ^ width)) ∧
        u.cell (pieceSpread p i) = some (s.seen (spread16 (n % 2 ^ 32 / 2 ^ offset % 2 ^ width)))

/-- EXTRACT (42_gates.md R164) of k = 2, 3 or 4 operands over cells that hold `f`: the even and the odd word of
`S mod 4^32`, 14 cells, 7 instances; the SPREADSUM instance is false exactly when `S` and `S mod 4^32` differ in the field,
which for `|S| < 2^66` is exactly when `S < 0` or `S >= 4^32`. -/
def Obligations.ExtractResult : Prop :=
  (∀ (s : State) (w : CmdWord) (rest : List QEntry) (k : Nat) (ops : List OperandExpr) (p : Path) (f : CellName → Nat),
    2 ≤ k → k ≤ 4 → ops.length = k → s.q = ⟨w, .extract ops p⟩ :: rest → s.ready →
    (∀ t ∈ ops.flatMap (·.terms), s.Reads t.2 (f t.2)) → s.fresh p = true →
    ∃ u, exec (.extract k) s = .next u ∧
      Performed { s with q := rest } u (extractCells p) (extractCons ops p)
        (decide (red (opsValue f ops) ≠ spreadSumMod (opsValue f ops))) ∧
      (extractCells p).length = 14 ∧ (extractCons ops p).length = 7 ∧
      u.HoldsWord (p.sub .e) (even32 (spreadSumMod (opsValue f ops))) ∧
      u.HoldsWord (p.sub .o) (odd32 (spreadSumMod (opsValue f ops)))) ∧
  (∀ S : Int, -2 ^ 66 < S → S < 2 ^ 66 → (red S ≠ spreadSumMod S ↔ S < 0 ∨ 4 ^ 32 ≤ S))

/-- Reading out the components (42_gates.md R165): for two or three spreads of 32-bit words the even word is the exclusive
or, and the odd word the conjunction or the majority. -/
def Obligations.ExtractComponents : Prop :=
  ∀ a b c : Word32,
    even32 (spread32 a.toNat + spread32 b.toNat) = (a ^^^ b).toNat ∧
    odd32 (spread32 a.toNat + spread32 b.toNat) = (a &&& b).toNat ∧
    even32 (spread32 a.toNat + spread32 b.toNat + spread32 c.toNat) = (a ^^^ b ^^^ c).toNat ∧
    odd32 (spread32 a.toNat + spread32 b.toNat + spread32 c.toNat) = (majWord a b c).toNat

/-- MODADD (42_gates.md R169, R170) of one to five bundles whose dense cells hold `g`, and a constant: the sum of the word
values mod 2^32 in a bundle, the quotient in the carry cell, never above the bound of its CARRY instance; 8 cells, 5
instances; `UNSAT` exactly when some `ys[i].d` is not below 2^32. -/
def Obligations.ModaddResult : Prop :=
  ∀ (s : State) (w : CmdWord) (rest : List QEntry) (n K : Nat) (ys : List Path) (p : Path) (g : Path → Nat),
    1 ≤ n → n ≤ 5 → ys.length = n → K < 2 ^ 32 → s.q = ⟨w, .modadd ys K p⟩ :: rest → s.ready →
    (∀ y ∈ ys, s.Reads (y.cell .d) (g y) ∧ g y < Config.fieldP) → s.fresh p = true →
    ∃ u, exec (.modadd n) s = .next u ∧
      Performed { s with q := rest } u (modaddCells p) (modaddCons ys K p) (ys.any fun y => decide (2 ^ 32 ≤ g y)) ∧
      (modaddCells p).length = 8 ∧ (modaddCons ys K p).length = 5 ∧
      u.HoldsWord (p.sub .r) (((ys.map fun y => g y % 2 ^ 32).sum + K) % 2 ^ 32) ∧
      u.cell (p.cell .c) = some (s.seen (((ys.map fun y => g y % 2 ^ 32).sum + K) / 2 ^ 32)) ∧
      ((ys.map fun y => g y % 2 ^ 32).sum + K) / 2 ^ 32 ≤ cmax n K

/-! ### Function operations -/

/-- SSIG0, SSIG1, BSIG0, BSIG1 (43_functions.md R181 to R184): the result bundle holds σ0, σ1, Σ0 or Σ1 of the word value,
34 cells and 16 instances are written, and `UNSAT` is set exactly when `int(cell(x.d)) >= 2^32`. -/
def Obligations.SigmaResult : Prop :=
  ∀ (s : State) (w : CmdWord) (rest : List QEntry) (i : Instr) (l : Layout) (x p : Path) (n : Nat),
    (i = .ssig0 ∧ l = .ssig0) ∨ (i = .ssig1 ∧ l = .ssig1) ∨ (i = .bsig0 ∧ l = .bsig0) ∨ (i = .bsig1 ∧ l = .bsig1) →
    s.q = ⟨w, .sigma x p⟩ :: rest → s.ready → s.Reads (x.cell .d) n → n < Config.fieldP → s.fresh p = true →
    ∃ u, exec i s = .next u ∧
      Performed { s with q := rest } u (sigmaCells l p) (sigmaCons l x p) (decide (2 ^ 32 ≤ n)) ∧
      (sigmaCells l p).length = 34 ∧ (sigmaCons l x p).length = 16 ∧
      u.HoldsWord ((p.sub .x).sub .e) (sigma l (BitVec.ofNat 32 n)).toNat

/-- CH (43_functions.md R186, R188) of three bundles: the parts `e ∧ f` and `¬e ∧ g`, whose sum is Ch with no carry; 28
cells, 14 instances, none of them false. -/
def Obligations.ChResult : Prop :=
  (∀ (s : State) (w : CmdWord) (rest : List QEntry) (e f g p : Path) (ne nf ng : Nat),
    s.q = ⟨w, .triple e f g p⟩ :: rest → s.ready → s.ReadsWord e ne → s.ReadsWord f nf → s.ReadsWord g ng →
    s.fresh p = true →
    ∃ u, exec .ch s = .next u ∧
      Performed { s with q := rest } u (chCells p) (chCons e f g p) false ∧
      (chCells p).length = 28 ∧ (chCons e f g p).length = 14 ∧
      u.HoldsWord ((p.sub .p).sub .o) (BitVec.ofNat 32 ne &&& BitVec.ofNat 32 nf).toNat ∧
      u.HoldsWord ((p.sub .q).sub .o) (~~~ BitVec.ofNat 32 ne &&& BitVec.ofNat 32 ng).toNat) ∧
  (∀ e f g : Word32, (e &&& f) &&& (~~~e &&& g) = 0 ∧ (e &&& f).toNat + (~~~e &&& g).toNat = (chWord e f g).toNat)

/-- MAJ (43_functions.md R187) of three bundles: the majority in `pfx.x.o`; 14 cells, 7 instances, none of them false. -/
def Obligations.MajResult : Prop :=
  ∀ (s : State) (w : CmdWord) (rest : List QEntry) (a b c p : Path) (na nb nc : Nat),
    s.q = ⟨w, .triple a b c p⟩ :: rest → s.ready → s.ReadsWord a na → s.ReadsWord b nb → s.ReadsWord c nc →
    s.fresh p = true →
    ∃ u, exec .maj s = .next u ∧
      Performed { s with q := rest } u (majCells p) (majCons a b c p) false ∧
      (majCells p).length = 14 ∧ (majCons a b c p).length = 7 ∧
      u.HoldsWord ((p.sub .x).sub .o) (majWord (BitVec.ofNat 32 na) (BitVec.ofNat 32 nb) (BitVec.ofNat 32 nc)).toNat

/-! ### Level-1 operations -/

/-- SCHED_IN t (44_schedule.md R200): the bundle `BLK.w<t>` of the item, `W[t]`, and `UNSAT` exactly when `int(v) >= 2^32`. -/
def Obligations.SchedInResult : Prop :=
  ∀ (s : State) (w : CmdWord) (rest : List QEntry) (t : Nat) (v : Val) (n : Nat), t ≤ 15 →
    s.q = ⟨w, .value v⟩ :: rest → s.ready → (s.mode = .witness → v = .known n) → n < Config.fieldP →
    s.fresh ⟨s.blk, [.w t]⟩ = true →
    ∃ u, exec (.schedIn t) s = .next u ∧
      Performed { s with q := rest, w := u.w } u (wordCells ⟨s.blk, [.w t]⟩) (wordCons ⟨s.blk, [.w t]⟩)
        (decide (2 ^ 32 ≤ n)) ∧
      u.w = s.w.setIfInBounds t (some ⟨s.blk, [.w t]⟩) ∧ u.HoldsWord ⟨s.blk, [.w t]⟩ n

/-- SCHED t (44_schedule.md R201, R202): `W[t] = σ1(W[t−2]) + W[t−7] + σ0(W[t−15]) + W[t−16]` mod 2^32 on the word values, in
the bundle `BLK.w<t>.add.r`; 76 cells, 37 instances, and none of them false when the four words are below 2^32. -/
def Obligations.SchedResult : Prop :=
  ∀ (s : State) (w : CmdWord) (r : OpRec) (rest : List QEntry) (t : Nat) (p w2 w7 w15 w16 : Path) (n2 n7 n15 n16 : Nat),
    16 ≤ t → t ≤ 63 → p = ⟨s.blk, [.w t]⟩ → s.q = ⟨w, r⟩ :: rest → s.ready →
    handle? s.w (t - 2) = some w2 → handle? s.w (t - 7) = some w7 → handle? s.w (t - 15) = some w15 →
    handle? s.w (t - 16) = some w16 →
    s.Reads (w2.cell .d) n2 → s.Reads (w7.cell .d) n7 → s.Reads (w15.cell .d) n15 → s.Reads (w16.cell .d) n16 →
    n2 < Config.fieldP → n7 < Config.fieldP → n15 < Config.fieldP → n16 < Config.fieldP → s.fresh p = true →
    ∃ u, exec (.sched t) s = .next u ∧
      Performed { s with q := rest, w := u.w } u (schedCells p) (schedCons w2 w7 w15 w16 p)
        (decide (2 ^ 32 ≤ n2 ∨ 2 ^ 32 ≤ n7 ∨ 2 ^ 32 ≤ n15 ∨ 2 ^ 32 ≤ n16)) ∧
      (schedCells p).length = 76 ∧ (schedCons w2 w7 w15 w16 p).length = 37 ∧
      u.w = s.w.setIfInBounds t (some ((p.sub .add).sub .r)) ∧
      u.HoldsWord ((p.sub .add).sub .r)
        (sigma .ssig1 (BitVec.ofNat 32 n2) + BitVec.ofNat 32 n7 + sigma .ssig0 (BitVec.ofNat 32 n15)
          + BitVec.ofNat 32 n16).toNat

/-- ROUND t, not the last entry of its command (45_compression.md R211, R212, R213): on the word values of the eight state
bundles and `W[t]` it computes T1, T2, the new a and the new e, all mod 2^32; six handles move; 142 cells, 73 instances;
none of them false when the words it reads are below 2^32. -/
def Obligations.RoundResult : Prop :=
  ∀ (s : State) (w : CmdWord) (r : OpRec) (e : QEntry) (rest : List QEntry) (t : Nat) (p : Path) (H : Handles)
    (v : StateValues) (wh : Path) (wn : Nat),
    t ≤ 63 → p = ⟨s.blk, [.rIx t]⟩ → s.q = ⟨w, r⟩ :: e :: rest → s.ready → s.stateReg = H.toFile →
    handle? s.w t = some wh → s.ReadsState H v → (∀ x ∈ v.toList, x < Config.fieldP) → s.Reads (wh.cell .d) wn →
    wn < Config.fieldP → s.fresh p = true →
    ∃ u, exec (.round t) s = .next u ∧
      Performed { s with q := e :: rest, stateReg := u.stateReg } u (roundCells p) (roundCons t H wh p)
        (decide (2 ^ 32 ≤ v.e ∨ 2 ^ 32 ≤ v.h ∨ 2 ^ 32 ≤ wn ∨ 2 ^ 32 ≤ v.a ∨ 2 ^ 32 ≤ v.d)) ∧
      (roundCells p).length = 142 ∧ (roundCons t H wh p).length = 73 ∧
      u.stateReg = #v[some ((p.sub .a).sub .r), some H.a, some H.b, some H.c,
        some ((p.sub .e).sub .r), some H.e, some H.f, some H.g] ∧
      u.HoldsWord ((p.sub .t1).sub .r) (roundT1 (BitVec.ofNat 32 (kRom t)) (BitVec.ofNat 32 wn) v.words).toNat ∧
      u.HoldsWord ((p.sub .t2).sub .r) (roundT2 v.words).toNat ∧
      u.HoldsWord ((p.sub .a).sub .r)
        (roundT1 (BitVec.ofNat 32 (kRom t)) (BitVec.ofNat 32 wn) v.words + roundT2 v.words).toNat ∧
      u.HoldsWord ((p.sub .e).sub .r)
        (BitVec.ofNat 32 v.d + roundT1 (BitVec.ofNat 32 (kRom t)) (BitVec.ofNat 32 wn) v.words).toNat

/-- The completion of COMPRESS (46_facade.md R235) in the step of its last entry, ROUND t: besides what the round does,
`DOUT` is the terminal state a..h and `HOUT` its handles and the names of the 16 input words' dense cells. -/
def Obligations.CompressCompletion : Prop :=
  ∀ (s : State) (w : CmdWord) (r : OpRec) (t : Nat) (p : Path) (H : Handles)
    (v : StateValues) (wh : Path) (wn : Nat) (ws : List Path),
    t ≤ 63 → p = ⟨s.blk, [.rIx t]⟩ → s.q = [⟨w, r⟩] → s.ready → s.stateReg = H.toFile →
    handle? s.w t = some wh → (∀ i < 16, handle? s.w i = ws[i]?) → ws.length = 16 →
    s.ReadsState H v → (∀ x ∈ v.toList, x < Config.fieldP) → s.Reads (wh.cell .d) wn →
    wn < Config.fieldP → s.fresh p = true →
    ∃ u, exec (.round t) s = .next u ∧
      Performed { s with q := [], stateReg := (H.next p).toFile, dout := u.dout, hout := u.hout } u
        (roundCells p) (roundCons t H wh p)
        (decide (2 ^ 32 ≤ v.e ∨ 2 ^ 32 ≤ v.h ∨ 2 ^ 32 ≤ wn ∨ 2 ^ 32 ≤ v.a ∨ 2 ^ 32 ≤ v.d)) ∧
      (∃ vs : List Val, u.dout = vs.map .val ∧ vs.length = 8 ∧
        ∀ i < 8, vs[i]? = ((H.next p).toList[i]?).bind fun h => u.cell (h.cell .d)) ∧
      u.hout = (H.next p).toList ++ ws.map (·.sub .d) ∧
      u.HoldsWord (H.next p).a (shaRound (BitVec.ofNat 32 (kRom t)) (BitVec.ofNat 32 wn) v.words).a.toNat ∧
      u.HoldsWord (H.next p).e (shaRound (BitVec.ofNat 32 (kRom t)) (BitVec.ofNat 32 wn) v.words).e.toNat

/-- INIT_WORD i, not the last entry of its command (46_facade.md R232), for its three sources: the IV constant with a COPY
of its FIXED cell, the item, or the previous digest word with a COPY of it; `STATE[i]` and `IV_USED[i]`. `UNSAT` is set
exactly when the item is not below 2^32 (or the digest cell, which no DIGEST leaves so). -/
def Obligations.InitWordResult : Prop :=
  ∀ (s : State) (w : CmdWord) (r : OpRec) (e : QEntry) (rest : List QEntry) (src : WordSource) (i : Nat) (h g : Path)
    (n : Nat),
    i ≤ 7 → h = ⟨s.blk, [.iv i]⟩ → s.q = ⟨w, r⟩ :: e :: rest → s.ready → n < Config.fieldP → s.fresh h = true →
    (src = .iv → n = ivRom i ∧ s.Reads (.fixIv i) n) →
    (src = .data → ∃ v, r = .value v ∧ (s.mode = .witness → v = .known n)) →
    (src = .digest → handle? s.dig i = some g ∧ s.Reads (g.cell .d) n) →
    ∃ u, exec (.initWord src i) s = .next u ∧
      Performed { s with q := e :: rest, stateReg := u.stateReg, ivUsed := u.ivUsed } u
        (wordCells h) (initWordCons h i g src) (decide (2 ^ 32 ≤ n)) ∧
      u.stateReg = s.stateReg.setIfInBounds i (some h) ∧ u.ivUsed = s.ivUsed.setIfInBounds i (some h) ∧
      u.HoldsWord h n

/-- The completion of INIT_IV and INIT_FROM (46_facade.md R231, R233) in the step of their last entry: `DOUT` is empty and
`HOUT` the eight handles of `STATE`. -/
def Obligations.InitCompletion : Prop :=
  ∀ (s : State) (w : CmdWord) (r : OpRec) (src : WordSource) (i : Nat) (h g : Path) (n : Nat) (hs : List Path),
    i ≤ 7 → h = ⟨s.blk, [.iv i]⟩ → s.q = [⟨w, r⟩] → s.ready → n < Config.fieldP → s.fresh h = true →
    (src = .iv → n = ivRom i ∧ s.Reads (.fixIv i) n) →
    (src = .data → ∃ v, r = .value v ∧ (s.mode = .witness → v = .known n)) →
    (src = .digest → handle? s.dig i = some g ∧ s.Reads (g.cell .d) n) →
    hs.length = 8 → hs[i]? = some h → (∀ j < 8, j ≠ i → handle? s.stateReg j = hs[j]?) →
    ∃ u, exec (.initWord src i) s = .next u ∧
      Performed { s with
          q := [], stateReg := s.stateReg.setIfInBounds i (some h), ivUsed := s.ivUsed.setIfInBounds i (some h),
          dout := [], hout := hs } u
        (wordCells h) (initWordCons h i g src) (decide (2 ^ 32 ≤ n)) ∧
      u.HoldsWord h n

/-- DIGEST_WORD i, not the last entry of its command (46_facade.md R239): the terminal state word plus the initial state
word of the block mod 2^32, `DIG[i]` its bundle; 8 cells, 5 instances, none false when both words are below 2^32. -/
def Obligations.DigestWordResult : Prop :=
  ∀ (s : State) (w : CmdWord) (r : OpRec) (e : QEntry) (rest : List QEntry) (i : Nat) (p a b : Path) (na nb : Nat),
    i ≤ 7 → p = ⟨s.blk, [.dg i]⟩ → s.q = ⟨w, r⟩ :: e :: rest → s.ready →
    handle? s.stateReg i = some a → handle? s.ivUsed i = some b → s.Reads (a.cell .d) na → s.Reads (b.cell .d) nb →
    na < Config.fieldP → nb < Config.fieldP → s.fresh p = true →
    ∃ u, exec (.digestWord i) s = .next u ∧
      Performed { s with q := e :: rest, dig := u.dig } u (modaddCells p) (modaddCons [a, b] 0 p)
        (decide (2 ^ 32 ≤ na ∨ 2 ^ 32 ≤ nb)) ∧
      u.dig = s.dig.setIfInBounds i (some (p.sub .r)) ∧
      u.HoldsWord (p.sub .r) (BitVec.ofNat 32 na + BitVec.ofNat 32 nb).toNat ∧
      u.cell (p.cell .c) = some (s.seen ((na % 2 ^ 32 + nb % 2 ^ 32) / 2 ^ 32))

/-- The completion of DIGEST (46_facade.md R240) in the step of its last entry: `DIG_VALID`, the eight digest values on
`DOUT` and the names of their dense cells on `HOUT`. -/
def Obligations.DigestCompletion : Prop :=
  ∀ (s : State) (w : CmdWord) (r : OpRec) (i : Nat) (p a b : Path) (na nb : Nat) (hs : List Path),
    i ≤ 7 → p = ⟨s.blk, [.dg i]⟩ → s.q = [⟨w, r⟩] → s.ready →
    handle? s.stateReg i = some a → handle? s.ivUsed i = some b → s.Reads (a.cell .d) na → s.Reads (b.cell .d) nb →
    na < Config.fieldP → nb < Config.fieldP → s.fresh p = true →
    hs.length = 8 → hs[i]? = some (p.sub .r) → (∀ j < 8, j ≠ i → handle? s.dig j = hs[j]?) →
    (∀ j < 8, j ≠ i → ∀ h, hs[j]? = some h → s.has (h.cell .d) = true) →
    ∃ u, exec (.digestWord i) s = .next u ∧
      Performed { s with
          q := [], dig := s.dig.setIfInBounds i (some (p.sub .r)), digValid := true, dout := u.dout,
          hout := hs.map (·.sub .d) } u
        (modaddCells p) (modaddCons [a, b] 0 p) (decide (2 ^ 32 ≤ na ∨ 2 ^ 32 ≤ nb)) ∧
      u.HoldsWord (p.sub .r) (BitVec.ofNat 32 na + BitVec.ofNat 32 nb).toNat ∧
      ∃ vs : List Val, u.dout = vs.map .val ∧ vs.length = 8 ∧
        ∀ j < 8, vs[j]? = (hs[j]?).bind fun h => u.cell (h.cell .d)

/-! ### Faults -/

/-- `MemWrite` by an internal operation (20_memory.md R64): `F_ASSIGN` for a name that exists, for a FIXED or TABLE name, and
for a refused request; otherwise the cell holds the value, or `Unknown` in SHAPE mode. The host gets one request, which
carries the value in both modes. -/
def Obligations.MemWriteRule : Prop :=
  ∀ (s : State) (cmd : CmdWord) (c : CellName) (v : Val),
    (s.has c = true ∨ c.kind ≠ .advice → assign cmd c v s = .error .raised (faultEntry .assign cmd s)) ∧
    (s.has c = false → c.kind = .advice → ∀ as, s.hostAnswers = false :: as →
      assign cmd c v s = .error .raised (faultEntry .assign cmd { s with
        hostAnswers := as, requests := .assign .adv c v :: s.requests })) ∧
    (s.has c = false → c.kind = .advice → s.hostAnswers.head? ≠ some false → ∃ t, assign cmd c v s = .ok () t ∧
      t = { s with mem := t.mem, hostAnswers := s.hostAnswers.tail, requests := t.requests } ∧
      t.cell c = some (if s.mode = .shape then .unknown else v) ∧
      t.requests = .assign .adv c v :: s.requests ∧
      ∀ c', c' ≠ c → t.cell c' = s.cell c')

/-- What an operation does about a missing operand. A cell that is not in `CELLS` raises `F_UNASSIGNED` with the word of the
operation that reads it or records an instance over it (20_memory.md R65, R71; for COPY see CopyResult), and an unwritten
handle register entry does too (10_state.md R34); an operand list whose length is not the word's `N` raises `F_OPERAND`
before anything is read or written (42_gates.md R164, R169). Where the first read of an operation raises, nothing has been
written. Where a later one does, in CH, SCHED and ROUND, the operations before it have been performed, since the model reads a
handle where the pseudocode names it (log 23); and LOOKUP in SHAPE mode, which does not read its input, has written its two
cells, the model's choice (log 24). For a `t` or `i` past its
register file, which no legal word has, this rests on log 22. The reads of a completion are not stated here (log 18). -/
def Obligations.OperandFaults : Prop :=
  ∀ (s : State) (e : QEntry) (rest : List QEntry), s.q = e :: rest →
    (∀ d lo hi, e.opnd = .recomb d lo hi → s.has d = false ∨ s.has lo = false ∨ s.has hi = false →
      exec .recomb s = .next (faultEntry .unassigned (encode .recomb) { s with q := rest })) ∧
    (∀ m c, e.opnd = .carry c → s.has c = false →
      exec (.carry m) s = .next (faultEntry .unassigned (encode (.carry m)) { s with q := rest })) ∧
    (∀ m d t sp, e.opnd = .lookup d t sp → s.mode = .witness → s.has d = false →
      exec (.lookup m) s = .next (faultEntry .unassigned (encode (.lookup m)) { s with q := rest })) ∧
    (∀ k d p, e.opnd = .range d p → s.mode = .witness → s.has d = false →
      exec (.range k) s = .next (faultEntry .unassigned (encode (.lookup 0)) { s with q := rest })) ∧
    (∀ l x p, e.opnd = .decomp x p → s.has (x.cell .d) = false →
      exec (.decomp l) s = .next (faultEntry .unassigned (encode (.decomp l)) { s with q := rest })) ∧
    (∀ k ops p, e.opnd = .extract ops p → ops.length = k → (∃ t ∈ ops.flatMap (·.terms), s.has t.2 = false) →
      exec (.extract k) s = .next (faultEntry .unassigned (encode (.extract k)) { s with q := rest })) ∧
    (∀ n ys K p, e.opnd = .modadd ys K p → ys.length = n → (∃ y ∈ ys, s.has (y.cell .d) = false) →
      exec (.modadd n) s = .next (faultEntry .unassigned (encode (.modadd n)) { s with q := rest })) ∧
    (∀ i l x p,
      (i = .ssig0 ∧ l = .ssig0) ∨ (i = .ssig1 ∧ l = .ssig1) ∨ (i = .bsig0 ∧ l = .bsig0) ∨ (i = .bsig1 ∧ l = .bsig1) →
      e.opnd = .sigma x p → s.has (x.cell .d) = false →
      exec i s = .next (faultEntry .unassigned (encode (.decomp l)) { s with q := rest })) ∧
    (∀ a b c p, e.opnd = .triple a b c p →
      (∃ h ∈ [a, b, c], s.has (h.cell .slo) = false ∨ s.has (h.cell .shi) = false) →
      exec .maj s = .next (faultEntry .unassigned (encode (.extract 3)) { s with q := rest })) ∧
    (∀ a b c p, e.opnd = .triple a b c p →
      (∃ h ∈ [a, b], s.has (h.cell .slo) = false ∨ s.has (h.cell .shi) = false) →
      exec .ch s = .next (faultEntry .unassigned (encode (.extract 2)) { s with q := rest })) ∧
    (∀ t, handle? s.w (t - 2) = none →
      exec (.sched t) s = .next (faultEntry .unassigned (encode (.sched t)) { s with q := rest })) ∧
    (∀ t i, i < 8 → handle? s.stateReg i = none →
      exec (.round t) s = .next (faultEntry .unassigned (encode (.round t)) { s with q := rest })) ∧
    (∀ i, handle? s.stateReg i = none ∨ handle? s.ivUsed i = none →
      exec (.digestWord i) s = .next (faultEntry .unassigned (encode (.digestWord i)) { s with q := rest })) ∧
    (∀ i a b, handle? s.stateReg i = some a → handle? s.ivUsed i = some b →
      s.has (a.cell .d) = false ∨ s.has (b.cell .d) = false →
      exec (.digestWord i) s = .next (faultEntry .unassigned (encode (.modadd 2)) { s with q := rest })) ∧
    (∀ i, (∀ g, handle? s.dig i = some g → s.has (g.cell .d) = false) →
      exec (.initWord .digest i) s
        = .next (faultEntry .unassigned (encode (.initWord .digest i)) { s with q := rest })) ∧
    (∀ k ops p, e.opnd = .extract ops p → ops.length ≠ k →
      exec (.extract k) s = .next (faultEntry .operand (encode (.extract k)) { s with q := rest })) ∧
    (∀ n ys K p, e.opnd = .modadd ys K p → ys.length ≠ n →
      exec (.modadd n) s = .next (faultEntry .operand (encode (.modadd n)) { s with q := rest })) ∧
    (s.ready →
      (∀ m d b lt ls, e.opnd = .lookup d (.adv ⟨b, lt⟩) (.adv ⟨b, ls⟩) → s.mode = .shape → s.has d = false →
        lt ≠ ls → d ≠ .adv ⟨b, lt⟩ → d ≠ .adv ⟨b, ls⟩ → s.has (.adv ⟨b, lt⟩) = false → s.has (.adv ⟨b, ls⟩) = false →
        RaisedAfter s rest (.lookup m) (exec (.lookup m) s) [.adv ⟨b, lt⟩, .adv ⟨b, ls⟩] []) ∧
      (∀ a b c p na nb, e.opnd = .triple a b c p → s.fresh p = true → s.ReadsWord a na → s.ReadsWord b nb →
        s.has (c.cell .slo) = false ∨ s.has (c.cell .shi) = false →
        (∀ g, c.cell g ∉ extractCells (p.sub .p)) →
        RaisedAfter s rest (.extract 2) (exec .ch s) (extractCells (p.sub .p))
          (extractCons (chOperandsP a b) (p.sub .p))) ∧
      (∀ t p w2 n2, p = ⟨s.blk, [.w t]⟩ → s.fresh p = true → handle? s.w (t - 2) = some w2 →
        s.Reads (w2.cell .d) n2 → n2 < Config.fieldP → handle? s.w (t - 15) = none →
        RaisedAfter s rest (.sched t) (exec (.sched t) s) (sigmaCells .ssig1 (p.sub .s1))
          (sigmaCons .ssig1 w2 (p.sub .s1))) ∧
      (∀ t p w2 w15 n2 n15, p = ⟨s.blk, [.w t]⟩ → s.fresh p = true → handle? s.w (t - 2) = some w2 →
        handle? s.w (t - 15) = some w15 → s.Reads (w2.cell .d) n2 → n2 < Config.fieldP → s.Reads (w15.cell .d) n15 →
        n15 < Config.fieldP → handle? s.w (t - 7) = none ∨ handle? s.w (t - 16) = none →
        RaisedAfter s rest (.sched t) (exec (.sched t) s)
          (sigmaCells .ssig1 (p.sub .s1) ++ sigmaCells .ssig0 (p.sub .s0))
          (sigmaCons .ssig1 w2 (p.sub .s1) ++ sigmaCons .ssig0 w15 (p.sub .s0))) ∧
      (∀ t p H v, p = ⟨s.blk, [.rIx t]⟩ → s.fresh p = true → s.stateReg = H.toFile → s.ReadsState H v →
        (∀ x ∈ v.toList, x < Config.fieldP) → handle? s.w t = none →
        RaisedAfter s rest (.round t) (exec (.round t) s) (sigmaCells .bsig1 (p.sub .s1) ++ chCells (p.sub .ch))
          (sigmaCons .bsig1 H.e (p.sub .s1) ++ chCons H.e H.f H.g (p.sub .ch))))

/-- The writes before a raise are kept, none after it is made (60_exceptions.md R256): WORD whose host refuses its n-th
request has written the cells before it, in the order of R152, and faults with the word of the innermost operation: its
own, or the LOOKUP's for the four cells LOOKUP writes (R253). -/
def Obligations.WordRefused : Prop :=
  ∀ (s : State) (w : CmdWord) (rest : List QEntry) (p : Path) (v : Val) (n : Nat) (as : List Bool),
    s.q = ⟨w, .word p v⟩ :: rest → s.booted = true → s.fresh p = true → n < 7 →
    s.hostAnswers = List.replicate n true ++ false :: as →
    ∃ u, exec .word s = .next u ∧
      u = faultEntry .assign (if n < 3 then encode .word else encode (.lookup 0)) { s with
        q := rest, mem := u.mem, cons := u.cons, unsat := u.unsat, requests := u.requests, hostAnswers := as } ∧
      Wrote s u ((wordCells p).take n) ∧ (∀ c ∈ (wordCells p).take n, u.has c = true) ∧
      u.cons = s.cons ++ (wordCons p).take (if n < 3 then 0 else if n < 5 then 1 else 2)

/-- Fault entry, for every step of a busy block that halts it (60_exceptions.md R253, R256): a code, Q and the outputs
empty, MODE, PHASE, B, CONFIG and TABLE unchanged, and every cell and instance kept. What the host sees of it and of every
state: the fields of `STATUS` bit by bit, the reserved bits 0 (10_state.md R30), `faultinfo_out` and `block_out` (R31), with
the codes of PHASE (R22) and of the faults (60_exceptions.md R250). -/
def Obligations.FaultEntry : Prop :=
  (∀ s t : State, s.resetIn = false → s.halted = false → s.q ≠ [] → step s = .next t → t.halted = true →
    t.faultCode ≠ .none ∧ t.q = [] ∧ t.dout = [] ∧ t.hout = [] ∧
    t.mode = s.mode ∧ t.phase = s.phase ∧ t.blk = s.blk ∧
    t.config = s.config ∧ t.table = s.table ∧ (s.unsat = true → t.unsat = true) ∧
    (∀ c v, s.cell c = some v → t.cell c = some v) ∧ (∃ ks, t.cons = s.cons ++ ks)) ∧
  (∀ s : State,
    s.status.getLsbD 0 = s.unsat ∧ s.status.getLsbD 1 = s.halted ∧ s.status.getLsbD 2 = (s.mode == .witness) ∧
    s.status.getLsbD 3 = (s.q != []) ∧ (s.status.extractLsb' 4 3).toNat = s.phase.code ∧
    s.status.getLsbD 7 = s.digValid ∧ (s.status.extractLsb' 8 8).toNat = s.faultCode.code ∧
    s.status.extractLsb' 16 16 = 0 ∧ s.faultinfoOut = s.faultInfo ∧ s.blockOut.toNat = s.blk % 2 ^ 32) ∧
  [Phase.reset, .conf, .ready, .state, .done, .digested].map Phase.code = [0, 1, 2, 3, 4, 5] ∧
  [FaultCause.none, .shape, .assign, .convert, .sequence, .illegal, .unassigned, .operand].map FaultCause.code
    = [0x00, 0x01, 0x02, 0x03, 0x04, 0x05, 0x06, 0x07]

/-! ### Invariants and rules of the whole machine -/

/-- Every step keeps the canonical form of the cell store: names falling by key, no TABLE cell listed, at most 3 * 2^16
TABLE cells counted. The form is the model's choice (log 9, log 10); the spec's `CELLS` is a map from names (10_state.md
R41). -/
def Obligations.StepKeepsMemoryCanonical : Prop :=
  ∀ s t : State, s.mem.wf = true → step s = .next t → t.mem.wf = true

/-- Equal contents are equal data: two canonical stores that read alike at every name are the same. It says of the form
the model chose (log 9, log 10) that it holds no more than the spec's map from names (10_state.md R41). -/
def Obligations.CanonicalMemoryExtensional : Prop :=
  ∀ (m m' : Memory) (cuts : TagCuts), m.wf = true → m'.wf = true → (∀ c, m.get cuts c = m'.get cuts c) → m = m'

/-- What no step without a reset undoes (10_state.md R21, R25, R42; 20_memory.md R64): cells are write-once, the log is
append-only, `UNSAT` is sticky and stays as it is in SHAPE mode, and MODE does not change. -/
def Obligations.StepOnlyAdds : Prop :=
  ∀ s t : State, s.resetIn = false → step s = .next t →
    (∀ c v, s.cell c = some v → t.cell c = some v) ∧ (∃ ks, t.cons = s.cons ++ ks) ∧
    (s.unsat = true → t.unsat = true) ∧ (s.mode = .shape → t.unsat = s.unsat) ∧ t.mode = s.mode

/-- A step of a busy block takes the head of Q and leaves the rest (or, at a fault, nothing); PHASE, B, MODE, CONFIG, TABLE
and what the host presents do not change (10_state.md R22, R24, R32, R39). -/
def Obligations.QueueStep : Prop :=
  ∀ (s t : State) (e : QEntry) (rest : List QEntry), s.resetIn = false → s.q = e :: rest → step s = .next t →
    (t.q = rest ∨ (t.halted = true ∧ t.q = [])) ∧ t.phase = s.phase ∧ t.blk = s.blk ∧ t.mode = s.mode ∧
    t.config = s.config ∧ t.table = s.table ∧ t.cmds = s.cmds

/-- The verdict invariant is kept by every step (20_memory.md R73): `UNSAT` says, at any time, whether some recorded
instance is false on the cells. -/
def Obligations.StepKeepsVerdict : Prop := ∀ s t : State, s.verdictInv → step s = .next t → t.verdictInv

/-- Every step keeps the values invariant (10_state.md R21; 20_memory.md R61, R63): FIXED cells hold their ROM constants in
both modes, ADVICE cells a known field element in WITNESS mode and `Unknown` in SHAPE mode. -/
def Obligations.StepKeepsValues : Prop := ∀ s t : State, s.valuesInv → step s = .next t → t.valuesInv

/-- Every step keeps the sequencer invariant, so no LOOKUP is recorded before LOAD (30_encoding.md R94; 41_table.md R139;
60_exceptions.md R262). -/
def Obligations.StepKeepsSequencer : Prop := ∀ s t : State, s.sequencerInv → step s = .next t → t.sequencerInv

/-- A block that keeps the sequencer invariant always has a step but when it is halted: no command and no queued operation
stops the model (10_state.md R26). That an idle block has a step, which changes nothing, and that a block whose `reset` is
high has one, which is the whole pulse, are the model's choices (log 12, log 2). -/
def Obligations.SequencerNeverStuck : Prop :=
  ∀ s : State, s.sequencerInv → s.resetIn = true ∨ s.halted = false → ∃ t, step s = .next t

/-- The reset state has every invariant, at either value of the pin; `State.reset` has the pin at 1 (the model's choice, log
3), and a reset of it is itself. A reset leaves the host's side alone (its commands, answers, the trace of requests, `mode_in`
and the parameters) and `reset` low (the model's choices, log 2). -/
def Obligations.ResetHasInvariants : Prop :=
  (∀ pin : Bool, (State.resetWith pin).mem.wf = true ∧ (State.resetWith pin).verdictInv ∧
    (State.resetWith pin).valuesInv ∧ (State.resetWith pin).sequencerInv) ∧
  State.reset = State.resetWith true ∧ step { State.reset with resetIn := true } = .next State.reset ∧
  ∀ s t : State, s.resetIn = true → step s = .next t →
    t.resetIn = false ∧ t.modeIn = s.modeIn ∧ t.cmds = s.cmds ∧ t.hostAnswers = s.hostAnswers ∧
    t.requests = s.requests ∧ t.tagCuts = s.tagCuts ∧ t.inst = s.inst

/-! ### Soundness of the recorded instances: any assignment, honest or not -/

/-- A word bundle whose three instances hold is range-proved (42_gates.md R153), and so is a piece whose RANGE instances
hold (41_table.md R141). -/
def Obligations.RangeProofs : Prop :=
  ∀ (cuts : TagCuts) (rd : CellName → Option Nat) (val : CellName → Nat), (∀ c, rd c = some (val c)) →
    (∀ c, val c < Config.fieldP) →
    (∀ h : Path, (∀ k ∈ wordCons h, k.holds cuts rd = some true) →
      val (h.cell .lo) < 2 ^ 16 ∧ val (h.cell .hi) < 2 ^ 16 ∧
      val (h.cell .d) = val (h.cell .lo) + 2 ^ 16 * val (h.cell .hi) ∧ val (h.cell .d) < 2 ^ 32 ∧
      termsValue val (spr h) = spread32 (val (h.cell .d))) ∧
    (∀ (w : Nat) (d : CellName) (p : Path), 1 ≤ w → w ≤ 16 → (∀ k ∈ rangeCons w d p, k.holds cuts rd = some true) →
      val d < 2 ^ w ∧ val (p.cell .s) = spread16 (val d))

/-- MODADD and EXTRACT are sound (42_gates.md R167, R172). When the instances of a MODADD and those of its input bundles
hold, the result is the sum mod 2^32 and the carry the quotient. For every `0 <= S < 4^32` there is exactly one pair of
32-bit values with `S = spread32(E) + 2 * spread32(O)`, namely the even and odd words of S, so when the instances of an
EXTRACT hold, its outputs are determined by the operand cells. -/
def Obligations.GatesSound : Prop :=
  (∀ S : Nat, S < 4 ^ 32 →
    even32 S < 2 ^ 32 ∧ odd32 S < 2 ^ 32 ∧ S = spread32 (even32 S) + 2 * spread32 (odd32 S) ∧
    ∀ E O : Nat, E < 2 ^ 32 → O < 2 ^ 32 → S = spread32 E + 2 * spread32 O → E = even32 S ∧ O = odd32 S) ∧
  (∀ (cuts : TagCuts) (rd : CellName → Option Nat) (val : CellName → Nat), (∀ c, rd c = some (val c)) →
    (∀ c, val c < Config.fieldP) →
    (∀ (ys : List Path) (K : Nat) (p : Path), ys.length ≤ 5 → K < 2 ^ 32 →
      (∀ y ∈ ys, ∀ k ∈ wordCons y, k.holds cuts rd = some true) →
      (∀ k ∈ modaddCons ys K p, k.holds cuts rd = some true) →
      val ((p.sub .r).cell .d) = ((ys.map fun y => val (y.cell .d)).sum + K) % 2 ^ 32 ∧
      val (p.cell .c) = ((ys.map fun y => val (y.cell .d)).sum + K) / 2 ^ 32) ∧
    (∀ (ops : List OperandExpr) (p : Path) (S : Nat), opsValue val ops = S → S < 4 ^ 32 →
      (∀ k ∈ extractCons ops p, k.holds cuts rd = some true) →
      val ((p.sub .e).cell .d) = even32 S ∧ val ((p.sub .o).cell .d) = odd32 S))

/-- One round is sound (45_compression.md R216): when every instance ROUND records holds and the nine words it reads are
range-proved, Σ1(e), Ch (as the sum of its two parts), T1, Σ0(a), Maj, T2, the new a and the new e are those of the round
function (R212), and so below 2^32, whatever the assignment. -/
def Obligations.RoundSound : Prop :=
  ∀ (cuts : TagCuts) (rd : CellName → Option Nat) (val : CellName → Nat), (∀ c, rd c = some (val c)) →
    (∀ c, val c < Config.fieldP) →
    ∀ (t : Nat) (H : Handles) (wh p : Path), t ≤ 63 →
      (∀ h ∈ wh :: H.toList, ∀ k ∈ wordCons h, k.holds cuts rd = some true) →
      (∀ k ∈ roundCons t H wh p, k.holds cuts rd = some true) →
      ∀ v : ShaState, H.toList.map (fun h => val (h.cell .d)) = v.words.map (·.toNat) →
        val ((sigmaResult (p.sub .s1)).cell .d) = (sigma .bsig1 v.e).toNat ∧
        val ((chP (p.sub .ch)).cell .d) + val ((chQ (p.sub .ch)).cell .d) = (chWord v.e v.f v.g).toNat ∧
        val ((sigmaResult (p.sub .s0)).cell .d) = (sigma .bsig0 v.a).toNat ∧
        val ((majResult (p.sub .maj)).cell .d) = (majWord v.a v.b v.c).toNat ∧
        val (((p.sub .t1).sub .r).cell .d)
          = (roundT1 (BitVec.ofNat 32 (kRom t)) (BitVec.ofNat 32 (val (wh.cell .d))) v).toNat ∧
        val (((p.sub .t2).sub .r).cell .d) = (roundT2 v).toNat ∧
        val ((H.next p).a.cell .d)
          = (shaRound (BitVec.ofNat 32 (kRom t)) (BitVec.ofNat 32 (val (wh.cell .d))) v).a.toNat ∧
        val ((H.next p).e.cell .d)
          = (shaRound (BitVec.ofNat 32 (kRom t)) (BitVec.ofNat 32 (val (wh.cell .d))) v).e.toNat

/-! ### The relation the block encodes -/

/-- The relation (46_facade.md R234, R237, R242): from every booted, waiting block whose host accepts, an INIT command (from
data S; from the IV, then S is the IV; or from the last digest, then S is its words), `COMPRESS [block]`, `DIGEST` run to
completion in 147 steps (the queue of COMPRESS has 128 entries: log 26) with no fault and `UNSAT` unchanged, write 12968
cells, record exactly the instances of `blockCons` (6560, and 8 copies for the sources `iv` and `digest`), and in WITNESS
mode leave on `DOUT` the SHA-256 compression of the block from S (in SHAPE mode eight `Unknown`). Of the compression named
here, the one worked example: from the IV, the padded block of "abc" gives the digest of 95_test_vectors.md V1. -/
def Obligations.HashRun : Prop :=
  shaCompress ⟨0x6a09e667, 0xbb67ae85, 0x3c6ef372, 0xa54ff53a, 0x510e527f, 0x9b05688c, 0x1f83d9ab, 0x5be0cd19⟩
    (0x61626380 :: List.replicate 14 0 ++ [0x00000018])
    = [0xba7816bf, 0x8f01cfea, 0x414140de, 0x5dae2223, 0xb00361a3, 0x96177a9c, 0xb410ff61, 0xf20015ad] ∧
  ∀ (s : State) (S : ShaState) (block : List Word32) (init : Presented) (rest : List Presented) (src : WordSource)
    (g : Nat → Path),
    s.waiting → s.ready → s.phase ≠ .reset → s.phase ≠ .conf → s.fresh ⟨s.blk + 1, []⟩ = true → block.length = 16 →
    (src = .data → init = ⟨encode (.initFrom .data), elemItems S.words⟩) →
    (src = .iv → init = ⟨encode .initIv, []⟩ ∧ S.words = (List.range 8).map (fun i => BitVec.ofNat 32 (ivRom i)) ∧
      ∀ i < 8, s.Reads (.fixIv i) (ivRom i)) →
    (src = .digest → init = ⟨encode (.initFrom .digest), []⟩ ∧ s.digValid = true ∧
      ∀ i < 8, handle? s.dig i = some (g i) ∧ s.Reads ((g i).cell .d) (S.words.getD i 0).toNat) →
    s.cmds = [init, ⟨encode .compress, elemItems block⟩, ⟨encode .digest, []⟩] ++ rest →
    ∃ t, s.after 147 = some t ∧ t.waiting ∧ t.unsat = s.unsat ∧ t.phase = .digested ∧ t.digValid = true ∧
      t.blk = s.blk + 1 ∧ t.cmds = rest ∧ t.cons = s.cons ++ blockCons (s.blk + 1) src g ∧
      t.cons.length = s.cons.length + (if src = .data then 6560 else 6568) ∧
      t.mem.cells.length = s.mem.cells.length + 12968 ∧
      t.dout = (shaCompress S block).map (fun w => .val (s.seen w.toNat)) ∧
      t.hout = (List.range 8).map (fun i => ⟨s.blk + 1, [.dg i, .r, .d]⟩)

/-- Every assignment of the cells, honest or not, that satisfies the instances SCHED_IN 0..15 and SCHED 16..63 record holds
the message schedule of its 16 input words, all below 2^32 (44_schedule.md R205); one that satisfies every instance
recorded for a block has in its digest cells the SHA-256 compression of the values in its 8 initial and 16 input word
cells, which are all below 2^32 (the converse of 46_facade.md R234). -/
def Obligations.HashSound : Prop :=
  ∀ (cuts : TagCuts) (rd : CellName → Option Nat) (val : CellName → Nat), (∀ c, rd c = some (val c)) →
    (∀ c, val c < Config.fieldP) → ∀ (b : Nat) (src : WordSource) (g : Nat → Path),
    ((∀ k ∈ scheduleCons b, k.holds cuts rd = some true) →
      ∃ block : List Word32,
        block.map (·.toNat) = (List.range 16).map (fun t => val ((wordPath b t).cell .d)) ∧
        (List.range 64).map (fun t => val ((wordHandle b t).cell .d)) = (schedule block).map (·.toNat)) ∧
    ((∀ k ∈ blockCons b src g, k.holds cuts rd = some true) →
      ∃ (S : ShaState) (block : List Word32),
        S.words.map (·.toNat) = (List.range 8).map (fun i => val ((ivPath b i).cell .d)) ∧
        block.map (·.toNat) = (List.range 16).map (fun t => val ((wordPath b t).cell .d)) ∧
        (List.range 8).map (fun i => val ((digestHandle b i).cell .d)) = (shaCompress S block).map (·.toNat))

/-- Shape independence (46_facade.md R241): two blocks that differ only in MODE, `UNSAT` and values (of cells, queued items,
outputs, requests and `din` field elements) still differ only in those after a step: names, instances, requests, faults
and every register go alike. A BITS_OF on the pins is given values that fit its width, since it faults by the value (R120);
its result in SHAPE mode is of the same length (log 16). -/
def Obligations.ShapeIndependence : Prop :=
  ∀ s s' t t' : State, s.sequencerInv → s.erased = s'.erased →
    (∀ c ∈ s.cmds ++ s'.cmds, ∀ x, .elem x ∈ c.din →
      x < Config.fieldP ∧ ∀ n, decode c.word = .ok (.bitsOf n) → x < 2 ^ widthBits n) →
    step s = .next t → step s' = .next t' → t.erased = t'.erased

/-- LOAD at once is LOAD cell by cell (41_table.md R133; log 10): the closed form the model uses for the 3 * 2^16 writes is
the loop of single writes, in their order, on every state in which no TABLE cell exists, for every answer of the host. -/
def Obligations.LoadIsItsLoop : Prop :=
  ∀ (s : State) (cmd : CmdWord), s.mem.tabCells = 0 →
    (∃ t t', loadTable cmd s = .ok () t ∧ loadLoop cmd tableCells s = .ok () t' ∧ t.expanded = t'.expanded) ∨
    (∃ t t', loadTable cmd s = .error .raised t ∧ loadLoop cmd tableCells s = .error .raised t' ∧
      t.expanded = t'.expanded)
end

