-- ==== Sys2Proof/Laws/Bits.lean ====
section
/-!
SUPPORT. The arithmetic of spread (00_scope.md R16; 40_codec.md R123, R125; 42_gates.md R165, R167): spread of a
concatenation and of a complement, and what the even and odd bits of a sum of spreads are.
-/

namespace Sys2Proof.Machine

@[simp] theorem spreadBits_zero : ∀ n, spreadBits n 0 = 0
  | 0 => rfl
  | n + 1 => by simp [spreadBits, spreadBits_zero n]

/-- No two set bits of a spread are adjacent: three of them still fit below 4^n. -/
theorem three_spreadBits_lt : ∀ n v, 3 * spreadBits n v < 4 ^ n
  | 0, _ => by simp [spreadBits]
  | n + 1, v => by
    have := three_spreadBits_lt n (v / 2)
    simp only [spreadBits, pow_succ]
    omega

/-- The spread of a number put together from a low and a high part. -/
theorem spreadBits_concat (m : Nat) :
    ∀ (k lo hi : Nat), lo < 2 ^ k → spreadBits (k + m) (lo + 2 ^ k * hi) = spreadBits k lo + 4 ^ k * spreadBits m hi
  | 0, lo, hi, h => by
    have : lo = 0 := by simpa using h
    simp [this, spreadBits]
  | k + 1, lo, hi, h => by
    have e : k + 1 + m = (k + m) + 1 := by omega
    have h1 : (lo + 2 ^ (k + 1) * hi) % 2 = lo % 2 := by
      rw [pow_succ, mul_comm (2 ^ k) 2, mul_assoc]; omega
    have h2 : (lo + 2 ^ (k + 1) * hi) / 2 = lo / 2 + 2 ^ k * hi := by
      rw [pow_succ, mul_comm (2 ^ k) 2, mul_assoc]; omega
    have h3 : lo / 2 < 2 ^ k := by rw [pow_succ] at h; omega
    rw [e, spreadBits, h1, h2, spreadBits_concat m k (lo / 2) hi h3, spreadBits, pow_succ]
    ring

/-- The spread of a number that fits in w bits does not depend on how many bits are taken. -/
theorem spreadBits_of_lt {v w n : Nat} (hv : v < 2 ^ w) (hw : w ≤ n) : spreadBits n v = spreadBits w v := by
  have := spreadBits_concat (n - w) w v 0 hv
  rw [show w + (n - w) = n by omega] at this
  simpa using this

theorem spread32_eq (x : Nat) : spread32 x = spreadBits 32 x := by
  have := spreadBits_concat 16 16 (x % 2 ^ 16) (x / 2 ^ 16) (Nat.mod_lt _ (by norm_num))
  rw [show x % 2 ^ 16 + 2 ^ 16 * (x / 2 ^ 16) = x by omega] at this
  rw [this]; rfl

theorem evenBits_lt : ∀ n S, evenBits n S < 2 ^ n
  | 0, _ => by simp [evenBits]
  | n + 1, S => by
    have := evenBits_lt n (S / 4)
    simp only [evenBits, pow_succ]
    omega

/-- Bits at 4^n and above do not matter. -/
theorem evenBits_mod : ∀ n S, evenBits n (S % 4 ^ n) = evenBits n S
  | 0, _ => rfl
  | n + 1, S => by
    have h1 : S % 4 ^ (n + 1) % 2 = S % 2 := by
      rw [pow_succ, mul_comm, Nat.mod_mul]; omega
    have h2 : S % 4 ^ (n + 1) / 4 = S / 4 % 4 ^ n := by
      rw [pow_succ, mul_comm, Nat.mod_mul]; omega
    rw [evenBits, h1, h2, evenBits_mod n (S / 4), evenBits]

/-- Every sum is the spread of its even bits plus twice the spread of its odd bits (42_gates.md R167). -/
theorem spreadBits_even_odd : ∀ n S, spreadBits n (evenBits n S) + 2 * spreadBits n (evenBits n (S / 2)) = S % 4 ^ n
  | 0, S => by simp [spreadBits, Nat.mod_one]
  | n + 1, S => by
    have ih := spreadBits_even_odd n (S / 4)
    have e1 : evenBits (n + 1) S % 2 = S % 2 := by simp only [evenBits]; omega
    have e2 : evenBits (n + 1) S / 2 = evenBits n (S / 4) := by simp only [evenBits]; omega
    have o1 : evenBits (n + 1) (S / 2) % 2 = S / 2 % 2 := by simp only [evenBits]; omega
    have o2 : evenBits (n + 1) (S / 2) / 2 = evenBits n (S / 4 / 2) := by
      simp only [evenBits]
      rw [show S / 2 / 4 = S / 4 / 2 by omega]; omega
    rw [spreadBits, spreadBits, e1, e2, o1, o2, pow_succ, mul_comm (4 ^ n) 4, Nat.mod_mul]
    omega

/-! ### Even and odd bits of a sum of up to three spreads (42_gates.md R165) -/

theorem xor_mod_two (a b : Nat) : (a ^^^ b) % 2 = (a % 2 + b % 2) % 2 := by
  have h := Nat.xor_mod_two_pow (a := a) (b := b) (n := 1)
  rw [pow_one] at h
  rw [h]
  rcases Nat.mod_two_eq_zero_or_one a with ha | ha <;> rcases Nat.mod_two_eq_zero_or_one b with hb | hb <;>
    rw [ha, hb] <;> rfl

theorem and_mod_two (a b : Nat) : (a &&& b) % 2 = a % 2 * (b % 2) := by
  have h := Nat.and_mod_two_pow (a := a) (b := b) (n := 1)
  rw [pow_one] at h
  rw [h]
  rcases Nat.mod_two_eq_zero_or_one a with ha | ha <;> rcases Nat.mod_two_eq_zero_or_one b with hb | hb <;>
    rw [ha, hb] <;> rfl

theorem evenBits_spread3 : ∀ n a b c, a < 2 ^ n → b < 2 ^ n → c < 2 ^ n →
    evenBits n (spreadBits n a + spreadBits n b + spreadBits n c) = a ^^^ b ^^^ c
  | 0, a, b, c, ha, hb, hc => by
    have : a = 0 := by simpa using ha
    have : b = 0 := by simpa using hb
    have : c = 0 := by simpa using hc
    subst_vars; rfl
  | n + 1, a, b, c, ha, hb, hc => by
    rw [pow_succ] at ha hb hc
    have ih := evenBits_spread3 n (a / 2) (b / 2) (c / 2) (by omega) (by omega) (by omega)
    have h1 : (a ^^^ b ^^^ c) % 2 = (a % 2 + b % 2 + c % 2) % 2 := by
      rw [xor_mod_two, xor_mod_two]; omega
    have h2 : (a ^^^ b ^^^ c) / 2 = a / 2 ^^^ b / 2 ^^^ c / 2 := by
      rw [Nat.xor_div_two, Nat.xor_div_two]
    simp only [evenBits, spreadBits]
    rw [show (a % 2 + 4 * spreadBits n (a / 2) + (b % 2 + 4 * spreadBits n (b / 2))
        + (c % 2 + 4 * spreadBits n (c / 2))) / 4
        = spreadBits n (a / 2) + spreadBits n (b / 2) + spreadBits n (c / 2) by omega, ih, ← h2]
    omega

theorem oddBits_spread3 : ∀ n a b c, a < 2 ^ n → b < 2 ^ n → c < 2 ^ n →
    evenBits n ((spreadBits n a + spreadBits n b + spreadBits n c) / 2) = (a &&& b) ^^^ (a &&& c) ^^^ (b &&& c)
  | 0, a, b, c, ha, hb, hc => by
    have : a = 0 := by simpa using ha
    have : b = 0 := by simpa using hb
    have : c = 0 := by simpa using hc
    subst_vars; rfl
  | n + 1, a, b, c, ha, hb, hc => by
    rw [pow_succ] at ha hb hc
    have ih := oddBits_spread3 n (a / 2) (b / 2) (c / 2) (by omega) (by omega) (by omega)
    have h1 : ((a &&& b) ^^^ (a &&& c) ^^^ (b &&& c)) % 2 = (a % 2 + b % 2 + c % 2) / 2 := by
      rw [xor_mod_two, xor_mod_two, and_mod_two, and_mod_two, and_mod_two]
      rcases Nat.mod_two_eq_zero_or_one a with ha | ha <;> rcases Nat.mod_two_eq_zero_or_one b with hb | hb <;>
        rcases Nat.mod_two_eq_zero_or_one c with hc | hc <;> rw [ha, hb, hc]
    have h2 : ((a &&& b) ^^^ (a &&& c) ^^^ (b &&& c)) / 2
        = (a / 2 &&& b / 2) ^^^ (a / 2 &&& c / 2) ^^^ (b / 2 &&& c / 2) := by
      rw [Nat.xor_div_two, Nat.xor_div_two, Nat.and_div_two, Nat.and_div_two, Nat.and_div_two]
    simp only [evenBits, spreadBits]
    rw [show (a % 2 + 4 * spreadBits n (a / 2) + (b % 2 + 4 * spreadBits n (b / 2))
        + (c % 2 + 4 * spreadBits n (c / 2))) / 2 / 4
        = (spreadBits n (a / 2) + spreadBits n (b / 2) + spreadBits n (c / 2)) / 2 by omega, ih, ← h2]
    omega

theorem evenBits_spread2 {n a b : Nat} (ha : a < 2 ^ n) (hb : b < 2 ^ n) :
    evenBits n (spreadBits n a + spreadBits n b) = a ^^^ b := by
  simpa using evenBits_spread3 n a b 0 ha hb (by positivity)

theorem oddBits_spread2 {n a b : Nat} (ha : a < 2 ^ n) (hb : b < 2 ^ n) :
    evenBits n ((spreadBits n a + spreadBits n b) / 2) = a &&& b := by
  simpa using oddBits_spread3 n a b 0 ha hb (by positivity)

/-- `even32(spread32(x)) = x`, `odd32(spread32(x)) = 0` come from these with one operand (40_codec.md R123). -/
theorem evenBits_spread1 {n a : Nat} (ha : a < 2 ^ n) : evenBits n (spreadBits n a) = a := by
  simpa using evenBits_spread3 n a 0 0 ha (by positivity) (by positivity)

theorem oddBits_spread1 {n a : Nat} (ha : a < 2 ^ n) : evenBits n (spreadBits n a / 2) = 0 := by
  simpa using oddBits_spread3 n a 0 0 ha (by positivity) (by positivity)

/-- The spread of a complement (40_codec.md R125). -/
theorem spreadBits_compl : ∀ n x, x < 2 ^ n → spreadBits n (2 ^ n - 1 - x) + spreadBits n x = spreadBits n (2 ^ n - 1)
  | 0, x, h => by simp [spreadBits]
  | n + 1, x, h => by
    rw [pow_succ] at h
    have ih := spreadBits_compl n (x / 2) (by omega)
    have hp : 0 < 2 ^ n := by positivity
    have e1 : (2 ^ (n + 1) - 1 - x) % 2 = 1 - x % 2 := by rw [pow_succ]; omega
    have e2 : (2 ^ (n + 1) - 1 - x) / 2 = 2 ^ n - 1 - x / 2 := by rw [pow_succ]; omega
    have e3 : (2 ^ (n + 1) - 1) % 2 = 1 := by rw [pow_succ]; omega
    have e4 : (2 ^ (n + 1) - 1) / 2 = 2 ^ n - 1 := by rw [pow_succ]; omega
    simp only [spreadBits]
    rw [e1, e2, e3, e4, ← ih]
    omega

theorem spreadBits_ones_32 : spreadBits 32 (2 ^ 32 - 1) = 0x5555555555555555 := by decide +kernel

end Sys2Proof.Machine
end

