-- ==== Sys2Proof/Laws/Sha.lean ====
section
/-!
SUPPORT. The message schedule of SHA-256 word by word (44_schedule.md R201), and the words of a state.
-/

namespace Sys2Proof.Machine

open Sys2Proof

theorem nextWord_of_agree {ws vs : List Word32} {t : Nat} (h : ∀ j < t, ws.getD j 0 = vs.getD j 0) (ht : 16 ≤ t) :
    nextWord ws t = nextWord vs t := by
  unfold nextWord
  rw [h (t - 2) (by omega), h (t - 7) (by omega), h (t - 15) (by omega), h (t - 16) (by omega)]

/-- Extending a schedule of at least 16 words keeps its words and gives each further word from the ones before it. -/
theorem extendSchedule_spec : ∀ (n : Nat) (ws : List Word32), 16 ≤ ws.length →
    (extendSchedule n ws).length = ws.length + n ∧
    (∀ j < ws.length, (extendSchedule n ws).getD j 0 = ws.getD j 0) ∧
    (∀ t, ws.length ≤ t → t < ws.length + n → (extendSchedule n ws).getD t 0 = nextWord (extendSchedule n ws) t)
  | 0, ws, _ => ⟨rfl, fun _ _ => rfl, fun t h1 h2 => by omega⟩
  | n + 1, ws, h => by
    obtain ⟨h1, h2, h3⟩ := extendSchedule_spec n (ws ++ [nextWord ws ws.length]) (by simp; omega)
    have len : (ws ++ [nextWord ws ws.length]).length = ws.length + 1 := by simp
    rw [len] at h1 h2 h3
    have keep : ∀ j < ws.length, (ws ++ [nextWord ws ws.length]).getD j 0 = ws.getD j 0 := by
      intro j hj
      rw [List.getD_append _ _ _ _ hj]
    have old : ∀ j < ws.length, (extendSchedule (n + 1) ws).getD j 0 = ws.getD j 0 := by
      intro j hj
      rw [extendSchedule, h2 j (by omega), keep j hj]
    refine ⟨by rw [extendSchedule, h1]; omega, old, fun t ht1 ht2 => ?_⟩
    rcases Nat.lt_or_ge ws.length t with hlt | hge
    · exact h3 t (by omega) (by omega)
    · have : t = ws.length := by omega
      subst this
      rw [nextWord_of_agree (fun j hj => old j hj) h, extendSchedule, h2 _ (by omega)]
      rw [List.getD_append_right _ _ _ _ le_rfl]
      simp

theorem schedule_length {block : List Word32} (h : block.length = 16) : (schedule block).length = 64 := by
  unfold schedule
  rw [(extendSchedule_spec 48 block (by omega)).1, h]

/-- The first 16 words are the block's. -/
theorem schedule_block {block : List Word32} (h : block.length = 16) {t : Nat} (ht : t < 16) :
    (schedule block).getD t 0 = block.getD t 0 :=
  (extendSchedule_spec 48 block (by omega)).2.1 t (by omega)

/-- `W[t] = σ1(W[t−2]) + W[t−7] + σ0(W[t−15]) + W[t−16]` (44_schedule.md R201). -/
theorem schedule_next {block : List Word32} (h : block.length = 16) {t : Nat} (h1 : 16 ≤ t) (h2 : t < 64) :
    (schedule block).getD t 0 = sigma .ssig1 ((schedule block).getD (t - 2) 0) + (schedule block).getD (t - 7) 0
      + sigma .ssig0 ((schedule block).getD (t - 15) 0) + (schedule block).getD (t - 16) 0 :=
  (extendSchedule_spec 48 block (by omega)).2.2 t (by omega) (by omega)

theorem words_length (s : ShaState) : s.words.length = 8 := rfl

/-- A list of eight words is the words of a state. -/
theorem words_ofWords {l : List Word32} (h : l.length = 8) : (ShaState.ofWords l).words = l := by
  match l, h with
  | [_, _, _, _, _, _, _, _], _ => rfl

end Sys2Proof.Machine
end

