-- ==== Sys2Proof/Laws/Config.lean ====
section
/-! SUPPORT. What is known of the field order: it is a prime above 2^66 (00_scope.md R10), and nothing else. -/

namespace Sys2Proof.Config

theorem fieldP_spec : max (2 ^ 66 + 1) fieldSeed ≤ fieldP ∧ Nat.Prime fieldP :=
  Nat.find_spec (Nat.exists_infinite_primes (max (2 ^ 66 + 1) fieldSeed))

theorem fieldP_prime : Nat.Prime fieldP := fieldP_spec.2

theorem fieldP_gt : 2 ^ 66 < fieldP :=
  Nat.lt_of_lt_of_le (Nat.lt_succ_self _) (le_trans (le_max_left _ _) fieldP_spec.1)

end Sys2Proof.Config
end

