-- ==== Sys2Proof/Laws/Field.lean ====
section
/-! SUPPORT. Reduction into the field: `red x` is `x mod p`, and the number itself when it is below p. -/

namespace Sys2Proof.Machine

open Sys2Proof

/-- `red` is the residue mod p (00_scope.md R15). -/
theorem red_eq_emod (x : Int) : (red x : Int) = x % (Config.fieldP : Int) := by
  have hp := Config.fieldP_gt
  unfold red
  split
  · rename_i h
    rw [Int.toNat_of_nonneg h.1, Int.emod_eq_of_lt h.1]
    have : ((2 : Int) ^ 66) < (Config.fieldP : Int) := by exact_mod_cast hp
    omega
  · exact Int.toNat_of_nonneg (Int.emod_nonneg _ (by omega))

theorem red_lt (x : Int) : red x < Config.fieldP := by
  have hp := Config.fieldP_gt
  have h := red_eq_emod x
  have := Int.emod_lt_of_pos x (show (0 : Int) < Config.fieldP by omega)
  omega

theorem red_of_lt {n : Nat} (h : n < Config.fieldP) : red (n : Int) = n := by
  have e := red_eq_emod (n : Int)
  rw [Int.emod_eq_of_lt (by omega) (by exact_mod_cast h)] at e
  exact_mod_cast e

/-- Two integers are equal in the field exactly when p divides their difference. -/
theorem red_eq_iff (x y : Int) : red x = red y ↔ (Config.fieldP : Int) ∣ x - y := by
  have hx := red_eq_emod x
  have hy := red_eq_emod y
  rw [← Int.emod_emod_of_dvd x (dvd_refl (Config.fieldP : Int))] at hx
  constructor
  · intro h
    have : x % (Config.fieldP : Int) = y % (Config.fieldP : Int) := by
      rw [← red_eq_emod x, ← red_eq_emod y, h]
    exact Int.ModEq.dvd (Int.ModEq.symm this)
  · intro h
    have : y % (Config.fieldP : Int) = x % (Config.fieldP : Int) := (Int.modEq_iff_dvd.mpr h)
    have e : (red x : Int) = red y := by rw [red_eq_emod, red_eq_emod, this]
    exact_mod_cast e

/-- Naturals below p are equal in the field exactly when they are equal. -/
theorem red_natCast_inj {m n : Nat} (hm : m < Config.fieldP) (hn : n < Config.fieldP) :
    red (m : Int) = red (n : Int) ↔ m = n := by
  rw [red_of_lt hm, red_of_lt hn]

theorem isFieldElem_iff (n : Nat) : isFieldElem n = true ↔ n < Config.fieldP := by
  have hp := Config.fieldP_gt
  unfold isFieldElem
  simp only [Bool.or_eq_true, decide_eq_true_eq]
  constructor
  · rintro (h | h)
    · exact lt_trans (by simpa [Nat.blt] using h) hp
    · exact h
  · exact Or.inr

/-! ### Predicates read the named cells only (20_memory.md R70) -/

theorem sumTerms_congr {rd rd' : CellName → Option Nat} :
    ∀ {ts : List Term}, (∀ c ∈ ts.map Prod.snd, rd c = rd' c) → sumTerms rd ts = sumTerms rd' ts
  | [], _ => rfl
  | (_, y) :: ts, h => by
    simp only [sumTerms, h y (by simp), sumTerms_congr (ts := ts) fun c hc => h c (List.mem_cons_of_mem _ hc)]

theorem sumCells_congr {rd rd' : CellName → Option Nat} :
    ∀ {ys : List CellName}, (∀ c ∈ ys, rd c = rd' c) → sumCells rd ys = sumCells rd' ys
  | [], _ => rfl
  | y :: ys, h => by
    simp only [sumCells, h y (by simp), sumCells_congr (ys := ys) fun c hc => h c (List.mem_cons_of_mem _ hc)]

theorem holds_congr {cuts : TagCuts} {rd rd' : CellName → Option Nat} {k : Constraint}
    (h : ∀ c ∈ k.cells, rd c = rd' c) : k.holds cuts rd = k.holds cuts rd' := by
  cases k <;> simp only [Constraint.cells, List.forall_mem_append, List.forall_mem_cons] at h <;>
    simp only [Constraint.holds]
  case lookup => rw [h.1, h.2.1, h.2.2.1]
  case recomb => rw [h.1, h.2.1, h.2.2.1]
  case lin => rw [h.1, sumTerms_congr h.2]
  case spreadsum => rw [sumTerms_congr h.1, h.2.1, h.2.2.1, h.2.2.2.1, h.2.2.2.2.1]
  case modsum => rw [sumCells_congr h.1, h.2.1, h.2.2.1]
  case carry => rw [h.1]
  case copy => rw [h.1, h.2.1]

end Sys2Proof.Machine
end

