-- ==== Sys2Proof/Laws/Memory.lean ====
section
/-!
SUPPORT. The cell store: keys are faithful, a write is read back and leaves every other cell alone, every write keeps
the canonical form, and equal stores are equal data (10_state.md R41; log 9).
-/

namespace Sys2Proof.Machine

/-! ### The order of keys -/

@[simp] theorem blt_eq (a b : Nat) : Nat.blt a b = decide (a < b) := by
  by_cases h : a < b
  · simp only [h, decide_true]; exact Nat.ble_eq_true_of_le h
  · simp only [h, decide_false, Bool.eq_false_iff]
    exact fun hb => h (Nat.le_of_ble_eq_true hb)

@[simp] theorem ble_eq (a b : Nat) : Nat.ble a b = decide (a ≤ b) := by
  by_cases h : a ≤ b
  · simp only [h, decide_true]; exact Nat.ble_eq_true_of_le h
  · simp only [h, decide_false, Bool.eq_false_iff]
    exact fun hb => h (Nat.le_of_ble_eq_true hb)

theorem keyCmp_eq_iff : ∀ a b : List Nat, keyCmp a b = .eq ↔ a = b
  | [], [] => by simp [keyCmp]
  | [], _ :: _ => by simp [keyCmp]
  | _ :: _, [] => by simp [keyCmp]
  | a :: as, b :: bs => by
    have ih := keyCmp_eq_iff as bs
    simp only [keyCmp, blt_eq, decide_eq_true_eq, List.cons.injEq]
    split
    · simp; omega
    · split
      · simp; omega
      · rw [ih]
        constructor
        · exact fun h => ⟨by omega, h⟩
        · exact fun h => h.2

theorem keyCmp_swap : ∀ a b : List Nat, keyCmp b a = .lt ↔ keyCmp a b = .gt
  | [], [] => by simp [keyCmp]
  | [], _ :: _ => by simp [keyCmp]
  | _ :: _, [] => by simp [keyCmp]
  | a :: as, b :: bs => by
    have ih := keyCmp_swap as bs
    simp only [keyCmp, blt_eq, decide_eq_true_eq]
    split
    · have : ¬ a < b := by omega
      simp_all
    · split
      · simp
      · exact ih

theorem keyCmp_gt_trans : ∀ {a b c : List Nat}, keyCmp a b = .gt → keyCmp b c = .gt → keyCmp a c = .gt
  | [], [], _, h, _ => by simp [keyCmp] at h
  | [], _ :: _, _, h, _ => by simp [keyCmp] at h
  | _ :: _, _, [], _, _ => by simp [keyCmp]
  | _ :: _, [], _ :: _, _, h => by simp [keyCmp] at h
  | a :: as, b :: bs, c :: cs, h, h' => by
    have ih := @keyCmp_gt_trans as bs cs
    simp only [keyCmp, blt_eq, decide_eq_true_eq] at h h' ⊢
    split at h
    · cases h
    · split at h'
      · cases h'
      · split
        · exfalso
          split at h <;> split at h' <;> omega
        · split
          · rfl
          · split at h
            · omega
            · split at h'
              · omega
              · exact ih h h'

@[simp] theorem keyCmp_self (a : List Nat) : keyCmp a a = .eq := (keyCmp_eq_iff a a).mpr rfl

/-! ### Keys are faithful -/

theorem seg_key_injective {g g' : Seg} (hr : g.rank = g'.rank) (hi : g.index = g'.index) : g = g' := by
  cases g <;> cases g' <;> simp_all [Seg.rank, Seg.index]

theorem segsKey_injective : ∀ {a b : List Seg}, segsKey a = segsKey b → a = b
  | [], [], _ => rfl
  | [], _ :: _, h => by simp [segsKey] at h
  | _ :: _, [], h => by simp [segsKey] at h
  | g :: gs, g' :: gs', h => by
    simp only [segsKey, List.cons.injEq] at h
    rw [seg_key_injective h.1 h.2.1, segsKey_injective h.2.2]

theorem tabIndex_injective {a b : TabCol} {v w : Nat} (h : tabIndex a v = tabIndex b w) : a = b ∧ v = w := by
  cases a <;> cases b <;> simp only [tabIndex] at h <;> first | (refine ⟨rfl, ?_⟩; omega) | omega

theorem CellName.key_injective {a b : CellName} (h : a.key = b.key) : a = b := by
  cases a with
  | fixK t => cases b <;> simp_all [CellName.key]
  | fixIv i => cases b <;> simp_all [CellName.key]
  | tab col v =>
    cases b with
    | tab col' v' =>
      simp only [CellName.key, List.cons.injEq, and_true, true_and] at h
      rw [(tabIndex_injective h).1, (tabIndex_injective h).2]
    | _ => simp [CellName.key] at h
  | adv p =>
    cases b with
    | adv p' =>
      cases p; cases p'
      simp only [CellName.key, List.cons.injEq, true_and] at h
      rw [h.1, segsKey_injective h.2]
    | _ => simp [CellName.key] at h

theorem keyCmp_key {a b : CellName} : keyCmp a.key b.key = .eq ↔ a = b :=
  ⟨fun h => CellName.key_injective ((keyCmp_eq_iff _ _).mp h), fun h => by rw [h, keyCmp_self]⟩

/-! ### Reading and writing the list -/

theorem findCell_insertCell_self (c : CellName) (v : Val) :
    ∀ l, findCell c.key (insertCell c v l) = some v
  | [] => by simp [insertCell, findCell]
  | (c', v') :: rest => by
    unfold insertCell
    split
    · simp [findCell]
    · simp [findCell]
    · rename_i h
      rw [findCell, h]
      exact findCell_insertCell_self c v rest

theorem findCell_insertCell_ne {c c' : CellName} (hne : c' ≠ c) (v : Val) :
    ∀ l, findCell c'.key (insertCell c v l) = findCell c'.key l
  | [] => by
    have : keyCmp c'.key c.key ≠ .eq := fun h => hne (keyCmp_key.mp h)
    simp only [insertCell, findCell]
    split <;> simp_all
  | (d, w) :: rest => by
    have hc : keyCmp c'.key c.key ≠ .eq := fun h => hne (keyCmp_key.mp h)
    unfold insertCell
    split
    · rename_i h
      have : d = c := (keyCmp_key.mp h).symm
      subst this
      simp only [findCell]
      split <;> simp_all
    · rename_i h
      simp only [findCell]
      cases hcc : keyCmp c'.key c.key with
      | eq => exact absurd hcc hc
      | lt => rfl
      | gt => simp only [keyCmp_gt_trans hcc h]
    · rename_i h
      simp only [findCell]
      cases hcd : keyCmp c'.key d.key with
      | eq => rfl
      | gt => rfl
      | lt => exact findCell_insertCell_ne hne v rest

/-- A listed cell is found under its own name only. -/
theorem mem_of_findCell {k : List Nat} {v : Val} : ∀ {l}, findCell k l = some v → ∃ e ∈ l, e.1.key = k ∧ e.2 = v
  | [], h => by simp [findCell] at h
  | (c, w) :: rest, h => by
    rw [findCell] at h
    split at h
    · rename_i hk
      exact ⟨(c, w), List.mem_cons_self, ((keyCmp_eq_iff _ _).mp hk).symm, by simpa using h⟩
    · cases h
    · obtain ⟨e, he, hke⟩ := mem_of_findCell h
      exact ⟨e, List.mem_cons_of_mem _ he, hke⟩

/-! ### The store -/

theorem Memory.get_insert_self (m : Memory) (cuts : TagCuts) (c : CellName) (v : Val) (h : c.kind ≠ .table) :
    (m.insert c v).get cuts c = some v := by
  cases c <;> simp_all [CellName.kind, Memory.insert, Memory.get, findCell_insertCell_self]

theorem Memory.get_insert_ne (m : Memory) (cuts : TagCuts) {c c' : CellName} (v : Val) (h : c' ≠ c) :
    (m.insert c v).get cuts c' = m.get cuts c' := by
  cases c' <;> simp_all [Memory.insert, Memory.get, findCell_insertCell_ne]

@[simp] theorem Memory.insert_tabCells (m : Memory) (c : CellName) (v : Val) :
    (m.insert c v).tabCells = m.tabCells := rfl

theorem insertCell_ne_nil (c : CellName) (v : Val) (l) : insertCell c v l ≠ [] := by
  cases l with
  | nil => simp [insertCell]
  | cons e rest => obtain ⟨d, w⟩ := e; simp only [insertCell]; split <;> simp

/-- What stands first in the list after a write stood first before, or is the cell written. -/
theorem insertCell_head (c : CellName) (v : Val) (l) :
    ∃ e rest, insertCell c v l = e :: rest ∧ (e.1 = c ∨ l.head? = some e) := by
  cases l with
  | nil => exact ⟨(c, v), [], rfl, Or.inl rfl⟩
  | cons e rest =>
    obtain ⟨d, w⟩ := e
    simp only [insertCell]
    split
    · exact ⟨_, _, rfl, Or.inl rfl⟩
    · exact ⟨_, _, rfl, Or.inl rfl⟩
    · exact ⟨_, _, rfl, Or.inr rfl⟩

theorem cellsFalling_insert (c : CellName) (v : Val) : ∀ l, cellsFalling l = true → cellsFalling (insertCell c v l) = true
  | [], _ => rfl
  | [(d, w)], _ => by
    simp only [insertCell]
    split
    · rfl
    · rename_i h; simp [cellsFalling, h]
    · rename_i h
      simp [cellsFalling, (keyCmp_swap _ _).mp h]
  | (d, w) :: (d', w') :: rest, h => by
    simp only [cellsFalling, Bool.and_eq_true, beq_iff_eq] at h
    have ih := cellsFalling_insert c v ((d', w') :: rest) h.2
    rw [insertCell]
    split
    · rename_i hk
      have : c = d := keyCmp_key.mp hk
      subst this
      simp [cellsFalling, h.1, h.2]
    · rename_i hk; simp [cellsFalling, hk, h.1, h.2]
    · rename_i hk
      have hd : keyCmp d.key c.key = .gt := (keyCmp_swap _ _).mp hk
      obtain ⟨e, tail, he, hh⟩ := insertCell_head c v ((d', w') :: rest)
      rw [he] at ih ⊢
      simp only [cellsFalling, Bool.and_eq_true, beq_iff_eq]
      refine ⟨?_, ih⟩
      rcases hh with hh | hh
      · rw [hh]; exact hd
      · simp only [List.head?_cons, Option.some.injEq] at hh
        rw [← hh]; exact h.1

theorem all_insertCell {p : CellName × Val → Bool} {c : CellName} {v : Val} (hc : p (c, v) = true) :
    ∀ {l}, l.all p = true → (insertCell c v l).all p = true
  | [], _ => by simp [insertCell, hc]
  | (d, w) :: rest, h => by
    simp only [List.all_cons, Bool.and_eq_true] at h
    simp only [insertCell]
    split
    · simp [hc, h.2]
    · simp only [List.all_cons, hc, h.1, h.2, Bool.and_self]
    · simp only [List.all_cons, h.1, all_insertCell hc h.2, Bool.and_self]

/-- A write of a FIXED or ADVICE cell keeps the canonical form. -/
theorem Memory.wf_insert {m : Memory} {c : CellName} (v : Val) (hc : c.kind ≠ .table) (h : m.wf = true) :
    (m.insert c v).wf = true := by
  simp only [Memory.wf, Bool.and_eq_true, Memory.insert] at h ⊢
  exact ⟨cellsFalling_insert c v _ h.1, all_insertCell (by simpa using hc) h.2.1, h.2.2⟩

/-- LOAD's count of TABLE cells keeps the canonical form. -/
theorem Memory.wf_tabCells {m : Memory} {n : Nat} (hn : n ≤ tableCells) (h : m.wf = true) :
    ({ m with tabCells := n } : Memory).wf = true := by
  simp only [Memory.wf, Bool.and_eq_true, ble_eq, decide_eq_true_eq] at h ⊢
  exact ⟨h.1, h.2.1, hn⟩

theorem Memory.wf_empty : (⟨[], 0⟩ : Memory).wf = true := by decide

/-- The number of listed cells grows by one when the name had no entry. -/
theorem length_insertCell {c : CellName} {v : Val} :
    ∀ {l}, findCell c.key l = none → (insertCell c v l).length = l.length + 1
  | [], _ => rfl
  | (d, w) :: rest, h => by
    rw [findCell] at h
    rw [insertCell]
    split at h
    · cases h
    · rename_i hk; simp only [List.length_cons]
    · rename_i hk; simp only [List.length_cons, length_insertCell h]

end Sys2Proof.Machine
end

