-- ==== Sys2Proof/Laws/Ops.lean ====
section
/-!
SUPPORT. The shared operations: how computations compose, what each operation does when it succeeds, and `Ext`, what a
successful run of gate operations below one name prefix leaves: the rest of the state, every other cell, the constraint
log grown by exactly the listed instances.
-/

namespace Sys2Proof.Machine

open Sys2Proof

/-! ### Composition -/

theorem bind_ok {α β : Type} {m : M α} {f : α → M β} {s t : State} {a : α} (h : m s = .ok a t) :
    (m >>= f) s = f a t := by
  show EStateM.bind m f s = f a t
  simp only [EStateM.bind, h]

theorem bind_error {α β : Type} {m : M α} {f : α → M β} {s t : State} {e : Stop} (h : m s = .error e t) :
    (m >>= f) s = .error e t := by
  show EStateM.bind m f s = _
  simp only [EStateM.bind, h]

theorem map_ok {α β : Type} {m : M α} {f : α → β} {s t : State} {a : α} (h : m s = .ok a t) :
    (f <$> m) s = .ok (f a) t := by
  show EStateM.map f m s = _
  simp only [EStateM.map, h]

theorem pure_ok {α : Type} (a : α) (s : State) : (pure a : M α) s = .ok a s := rfl

theorem bind_get {β : Type} (f : State → M β) (s : State) : ((get : M State) >>= f) s = f s s := rfl

theorem modify_ok (g : State → State) (s : State) : (modify g : M PUnit) s = .ok () (g s) := rfl

theorem require_ok {ok : Bool} {cause : FaultCause} {cmd : CmdWord} (s : State) (h : ok = true) :
    require ok cause cmd s = .ok () s := by
  rw [require, if_pos h]; rfl

theorem require_fails {ok : Bool} {cause : FaultCause} {cmd : CmdWord} (s : State) (h : ok = false) :
    require ok cause cmd s = .error .raised (faultEntry cause cmd s) := by
  rw [require, h]; rfl

theorem toOutcome_ok {α : Type} {m : M α} {s t : State} {a : α} (h : m s = .ok a t) : toOutcome m s = .next t := by
  simp only [toOutcome, h]

theorem toOutcome_raised {α : Type} {m : M α} {s t : State} (h : m s = .error .raised t) :
    toOutcome m s = .next t := by
  simp only [toOutcome, h]

/-! ### Paths -/

theorem isPrefixOf_append_self (l l' : List Seg) : l.isPrefixOf (l ++ l') = true := by
  rw [List.isPrefixOf_iff_prefix]; exact List.prefix_append _ _

theorem isBelow_iff {p : Path} {c : CellName} :
    c.isBelow p = true ↔ ∃ l, c = .adv ⟨p.blk, p.segs ++ l⟩ := by
  cases c with
  | adv q =>
    obtain ⟨b, segs⟩ := q
    simp only [CellName.isBelow, Bool.and_eq_true, beq_iff_eq, List.isPrefixOf_iff_prefix]
    constructor
    · rintro ⟨rfl, l, rfl⟩; exact ⟨l, rfl⟩
    · rintro ⟨l, h⟩
      injection h with h; injection h with h1 h2
      exact ⟨h1, l, h2.symm⟩
  | _ => simp [CellName.isBelow]

theorem cell_isBelow (p : Path) (g : Seg) : (p.cell g).isBelow p = true :=
  isBelow_iff.mpr ⟨[g], rfl⟩

/-- Below a sub-path is below the path. -/
theorem isBelow_of_sub {p : Path} {g : Seg} {c : CellName} (h : c.isBelow (p.sub g) = true) : c.isBelow p = true := by
  obtain ⟨l, rfl⟩ := isBelow_iff.mp h
  exact isBelow_iff.mpr ⟨g :: l, by simp [Path.sub]⟩

/-- Different sub-paths have no cell in common. -/
theorem isBelow_sub_disjoint {p : Path} {g g' : Seg} (hg : g ≠ g') {c : CellName} (h : c.isBelow (p.sub g) = true) :
    c.isBelow (p.sub g') = false := by
  obtain ⟨l, rfl⟩ := isBelow_iff.mp h
  rw [Bool.eq_false_iff]
  intro h'
  obtain ⟨l', h'⟩ := isBelow_iff.mp h'
  simp only [Path.sub, CellName.adv.injEq, Path.mk.injEq, true_and, List.append_assoc, List.append_cancel_left_eq,
    List.cons_append, List.nil_append, List.cons.injEq] at h'
  exact hg h'.1

theorem cell_inj {p : Path} {g g' : Seg} : p.cell g = p.cell g' ↔ g = g' := by
  constructor
  · intro h
    simp only [Path.cell, Path.sub, CellName.adv.injEq, Path.mk.injEq, true_and, List.append_cancel_left_eq,
      List.cons.injEq, and_true] at h
    exact h
  · rintro rfl; rfl

/-- A cell of the path itself is not below one of its sub-paths by another segment. -/
theorem cell_isBelow_sub {p : Path} {g g' : Seg} (hg : g ≠ g') : (p.cell g).isBelow (p.sub g') = false := by
  have : (p.cell g).isBelow (p.sub g) = true := isBelow_iff.mpr ⟨[], by simp [Path.cell, Path.sub]⟩
  exact isBelow_sub_disjoint hg this

theorem kind_of_isBelow {p : Path} {c : CellName} (h : c.isBelow p = true) : c.kind = .advice := by
  obtain ⟨l, rfl⟩ := isBelow_iff.mp h; rfl

/-! ### Fresh names -/

/-- No cell at or below the path is in `CELLS`. -/
def State.Fresh (s : State) (p : Path) : Prop := ∀ c, c.isBelow p = true → s.cell c = none

theorem fresh_of {s : State} {p : Path} (h : s.fresh p = true) : s.Fresh p := by
  intro c hc
  obtain ⟨l, rfl⟩ := isBelow_iff.mp hc
  simp only [State.cell, Memory.get]
  cases hf : findCell (CellName.adv ⟨p.blk, p.segs ++ l⟩).key s.mem.cells with
  | none => rfl
  | some v =>
    obtain ⟨e, he, hk, -⟩ := mem_of_findCell hf
    have := (List.all_eq_true.mp h) e he
    rw [CellName.key_injective hk, hc] at this
    simp at this

theorem State.Fresh.sub {s : State} {p : Path} (h : s.Fresh p) (g : Seg) : s.Fresh (p.sub g) :=
  fun c hc => h c (isBelow_of_sub hc)

theorem State.Fresh.cell {s : State} {p : Path} (h : s.Fresh p) (g : Seg) : s.cell (p.cell g) = none :=
  h _ (cell_isBelow p g)

/-! ### What a run below a prefix leaves -/

/-- From `s`, a run of gate operations that wrote exactly the cells `cs`, all at or below `p`, and recorded exactly `ks`,
left `t`. -/
structure Ext (s t : State) (p : Path) (cs : List CellName) (ks : List Constraint) : Prop where
  frame   : GateFrame s t
  accepts : t.hostAccepts = true
  tab     : t.mem.tabCells = s.mem.tabCells
  below   : ∀ c ∈ cs, c.isBelow p = true
  only    : ∀ c, c ∉ cs → t.cell c = s.cell c
  mono    : ∀ c v, s.cell c = some v → t.cell c = some v
  count   : t.mem.cells.length = s.mem.cells.length + cs.length
  log     : t.cons = s.cons ++ ks

namespace Ext

variable {s t u : State} {p q r : Path} {n m : List CellName} {ks ls : List Constraint}

theorem keep (h : Ext s t p n ks) (c : CellName) (hc : c.isBelow p = false) : t.cell c = s.cell c :=
  h.only c fun hm => by rw [h.below c hm] at hc; cases hc

theorem mode (h : Ext s t p n ks) : t.mode = s.mode := by rw [h.frame]
theorem q_eq (h : Ext s t p n ks) : t.q = s.q := by rw [h.frame]
theorem tagCuts (h : Ext s t p n ks) : t.tagCuts = s.tagCuts := by rw [h.frame]
theorem blk (h : Ext s t p n ks) : t.blk = s.blk := by rw [h.frame]
theorem stateReg (h : Ext s t p n ks) : t.stateReg = s.stateReg := by rw [h.frame]
theorem ivUsed (h : Ext s t p n ks) : t.ivUsed = s.ivUsed := by rw [h.frame]
theorem w_eq (h : Ext s t p n ks) : t.w = s.w := by rw [h.frame]
theorem dig (h : Ext s t p n ks) : t.dig = s.dig := by rw [h.frame]
theorem booted (h : Ext s t p n ks) : t.booted = s.booted := by
  have h1 : t.config = s.config := by rw [h.frame]
  have h2 : t.table = s.table := by rw [h.frame]
  rw [State.booted, State.booted, h1, h2]
theorem seen (h : Ext s t p n ks) (x : Nat) : t.seen x = s.seen x := by rw [State.seen, State.seen, h.mode]

theorem refl (s : State) (p : Path) (ha : s.hostAccepts = true) : Ext s s p [] [] :=
  ⟨rfl, ha, rfl, by simp, fun _ _ => rfl, fun _ _ h => h, rfl, by simp⟩

/-- The same run seen from a path above. -/
theorem weaken (h : Ext s t p n ks) (hp : ∀ c : CellName, c.isBelow p = true → c.isBelow r = true) : Ext s t r n ks :=
  { h with below := fun c hc => hp c (h.below c hc) }

theorem up {g : Seg} (h : Ext s t (p.sub g) n ks) : Ext s t p n ks := h.weaken fun _ => isBelow_of_sub

theorem trans (h : Ext s t p n ks) (h' : Ext t u p m ls) : Ext s u p (n ++ m) (ks ++ ls) where
  frame := by
    have e := h'.frame
    rw [h.frame] at e
    exact e
  accepts := h'.accepts
  tab := by rw [h'.tab, h.tab]
  below := fun c hc => (List.mem_append.mp hc).elim (h.below c) (h'.below c)
  only := fun c hc => by
    rw [List.mem_append, not_or] at hc
    rw [h'.only c hc.2, h.only c hc.1]
  mono := fun c v hv => h'.mono c v (h.mono c v hv)
  count := by rw [h'.count, h.count, List.length_append, Nat.add_assoc]
  log := by rw [h'.log, h.log, List.append_assoc]

/-- Names below a path the run did not write to stay fresh. -/
theorem fresh (h : Ext s t p n ks) (hf : s.Fresh q) (hd : ∀ c : CellName, c.isBelow q = true → c.isBelow p = false) : t.Fresh q :=
  fun c hc => by rw [h.keep c (hd c hc)]; exact hf c hc

/-- A fresh sibling stays fresh. -/
theorem fresh_sibling {g g' : Seg} (h : Ext s t (p.sub g) n ks) (hf : s.Fresh (p.sub g')) (hg : g' ≠ g) :
    t.Fresh (p.sub g') :=
  h.fresh hf fun _ hc => isBelow_sub_disjoint hg hc

theorem holdsWord (h : Ext s t p n ks) {b : Path} {x : Nat} (hw : s.HoldsWord b x) : t.HoldsWord b x := by
  simp only [State.HoldsWord, h.seen, h.tagCuts] at hw ⊢
  exact ⟨h.mono _ _ hw.1, h.mono _ _ hw.2.1, h.mono _ _ hw.2.2.1, h.mono _ _ hw.2.2.2.1, h.mono _ _ hw.2.2.2.2.1,
    h.mono _ _ hw.2.2.2.2.2.1, h.mono _ _ hw.2.2.2.2.2.2⟩

end Ext

/-! ### Requests, reads, writes -/

/-- What an accepted request leaves: it is in the trace and one answer has been taken. -/
theorem request_ok {rq : Request} {cause : FaultCause} {cmd : CmdWord} {s : State} (h : s.hostAccepts = true) :
    request rq cause cmd s = .ok () { s with requests := rq :: s.requests, hostAnswers := s.hostAnswers.tail } ∧
      ({ s with requests := rq :: s.requests, hostAnswers := s.hostAnswers.tail } : State).hostAccepts = true := by
  simp only [State.hostAccepts] at h ⊢
  cases ha : s.hostAnswers with
  | nil => simp only [request, ha]; exact ⟨by simp, rfl⟩
  | cons b rest =>
    rw [ha] at h
    simp only [List.all_cons, id, Bool.and_eq_true] at h
    simp only [request, ha, h.1]
    exact ⟨rfl, h.2⟩

theorem memRead_ok {cmd : CmdWord} {c : CellName} {v : Val} {s : State} (h : s.cell c = some v) :
    memRead cmd c s = .ok v s := by
  simp only [memRead, h]

theorem readHandle_ok {n : Nat} {cmd : CmdWord} {file : State → Vector (Option Path) n} {i : Nat} {p : Path} {s : State}
    (h : handle? (file s) i = some p) : readHandle cmd file i s = .ok p s := by
  simp only [readHandle, h]

/-- A write of a fresh ADVICE cell (20_memory.md R64). -/
theorem assign_ok {cmd : CmdWord} {c : CellName} {v : Val} {s : State} {p : Path} (hc : s.cell c = none)
    (hp : c.isBelow p = true) (ha : s.hostAccepts = true) :
    ∃ t, assign cmd c v s = .ok () t ∧ Ext s t p [c] [] ∧ t.unsat = s.unsat ∧
      t.cell c = some (storedVal s.mode c v) ∧ ∀ c', c' ≠ c → t.cell c' = s.cell c' := by
  have hk := kind_of_isBelow hp
  have hr := request_ok (rq := .assign c.column c v) (cause := .assign) (cmd := cmd) ha
  refine ⟨{ s with requests := .assign c.column c v :: s.requests,
                   hostAnswers := s.hostAnswers.tail, mem := s.mem.insert c (storedVal s.mode c v) },
    ?_, ⟨rfl, hr.2, rfl, by simpa using hp, ?_, ?_, ?_, by simp⟩, rfl, ?_, ?_⟩
  · have hb : (CellKind.advice == CellKind.table || CellKind.advice == CellKind.fixed && !false) = false := by decide
    simp only [assign, memWrite, hc, hk, hr.1, hb]
    rfl
  · intro c' hc'
    exact Memory.get_insert_ne _ _ _ (by simpa using hc')
  · intro c' w hw
    have : c' ≠ c := fun e => by rw [e, hc] at hw; cases hw
    show Memory.get _ _ _ = _
    rw [Memory.get_insert_ne _ _ _ this]; exact hw
  · obtain ⟨l, rfl⟩ := isBelow_iff.mp hp
    exact length_insertCell hc
  · exact Memory.get_insert_self _ _ _ _ (by rw [hk]; decide)
  · exact fun c' hne => Memory.get_insert_ne _ _ _ hne

/-- What a write stores in an ADVICE cell, for a value that is `n` where it is known. -/
theorem storedVal_seen {s : State} {c : CellName} {v : Val} {n : Nat} {p : Path} (hp : c.isBelow p = true)
    (hv : s.mode = .witness → v = .known n) : storedVal s.mode c v = s.seen n := by
  have hk := kind_of_isBelow hp
  unfold storedVal State.seen
  rw [hk]
  cases hm : s.mode
  · rfl
  · simp only; exact hv hm

/-! ### Recording an instance -/

/-- Every kind but COPY is registered in a booted block (41_table.md R130). -/
theorem registered_of_booted {s : State} {k : Constraint} (hb : s.booted = true) (hk : k.kind ≠ .copy) :
    s.registered k = true := by
  simp only [State.booted, Bool.and_eq_true, beq_iff_eq] at hb
  unfold State.registered
  rw [hb.1]
  cases k <;> simp_all [stdConfig, Constraint.kind]

/-- Recording an instance over existing cells (20_memory.md R71, R72). -/
theorem record_ok {cmd : CmdWord} {k : Constraint} {s : State} (p : Path) (hc : ∀ c ∈ k.cells, s.has c = true)
    (hr : s.registered k = true) (ha : s.hostAccepts = true) :
    ∃ t, record cmd k s = .ok () t ∧ Ext s t p [] [k] ∧ t.unsat = s.unsatAfter k ∧ ∀ c, t.cell c = s.cell c := by
  refine ⟨{ s with cons := s.cons ++ [k], unsat := s.unsatAfter k }, ?_, ⟨rfl, ha, rfl, by simp, fun _ _ => rfl,
    fun _ _ h => h, rfl, rfl⟩, rfl, fun _ => rfl⟩
  have h : (k.cells.all fun c => (s.cell c).isSome) = true := List.all_eq_true.mpr hc
  rw [record, if_pos h, if_pos hr]

/-- Recording an instance asks the host nothing. -/
theorem record_requests {cmd : CmdWord} {k : Constraint} {s t : State} (h : record cmd k s = .ok () t) :
    t.requests = s.requests := by
  unfold record at h
  split at h
  · split at h
    · injection h with _ h; rw [← h]
    · cases h
  · cases h

/-- `UNSAT` after recording an instance whose predicate is known to be `b` in WITNESS mode. -/
theorem unsatAfter_eq {s : State} {k : Constraint} {b : Bool}
    (h : s.mode = .witness → k.holds s.tagCuts s.num = some (!b)) : s.unsatAfter k = s.unsatIf b := by
  unfold State.unsatAfter State.unsatIf
  cases hm : s.mode
  · simp
  · rw [h hm]; cases b <;> simp

theorem num_of_cell {s : State} {c : CellName} {n : Nat} (h : s.cell c = some (.known n)) : s.num c = some n := by
  simp only [State.num, h]

theorem num_of_seen {s : State} {c : CellName} {n : Nat} (h : s.cell c = some (s.seen n)) (hm : s.mode = .witness) :
    s.num c = some n := by
  apply num_of_cell
  rw [h, State.seen, hm]

theorem has_of_cell {s : State} {c : CellName} {v : Val} (h : s.cell c = some v) : s.has c = true := by
  simp only [State.has, h, Option.isSome_some]

theorem reads_of_seen {s : State} {c : CellName} {n : Nat} (h : s.cell c = some (s.seen n)) : s.Reads c n :=
  ⟨has_of_cell h, fun hm => by rw [h, State.seen, hm]⟩

theorem num_of_reads {s : State} {c : CellName} {n : Nat} (h : s.Reads c n) (hm : s.mode = .witness) :
    s.num c = some n := num_of_cell (h.2 hm)

theorem readsWord_of_holds {s : State} {h : Path} {n : Nat} (hw : s.HoldsWord h n) : s.ReadsWord h n :=
  ⟨reads_of_seen hw.1, reads_of_seen hw.2.2.2.2.1, reads_of_seen hw.2.2.2.2.2.2⟩

theorem Ext.has {s t : State} {p : Path} {n : List CellName} {ks : List Constraint} (h : Ext s t p n ks) {c : CellName}
    (hc : s.has c = true) : t.has c = true := by
  obtain ⟨v, hv⟩ := Option.isSome_iff_exists.mp hc
  exact has_of_cell (h.mono c v hv)

theorem Ext.reads {s t : State} {p : Path} {n : List CellName} {ks : List Constraint} (h : Ext s t p n ks) {c : CellName} {x : Nat}
    (hc : s.Reads c x) : t.Reads c x :=
  ⟨h.has hc.1, fun hm => h.mono _ _ (hc.2 (h.mode ▸ hm))⟩

theorem Ext.readsWord {s t : State} {p : Path} {n : List CellName} {ks : List Constraint} (h : Ext s t p n ks) {b : Path} {x : Nat}
    (hw : s.ReadsWord b x) : t.ReadsWord b x :=
  ⟨h.reads hw.1, h.reads hw.2.1, h.reads hw.2.2⟩

/-- A computation that reads an existing cell goes on, with its number in WITNESS mode. -/
theorem memRead_reads {cmd : CmdWord} {c : CellName} {n : Nat} {s : State} (h : s.Reads c n) :
    ∃ v, memRead cmd c s = .ok v s ∧ (s.mode = .witness → v = .known n) := by
  obtain ⟨v, hv⟩ := Option.isSome_iff_exists.mp h.1
  refine ⟨v, memRead_ok hv, fun hm => ?_⟩
  rw [h.2 hm] at hv
  exact (Option.some.inj hv).symm

@[simp] theorem unsatIf_false (s : State) : s.unsatIf false = s.unsat := by simp [State.unsatIf]

theorem unsatIf_unsatIf {s t : State} {a b : Bool} (hm : t.mode = s.mode) (hu : t.unsat = s.unsatIf a) :
    t.unsatIf b = s.unsatIf (a || b) := by
  unfold State.unsatIf at hu ⊢
  rw [hu, hm]
  cases s.unsat <;> cases (s.mode == .witness) <;> simp

/-! ### From a run of gate operations to the step that performs them -/

theorem Ext.performed {s t : State} {p : Path} {cs : List CellName} {ks : List Constraint} {bad : Bool}
    (h : Ext s t p cs ks) (hu : t.unsat = s.unsatIf bad) : Performed s t cs ks bad :=
  ⟨h.frame, ⟨h.only, h.mono, h.count⟩, h.log, hu⟩

theorem runEntry_ok {s u : State} {e : QEntry} {rest : List QEntry} {body : OpRec → M Unit} (hq : s.q = e :: rest)
    (h : body e.opnd { s with q := rest } = .ok () u) : runEntry s body = .next u := by
  unfold runEntry
  rw [hq]
  exact toOutcome_ok h

theorem runEntry_raised {s u : State} {e : QEntry} {rest : List QEntry} {body : OpRec → M Unit} (hq : s.q = e :: rest)
    (h : body e.opnd { s with q := rest } = .error .raised u) : runEntry s body = .next u := by
  unfold runEntry
  rw [hq]
  exact toOutcome_raised h

theorem runCommand_ok {s u : State} {c : Presented} {rest : List Presented} {body : List DinItem → M Unit}
    (hc : s.cmds = c :: rest) (h : body c.din { s with cmds := rest } = .ok () u) : runCommand s body = .next u := by
  unfold runCommand
  rw [hc]
  exact toOutcome_ok h

theorem runCommand_raised {s u : State} {c : Presented} {rest : List Presented} {body : List DinItem → M Unit}
    (hc : s.cmds = c :: rest) (h : body c.din { s with cmds := rest } = .error .raised u) : runCommand s body = .next u := by
  unfold runCommand
  rw [hc]
  exact toOutcome_raised h

end Sys2Proof.Machine
end

