-- ==== Sys2Proof/Laws/Rotations.lean ====
section
/-!
SUPPORT. The bit-aligned splits (42_gates.md R160, R162): the weighted piece spreads of a term are the spread of the
rotated or shifted word, for every layout.
-/

namespace Sys2Proof.Machine

open Sys2Proof

/-- A rotation and a shift as numbers. -/
def rotrNat (x r : Nat) : Nat := x / 2 ^ r + 2 ^ (32 - r) * (x % 2 ^ r)

/-- The three terms of a layout as numbers, in the order of `exponents`. -/
def termWords : Layout → Nat → Nat × Nat × Nat
  | .ssig0, x => (rotrNat x 7, rotrNat x 18, x / 2 ^ 3)
  | .ssig1, x => (rotrNat x 17, rotrNat x 19, x / 2 ^ 10)
  | .bsig0, x => (rotrNat x 2, rotrNat x 13, rotrNat x 22)
  | .bsig1, x => (rotrNat x 6, rotrNat x 11, rotrNat x 25)

theorem rotrNat_lt {x r : Nat} (hx : x < 2 ^ 32) (hr : r ≤ 32) : rotrNat x r < 2 ^ 32 := by
  have hp : 2 ^ r * 2 ^ (32 - r) = 2 ^ 32 := by rw [← pow_add]; congr 1; omega
  have h1 : x / 2 ^ r < 2 ^ (32 - r) := by
    rw [Nat.div_lt_iff_lt_mul (by positivity), mul_comm, hp]; exact hx
  have h2 : x % 2 ^ r + 1 ≤ 2 ^ r := Nat.mod_lt _ (by positivity)
  have h3 := Nat.mul_le_mul_left (2 ^ (32 - r)) h2
  rw [Nat.mul_add, mul_one, mul_comm (2 ^ (32 - r)) (2 ^ r), hp] at h3
  unfold rotrNat
  omega

theorem toNat_rotr {x r : Nat} (hx : x < 2 ^ 32) (hr : r ≤ 32) :
    (rotr (BitVec.ofNat 32 x) r).toNat = rotrNat x r := by
  have hp : 2 ^ r * 2 ^ (32 - r) = 2 ^ 32 := by rw [← pow_add]; congr 1; omega
  have h1 : x / 2 ^ r < 2 ^ (32 - r) := by
    rw [Nat.div_lt_iff_lt_mul (by positivity), mul_comm, hp]; exact hx
  unfold rotr rotrNat
  rw [BitVec.toNat_or, BitVec.toNat_ushiftRight, BitVec.toNat_shiftLeft, BitVec.toNat_ofNat, Nat.mod_eq_of_lt hx,
    Nat.shiftRight_eq_div_pow, Nat.shiftLeft_eq, ← hp, Nat.mul_mod_mul_right, Nat.or_comm,
    ← Nat.shiftLeft_eq, ← Nat.shiftLeft_add_eq_or_of_lt h1, Nat.shiftLeft_eq]
  ring

theorem toNat_shr {x r : Nat} (hx : x < 2 ^ 32) : (shr (BitVec.ofNat 32 x) r).toNat = x / 2 ^ r := by
  unfold shr
  rw [BitVec.toNat_ushiftRight, BitVec.toNat_ofNat, Nat.mod_eq_of_lt hx, Nat.shiftRight_eq_div_pow]

theorem termWords_lt (l : Layout) {x : Nat} (hx : x < 2 ^ 32) :
    (termWords l x).1 < 2 ^ 32 ∧ (termWords l x).2.1 < 2 ^ 32 ∧ (termWords l x).2.2 < 2 ^ 32 := by
  cases l <;> refine ⟨rotrNat_lt hx (by norm_num), rotrNat_lt hx (by norm_num), ?_⟩ <;>
    first
    | exact rotrNat_lt hx (by norm_num)
    | exact lt_of_le_of_lt (Nat.div_le_self _ _) hx

/-- The exclusive or of the three terms is the σ or Σ function of the word (43_functions.md R180). -/
theorem toNat_sigma (l : Layout) {x : Nat} (hx : x < 2 ^ 32) :
    (sigma l (BitVec.ofNat 32 x)).toNat = (termWords l x).1 ^^^ (termWords l x).2.1 ^^^ (termWords l x).2.2 := by
  cases l <;> simp only [sigma, termWords, BitVec.toNat_xor, toNat_rotr hx, toNat_shr hx, Nat.reduceLeDiff]

/-- Piece i of a word, `(x >> offset) mod 2^width` (42_gates.md R160). -/
def pieceNat (x : Nat) (wo : Nat × Nat) : Nat := x / 2 ^ wo.2 % 2 ^ wo.1

/-- The spread of four parts put together. -/
theorem spreadBits_concat4 {a b c d : Nat} (hab : a + b + c + d = 32) (ha : a ≤ 16) (hb : b ≤ 16) (hc : c ≤ 16)
    (hd : d ≤ 16) {A B C D : Nat} (hA : A < 2 ^ a) (hB : B < 2 ^ b) (hC : C < 2 ^ c) (hD : D < 2 ^ d) :
    spreadBits 32 (A + 2 ^ a * (B + 2 ^ b * (C + 2 ^ c * D)))
      = spread16 A + 4 ^ a * (spread16 B + 4 ^ b * (spread16 C + 4 ^ c * spread16 D)) := by
  have e : (32 : Nat) = a + (b + (c + d)) := by omega
  unfold spread16
  rw [spreadBits_of_lt hA ha, spreadBits_of_lt hB hb, spreadBits_of_lt hC hc, spreadBits_of_lt hD hd]
  conv_lhs => rw [e]
  rw [spreadBits_concat _ _ _ _ hA, spreadBits_concat _ _ _ _ hB, spreadBits_concat _ _ _ _ hC]

/-- The spread of three parts with zeros above. -/
theorem spreadBits_concat3 {a b c : Nat} (hab : a + b + c ≤ 32) (ha : a ≤ 16) (hb : b ≤ 16) (hc : c ≤ 16)
    {A B C : Nat} (hA : A < 2 ^ a) (hB : B < 2 ^ b) (hC : C < 2 ^ c) :
    spreadBits 32 (A + 2 ^ a * (B + 2 ^ b * C)) = spread16 A + 4 ^ a * (spread16 B + 4 ^ b * spread16 C) := by
  obtain ⟨d, hd⟩ := Nat.exists_eq_add_of_le hab
  have e : (32 : Nat) = a + (b + (c + d)) := by omega
  have h0 := spreadBits_concat d c C 0 hC
  simp only [Nat.mul_zero, Nat.add_zero, spreadBits_zero] at h0
  unfold spread16
  rw [spreadBits_of_lt hA ha, spreadBits_of_lt hB hb, spreadBits_of_lt hC hc]
  conv_lhs => rw [e]
  rw [spreadBits_concat _ _ _ _ hA, spreadBits_concat _ _ _ _ hB, h0]

/-- The value of one term: `4^j` times the spread of each piece that is not dropped. -/
def termSum : List (Option Nat) → List Nat → Nat
  | some j :: js, v :: vs => 4 ^ j * spread16 v + termSum js vs
  | none :: js, _ :: vs => termSum js vs
  | _, _ => 0

/-- Every term of every layout is the spread of its rotated or shifted word (42_gates.md R162). -/
theorem termSum_eq (l : Layout) {x : Nat} (hx : x < 2 ^ 32) :
    (exponents l).map (fun js => termSum js ((pieces l).map (pieceNat x)))
      = [spreadBits 32 (termWords l x).1, spreadBits 32 (termWords l x).2.1, spreadBits 32 (termWords l x).2.2] := by
  have lt : ∀ w o, pieceNat x (w, o) < 2 ^ w := fun w o => Nat.mod_lt _ (by positivity)
  cases l
  case ssig0 =>
    have h0 := lt 3 0; have h1 := lt 4 3; have h2 := lt 11 7; have h3 := lt 14 18
    have r1 := spreadBits_concat4 (by norm_num) (by norm_num) (by norm_num) (by norm_num) (by norm_num) h2 h3 h0 h1
    have r2 := spreadBits_concat4 (by norm_num) (by norm_num) (by norm_num) (by norm_num) (by norm_num) h3 h0 h1 h2
    have r3 := spreadBits_concat3 (by norm_num) (by norm_num) (by norm_num) (by norm_num) h1 h2 h3
    have e1 : rotrNat x 7 = pieceNat x (11, 7) + 2 ^ 11 * (pieceNat x (14, 18) + 2 ^ 14 * (pieceNat x (3, 0)
        + 2 ^ 3 * pieceNat x (4, 3))) := by simp only [rotrNat, pieceNat]; omega
    have e2 : rotrNat x 18 = pieceNat x (14, 18) + 2 ^ 14 * (pieceNat x (3, 0) + 2 ^ 3 * (pieceNat x (4, 3)
        + 2 ^ 4 * pieceNat x (11, 7))) := by simp only [rotrNat, pieceNat]; omega
    have e3 : x / 2 ^ 3 = pieceNat x (4, 3) + 2 ^ 4 * (pieceNat x (11, 7) + 2 ^ 11 * pieceNat x (14, 18)) := by
      simp only [pieceNat]; omega
    simp only [exponents, pieces, termWords, termSum, List.map_cons, List.map_nil, e1, e2, e3, r1, r2, r3,
      List.cons.injEq, and_true]
    refine ⟨?_, ?_, ?_⟩ <;> ring
  case ssig1 =>
    have h0 := lt 10 0; have h1 := lt 7 10; have h2 := lt 2 17; have h3 := lt 13 19
    have r1 := spreadBits_concat4 (by norm_num) (by norm_num) (by norm_num) (by norm_num) (by norm_num) h2 h3 h0 h1
    have r2 := spreadBits_concat4 (by norm_num) (by norm_num) (by norm_num) (by norm_num) (by norm_num) h3 h0 h1 h2
    have r3 := spreadBits_concat3 (by norm_num) (by norm_num) (by norm_num) (by norm_num) h1 h2 h3
    have e1 : rotrNat x 17 = pieceNat x (2, 17) + 2 ^ 2 * (pieceNat x (13, 19) + 2 ^ 13 * (pieceNat x (10, 0)
        + 2 ^ 10 * pieceNat x (7, 10))) := by simp only [rotrNat, pieceNat]; omega
    have e2 : rotrNat x 19 = pieceNat x (13, 19) + 2 ^ 13 * (pieceNat x (10, 0) + 2 ^ 10 * (pieceNat x (7, 10)
        + 2 ^ 7 * pieceNat x (2, 17))) := by simp only [rotrNat, pieceNat]; omega
    have e3 : x / 2 ^ 10 = pieceNat x (7, 10) + 2 ^ 7 * (pieceNat x (2, 17) + 2 ^ 2 * pieceNat x (13, 19)) := by
      simp only [pieceNat]; omega
    simp only [exponents, pieces, termWords, termSum, List.map_cons, List.map_nil, e1, e2, e3, r1, r2, r3,
      List.cons.injEq, and_true]
    refine ⟨?_, ?_, ?_⟩ <;> ring
  case bsig0 =>
    have h0 := lt 2 0; have h1 := lt 11 2; have h2 := lt 9 13; have h3 := lt 10 22
    have r1 := spreadBits_concat4 (by norm_num) (by norm_num) (by norm_num) (by norm_num) (by norm_num) h1 h2 h3 h0
    have r2 := spreadBits_concat4 (by norm_num) (by norm_num) (by norm_num) (by norm_num) (by norm_num) h2 h3 h0 h1
    have r3 := spreadBits_concat4 (by norm_num) (by norm_num) (by norm_num) (by norm_num) (by norm_num) h3 h0 h1 h2
    have e1 : rotrNat x 2 = pieceNat x (11, 2) + 2 ^ 11 * (pieceNat x (9, 13) + 2 ^ 9 * (pieceNat x (10, 22)
        + 2 ^ 10 * pieceNat x (2, 0))) := by
      have q1 : x / 2 ^ 13 = x / 2 ^ 2 / 2 ^ 11 := by rw [Nat.div_div_eq_div_mul, ← pow_add]
      have q2 : x / 2 ^ 22 = x / 2 ^ 2 / 2 ^ 11 / 2 ^ 9 := by rw [Nat.div_div_eq_div_mul, Nat.div_div_eq_div_mul, ← pow_add, ← pow_add]
      simp only [rotrNat, pieceNat, q1, q2]
      clear r1 r2 r3 h0 h1 h2 h3 lt
      omega
    have e2 : rotrNat x 13 = pieceNat x (9, 13) + 2 ^ 9 * (pieceNat x (10, 22) + 2 ^ 10 * (pieceNat x (2, 0)
        + 2 ^ 2 * pieceNat x (11, 2))) := by simp only [rotrNat, pieceNat]; omega
    have e3 : rotrNat x 22 = pieceNat x (10, 22) + 2 ^ 10 * (pieceNat x (2, 0) + 2 ^ 2 * (pieceNat x (11, 2)
        + 2 ^ 11 * pieceNat x (9, 13))) := by simp only [rotrNat, pieceNat]; omega
    simp only [exponents, pieces, termWords, termSum, List.map_cons, List.map_nil, e1, e2, e3, r1, r2, r3,
      List.cons.injEq, and_true]
    refine ⟨?_, ?_, ?_⟩ <;> ring
  case bsig1 =>
    have h0 := lt 6 0; have h1 := lt 5 6; have h2 := lt 14 11; have h3 := lt 7 25
    have r1 := spreadBits_concat4 (by norm_num) (by norm_num) (by norm_num) (by norm_num) (by norm_num) h1 h2 h3 h0
    have r2 := spreadBits_concat4 (by norm_num) (by norm_num) (by norm_num) (by norm_num) (by norm_num) h2 h3 h0 h1
    have r3 := spreadBits_concat4 (by norm_num) (by norm_num) (by norm_num) (by norm_num) (by norm_num) h3 h0 h1 h2
    have e1 : rotrNat x 6 = pieceNat x (5, 6) + 2 ^ 5 * (pieceNat x (14, 11) + 2 ^ 14 * (pieceNat x (7, 25)
        + 2 ^ 7 * pieceNat x (6, 0))) := by
      have q1 : x / 2 ^ 11 = x / 2 ^ 6 / 2 ^ 5 := by rw [Nat.div_div_eq_div_mul, ← pow_add]
      have q2 : x / 2 ^ 25 = x / 2 ^ 6 / 2 ^ 5 / 2 ^ 14 := by rw [Nat.div_div_eq_div_mul, Nat.div_div_eq_div_mul, ← pow_add, ← pow_add]
      simp only [rotrNat, pieceNat, q1, q2]
      clear r1 r2 r3 h0 h1 h2 h3 lt
      omega
    have e2 : rotrNat x 11 = pieceNat x (14, 11) + 2 ^ 14 * (pieceNat x (7, 25) + 2 ^ 7 * (pieceNat x (6, 0)
        + 2 ^ 6 * pieceNat x (5, 6))) := by simp only [rotrNat, pieceNat]; omega
    have e3 : rotrNat x 25 = pieceNat x (7, 25) + 2 ^ 7 * (pieceNat x (6, 0) + 2 ^ 6 * (pieceNat x (5, 6)
        + 2 ^ 5 * pieceNat x (14, 11))) := by simp only [rotrNat, pieceNat]; omega
    simp only [exponents, pieces, termWords, termSum, List.map_cons, List.map_nil, e1, e2, e3, r1, r2, r3,
      List.cons.injEq, and_true]
    refine ⟨?_, ?_, ?_⟩ <;> ring

end Sys2Proof.Machine
end

