-- ==== Sys2Proof/Laws/Gates.lean ====
section
/-!
SUPPORT. What each primitive operation does (41_table.md R136, R140; 42_gates.md R152 to R176) in a booted block whose
host accepts, on existing operands and fresh names: it succeeds, what its cells hold, exactly when it makes `UNSAT` 1,
and (`Ext`) that nothing else changed. One statement covers both modes: a cell holds `seen n`, the number in WITNESS
mode and `Unknown` in SHAPE mode.
-/

namespace Sys2Proof.Machine

open Sys2Proof

theorem map_known {f : Nat → Nat} {v : Val} {s : State} {n : Nat} (h : s.mode = .witness → v = .known n) :
    s.mode = .witness → v.map f = .known (f n) := fun hm => by rw [h hm]; rfl

theorem witnessVal_known {v : Val} {s : State} {n : Nat} (h : s.mode = .witness → v = .known n) :
    s.mode = .witness → witnessVal s.mode v = .known n := fun hm => by rw [h hm, hm]; rfl

/-- Recording over existing cells with a known verdict. -/
theorem record_verdict {cmd : CmdWord} {k : Constraint} {s : State} (p : Path) {bad : Bool}
    (hc : ∀ c ∈ k.cells, s.has c = true) (hr : s.registered k = true) (ha : s.hostAccepts = true)
    (hv : s.mode = .witness → k.holds s.tagCuts s.num = some (!bad)) :
    ∃ t, record cmd k s = .ok () t ∧ Ext s t p [] [k] ∧ t.unsat = s.unsatIf bad ∧ ∀ c, t.cell c = s.cell c := by
  obtain ⟨t, h1, h2, h3, h4⟩ := record_ok (cmd := cmd) p hc hr ha
  exact ⟨t, h1, h2, by rw [h3, unsatAfter_eq hv], h4⟩

/-! ### LOOKUP and RANGE -/

theorem opLookup_ok {e : Nat} {d t sp : CellName} {s : State} {p : Path} {n : Nat} (hb : s.booted = true)
    (ha : s.hostAccepts = true) (hd : s.Reads d n) (ht : s.cell t = none) (hs : s.cell sp = none)
    (hpt : t.isBelow p = true) (hps : sp.isBelow p = true) (hne : t ≠ sp) :
    ∃ u, opLookup e d t sp s = .ok () u ∧ Ext s u p [t, sp] [.lookup t d sp (2 ^ e)] ∧
      u.unsat = s.unsatIf (decide (2 ^ 16 ≤ red (((2 ^ e : Nat) : Int) * n))) ∧
      u.cell t = some (s.seen (tagOf s.tagCuts (red (((2 ^ e : Nat) : Int) * n) % 2 ^ 16))) ∧
      u.cell sp = some (s.seen (spread16 (red (((2 ^ e : Nat) : Int) * n) % 2 ^ 16))) ∧
      ∀ c, c ≠ t → c ≠ sp → u.cell c = s.cell c := by
  obtain ⟨y, hy⟩ : ∃ y, y = red (((2 ^ e : Nat) : Int) * n) := ⟨_, rfl⟩
  rw [← hy]
  have hread : ∃ v, lookupInput (encode (.lookup e)) e d s = .ok v s ∧ (s.mode = .witness → v = .known y) := by
    cases hm : s.mode with
    | shape => exact ⟨.unknown, by simp only [lookupInput, hm], fun h => by cases h⟩
    | witness =>
      refine ⟨.known y, ?_, fun _ => rfl⟩
      simp only [lookupInput, hm, map_ok (memRead_ok (hd.2 hm)), hy, Val.map]
  obtain ⟨v, hv, hvy⟩ := hread
  obtain ⟨u1, h1, x1, n1, c1, o1⟩ :=
    assign_ok (cmd := encode (.lookup e)) (v := v.map fun y => tagOf s.tagCuts (y % 2 ^ 16)) ht hpt ha
  have hs1 : u1.cell sp = none := by rw [o1 sp hne.symm]; exact hs
  obtain ⟨u2, h2, x2, n2, c2, o2⟩ :=
    assign_ok (cmd := encode (.lookup e)) (v := v.map fun y => spread16 (y % 2 ^ 16)) hs1 hps x1.accepts
  have ct : u2.cell t = some (s.seen (tagOf s.tagCuts (y % 2 ^ 16))) := by
    rw [o2 t hne, c1, storedVal_seen hpt (map_known hvy)]
  have cs : u2.cell sp = some (s.seen (spread16 (y % 2 ^ 16))) := by
    rw [c2, x1.mode, storedVal_seen hps (map_known hvy)]
  have cd : u2.Reads d n := x2.reads (x1.reads hd)
  have m2 : u2.mode = s.mode := by rw [x2.mode, x1.mode]
  have k2 : u2.tagCuts = s.tagCuts := by rw [x2.tagCuts, x1.tagCuts]
  have hseen : ∀ n, u2.seen n = s.seen n := fun n => by rw [x2.seen, x1.seen]
  have hb2 : u2.booted = true := by rw [x2.booted, x1.booted, hb]
  obtain ⟨u, h3, x3, n3, o3⟩ := record_verdict (cmd := encode (.lookup e)) (k := .lookup t d sp (2 ^ e)) (s := u2) p
    (bad := decide (2 ^ 16 ≤ y))
    (by
      intro c hc
      simp only [Constraint.cells, List.mem_cons, List.not_mem_nil, or_false] at hc
      rcases hc with rfl | rfl | rfl
      · exact has_of_cell ct
      · exact cd.1
      · exact has_of_cell cs)
    (registered_of_booted hb2 (by simp [Constraint.kind])) x2.accepts
    (by
      intro hm
      rw [← hseen] at ct cs
      simp only [Constraint.holds, num_of_seen ct hm, num_of_seen cs hm, num_of_reads cd hm, k2, ← hy, tableRow]
      by_cases hlt : y < 65536
      · simp [hlt, Nat.mod_eq_of_lt hlt, show ¬ (65536 ≤ y) by omega]
      · simp [hlt, show (65536 ≤ y) by omega])
  refine ⟨u, ?_, ?_, ?_, ?_, ?_, ?_⟩
  · unfold opLookup
    rw [bind_get, bind_ok hv, bind_ok h1, bind_ok h2, h3]
  · simpa using (x1.trans x2).trans x3
  · rw [n3]
    unfold State.unsatIf
    rw [n2, n1, m2]
  · rw [o3, ct]
  · rw [o3, cs]
  · intro c hct hcs
    rw [o3, o2 c hcs, o1 c hct]

theorem red_one_mul {n : Nat} (hn : n < Config.fieldP) : red (((2 ^ 0 : Nat) : Int) * n) = n := by
  rw [pow_zero, Nat.cast_one, one_mul, red_of_lt hn]

/-- LOOKUP with scale 1. -/
theorem opLookup_zero_ok {d t sp : CellName} {s : State} {p : Path} {n : Nat} (hb : s.booted = true)
    (ha : s.hostAccepts = true) (hd : s.Reads d n) (hn : n < Config.fieldP) (ht : s.cell t = none)
    (hs : s.cell sp = none) (hpt : t.isBelow p = true) (hps : sp.isBelow p = true) (hne : t ≠ sp) :
    ∃ u, opLookup 0 d t sp s = .ok () u ∧ Ext s u p [t, sp] [.lookup t d sp 1] ∧
      u.unsat = s.unsatIf (decide (2 ^ 16 ≤ n)) ∧
      u.cell t = some (s.seen (tagOf s.tagCuts (n % 2 ^ 16))) ∧
      u.cell sp = some (s.seen (spread16 (n % 2 ^ 16))) ∧
      ∀ c, c ≠ t → c ≠ sp → u.cell c = s.cell c := by
  have h := opLookup_ok (e := 0) hb ha hd ht hs hpt hps hne
  rw [red_one_mul hn] at h
  exact h

/-- The scaled query of RANGE bounds a number that is below 2^16 by 2^w (41_table.md R140, R141). -/
theorem range_bad {w n : Nat} (hw : w < 16) (_hn : n < Config.fieldP) :
    (decide (2 ^ 16 ≤ n) || decide (2 ^ 16 ≤ red (((2 ^ (16 - w) : Nat) : Int) * n))) = decide (2 ^ w ≤ n) := by
  have hp := Config.fieldP_gt
  have e : 2 ^ (16 - w) * 2 ^ w = 2 ^ 16 := by rw [← pow_add]; congr 1; omega
  have h16 : 2 ^ (16 - w) ≤ 2 ^ 16 := Nat.pow_le_pow_right (by norm_num) (by omega)
  have hww : 2 ^ w ≤ 2 ^ 16 := Nat.pow_le_pow_right (by norm_num) (by omega)
  by_cases h : 2 ^ 16 ≤ n
  · simp only [h, decide_true, Bool.true_or]
    exact (decide_eq_true (le_trans hww h)).symm
  · have hlt : 2 ^ (16 - w) * n < Config.fieldP := by
      calc 2 ^ (16 - w) * n ≤ 2 ^ 16 * 2 ^ 16 := Nat.mul_le_mul h16 (by omega)
        _ < 2 ^ 66 := by norm_num
        _ < Config.fieldP := hp
    have hr : red (((2 ^ (16 - w) : Nat) : Int) * n) = 2 ^ (16 - w) * n := by
      rw [← Nat.cast_mul, red_of_lt hlt]
    have this : (2 ^ (16 - w) * 2 ^ w ≤ 2 ^ (16 - w) * n) ↔ 2 ^ w ≤ n :=
      Nat.mul_le_mul_left_iff (by positivity)
    rw [hr, decide_eq_false h, Bool.false_or]
    exact decide_eq_decide.mpr (e ▸ this)

theorem opRange_ok {w : Nat} {d : CellName} {p : Path} {s : State} {n : Nat} (hb : s.booted = true)
    (ha : s.hostAccepts = true) (hd : s.Reads d n) (hn : n < Config.fieldP) (hf : s.Fresh p) (hw : w ≤ 16) :
    ∃ u, opRange w d p s = .ok () u ∧ Ext s u p (rangeCells w p) (rangeCons w d p) ∧
      u.unsat = s.unsatIf (decide (2 ^ w ≤ n)) ∧
      u.cell (p.cell .t) = some (s.seen (tagOf s.tagCuts (n % 2 ^ 16))) ∧
      u.cell (p.cell .s) = some (s.seen (spread16 (n % 2 ^ 16))) := by
  obtain ⟨u1, h1, x1, n1, ct, cs, o1⟩ := opLookup_zero_ok hb ha hd hn (hf.cell .t) (hf.cell .s) (cell_isBelow p .t)
    (cell_isBelow p .s) (by rw [Ne, cell_inj]; decide)
  by_cases hlt : w < 16
  · obtain ⟨u2, h2, x2, n2, -, -, o2⟩ := opLookup_ok (e := 16 - w) (d := d) (t := p.cell .t2) (sp := p.cell .s2) (p := p)
      (s := u1) (n := n) (by rw [x1.booted, hb]) x1.accepts (x1.reads hd)
      (by rw [o1 _ (by rw [Ne, cell_inj]; decide) (by rw [Ne, cell_inj]; decide)]; exact hf.cell .t2)
      (by rw [o1 _ (by rw [Ne, cell_inj]; decide) (by rw [Ne, cell_inj]; decide)]; exact hf.cell .s2)
      (cell_isBelow p .t2) (cell_isBelow p .s2) (by rw [Ne, cell_inj]; decide)
    refine ⟨u2, ?_, ?_, ?_, ?_, ?_⟩
    · simp only [opRange, hlt, if_true]
      rw [bind_ok h1, h2]
    · simpa [hlt, rangeCons, rangeCells] using x1.trans x2
    · rw [n2, unsatIf_unsatIf x1.mode n1, range_bad hlt hn]
    · exact x2.mono _ _ ct
    · exact x2.mono _ _ cs
  · have : w = 16 := by omega
    subst this
    refine ⟨u1, ?_, ?_, ?_, ct, cs⟩
    · simp only [opRange]
      rw [bind_ok h1]; rfl
    · simpa [rangeCons, rangeCells] using x1
    · exact n1

/-! ### RECOMB, CARRY -/

theorem opRecomb_ok {d lo hi : CellName} {s : State} (p : Path) {x y z : Nat} (hb : s.booted = true)
    (ha : s.hostAccepts = true) (hd : s.Reads d x) (hlo : s.Reads lo y) (hhi : s.Reads hi z) :
    ∃ u, opRecomb d lo hi s = .ok () u ∧ Ext s u p [] [.recomb d lo hi] ∧
      u.unsat = s.unsatIf (decide (red (x : Int) ≠ red ((y : Int) + 2 ^ 16 * z))) ∧ ∀ c, u.cell c = s.cell c :=
  record_verdict p
    (by
      intro c hc
      simp only [Constraint.cells, List.mem_cons, List.not_mem_nil, or_false] at hc
      rcases hc with rfl | rfl | rfl
      · exact hd.1
      · exact hlo.1
      · exact hhi.1)
    (registered_of_booted hb (by simp [Constraint.kind])) ha
    (fun hm => by
      simp only [Constraint.holds, num_of_reads hd hm, num_of_reads hlo hm, num_of_reads hhi hm]
      simp [beq_eq_decide])

theorem carryProd_eq (c : Int) : ∀ m, carryProd c m = ∏ i ∈ Finset.range (m + 1), (c - (i : Int))
  | 0 => by simp [carryProd]
  | m + 1 => by rw [carryProd, carryProd_eq c m, Finset.prod_range_succ (n := m + 1)]

/-- The product of CARRY is zero in the field exactly when the carry is one of 0..m: p is prime (42_gates.md R171). -/
theorem red_carryProd {c m : Nat} (hc : c < Config.fieldP) :
    red (carryProd c m) = 0 ↔ c ≤ m := by
  have h0 : (0 : Nat) = red ((0 : Nat) : Int) := (red_of_lt (by have := Config.fieldP_gt; omega)).symm
  rw [h0, red_eq_iff, Nat.cast_zero, sub_zero, carryProd_eq,
    Prime.dvd_finsetProd_iff (Nat.prime_iff_prime_int.mp Config.fieldP_prime)]
  constructor
  · rintro ⟨i, hi, k, hk⟩
    rw [Finset.mem_range] at hi
    by_contra hlt
    have h1 : (0 : Int) < (c : Int) - i := by omega
    have h2 : (c : Int) - i < Config.fieldP := by omega
    rcases lt_or_ge 0 k with hk0 | hk0
    · have : (Config.fieldP : Int) * 1 ≤ Config.fieldP * k := Int.mul_le_mul_of_nonneg_left (by omega) (by omega)
      omega
    · have : (Config.fieldP : Int) * k ≤ 0 := Int.mul_nonpos_of_nonneg_of_nonpos (by omega) hk0
      omega
  · intro h
    exact ⟨c, Finset.mem_range.mpr (by omega), by simp⟩

theorem opCarry_ok {m : Nat} {c : CellName} {s : State} (p : Path) {x : Nat} (hb : s.booted = true)
    (ha : s.hostAccepts = true) (hc : s.Reads c x) (hx : x < Config.fieldP) :
    ∃ u, opCarry m c s = .ok () u ∧ Ext s u p [] [.carry c m] ∧
      u.unsat = s.unsatIf (decide (m < x)) ∧ ∀ c, u.cell c = s.cell c :=
  record_verdict p
    (by
      intro c' hc'
      simp only [Constraint.cells, List.mem_cons, List.not_mem_nil, or_false] at hc'
      rw [hc']; exact hc.1)
    (registered_of_booted hb (by simp [Constraint.kind])) ha
    (fun hw => by
      have h := red_carryProd (m := m) hx
      simp only [Constraint.holds, num_of_reads hc hw, beq_eq_decide, h, ← decide_not, not_lt])

/-! ### WORD -/

/-- The two half-word queries of a bundle bound the word by 2^32. -/
theorem word_bad (n : Nat) :
    (false || decide (2 ^ 16 ≤ lo16 n) || decide (2 ^ 16 ≤ hi16 n)) = decide (2 ^ 32 ≤ n) := by
  have h1 : ¬ (2 ^ 16 ≤ lo16 n) := by unfold lo16; omega
  have h2 : 2 ^ 16 ≤ hi16 n ↔ 2 ^ 32 ≤ n := by unfold hi16; omega
  rw [decide_eq_false h1, Bool.or_false, Bool.false_or]
  exact decide_eq_decide.mpr h2

theorem opWord_ok {p : Path} {v : Val} {s : State} {n : Nat} (hb : s.booted = true) (ha : s.hostAccepts = true)
    (hv : s.mode = .witness → v = .known n) (hn : n < Config.fieldP) (hf : s.Fresh p) :
    ∃ u, opWord p v s = .ok () u ∧ Ext s u p (wordCells p) (wordCons p) ∧ u.unsat = s.unsatIf (decide (2 ^ 32 ≤ n)) ∧
      u.HoldsWord p n := by
  have hp := Config.fieldP_gt
  have ne : ∀ {g g' : Seg}, g ≠ g' → p.cell g ≠ p.cell g' := fun h => by rw [Ne, cell_inj]; exact h
  have hlo : lo16 n < Config.fieldP := lt_of_le_of_lt (Nat.mod_le _ _) hn
  have hhi : hi16 n < Config.fieldP := lt_of_le_of_lt (Nat.div_le_self _ _) hn
  obtain ⟨u1, h1, x1, n1, c1, o1⟩ := assign_ok (cmd := encode .word) (v := v) (hf.cell .d) (cell_isBelow p .d) ha
  obtain ⟨u2, h2, x2, n2, c2, o2⟩ := assign_ok (cmd := encode .word) (v := (witnessVal s.mode v).map lo16) (s := u1) (c := p.cell .lo) (p := p)
    (by rw [o1 _ (ne (by decide))]; exact hf.cell .lo) (cell_isBelow p .lo) x1.accepts
  obtain ⟨u3, h3, x3, n3, c3, o3⟩ := assign_ok (cmd := encode .word) (v := (witnessVal s.mode v).map hi16) (s := u2) (c := p.cell .hi) (p := p)
    (by rw [o2 _ (ne (by decide)), o1 _ (ne (by decide))]; exact hf.cell .hi) (cell_isBelow p .hi) x2.accepts
  have x123 := (x1.trans x2).trans x3
  have m3 := x123.mode
  rw [storedVal_seen (cell_isBelow p .d) hv] at c1
  rw [x1.mode, storedVal_seen (cell_isBelow p .lo) (map_known (witnessVal_known hv))] at c2
  rw [(x1.trans x2).mode, storedVal_seen (cell_isBelow p .hi) (map_known (witnessVal_known hv))] at c3
  have d3 : u3.cell (p.cell .d) = some (u3.seen n) := by
    rw [x123.seen]; exact x3.mono _ _ (x2.mono _ _ c1)
  have lo3 : u3.cell (p.cell .lo) = some (u3.seen (lo16 n)) := by
    rw [x123.seen]; exact x3.mono _ _ c2
  have hi3 : u3.cell (p.cell .hi) = some (u3.seen (hi16 n)) := by
    rw [x123.seen]; exact c3
  have none3 : ∀ {g : Seg}, g ≠ .d → g ≠ .lo → g ≠ .hi → u3.cell (p.cell g) = none := fun a b c => by
    rw [o3 _ (ne c), o2 _ (ne b), o1 _ (ne a)]; exact hf.cell _
  obtain ⟨u4, h4, x4, n4, o4⟩ := opRecomb_ok p (by rw [x123.booted, hb]) x3.accepts (reads_of_seen d3)
    (reads_of_seen lo3) (reads_of_seen hi3)
  have good : decide (red (n : Int) ≠ red (((lo16 n : Nat) : Int) + 2 ^ 16 * ((hi16 n : Nat) : Int))) = false := by
    have e : ((lo16 n : Nat) : Int) + 2 ^ 16 * ((hi16 n : Nat) : Int) = (n : Int) := by
      unfold lo16 hi16; omega
    rw [e]; simp
  rw [good, unsatIf_false] at n4
  have x1234 := x123.trans x4
  obtain ⟨u5, h5, x5, n5, ct5, cs5, o5⟩ := opLookup_zero_ok (d := p.cell .lo) (t := p.cell .tlo) (sp := p.cell .slo) (p := p)
    (s := u4) (n := lo16 n) (by rw [x1234.booted, hb]) x4.accepts (x4.reads (reads_of_seen lo3)) hlo
    (by rw [o4]; exact none3 (by decide) (by decide) (by decide))
    (by rw [o4]; exact none3 (by decide) (by decide) (by decide)) (cell_isBelow p .tlo) (cell_isBelow p .slo)
    (ne (by decide))
  obtain ⟨u6, h6, x6, n6, ct6, cs6, o6⟩ := opLookup_zero_ok (d := p.cell .hi) (t := p.cell .thi) (sp := p.cell .shi) (p := p)
    (s := u5) (n := hi16 n) (by rw [x5.booted, x1234.booted, hb]) x5.accepts (x5.reads (x4.reads (reads_of_seen hi3))) hhi
    (by rw [o5 _ (ne (by decide)) (ne (by decide)), o4]; exact none3 (by decide) (by decide) (by decide))
    (by rw [o5 _ (ne (by decide)) (ne (by decide)), o4]; exact none3 (by decide) (by decide) (by decide))
    (cell_isBelow p .thi) (cell_isBelow p .shi) (ne (by decide))
  have lolt : lo16 n < 2 ^ 16 := Nat.mod_lt _ (by norm_num)
  have all := (x1234.trans x5).trans x6
  have x456 := (x4.trans x5).trans x6
  refine ⟨u6, ?_, ?_, ?_, ?_⟩
  · unfold opWord
    rw [bind_get, bind_ok h1, bind_ok h2, bind_ok h3, bind_ok h4, bind_ok h5, h6]
  · simpa [wordCons, wordCells] using all
  · rw [n6, unsatIf_unsatIf x5.mode n5, unsatIf_unsatIf x1234.mode (a := false) (by rw [unsatIf_false, n4, n3, n2, n1])]
    exact congrArg _ (word_bad n)
  · have e4 : u4.tagCuts = u6.tagCuts := by rw [x6.tagCuts, x5.tagCuts]
    have e5 : u5.tagCuts = u6.tagCuts := by rw [x6.tagCuts]
    have s3 : ∀ x, u3.seen x = u6.seen x := fun x => by rw [x456.seen]
    have s4 : ∀ x, u4.seen x = u6.seen x := fun x => by rw [x6.seen, x5.seen]
    have s5 : ∀ x, u5.seen x = u6.seen x := fun x => by rw [x6.seen]
    rw [s3] at d3 lo3 hi3
    rw [s4, e4, Nat.mod_eq_of_lt lolt] at ct5
    rw [s4, Nat.mod_eq_of_lt lolt] at cs5
    rw [s5, e5] at ct6
    rw [s5] at cs6
    exact ⟨x456.mono _ _ d3, x456.mono _ _ lo3, x456.mono _ _ hi3, x6.mono _ _ ct5, x6.mono _ _ cs5, ct6, cs6⟩

end Sys2Proof.Machine
end

