-- ==== Sys2Proof/Laws/Splits.lean ====
section
/-!
SUPPORT. What DECOMP, EXTRACT, MODADD and COPY do when they succeed (42_gates.md R161, R164, R169, R176).
-/

namespace Sys2Proof.Machine

open Sys2Proof

/-! ### Linear expressions -/

theorem sumTerms_eq {rd : CellName → Option Nat} {f : CellName → Nat} :
    ∀ {ts : List Term}, (∀ t ∈ ts, rd t.2 = some (f t.2)) → sumTerms rd ts = some (termsValue f ts)
  | [], _ => rfl
  | (c, y) :: ts, h => by
    have h1 : rd y = some (f y) := h (c, y) (by simp)
    have h2 := sumTerms_eq (ts := ts) fun t ht => h t (List.mem_cons_of_mem _ ht)
    simp only [sumTerms, h1, h2, termsValue, List.map_cons, List.sum_cons]

theorem readTerms_ok {cmd : CmdWord} {s : State} {f : CellName → Nat} :
    ∀ {ts : List Term}, (∀ t ∈ ts, s.Reads t.2 (f t.2)) →
      ∃ r, readTerms cmd ts s = .ok r s ∧ (s.mode = .witness → r = some (termsValue f ts))
  | [], _ => ⟨some 0, rfl, fun _ => rfl⟩
  | (c, y) :: ts, h => by
    obtain ⟨v, hv, hvk⟩ := memRead_reads (cmd := cmd) (h (c, y) (by simp))
    obtain ⟨r, hr, hrk⟩ := readTerms_ok (cmd := cmd) (ts := ts) fun t ht => h t (List.mem_cons_of_mem _ ht)
    rw [readTerms, bind_ok hv, bind_ok hr]
    cases v with
    | unknown => exact ⟨none, rfl, fun hm => by cases hvk hm⟩
    | known n =>
      cases r with
      | none => exact ⟨none, rfl, fun hm => by cases hrk hm⟩
      | some r =>
        refine ⟨some (c * n + r), rfl, fun hm => ?_⟩
        have e1 := hvk hm
        have e2 := hrk hm
        injection e1 with e1
        injection e2 with e2
        rw [e1, e2]
        simp only [termsValue, List.map_cons, List.sum_cons]

theorem sumCells_eq {rd : CellName → Option Nat} {f : CellName → Nat} :
    ∀ {ys : List CellName}, (∀ y ∈ ys, rd y = some (f y)) → sumCells rd ys = some ((ys.map f).sum)
  | [], _ => rfl
  | y :: ys, h => by
    have h1 : rd y = some (f y) := h y (by simp)
    have h2 := sumCells_eq (ys := ys) fun t ht => h t (List.mem_cons_of_mem _ ht)
    simp only [sumCells, h1, h2, List.map_cons, List.sum_cons]

theorem readWords_ok {cmd : CmdWord} {s : State} {g : Path → Nat} :
    ∀ {ys : List Path}, (∀ y ∈ ys, s.Reads (y.cell .d) (g y)) →
      ∃ r, readWords cmd ys s = .ok r s ∧ (s.mode = .witness → r = some ((ys.map fun y => wordOf (g y)).sum))
  | [], _ => ⟨some 0, rfl, fun _ => rfl⟩
  | y :: ys, h => by
    obtain ⟨v, hv, hvk⟩ := memRead_reads (cmd := cmd) (h y (by simp))
    obtain ⟨r, hr, hrk⟩ := readWords_ok (cmd := cmd) (ys := ys) fun t ht => h t (List.mem_cons_of_mem _ ht)
    rw [readWords, bind_ok hv, bind_ok hr]
    cases v with
    | unknown => exact ⟨none, rfl, fun hm => by cases hvk hm⟩
    | known n =>
      cases r with
      | none => exact ⟨none, rfl, fun hm => by cases hrk hm⟩
      | some r =>
        refine ⟨some (wordOf n + r), rfl, fun hm => ?_⟩
        have e1 := hvk hm
        have e2 := hrk hm
        injection e1 with e1
        injection e2 with e2
        rw [e1, e2]
        simp only [List.map_cons, List.sum_cons]

/-! ### EXTRACT -/

theorem spreadSumMod_lt (S : Int) : spreadSumMod S < 4 ^ 32 := by
  have h1 := Int.emod_nonneg S (show (4 ^ 32 : Int) ≠ 0 by norm_num)
  have h2 := Int.emod_lt_of_pos S (show (0 : Int) < 4 ^ 32 by norm_num)
  unfold spreadSumMod
  omega

theorem even32_lt (S : Nat) : even32 S < 2 ^ 32 := evenBits_lt 32 S
theorem odd32_lt (S : Nat) : odd32 S < 2 ^ 32 := evenBits_lt 32 (S / 2)

/-- A sum of spreads from its even and odd words (42_gates.md R167). -/
theorem spread32_even_odd {S : Nat} (h : S < 4 ^ 32) : spread32 (even32 S) + 2 * spread32 (odd32 S) = S := by
  rw [spread32_eq, spread32_eq]
  have := spreadBits_even_odd 32 S
  rw [Nat.mod_eq_of_lt h] at this
  exact this

/-- The spread of a word from the spreads of its halves, as a word bundle holds them. -/
theorem spread32_halves {x : Nat} (h : x < 2 ^ 32) :
    spread16 (lo16 x) + 4 ^ 16 * spread16 (hi16 x % 2 ^ 16) = spread32 x := by
  have : hi16 x % 2 ^ 16 = hi16 x := Nat.mod_eq_of_lt (by unfold hi16; omega)
  rw [this, spread32]

theorem lt_fieldP_of_lt {x : Nat} (h : x < 2 ^ 66) : x < Config.fieldP := lt_trans h Config.fieldP_gt

theorem opExtract_ok {k : Nat} {ops : List OperandExpr} {p : Path} {s : State} {f : CellName → Nat}
    (hb : s.booted = true) (ha : s.hostAccepts = true) (hl : ops.length = k)
    (hf : ∀ t ∈ ops.flatMap (·.terms), s.Reads t.2 (f t.2)) (hpe : s.Fresh (p.sub .e)) (hpo : s.Fresh (p.sub .o)) :
    ∃ u, opExtract k ops p s = .ok () u ∧ Ext s u p (extractCells p) (extractCons ops p) ∧
      u.unsat = s.unsatIf (decide (red (opsValue f ops) ≠ spreadSumMod (opsValue f ops))) ∧
      u.HoldsWord (p.sub .e) (even32 (spreadSumMod (opsValue f ops))) ∧
      u.HoldsWord (p.sub .o) (odd32 (spreadSumMod (opsValue f ops))) := by
  obtain ⟨r, hr, hrk⟩ := readTerms_ok (cmd := encode (.extract k)) hf
  obtain ⟨S, hS⟩ : ∃ S, S = spreadSumMod (opsValue f ops) := ⟨_, rfl⟩
  have hSlt : S < 4 ^ 32 := hS ▸ spreadSumMod_lt _
  have hv : s.mode = .witness →
      witnessVal s.mode (Val.ofOption (r.map fun r => spreadSumMod (r + (ops.map (·.const)).sum))) = .known S :=
    witnessVal_known fun hm => by rw [hrk hm, hS]; rfl
  obtain ⟨u1, h1, x1, n1, w1⟩ := opWord_ok (p := p.sub .e)
    (v := (witnessVal s.mode (Val.ofOption (r.map fun r => spreadSumMod (r + (ops.map (·.const)).sum)))).map even32) hb ha (map_known hv)
    (lt_fieldP_of_lt (lt_trans (even32_lt S) (by norm_num))) hpe
  obtain ⟨u2, h2, x2, n2, w2⟩ := opWord_ok (p := p.sub .o) (s := u1)
    (v := (witnessVal s.mode (Val.ofOption (r.map fun r => spreadSumMod (r + (ops.map (·.const)).sum)))).map odd32)
    (by rw [x1.booted, hb]) x1.accepts (map_known fun hm => hv (x1.mode ▸ hm))
    (lt_fieldP_of_lt (lt_trans (odd32_lt S) (by norm_num))) (x1.fresh_sibling hpo (by decide))
  have we := x2.holdsWord w1
  have re := readsWord_of_holds we
  have ro := readsWord_of_holds w2
  have x12 := x1.up.trans x2.up
  have hf2 : ∀ t ∈ ops.flatMap (·.terms), u2.Reads t.2 (f t.2) := fun t ht => x12.reads (hf t ht)
  obtain ⟨u, h3, x3, n3, o3⟩ := record_verdict (cmd := encode (.extract k)) (s := u2)
    (k := .spreadsum (ops.flatMap (·.terms)) (ops.map (·.const)).sum ((p.sub .e).cell .slo) ((p.sub .e).cell .shi)
      ((p.sub .o).cell .slo) ((p.sub .o).cell .shi)) p
    (bad := decide (red (opsValue f ops) ≠ S))
    (by
      intro c hc
      simp only [Constraint.cells, List.mem_append, List.mem_map, List.mem_cons, List.not_mem_nil, or_false] at hc
      rcases hc with ⟨t, ht, rfl⟩ | rfl | rfl | rfl | rfl
      · exact (hf2 t ht).1
      · exact re.2.1.1
      · exact re.2.2.1
      · exact ro.2.1.1
      · exact ro.2.2.1)
    (registered_of_booted (by rw [x12.booted, hb]) (by simp [Constraint.kind])) x2.accepts
    (by
      intro hm
      simp only [Constraint.holds, sumTerms_eq fun t ht => num_of_reads (hf2 t ht) hm, num_of_reads re.2.1 hm,
        num_of_reads re.2.2 hm, num_of_reads ro.2.1 hm, num_of_reads ro.2.2 hm]
      have e : ((spread16 (lo16 (even32 S)) : Nat) : Int) + 4 ^ 16 * (spread16 (hi16 (even32 S) % 2 ^ 16) : Nat)
          + 2 * ((spread16 (lo16 (odd32 S)) : Nat) + 4 ^ 16 * ((spread16 (hi16 (odd32 S) % 2 ^ 16) : Nat) : Int))
          = (S : Int) := by
        have h1 := spread32_halves (even32_lt S)
        have h2 := spread32_halves (odd32_lt S)
        have h3 := spread32_even_odd hSlt
        omega
      rw [e, red_of_lt (lt_fieldP_of_lt (lt_trans hSlt (by norm_num)))]
      rw [opsValue]
      generalize red (termsValue f (ops.flatMap (·.terms)) + (ops.map (·.const)).sum) = z
      by_cases h : z = S <;> simp [h])
  refine ⟨u, ?_, ?_, ?_, ?_, ?_⟩
  · unfold opExtract
    simp only
    rw [bind_ok (require_ok s (by simp [hl])), bind_get, bind_ok hr, bind_ok h1, bind_ok h2, h3]
  · have := x12.trans x3
    simpa [extractCons, extractCells] using this
  · rw [n3, unsatIf_unsatIf x12.mode (a := false), Bool.false_or, hS]
    have e1 : ¬ (2 ^ 32 ≤ even32 S) := by have := even32_lt S; omega
    have e2 : ¬ (2 ^ 32 ≤ odd32 S) := by have := odd32_lt S; omega
    rw [decide_eq_false e1, unsatIf_false] at n1
    rw [decide_eq_false e2, unsatIf_false, n1] at n2
    rw [n2, unsatIf_false]
  · rw [← hS]; exact x3.holdsWord we
  · rw [← hS]; exact x3.holdsWord w2

/-! ### MODADD -/

theorem wordOf_lt (n : Nat) : wordOf n < 2 ^ 32 := Nat.mod_lt _ (by norm_num)

/-- Bounds of a sum of at most five words, and how far it is from the sum of the unreduced values. -/
theorem wordSum_bounds {g : Path → Nat} : ∀ ys : List Path,
    (ys.map fun y => wordOf (g y)).sum ≤ ys.length * (2 ^ 32 - 1)
  | [] => by simp
  | y :: ys => by
    have h1 := wordSum_bounds (g := g) ys
    have h2 := wordOf_lt (g y)
    simp only [List.map_cons, List.sum_cons, List.length_cons]
    omega

theorem wordSum_split {g : Path → Nat} : ∀ ys : List Path,
    (ys.map g).sum = (ys.map fun y => wordOf (g y)).sum + 2 ^ 32 * (ys.map fun y => g y / 2 ^ 32).sum
  | [] => by simp
  | y :: ys => by
    have h1 := wordSum_split (g := g) ys
    have h2 : wordOf (g y) = g y % 2 ^ 32 := rfl
    simp only [List.map_cons, List.sum_cons]
    omega

theorem quotSum_lt {g : Path → Nat} {P : Nat} (hP : 2 ^ 66 < P) :
    ∀ ys : List Path, (∀ y ∈ ys, g y < P) → 2 ^ 32 * (ys.map fun y => g y / 2 ^ 32).sum ≤ ys.length * P
  | [], _ => by simp
  | y :: ys, h => by
    have h1 := quotSum_lt hP ys fun z hz => h z (List.mem_cons_of_mem _ hz)
    have h2 := h y (by simp)
    simp only [List.map_cons, List.sum_cons, List.length_cons, Nat.add_mul, Nat.mul_add, Nat.one_mul]
    omega

theorem quotSum_pos {g : Path → Nat} : ∀ ys : List Path,
    0 < (ys.map fun y => g y / 2 ^ 32).sum ↔ (ys.any fun y => decide (2 ^ 32 ≤ g y)) = true
  | [] => by simp
  | y :: ys => by
    have h1 := quotSum_pos (g := g) ys
    simp only [List.map_cons, List.sum_cons, List.any_cons, Bool.or_eq_true, decide_eq_true_eq, ← h1]
    omega

/-- A multiple of a power of two below p times it is divisible by p only when it is zero. -/
theorem dvd_pow_two_mul {e : Nat} {k : Int} (hk : |k| < Config.fieldP)
    (h : (Config.fieldP : Int) ∣ 2 ^ e * k) : k = 0 := by
  have hp := Nat.prime_iff_prime_int.mp Config.fieldP_prime
  have hgt := Config.fieldP_gt
  rcases hp.dvd_or_dvd h with h | h
  · exfalso
    have := hp.dvd_of_dvd_pow h
    have := Int.le_of_dvd (by norm_num) this
    omega
  · exact Int.eq_zero_of_abs_lt_dvd h hk

/-- The verdict of MODADD's MODSUM instance: false exactly when an input is not a 32-bit word (42_gates.md R169). -/
theorem modsum_verdict {g : Path → Nat} {ys : List Path} {K : Nat} (hn : ys.length ≤ 5)
    (hg : ∀ y ∈ ys, g y < Config.fieldP) :
    (red (((ys.map g).sum : Nat) + (K : Int)) == red
      (((((ys.map fun y => wordOf (g y)).sum + K) % 2 ^ 32 : Nat) : Int)
        + 2 ^ 32 * ((((ys.map fun y => wordOf (g y)).sum + K) / 2 ^ 32 : Nat) : Int)))
      = !(ys.any fun y => decide (2 ^ 32 ≤ g y)) := by
  have hgt := Config.fieldP_gt
  have h1 := wordSum_split (g := g) ys
  have h2 := quotSum_lt hgt ys hg
  have h3 := quotSum_pos (g := g) ys
  generalize (ys.map fun y => wordOf (g y)).sum = A at *
  generalize (ys.map fun y => g y / 2 ^ 32).sum = Q at *
  generalize (ys.map g).sum = T at *
  have e : ((((A + K) % 2 ^ 32 : Nat)) : Int) + 2 ^ 32 * (((A + K) / 2 ^ 32 : Nat) : Int) = (A : Int) + K := by omega
  rw [e]
  cases hb : (ys.any fun y => decide (2 ^ 32 ≤ g y)) with
  | false =>
    have : Q = 0 := by
      by_contra hq
      have := h3.mp (by omega)
      rw [hb] at this; cases this
    subst this
    have : (T : Int) + K = A + K := by omega
    rw [this]; simp
  | true =>
    have hq : 0 < Q := h3.mpr hb
    rw [Bool.not_true, beq_eq_false_iff_ne]
    intro hr
    rw [red_eq_iff] at hr
    have e2 : (T : Int) + K - (A + K) = 2 ^ 32 * (Q : Int) := by omega
    rw [e2] at hr
    have h5 : ys.length * Config.fieldP ≤ 5 * Config.fieldP := Nat.mul_le_mul_right _ hn
    have := dvd_pow_two_mul (k := (Q : Int)) (by rw [abs_of_nonneg (by omega)]; omega) hr
    omega

theorem carry_le {n K A : Nat} (hA : A ≤ n * (2 ^ 32 - 1)) (hK : K < 2 ^ 32) : (A + K) / 2 ^ 32 ≤ cmax n K := by
  unfold cmax
  split
  · subst K
    rcases n with _ | n
    · simp at hA; subst hA; simp
    · have : A < (n + 1) * 2 ^ 32 := by omega
      rw [Nat.add_zero]
      have := (Nat.div_lt_iff_lt_mul (by norm_num : 0 < 2 ^ 32)).mpr this
      omega
  · have : A + K < (n + 1) * 2 ^ 32 := by omega
    have := (Nat.div_lt_iff_lt_mul (by norm_num : 0 < 2 ^ 32)).mpr this
    omega

theorem opModadd_ok {n K : Nat} {ys : List Path} {p : Path} {s : State} {g : Path → Nat}
    (hb : s.booted = true) (ha : s.hostAccepts = true) (hl : ys.length = n) (hn : n ≤ 5) (hK : K < 2 ^ 32)
    (hy : ∀ y ∈ ys, s.Reads (y.cell .d) (g y)) (hg : s.mode = .witness → ∀ y ∈ ys, g y < Config.fieldP)
    (hf : s.Fresh p) :
    ∃ u, opModadd n ys K p s = .ok () u ∧ Ext s u p (modaddCells p) (modaddCons ys K p) ∧
      u.unsat = s.unsatIf (ys.any fun y => decide (2 ^ 32 ≤ g y)) ∧
      u.HoldsWord (p.sub .r) (((ys.map fun y => wordOf (g y)).sum + K) % 2 ^ 32) ∧
      u.cell (p.cell .c) = some (u.seen (((ys.map fun y => wordOf (g y)).sum + K) / 2 ^ 32)) := by
  obtain ⟨r, hr, hrk⟩ := readWords_ok (cmd := encode (.modadd n)) (g := g) hy
  obtain ⟨A, hA⟩ : ∃ A, A = (ys.map fun y => wordOf (g y)).sum := ⟨_, rfl⟩
  have hbound : A ≤ n * (2 ^ 32 - 1) := by rw [hA, ← hl]; exact wordSum_bounds ys
  have hAlt : A + K < 6 * 2 ^ 32 := by
    have : n * (2 ^ 32 - 1) ≤ 5 * (2 ^ 32 - 1) := Nat.mul_le_mul_right _ hn
    omega
  rw [← hA]
  have hv : s.mode = .witness → Val.ofOption (r.map (· + K)) = .known (A + K) := fun hm => by
    rw [hrk hm, hA]; rfl
  have rlt : (A + K) % 2 ^ 32 < 2 ^ 32 := Nat.mod_lt _ (by norm_num)
  obtain ⟨u1, h1, x1, n1, w1⟩ := opWord_ok (p := p.sub .r) (v := (Val.ofOption (r.map (· + K))).map (· % 2 ^ 32)) hb ha
    (map_known hv) (lt_fieldP_of_lt (lt_trans rlt (by norm_num))) (hf.sub .r)
  rw [decide_eq_false (by omega), unsatIf_false] at n1
  obtain ⟨u2, h2, x2, n2, c2, o2⟩ := assign_ok (cmd := encode (.modadd n))
    (v := (Val.ofOption (r.map (· + K))).map (· / 2 ^ 32)) (s := u1) (c := p.cell .c) (p := p)
    (by rw [x1.keep _ (cell_isBelow_sub (by decide))]; exact hf.cell .c) (cell_isBelow p .c) x1.accepts
  rw [x1.mode, storedVal_seen (cell_isBelow p .c) (map_known hv), ← x1.seen, ← x2.seen] at c2
  have x12 := x1.up.trans x2
  have w2 := x2.holdsWord w1
  have rw2 := readsWord_of_holds w2
  have rc2 := reads_of_seen c2
  have hy2 : ∀ y ∈ ys, u2.Reads (y.cell .d) (g y) := fun y h => x12.reads (hy y h)
  obtain ⟨u3, h3, x3, n3, o3⟩ := record_verdict (cmd := encode (.modadd n)) (s := u2)
    (k := .modsum (ys.map (·.cell .d)) K ((p.sub .r).cell .d) (p.cell .c)) p
    (bad := ys.any fun y => decide (2 ^ 32 ≤ g y))
    (by
      intro c hc
      simp only [Constraint.cells, List.mem_append, List.mem_map, List.mem_cons, List.not_mem_nil, or_false] at hc
      rcases hc with ⟨y, hy', rfl⟩ | rfl | rfl
      · exact (hy2 y hy').1
      · exact rw2.1.1
      · exact rc2.1)
    (registered_of_booted (by rw [x12.booted, hb]) (by simp [Constraint.kind])) x2.accepts
    (by
      intro hm
      have hs : sumCells u2.num (ys.map (·.cell .d)) = some (ys.map g).sum := by
        have : ∀ l : List Path, (∀ y ∈ l, u2.num (y.cell .d) = some (g y)) →
            sumCells u2.num (l.map (·.cell .d)) = some (l.map g).sum := by
          intro l
          induction l with
          | nil => intro _; rfl
          | cons y l ih =>
            intro h
            simp only [List.map_cons, sumCells, h y (by simp), ih fun z hz => h z (List.mem_cons_of_mem _ hz),
              List.sum_cons]
        exact this ys fun y h => num_of_reads (hy2 y h) hm
      simp only [Constraint.holds, hs, num_of_reads rw2.1 hm, num_of_reads rc2 hm]
      rw [hA, modsum_verdict (by omega) (hg (x12.mode ▸ hm))])
  have hc3 : u3.Reads (p.cell .c) ((A + K) / 2 ^ 32) := x3.reads rc2
  have clt : (A + K) / 2 ^ 32 < Config.fieldP :=
    lt_fieldP_of_lt (lt_of_le_of_lt (Nat.div_le_self _ _) (lt_trans hAlt (by norm_num)))
  obtain ⟨u4, h4, x4, n4, o4⟩ := opCarry_ok (m := cmax n K) p (by rw [x3.booted, x12.booted, hb]) x3.accepts hc3 clt
  have hle := carry_le hbound hK
  rw [decide_eq_false (by omega), unsatIf_false] at n4
  refine ⟨u4, ?_, ?_, ?_, ?_, ?_⟩
  · unfold opModadd
    simp only
    rw [bind_ok (require_ok s (by simp [hl])), bind_ok hr, bind_ok h1, bind_ok h2, bind_ok h3, h4]
  · have := (x12.trans x3).trans x4
    simpa [modaddCons, modaddCells, hl] using this
  · rw [n4, n3, unsatIf_unsatIf x12.mode (a := false), Bool.false_or]
    rw [n2, n1, unsatIf_false]
  · exact x4.holdsWord (x3.holdsWord w2)
  · rw [o4, o3, c2, x4.seen, x3.seen]

/-! ### COPY -/

theorem opCopy_ok {a b : CellName} {s : State} {x y : Nat} (p : Path) (hb : s.booted = true) (ha : s.hostAccepts = true)
    (hka : a.kind ≠ .table) (hkb : b.kind ≠ .table) (hx : s.Reads a x) (hy : s.Reads b y)
    (hxp : x < Config.fieldP) (hyp : y < Config.fieldP) :
    ∃ u, opCopy a b s = .ok () u ∧ Ext s u p [] [.copy a b] ∧ u.unsat = s.unsatIf (decide (x ≠ y)) ∧
      (∀ c, u.cell c = s.cell c) ∧ u.requests = .copyEqual a b :: s.requests := by
  obtain ⟨h1, h2⟩ := request_ok (rq := .copyEqual a b) (cause := .assign) (cmd := encode .copy) ha
  generalize hs1 : ({ s with requests := .copyEqual a b :: s.requests, hostAnswers := s.hostAnswers.tail } : State) = s1
    at h1 h2
  have x1 : Ext s s1 p [] [] := by
    subst hs1
    exact ⟨rfl, h2, rfl, by simp, fun _ _ => rfl, fun _ _ h => h, rfl, by simp⟩
  have hreg : s1.registered (.copy a b) = true := by
    have hb1 : s1.booted = true := by rw [x1.booted, hb]
    simp only [State.booted, Bool.and_eq_true, beq_iff_eq] at hb1
    unfold State.registered
    rw [hb1.1]
    have col : ∀ c : CellName, c.kind ≠ .table → stdConfig.equality.contains c.column = true := by
      intro c hc
      cases c <;> simp_all [CellName.kind, CellName.column, stdConfig]
    simp only [col a hka, col b hkb, Bool.and_self]
  obtain ⟨u, h3, x3, n3, o3⟩ := record_verdict (cmd := encode .copy) (s := s1) (k := .copy a b) p
    (bad := decide (x ≠ y))
    (by
      intro c hc
      simp only [Constraint.cells, List.mem_cons, List.not_mem_nil, or_false] at hc
      rcases hc with rfl | rfl
      · exact x1.has hx.1
      · exact x1.has hy.1)
    hreg x1.accepts
    (by
      intro hm
      simp only [Constraint.holds, num_of_reads (x1.reads hx) hm, num_of_reads (x1.reads hy) hm, red_of_lt hxp,
        red_of_lt hyp]
      simp [beq_eq_decide])
  refine ⟨u, ?_, ?_, ?_, ?_, ?_⟩
  · unfold opCopy
    rw [bind_ok (require_ok s (by simp [hka, hkb])), bind_ok h1, h3]
  · simpa using x1.trans x3
  · rw [n3, unsatIf_unsatIf x1.mode (a := false), Bool.false_or]
    subst hs1; rw [unsatIf_false]
  · intro c; rw [o3]; subst hs1; rfl
  · rw [record_requests h3]; subst hs1; rfl

end Sys2Proof.Machine
end

