-- ==== Sys2Proof/Laws/Functions.lean ====
section
/-!
SUPPORT. What DECOMP and the function operations do when they succeed (42_gates.md R161; 43_functions.md R181 to R187).
-/

namespace Sys2Proof.Machine

open Sys2Proof

/-- A predicate that is an equation, as a verdict. -/
theorem beq_verdict {a b : Nat} {bad : Prop} [Decidable bad] (h : a = b ↔ ¬ bad) : (a == b) = !decide bad := by
  by_cases hb : bad
  · rw [decide_eq_true hb, Bool.not_true, beq_eq_false_iff_ne]
    exact fun e => h.mp e hb
  · rw [decide_eq_false hb, Bool.not_false, beq_iff_eq]
    exact h.mpr hb

/-! ### DECOMP -/

/-- The piece cells of a split from piece i on hold their pieces, and the spread cells the pieces' spreads. -/
def State.HoldsPieces (s : State) (p : Path) (x : Nat) : Nat → List (Nat × Nat) → Prop
  | _, [] => True
  | i, wo :: rest =>
    s.cell (p.cell (.pIx i)) = some (s.seen (pieceNat x wo)) ∧
    s.cell (pieceSpread p i) = some (s.seen (spread16 (pieceNat x wo))) ∧ s.HoldsPieces p x (i + 1) rest

theorem Ext.holdsPieces {s t : State} {q : Path} {n : List CellName} {ks : List Constraint} (h : Ext s t q n ks) {p : Path} {x : Nat} :
    ∀ {i : Nat} {l : List (Nat × Nat)}, s.HoldsPieces p x i l → t.HoldsPieces p x i l
  | _, [], _ => trivial
  | i, wo :: rest, hp => by
    refine ⟨?_, ?_, h.holdsPieces hp.2.2⟩
    · rw [h.seen]; exact h.mono _ _ hp.1
    · rw [h.seen]; exact h.mono _ _ hp.2.1

theorem pieceNat_lt (x : Nat) (wo : Nat × Nat) : pieceNat x wo < 2 ^ wo.1 := Nat.mod_lt _ (by positivity)

theorem opPieces_ok {cmd : CmdWord} {v : Val} {p : Path} {x : Nat} :
    ∀ {l : List (Nat × Nat)} {i : Nat} {s : State}, s.booted = true → s.hostAccepts = true →
      (s.mode = .witness → v = .known x) → (∀ wo ∈ l, wo.1 < 16) →
      (∀ j, i ≤ j → s.cell (p.cell (.pIx j)) = none ∧ s.Fresh (p.sub (.rIx j))) →
      ∃ u, opPieces cmd v p i l s = .ok () u ∧ Ext s u p (pieceCells p i l) (pieceCons p i l) ∧ u.unsat = s.unsat ∧
        u.HoldsPieces p x i l
  | [], i, s, _, ha, _, _, _ => ⟨s, rfl, Ext.refl s p ha, rfl, trivial⟩
  | (w, o) :: rest, i, s, hb, ha, hv, hw, hf => by
    obtain ⟨hfp, hfr⟩ := hf i le_rfl
    have hw16 : w < 16 := hw (w, o) (by simp)
    obtain ⟨u1, h1, x1, n1, c1, o1⟩ := assign_ok (cmd := cmd) (v := v.map fun x => x / 2 ^ o % 2 ^ w) hfp
      (cell_isBelow p (.pIx i)) ha
    rw [storedVal_seen (cell_isBelow p (.pIx i)) (map_known hv), ← x1.seen] at c1
    have hlt : pieceNat x (w, o) < 2 ^ w := pieceNat_lt x (w, o)
    have hlt16 : pieceNat x (w, o) < 2 ^ 16 :=
      lt_of_lt_of_le hlt (Nat.pow_le_pow_right (by norm_num) (by omega))
    have ne : ∀ {j : Nat} {c : CellName}, c.isBelow (p.sub (.rIx j)) = true → c ≠ p.cell (.pIx i) := by
      intro j c hc e
      subst e
      rw [cell_isBelow_sub (by simp)] at hc
      cases hc
    obtain ⟨u2, h2, x2, n2, -, c2⟩ := opRange_ok (w := w) (d := p.cell (.pIx i)) (p := p.sub (.rIx i)) (s := u1)
      (n := pieceNat x (w, o)) (by rw [x1.booted, hb]) x1.accepts (reads_of_seen c1)
      (lt_fieldP_of_lt (lt_trans hlt16 (by norm_num)))
      (fun c hc => by rw [o1 c (ne hc)]; exact hfr c hc) (by omega)
    rw [decide_eq_false (by omega), unsatIf_false] at n2
    rw [Nat.mod_eq_of_lt hlt16, ← x2.seen] at c2
    have x12 := x1.trans x2.up
    obtain ⟨u, h3, x3, n3, hp3⟩ := opPieces_ok (cmd := cmd) (v := v) (p := p) (x := x) (l := rest) (i := i + 1) (s := u2)
      (by rw [x12.booted, hb]) x2.accepts (fun hm => hv (by rw [← x12.mode]; exact hm))
      (fun wo h => hw wo (List.mem_cons_of_mem _ h))
      (fun j hj => by
        have hij : i ≠ j := by omega
        obtain ⟨ha1, ha2⟩ := hf j (by omega)
        refine ⟨?_, ?_⟩
        · rw [x2.keep _ (cell_isBelow_sub (by simp)), o1 _ (by rw [Ne, cell_inj]; simp [hij.symm])]
          exact ha1
        · intro c hc
          rw [x2.keep c (isBelow_sub_disjoint (by simp [hij.symm]) hc), o1 c (ne hc)]
          exact ha2 c hc)
    refine ⟨u, ?_, ?_, ?_, ?_⟩
    · rw [opPieces, bind_ok h1, bind_ok h2, h3]
    · have := x12.trans x3
      simpa [pieceCons, pieceCells] using this
    · rw [n3, n2, n1]
    · refine ⟨?_, ?_, hp3⟩
      · rw [x3.seen, x2.seen]; exact x3.mono _ _ (x2.mono _ _ c1)
      · rw [x3.seen]; exact x3.mono _ _ c2

/-- The value of every piece cell and spread cell under a split, as a function of names. -/
theorem pieceTerms_reads {s : State} {p : Path} {x : Nat} :
    ∀ {l : List (Nat × Nat)} {i : Nat}, s.HoldsPieces p x i l →
      (∀ t ∈ pieceTerms p i l, s.has t.2 = true) ∧
      (s.mode = .witness → sumTerms s.num (pieceTerms p i l)
        = some (((l.map fun wo => 2 ^ wo.2 * pieceNat x wo).sum : Nat) : Int))
  | [], i, _ => ⟨by simp [pieceTerms], fun _ => by simp [pieceTerms, sumTerms]⟩
  | (w, o) :: rest, i, h => by
    obtain ⟨h1, h2⟩ := pieceTerms_reads (s := s) (p := p) (x := x) (l := rest) (i := i + 1) h.2.2
    refine ⟨?_, fun hm => ?_⟩
    · intro t ht
      simp only [pieceTerms, List.mem_cons] at ht
      rcases ht with rfl | ht
      · exact has_of_cell h.1
      · exact h1 t ht
    · simp only [pieceTerms, sumTerms, num_of_seen h.1 hm, h2 hm, List.map_cons, List.sum_cons]
      push_cast
      rfl

/-- The pieces of every layout put together are the word (42_gates.md R160). -/
theorem pieces_sum (l : Layout) {x : Nat} (hx : x < 2 ^ 32) :
    ((pieces l).map fun wo => 2 ^ wo.2 * pieceNat x wo).sum = x := by
  cases l <;> simp only [pieces, pieceNat, List.map_cons, List.map_nil, List.sum_cons, List.sum_nil] <;> omega

theorem pieces_lt (l : Layout) : ∀ wo ∈ pieces l, wo.1 < 16 := by cases l <;> decide

theorem pieces_length (l : Layout) : (pieces l).length = 4 := by cases l <;> rfl

/-- A reduced word differs from the value in the field exactly when the value is no 32-bit word. -/
theorem red_wordOf {n : Nat} (hn : n < Config.fieldP) : red (n : Int) = red (wordOf n : Int) ↔ n < 2 ^ 32 := by
  have hw : wordOf n < Config.fieldP := lt_fieldP_of_lt (lt_trans (wordOf_lt n) (by norm_num))
  rw [red_of_lt hn, red_of_lt hw]
  unfold wordOf
  omega

theorem opDecomp_ok {l : Layout} {x p : Path} {s : State} {n : Nat} (hb : s.booted = true) (ha : s.hostAccepts = true)
    (hx : s.Reads (x.cell .d) n) (hn : n < Config.fieldP) (hf : s.Fresh p) :
    ∃ u, opDecomp l x p s = .ok () u ∧ Ext s u p (decompCells l p) (decompCons l x p) ∧
      u.unsat = s.unsatIf (decide (2 ^ 32 ≤ n)) ∧ u.HoldsPieces p (wordOf n) 0 (pieces l) := by
  obtain ⟨v, hv, hvk⟩ := memRead_reads (cmd := encode (.decomp l)) hx
  obtain ⟨u1, h1, x1, n1, p1⟩ := opPieces_ok (cmd := encode (.decomp l)) (v := v.map wordOf) (p := p) (x := wordOf n)
    (l := pieces l) (i := 0) hb ha (map_known hvk) (pieces_lt l) (fun j _ => ⟨hf.cell _, hf.sub _⟩)
  obtain ⟨ht, hts⟩ := pieceTerms_reads p1
  obtain ⟨u, h2, x2, n2, o2⟩ := record_verdict (cmd := encode (.decomp l)) (s := u1)
    (k := .lin (x.cell .d) (pieceTerms p 0 (pieces l))) p (bad := decide (2 ^ 32 ≤ n))
    (by
      intro c hc
      simp only [Constraint.cells, List.mem_cons, List.mem_map] at hc
      rcases hc with rfl | ⟨t, h, rfl⟩
      · exact x1.has hx.1
      · exact ht t h)
    (registered_of_booted (by rw [x1.booted, hb]) (by simp [Constraint.kind])) x1.accepts
    (by
      intro hm
      simp only [Constraint.holds, num_of_reads (x1.reads hx) hm, hts hm, pieces_sum l (wordOf_lt n)]
      exact congrArg some (beq_verdict (by rw [red_wordOf hn]; omega)))
  refine ⟨u, ?_, ?_, ?_, x2.holdsPieces p1⟩
  · unfold opDecomp
    rw [bind_ok hv, bind_ok h1, h2]
  · have := x1.trans x2
    simpa [decompCells, decompCons] using this
  · rw [n2]; unfold State.unsatIf; rw [n1, x1.mode]

/-! ### Operands by what their cells hold -/

/-- The number a cell holds, 0 where it holds none. -/
def State.numOf (s : State) (c : CellName) : Nat := (s.num c).getD 0

theorem numOf_of_reads {s : State} {c : CellName} {n : Nat} (h : s.Reads c n) (hm : s.mode = .witness) :
    s.numOf c = n := by
  rw [State.numOf, num_of_reads h hm, Option.getD_some]

theorem reads_numOf {s : State} {c : CellName} {n : Nat} (h : s.Reads c n) : s.Reads c (s.numOf c) :=
  ⟨h.1, fun hm => by rw [numOf_of_reads h hm]; exact h.2 hm⟩

/-- In SHAPE mode a bundle holds every number, so only WITNESS mode matters. -/
theorem holdsWord_congr {s : State} {h : Path} {a b : Nat} (e : s.mode = .witness → a = b) (hw : s.HoldsWord h a) :
    s.HoldsWord h b := by
  cases hm : s.mode with
  | witness => rw [← e hm]; exact hw
  | shape =>
    have h1 : ∀ x y, s.seen x = s.seen y := fun x y => by simp only [State.seen, hm]
    unfold State.HoldsWord at hw ⊢
    rw [h1 b a, h1 (lo16 b) (lo16 a), h1 (hi16 b) (hi16 a), h1 (tagOf _ (lo16 b)) (tagOf s.tagCuts (lo16 a)),
      h1 (spread16 (lo16 b)) (spread16 (lo16 a)), h1 (tagOf _ (hi16 b % 2 ^ 16)) (tagOf s.tagCuts (hi16 a % 2 ^ 16)),
      h1 (spread16 (hi16 b % 2 ^ 16)) (spread16 (hi16 a % 2 ^ 16))]
    exact hw

theorem unsatIf_congr {s : State} {a b : Bool} (e : s.mode = .witness → a = b) : s.unsatIf a = s.unsatIf b := by
  unfold State.unsatIf
  cases hm : s.mode with
  | witness => rw [e hm]
  | shape => rfl

theorem termsValue_append (f : CellName → Nat) (a b : List Term) :
    termsValue f (a ++ b) = termsValue f a + termsValue f b := by
  simp [termsValue]

theorem opsValue_eq (f : CellName → Nat) : ∀ ops : List OperandExpr,
    opsValue f ops = (ops.map fun o => termsValue f o.terms + o.const).sum
  | [] => rfl
  | o :: ops => by
    have h := opsValue_eq f ops
    unfold opsValue at h ⊢
    simp only [List.flatMap_cons, termsValue_append, List.map_cons, List.sum_cons, ← h]
    omega

theorem spreadSumMod_of_lt {S : Nat} (h : S < 4 ^ 32) : spreadSumMod (S : Int) = S := by
  unfold spreadSumMod
  rw [Int.emod_eq_of_lt (by omega) (by exact_mod_cast h)]
  rfl

/-- An extraction whose sum is known in WITNESS mode to be `S` below 4^32: its outputs are S's even and odd words, and
no instance is false (42_gates.md R164, R165). -/
theorem opExtract_of_sum {k : Nat} {ops : List OperandExpr} {p : Path} {s : State} {S : Nat}
    (hb : s.booted = true) (ha : s.hostAccepts = true) (hl : ops.length = k)
    (hf : ∀ t ∈ ops.flatMap (·.terms), s.Reads t.2 (s.numOf t.2))
    (hS : s.mode = .witness → opsValue s.numOf ops = (S : Int)) (hlt : S < 4 ^ 32)
    (hpe : s.Fresh (p.sub .e)) (hpo : s.Fresh (p.sub .o)) :
    ∃ u, opExtract k ops p s = .ok () u ∧ Ext s u p (extractCells p) (extractCons ops p) ∧ u.unsat = s.unsat ∧
      u.HoldsWord (p.sub .e) (even32 S) ∧ u.HoldsWord (p.sub .o) (odd32 S) := by
  obtain ⟨u, h1, x1, n1, we, wo⟩ := opExtract_ok (f := s.numOf) hb ha hl hf hpe hpo
  refine ⟨u, h1, x1, ?_, holdsWord_congr ?_ we, holdsWord_congr ?_ wo⟩
  · rw [n1, ← unsatIf_false s]
    refine unsatIf_congr fun hm => ?_
    rw [hS hm, spreadSumMod_of_lt hlt, red_of_lt (lt_fieldP_of_lt (lt_trans hlt (by norm_num)))]
    simp
  · intro hm
    rw [x1.mode] at hm
    rw [hS hm, spreadSumMod_of_lt hlt]
  · intro hm
    rw [x1.mode] at hm
    rw [hS hm, spreadSumMod_of_lt hlt]

/-! ### σ and Σ -/

theorem termExpr_value {s : State} {p : Path} {x : Nat} (hm : s.mode = .witness) :
    ∀ {l : List (Nat × Nat)} {i : Nat} {js : List (Option Nat)}, s.HoldsPieces p x i l → js.length ≤ l.length →
      (∀ t ∈ termExpr p i js, s.Reads t.2 (s.numOf t.2)) ∧
      termsValue s.numOf (termExpr p i js) = (termSum js (l.map (pieceNat x)) : Int)
  | _, _, [], _, _ => ⟨by simp [termExpr], by simp [termExpr, termsValue, termSum]⟩
  | [], _, _ :: _, _, hl => by simp at hl
  | wo :: rest, i, j :: js, h, hl => by
    obtain ⟨h1, h2⟩ := termExpr_value (s := s) (p := p) (x := x) hm (l := rest) (i := i + 1) (js := js) h.2.2
      (by simpa using hl)
    have hr := reads_of_seen h.2.1
    cases j with
    | none => exact ⟨by simpa [termExpr] using h1, by simpa [termExpr, termSum] using h2⟩
    | some j =>
      refine ⟨?_, ?_⟩
      · intro t ht
        simp only [termExpr, List.mem_cons] at ht
        rcases ht with rfl | ht
        · exact reads_numOf hr
        · exact h1 t ht
      · have e := numOf_of_reads hr hm
        simp only [termsValue] at h2
        simp only [termExpr, termsValue, List.map_cons, List.sum_cons, e, termSum, h2]
        push_cast
        rfl

/-- Every spread cell a σ/Σ term names exists. -/
theorem termExpr_reads {s : State} {p : Path} {x : Nat} :
    ∀ {l : List (Nat × Nat)} {i : Nat} {js : List (Option Nat)}, s.HoldsPieces p x i l → js.length ≤ l.length →
      ∀ t ∈ termExpr p i js, s.Reads t.2 (s.numOf t.2)
  | _, _, [], _, _ => by simp [termExpr]
  | [], _, _ :: _, _, hl => by simp at hl
  | wo :: rest, i, j :: js, h, hl => by
    have h1 := termExpr_reads (s := s) (p := p) (x := x) (l := rest) (i := i + 1) (js := js) h.2.2 (by simpa using hl)
    cases j with
    | none => simpa [termExpr] using h1
    | some j =>
      intro t ht
      simp only [termExpr, List.mem_cons] at ht
      rcases ht with rfl | ht
      · exact reads_numOf (reads_of_seen h.2.1)
      · exact h1 t ht

theorem exponents_length (l : Layout) : ∀ js ∈ exponents l, js.length ≤ (pieces l).length := by
  cases l <;> decide

/-- The sum of a σ/Σ extraction: the spreads of its three words. -/
def rotationSum (l : Layout) (x : Nat) : Nat :=
  spreadBits 32 (termWords l x).1 + spreadBits 32 (termWords l x).2.1 + spreadBits 32 (termWords l x).2.2

theorem rotationSum_lt (l : Layout) (x : Nat) : rotationSum l x < 4 ^ 32 := by
  have h1 := three_spreadBits_lt 32 (termWords l x).1
  have h2 := three_spreadBits_lt 32 (termWords l x).2.1
  have h3 := three_spreadBits_lt 32 (termWords l x).2.2
  unfold rotationSum
  omega

theorem rotationOperands_value {l : Layout} {s : State} {p : Path} {x : Nat} (hm : s.mode = .witness) (hx : x < 2 ^ 32)
    (h : s.HoldsPieces p x 0 (pieces l)) : opsValue s.numOf (rotationOperands l p) = (rotationSum l x : Int) := by
  have hs := termSum_eq l hx
  have he : ∀ E : List (List (Option Nat)), (∀ js ∈ E, js.length ≤ (pieces l).length) →
      opsValue s.numOf (E.map fun js => ⟨termExpr p 0 js, 0⟩)
        = ((E.map fun js => termSum js ((pieces l).map (pieceNat x))).sum : Nat) := by
    intro E
    induction E with
    | nil => intro _; rfl
    | cons js E ih =>
      intro hE
      have h1 := (termExpr_value hm h (hE js (by simp))).2
      have h2 := ih fun js h => hE js (List.mem_cons_of_mem _ h)
      rw [opsValue_eq] at h2 ⊢
      simp only [List.map_cons, List.sum_cons, h1, h2]
      push_cast
      omega
  rw [rotationOperands, he _ (exponents_length l), hs]
  simp only [List.sum_cons, List.sum_nil, rotationSum]
  omega

theorem ofNat_wordOf (n : Nat) : BitVec.ofNat 32 (wordOf n) = BitVec.ofNat 32 n := by
  apply BitVec.eq_of_toNat_eq
  simp [wordOf]

theorem opRotations_ok {l : Layout} {x p : Path} {s : State} {n : Nat} (hb : s.booted = true)
    (ha : s.hostAccepts = true) (hx : s.Reads (x.cell .d) n) (hn : n < Config.fieldP) (hf : s.Fresh p) :
    ∃ u, opRotations l x p s = .ok () u ∧ Ext s u p (sigmaCells l p) (sigmaCons l x p) ∧ u.unsat = s.unsatIf (decide (2 ^ 32 ≤ n)) ∧
      u.HoldsWord (sigmaResult p) (sigma l (BitVec.ofNat 32 n)).toNat := by
  obtain ⟨u1, h1, x1, n1, p1⟩ := opDecomp_ok (l := l) hb ha hx hn (hf.sub .dc)
  have hfx : u1.Fresh (p.sub .x) := x1.fresh_sibling (hf.sub .x) (by decide)
  obtain ⟨u, h2, x2, n2, we, -⟩ := opExtract_of_sum (k := 3) (ops := rotationOperands l (p.sub .dc)) (p := p.sub .x)
    (s := u1) (S := rotationSum l (wordOf n)) (by rw [x1.booted, hb]) x1.accepts (by cases l <;> rfl)
    (by
      intro t ht
      simp only [rotationOperands, List.mem_flatMap, List.mem_map] at ht
      obtain ⟨o, ⟨js, hjs, rfl⟩, ht⟩ := ht
      exact termExpr_reads p1 (exponents_length l js hjs) t ht)
    (fun hm => rotationOperands_value hm (wordOf_lt n) p1) (rotationSum_lt l _) (hfx.sub .e) (hfx.sub .o)
  refine ⟨u, ?_, ?_, ?_, ?_⟩
  · unfold opRotations
    rw [bind_ok h1, h2]
  · exact x1.up.trans x2.up
  · rw [n2, n1]
  · have hw := termWords_lt l (wordOf_lt n)
    have : even32 (rotationSum l (wordOf n)) = (sigma l (BitVec.ofNat 32 n)).toNat := by
      rw [← ofNat_wordOf, toNat_sigma l (wordOf_lt n)]
      exact evenBits_spread3 32 _ _ _ hw.1 hw.2.1 hw.2.2
    rw [this] at we
    exact we

/-! ### CH and MAJ -/

/-- The value of `spr(h)` for a bundle that reads as `n`. -/
theorem spr_value {s : State} {h : Path} {n : Nat} (hm : s.mode = .witness) (hr : s.ReadsWord h n) :
    termsValue s.numOf (spr h) = (spreadBits 32 (wordOf n) : Int) := by
  have h1 : lo16 (wordOf n) = lo16 n := by unfold lo16 wordOf; omega
  have h2 : hi16 (wordOf n) = hi16 n % 2 ^ 16 := by unfold hi16 wordOf; omega
  have e := spread32_eq (wordOf n)
  rw [spread32, h1, h2] at e
  simp only [termsValue, spr, List.map_cons, List.map_nil, List.sum_cons, List.sum_nil, numOf_of_reads hr.2.1 hm,
    numOf_of_reads hr.2.2 hm, ← e]
  push_cast
  ring

theorem notSpr_value {s : State} {h : Path} {n : Nat} (hm : s.mode = .witness) (hr : s.ReadsWord h n) :
    termsValue s.numOf (notSpr h).terms + (notSpr h).const = (spreadBits 32 (2 ^ 32 - 1 - wordOf n) : Int) := by
  have h1 := spr_value hm hr
  have h2 := spreadBits_compl 32 (wordOf n) (wordOf_lt n)
  rw [spreadBits_ones_32] at h2
  simp only [termsValue, spr, List.map_cons, List.map_nil, List.sum_cons, List.sum_nil] at h1
  simp only [termsValue, notSpr, List.map_cons, List.map_nil, List.sum_cons, List.sum_nil]
  omega

theorem spr_reads {s : State} {h : Path} {n : Nat} (hr : s.ReadsWord h n) : ∀ t ∈ spr h, s.Reads t.2 (s.numOf t.2) := by
  intro t ht
  simp only [spr, List.mem_cons, List.not_mem_nil, or_false] at ht
  rcases ht with rfl | rfl
  · exact reads_numOf hr.2.1
  · exact reads_numOf hr.2.2

theorem notSpr_reads {s : State} {h : Path} {n : Nat} (hr : s.ReadsWord h n) :
    ∀ t ∈ (notSpr h).terms, s.Reads t.2 (s.numOf t.2) := by
  intro t ht
  simp only [notSpr, List.mem_cons, List.not_mem_nil, or_false] at ht
  rcases ht with rfl | rfl
  · exact reads_numOf hr.2.1
  · exact reads_numOf hr.2.2

/-- The complement of a word as a number. -/
theorem toNat_not_ofNat (n : Nat) : (~~~ BitVec.ofNat 32 n).toNat = 2 ^ 32 - 1 - wordOf n := by
  simp [BitVec.toNat_not, wordOf]

theorem opCh_ok {e f g p : Path} {s : State} {ne nf ng : Nat} (hb : s.booted = true) (ha : s.hostAccepts = true)
    (he : s.ReadsWord e ne) (hf : s.ReadsWord f nf) (hg : s.ReadsWord g ng) (hp : s.Fresh p) :
    ∃ u, opCh e f g p s = .ok () u ∧ Ext s u p (chCells p) (chCons e f g p) ∧ u.unsat = s.unsat ∧
      u.HoldsWord (chP p) (BitVec.ofNat 32 ne &&& BitVec.ofNat 32 nf).toNat ∧
      u.HoldsWord (chQ p) (~~~ BitVec.ofNat 32 ne &&& BitVec.ofNat 32 ng).toNat := by
  have three := fun x => three_spreadBits_lt 32 x
  obtain ⟨u1, h1, x1, n1, -, w1⟩ := opExtract_of_sum (k := 2) (ops := chOperandsP e f) (p := p.sub .p) (s := s)
    (S := spreadBits 32 (wordOf ne) + spreadBits 32 (wordOf nf)) hb ha rfl
    (by
      intro t ht
      simp only [chOperandsP, List.flatMap_cons, List.flatMap_nil, List.append_nil, List.mem_append] at ht
      exact ht.elim (spr_reads he t) (spr_reads hf t))
    (fun hm => by
      rw [opsValue_eq]
      simp only [chOperandsP, List.map_cons, List.map_nil, List.sum_cons, List.sum_nil, spr_value hm he, spr_value hm hf]
      push_cast
      ring)
    (by have := three (wordOf ne); have := three (wordOf nf); omega) ((hp.sub .p).sub .e) ((hp.sub .p).sub .o)
  have he1 := x1.readsWord he
  have hg1 := x1.readsWord hg
  have hq : u1.Fresh (p.sub .q) := x1.fresh_sibling (hp.sub .q) (by decide)
  obtain ⟨u, h2, x2, n2, -, w2⟩ := opExtract_of_sum (k := 2) (ops := chOperandsQ e g) (p := p.sub .q) (s := u1)
    (S := spreadBits 32 (2 ^ 32 - 1 - wordOf ne) + spreadBits 32 (wordOf ng)) (by rw [x1.booted, hb]) x1.accepts rfl
    (by
      intro t ht
      simp only [chOperandsQ, List.flatMap_cons, List.flatMap_nil, List.append_nil, List.mem_append] at ht
      exact ht.elim (notSpr_reads he1 t) (spr_reads hg1 t))
    (fun hm => by
      rw [opsValue_eq]
      simp only [chOperandsQ, List.map_cons, List.map_nil, List.sum_cons, List.sum_nil, notSpr_value hm he1,
        spr_value hm hg1]
      push_cast
      ring)
    (by have := three (2 ^ 32 - 1 - wordOf ne); have := three (wordOf ng); omega) (hq.sub .e) (hq.sub .o)
  refine ⟨u, ?_, ?_, ?_, ?_, ?_⟩
  · unfold opCh
    rw [show [⟨spr e, 0⟩, ⟨spr f, 0⟩] = chOperandsP e f from rfl, show [notSpr e, ⟨spr g, 0⟩] = chOperandsQ e g from rfl,
      bind_ok h1, h2]
  · exact x1.up.trans x2.up
  · rw [n2, n1]
  · have : odd32 (spreadBits 32 (wordOf ne) + spreadBits 32 (wordOf nf))
        = (BitVec.ofNat 32 ne &&& BitVec.ofNat 32 nf).toNat := by
      rw [odd32, oddBits_spread2 (wordOf_lt ne) (wordOf_lt nf)]
      simp [wordOf]
    rw [this] at w1
    exact x2.holdsWord w1
  · have : odd32 (spreadBits 32 (2 ^ 32 - 1 - wordOf ne) + spreadBits 32 (wordOf ng))
        = (~~~ BitVec.ofNat 32 ne &&& BitVec.ofNat 32 ng).toNat := by
      rw [odd32, oddBits_spread2 (by omega) (wordOf_lt ng), BitVec.toNat_and, toNat_not_ofNat]
      simp [wordOf]
    rw [this] at w2
    exact w2

theorem opMaj_ok {a b c p : Path} {s : State} {na nb nc : Nat} (hb : s.booted = true) (hacc : s.hostAccepts = true)
    (ha : s.ReadsWord a na) (hb' : s.ReadsWord b nb) (hc : s.ReadsWord c nc) (hp : s.Fresh p) :
    ∃ u, opMaj a b c p s = .ok () u ∧ Ext s u p (majCells p) (majCons a b c p) ∧ u.unsat = s.unsat ∧
      u.HoldsWord (majResult p) (majWord (BitVec.ofNat 32 na) (BitVec.ofNat 32 nb) (BitVec.ofNat 32 nc)).toNat := by
  have three := fun x => three_spreadBits_lt 32 x
  obtain ⟨u, h1, x1, n1, -, w1⟩ := opExtract_of_sum (k := 3) (ops := [⟨spr a, 0⟩, ⟨spr b, 0⟩, ⟨spr c, 0⟩]) (p := p.sub .x)
    (s := s) (S := spreadBits 32 (wordOf na) + spreadBits 32 (wordOf nb) + spreadBits 32 (wordOf nc)) hb hacc rfl
    (by
      intro t ht
      simp only [List.flatMap_cons, List.flatMap_nil, List.append_nil, List.mem_append] at ht
      exact ht.elim (spr_reads ha t) fun h => h.elim (spr_reads hb' t) (spr_reads hc t))
    (fun hm => by
      rw [opsValue_eq]
      simp only [List.map_cons, List.map_nil, List.sum_cons, List.sum_nil, spr_value hm ha, spr_value hm hb',
        spr_value hm hc]
      push_cast
      ring)
    (by have := three (wordOf na); have := three (wordOf nb); have := three (wordOf nc); omega)
    ((hp.sub .x).sub .e) ((hp.sub .x).sub .o)
  refine ⟨u, h1, x1.up, n1, ?_⟩
  have : odd32 (spreadBits 32 (wordOf na) + spreadBits 32 (wordOf nb) + spreadBits 32 (wordOf nc))
      = (majWord (BitVec.ofNat 32 na) (BitVec.ofNat 32 nb) (BitVec.ofNat 32 nc)).toNat := by
    rw [odd32, oddBits_spread3 32 _ _ _ (wordOf_lt na) (wordOf_lt nb) (wordOf_lt nc)]
    simp [majWord, wordOf]
  rw [this] at w1
  exact w1

end Sys2Proof.Machine
end

