-- ==== Sys2Proof/Laws/Rounds.lean ====
section
/-!
SUPPORT. What the level-1 operations do when they succeed (44_schedule.md R200, R202; 45_compression.md R211;
46_facade.md R232, R239).
-/

namespace Sys2Proof.Machine

open Sys2Proof

/-! ### MODADD on a list of values -/

theorem opModadd_of {n K : Nat} {ys : List Path} {p : Path} {s : State} {ns : List Nat}
    (hb : s.booted = true) (ha : s.hostAccepts = true) (hl : ys.length = n) (hn : n ≤ 5) (hK : K < 2 ^ 32)
    (hy : List.Forall₂ (fun y x => s.Reads (y.cell .d) x) ys ns) (hlt : ∀ x ∈ ns, x < Config.fieldP)
    (hf : s.Fresh p) :
    ∃ u, opModadd n ys K p s = .ok () u ∧ Ext s u p (modaddCells p) (modaddCons ys K p) ∧
      u.unsat = s.unsatIf (ns.any fun x => decide (2 ^ 32 ≤ x)) ∧
      u.HoldsWord (p.sub .r) (((ns.map wordOf).sum + K) % 2 ^ 32) ∧
      u.cell (p.cell .c) = some (u.seen (((ns.map wordOf).sum + K) / 2 ^ 32)) := by
  have hmap : s.mode = .witness → ys.map (fun y => s.numOf (y.cell .d)) = ns := by
    intro hm
    clear hl hn hlt
    induction hy with
    | nil => rfl
    | cons h _ ih => rw [List.map_cons, ih, numOf_of_reads h hm]
  have hreads : ∀ y ∈ ys, s.Reads (y.cell .d) (s.numOf (y.cell .d)) := by
    clear hl hn hlt hmap
    induction hy with
    | nil => simp
    | cons h _ ih =>
      intro y hy'
      rcases List.mem_cons.mp hy' with rfl | hy'
      · exact reads_numOf h
      · exact ih y hy'
  obtain ⟨u, h1, x1, n1, w1, c1⟩ := opModadd_ok (g := fun y => s.numOf (y.cell .d)) hb ha hl hn hK hreads
    (fun hm y hy' => hlt _ (by rw [← hmap hm]; exact List.mem_map_of_mem hy')) hf
  have hsum : s.mode = .witness → (ys.map fun y => wordOf (s.numOf (y.cell .d))).sum = (ns.map wordOf).sum := by
    intro hm
    rw [← hmap hm, List.map_map]; rfl
  refine ⟨u, h1, x1, ?_, holdsWord_congr (fun hm => ?_) w1, ?_⟩
  · rw [n1]
    refine unsatIf_congr fun hm => ?_
    conv_rhs => rw [← hmap hm]
    rw [List.any_map]; rfl
  · rw [hsum (x1.mode ▸ hm)]
  · rw [c1]
    cases hm : u.mode with
    | shape => simp only [State.seen, hm]
    | witness => rw [hsum (x1.mode ▸ hm)]

/-! ### What a level-1 operation leaves besides its cells -/

theorem opSchedIn_ok {t : Nat} {v : Val} {s : State} {n : Nat} (hb : s.booted = true) (ha : s.hostAccepts = true)
    (hv : s.mode = .witness → v = .known n) (hn : n < Config.fieldP) (hf : s.Fresh (wordPath s.blk t)) :
    ∃ u, opSchedIn t v s = .ok () { u with w := u.w.setIfInBounds t (some (wordPath s.blk t)) } ∧
      Ext s u (wordPath s.blk t) (wordCells (wordPath s.blk t)) (wordCons (wordPath s.blk t)) ∧ u.unsat = s.unsatIf (decide (2 ^ 32 ≤ n)) ∧
      u.HoldsWord (wordPath s.blk t) n := by
  obtain ⟨u, h1, x1, n1, w1⟩ := opWord_ok hb ha hv hn hf
  refine ⟨u, ?_, x1, n1, w1⟩
  unfold opSchedIn
  rw [bind_get, bind_ok h1]
  rfl

/-- The words SCHED t reads and their values. -/
structure SchedInputs where
  w2  : Path
  w7  : Path
  w15 : Path
  w16 : Path
  n2  : Nat
  n7  : Nat
  n15 : Nat
  n16 : Nat

theorem opSched_ok {t : Nat} {s : State} {i : SchedInputs} (hb : s.booted = true) (ha : s.hostAccepts = true)
    (h2 : handle? s.w (t - 2) = some i.w2) (h7 : handle? s.w (t - 7) = some i.w7)
    (h15 : handle? s.w (t - 15) = some i.w15) (h16 : handle? s.w (t - 16) = some i.w16)
    (r2 : s.Reads (i.w2.cell .d) i.n2) (r7 : s.Reads (i.w7.cell .d) i.n7) (r15 : s.Reads (i.w15.cell .d) i.n15)
    (r16 : s.Reads (i.w16.cell .d) i.n16) (l2 : i.n2 < Config.fieldP) (l7 : i.n7 < Config.fieldP)
    (l15 : i.n15 < Config.fieldP) (l16 : i.n16 < Config.fieldP) (hf : s.Fresh (wordPath s.blk t)) :
    ∃ u, opSched t s = .ok ()
        { u with w := u.w.setIfInBounds t (some (((wordPath s.blk t).sub .add).sub .r)) } ∧
      Ext s u (wordPath s.blk t) (schedCells (wordPath s.blk t)) (schedCons i.w2 i.w7 i.w15 i.w16 (wordPath s.blk t)) ∧
      u.unsat = s.unsatIf
        (decide (2 ^ 32 ≤ i.n2 ∨ 2 ^ 32 ≤ i.n7 ∨ 2 ^ 32 ≤ i.n15 ∨ 2 ^ 32 ≤ i.n16)) ∧
      u.HoldsWord (((wordPath s.blk t).sub .add).sub .r)
        (sigma .ssig1 (BitVec.ofNat 32 i.n2) + BitVec.ofNat 32 i.n7 + sigma .ssig0 (BitVec.ofNat 32 i.n15)
          + BitVec.ofNat 32 i.n16).toNat := by
  obtain ⟨p, hp⟩ : ∃ p, p = wordPath s.blk t := ⟨_, rfl⟩
  rw [← hp] at hf ⊢
  obtain ⟨u1, e1, x1, m1, v1⟩ := opRotations_ok (l := .ssig1) hb ha r2 l2 (hf.sub .s1)
  have f1 : ∀ g, g ≠ .s1 → u1.Fresh (p.sub g) := fun g hg => x1.fresh_sibling (hf.sub g) hg
  obtain ⟨u2, e2, x2, m2, v2⟩ := opRotations_ok (l := .ssig0) (s := u1) (by rw [x1.booted, hb]) x1.accepts
    (x1.reads r15) l15 (f1 .s0 (by decide))
  have x12 := x1.up.trans x2.up
  have f2 : u2.Fresh (p.sub .add) := x2.fresh_sibling (f1 .add (by decide)) (by decide)
  have lt1 : ∀ w : Word32, w.toNat < Config.fieldP := fun w => lt_fieldP_of_lt (lt_trans w.isLt (by norm_num))
  obtain ⟨u, e3, x3, m3, v3, -⟩ := opModadd_of (n := 4) (K := 0)
    (ys := [sigmaResult (p.sub .s1), i.w7, sigmaResult (p.sub .s0), i.w16]) (p := p.sub .add) (s := u2)
    (ns := [(sigma .ssig1 (BitVec.ofNat 32 i.n2)).toNat, i.n7, (sigma .ssig0 (BitVec.ofNat 32 i.n15)).toNat, i.n16])
    (by rw [x12.booted, hb]) x2.accepts rfl (by norm_num) (by norm_num)
    (.cons (readsWord_of_holds (x2.holdsWord v1)).1 (.cons (x12.reads r7) (.cons (readsWord_of_holds v2).1
      (.cons (x12.reads r16) .nil))))
    (by
      intro x hx
      simp only [List.mem_cons, List.not_mem_nil, or_false] at hx
      rcases hx with rfl | rfl | rfl | rfl
      · exact lt1 _
      · exact l7
      · exact lt1 _
      · exact l16) f2
  refine ⟨u, ?_, ?_, ?_, ?_⟩
  · have k7 : handle? u2.w (t - 7) = some i.w7 := by rw [x12.w_eq]; exact h7
    have k15 : handle? u1.w (t - 15) = some i.w15 := by rw [x1.w_eq]; exact h15
    have k16 : handle? u2.w (t - 16) = some i.w16 := by rw [x12.w_eq]; exact h16
    unfold opSched
    rw [bind_get, ← hp, bind_ok (readHandle_ok h2), bind_ok e1, bind_ok (readHandle_ok k15), bind_ok e2,
      bind_ok (readHandle_ok k7), bind_ok (readHandle_ok k16), bind_ok e3]
    rfl
  · exact x12.trans x3.up
  · have big : ∀ w : Word32, decide (2 ^ 32 ≤ w.toNat) = false := fun w => decide_eq_false (by have := w.isLt; omega)
    simp only [List.any_cons, List.any_nil, big, Bool.false_or, Bool.or_false] at m3
    rw [m3, unsatIf_unsatIf x2.mode m2, unsatIf_unsatIf x1.mode m1]
    congr 1
    simp only [Bool.decide_or]
    cases decide (2 ^ 32 ≤ i.n2) <;> cases decide (2 ^ 32 ≤ i.n7) <;> cases decide (2 ^ 32 ≤ i.n15) <;> simp
  · refine holdsWord_congr (fun _ => ?_) v3
    simp only [List.map_cons, List.map_nil, List.sum_cons, List.sum_nil, wordOf, BitVec.toNat_add, BitVec.toNat_ofNat]
    omega

/-! ### ROUND -/

/-- The two parts of Ch add up to it without a carry (43_functions.md R188). -/
theorem chParts_add (e f g : Word32) : (e &&& f).toNat + (~~~e &&& g).toNat = (chWord e f g).toNat := by
  have h0 : (e &&& f) &&& (~~~e &&& g) = 0#32 := by
    apply BitVec.eq_of_getElem_eq
    intro i hi
    simp only [BitVec.getElem_and, BitVec.getElem_not, BitVec.getElem_zero]
    cases e[i] <;> simp
  rw [← BitVec.toNat_add_of_and_eq_zero h0, BitVec.add_eq_or_of_and_eq_zero _ _ h0]
  congr 1
  unfold chWord
  apply BitVec.eq_of_getElem_eq
  intro i hi
  simp only [BitVec.getElem_and, BitVec.getElem_not, BitVec.getElem_or, BitVec.getElem_xor]
  cases e[i] <;> simp

theorem kRom_lt (t : Nat) : kRom t < 2 ^ 32 := by
  unfold kRom
  have h : ∀ x ∈ kRomList, x < 2 ^ 32 := by decide +kernel
  rw [List.getD_eq_getElem?_getD]
  cases ht : kRomList[t]? with
  | none => simp
  | some x => exact h x (List.mem_of_getElem? ht)

theorem word_lt_fieldP (w : Word32) : w.toNat < Config.fieldP := lt_fieldP_of_lt (lt_trans w.isLt (by norm_num))

theorem word_in_range (w : Word32) : decide (2 ^ 32 ≤ w.toNat) = false := decide_eq_false (by have := w.isLt; omega)

/-- Every value of a state is a field element. -/
def StateValues.inField (v : StateValues) : Prop := ∀ x ∈ v.toList, x < Config.fieldP

theorem opRound_ok {t : Nat} {s : State} {H : Handles} {v : StateValues} {wh : Path} {wn : Nat}
    (hb : s.booted = true) (ha : s.hostAccepts = true) (hst : s.stateReg = H.toFile) (hw : handle? s.w t = some wh)
    (hr : s.ReadsState H v) (hv : v.inField) (rw' : s.Reads (wh.cell .d) wn) (hwn : wn < Config.fieldP)
    (hf : s.Fresh (roundPath s.blk t)) :
    ∃ u, opRound t s = .ok () { u with stateReg := (H.next (roundPath s.blk t)).toFile } ∧
      Ext s u (roundPath s.blk t) (roundCells (roundPath s.blk t)) (roundCons t H wh (roundPath s.blk t)) ∧
      u.unsat = s.unsatIf
        (decide (2 ^ 32 ≤ v.e ∨ 2 ^ 32 ≤ v.h ∨ 2 ^ 32 ≤ wn ∨ 2 ^ 32 ≤ v.a ∨ 2 ^ 32 ≤ v.d)) ∧
      u.HoldsWord (((roundPath s.blk t).sub .t1).sub .r)
        (roundT1 (BitVec.ofNat 32 (kRom t)) (BitVec.ofNat 32 wn) v.words).toNat ∧
      u.HoldsWord (((roundPath s.blk t).sub .t2).sub .r) (roundT2 v.words).toNat ∧
      u.HoldsWord (((roundPath s.blk t).sub .a).sub .r)
        (shaRound (BitVec.ofNat 32 (kRom t)) (BitVec.ofNat 32 wn) v.words).a.toNat ∧
      u.HoldsWord (((roundPath s.blk t).sub .e).sub .r)
        (shaRound (BitVec.ofNat 32 (kRom t)) (BitVec.ofNat 32 wn) v.words).e.toNat := by
  obtain ⟨ra, rb, rc, rd, re, rf, rg, rh⟩ := hr
  have va : v.a < Config.fieldP := hv _ (by simp [StateValues.toList])
  have vd : v.d < Config.fieldP := hv _ (by simp [StateValues.toList])
  have ve : v.e < Config.fieldP := hv _ (by simp [StateValues.toList])
  have vh : v.h < Config.fieldP := hv _ (by simp [StateValues.toList])
  obtain ⟨p, hp⟩ : ∃ p, p = roundPath s.blk t := ⟨_, rfl⟩
  rw [← hp] at hf ⊢
  obtain ⟨u1, e1, x1, m1, v1⟩ := opRotations_ok (l := .bsig1) hb ha re.1 ve (hf.sub .s1)
  have f1 : ∀ g, g ≠ .s1 → u1.Fresh (p.sub g) := fun g hg => x1.fresh_sibling (hf.sub g) hg
  have y1 := x1.up
  obtain ⟨u2, e2, x2, m2, vp, vq⟩ := opCh_ok (s := u1) (by rw [y1.booted, hb]) y1.accepts (y1.readsWord re)
    (y1.readsWord rf) (y1.readsWord rg) (f1 .ch (by decide))
  have f2 : ∀ g, g ≠ .s1 → g ≠ .ch → u2.Fresh (p.sub g) := fun g h1 h2 => x2.fresh_sibling (f1 g h1) h2
  have y2 := y1.trans x2.up
  obtain ⟨u3, e3, x3, m3, v3, -⟩ := opModadd_of (n := 5) (K := kRom t)
    (ys := [H.h, sigmaResult (p.sub .s1), chP (p.sub .ch), chQ (p.sub .ch), wh]) (p := p.sub .t1) (s := u2)
    (ns := [v.h, (sigma .bsig1 (BitVec.ofNat 32 v.e)).toNat, (BitVec.ofNat 32 v.e &&& BitVec.ofNat 32 v.f).toNat,
      (~~~ BitVec.ofNat 32 v.e &&& BitVec.ofNat 32 v.g).toNat, wn])
    (by rw [y2.booted, hb]) y2.accepts rfl (by norm_num) (kRom_lt t)
    (.cons (y2.reads rh.1) (.cons (readsWord_of_holds (x2.holdsWord v1)).1 (.cons (readsWord_of_holds vp).1
      (.cons (readsWord_of_holds vq).1 (.cons (y2.reads rw') .nil)))))
    (by
      intro x hx
      simp only [List.mem_cons, List.not_mem_nil, or_false] at hx
      rcases hx with rfl | rfl | rfl | rfl | rfl
      · exact vh
      · exact word_lt_fieldP _
      · exact word_lt_fieldP _
      · exact word_lt_fieldP _
      · exact hwn) (f2 .t1 (by decide) (by decide))
  have t1 : u3.HoldsWord ((p.sub .t1).sub .r) (roundT1 (BitVec.ofNat 32 (kRom t)) (BitVec.ofNat 32 wn) v.words).toNat :=
    holdsWord_congr (fun _ => by
      have hc := chParts_add (BitVec.ofNat 32 v.e) (BitVec.ofNat 32 v.f) (BitVec.ofNat 32 v.g)
      have l1 := (BitVec.ofNat 32 v.e &&& BitVec.ofNat 32 v.f).isLt
      have l2 := (~~~ BitVec.ofNat 32 v.e &&& BitVec.ofNat 32 v.g).isLt
      simp only [List.map_cons, List.map_nil, List.sum_cons, List.sum_nil, wordOf, roundT1, StateValues.words,
        BitVec.toNat_add, ← hc, BitVec.toNat_ofNat]
      omega) v3
  have f3 : ∀ g, g ≠ .s1 → g ≠ .ch → g ≠ .t1 → u3.Fresh (p.sub g) := fun g h1 h2 h3 => x3.fresh_sibling (f2 g h1 h2) h3
  have y3 := y2.trans x3.up
  obtain ⟨u4, e4, x4, m4, v4⟩ := opRotations_ok (l := .bsig0) (s := u3) (by rw [y3.booted, hb]) y3.accepts
    (y3.reads ra.1) va (f3 .s0 (by decide) (by decide) (by decide))
  have f4 : ∀ g, g ≠ .s1 → g ≠ .ch → g ≠ .t1 → g ≠ .s0 → u4.Fresh (p.sub g) :=
    fun g h1 h2 h3 h4 => x4.fresh_sibling (f3 g h1 h2 h3) h4
  have y4 := y3.trans x4.up
  obtain ⟨u5, e5, x5, m5, v5⟩ := opMaj_ok (s := u4) (by rw [y4.booted, hb]) y4.accepts (y4.readsWord ra)
    (y4.readsWord rb) (y4.readsWord rc) (f4 .maj (by decide) (by decide) (by decide) (by decide))
  have f5 : ∀ g, g ≠ .s1 → g ≠ .ch → g ≠ .t1 → g ≠ .s0 → g ≠ .maj → u5.Fresh (p.sub g) :=
    fun g h1 h2 h3 h4 h5 => x5.fresh_sibling (f4 g h1 h2 h3 h4) h5
  have y5 := y4.trans x5.up
  obtain ⟨u6, e6, x6, m6, v6, -⟩ := opModadd_of (n := 2) (K := 0)
    (ys := [sigmaResult (p.sub .s0), majResult (p.sub .maj)]) (p := p.sub .t2) (s := u5)
    (ns := [(sigma .bsig0 (BitVec.ofNat 32 v.a)).toNat,
      (majWord (BitVec.ofNat 32 v.a) (BitVec.ofNat 32 v.b) (BitVec.ofNat 32 v.c)).toNat])
    (by rw [y5.booted, hb]) y5.accepts rfl (by norm_num) (by norm_num)
    (.cons (readsWord_of_holds (x5.holdsWord v4)).1 (.cons (readsWord_of_holds v5).1 .nil))
    (by
      intro x hx
      simp only [List.mem_cons, List.not_mem_nil, or_false] at hx
      rcases hx with rfl | rfl <;> exact word_lt_fieldP _)
    (f5 .t2 (by decide) (by decide) (by decide) (by decide) (by decide))
  have t2 : u6.HoldsWord ((p.sub .t2).sub .r) (roundT2 v.words).toNat :=
    holdsWord_congr (fun _ => by
      simp only [List.map_cons, List.map_nil, List.sum_cons, List.sum_nil, wordOf, roundT2, StateValues.words,
        BitVec.toNat_add]
      omega) v6
  have f6 : ∀ g, g ≠ .s1 → g ≠ .ch → g ≠ .t1 → g ≠ .s0 → g ≠ .maj → g ≠ .t2 → u6.Fresh (p.sub g) :=
    fun g h1 h2 h3 h4 h5 h6 => x6.fresh_sibling (f5 g h1 h2 h3 h4 h5) h6
  have y6 := y5.trans x6.up
  have t1' : u6.HoldsWord ((p.sub .t1).sub .r) (roundT1 (BitVec.ofNat 32 (kRom t)) (BitVec.ofNat 32 wn) v.words).toNat :=
    x6.holdsWord (x5.holdsWord (x4.holdsWord t1))
  obtain ⟨u7, e7, x7, m7, v7, -⟩ := opModadd_of (n := 2) (K := 0)
    (ys := [(p.sub .t1).sub .r, (p.sub .t2).sub .r]) (p := p.sub .a) (s := u6)
    (ns := [(roundT1 (BitVec.ofNat 32 (kRom t)) (BitVec.ofNat 32 wn) v.words).toNat, (roundT2 v.words).toNat])
    (by rw [y6.booted, hb]) y6.accepts rfl (by norm_num) (by norm_num)
    (.cons (readsWord_of_holds t1').1 (.cons (readsWord_of_holds t2).1 .nil))
    (by
      intro x hx
      simp only [List.mem_cons, List.not_mem_nil, or_false] at hx
      rcases hx with rfl | rfl <;> exact word_lt_fieldP _)
    (f6 .a (by decide) (by decide) (by decide) (by decide) (by decide) (by decide))
  have f7 : u7.Fresh (p.sub .e) :=
    x7.fresh_sibling (f6 .e (by decide) (by decide) (by decide) (by decide) (by decide) (by decide)) (by decide)
  have y7 := y6.trans x7.up
  obtain ⟨u8, e8, x8, m8, v8, -⟩ := opModadd_of (n := 2) (K := 0) (ys := [H.d, (p.sub .t1).sub .r]) (p := p.sub .e)
    (s := u7) (ns := [v.d, (roundT1 (BitVec.ofNat 32 (kRom t)) (BitVec.ofNat 32 wn) v.words).toNat])
    (by rw [y7.booted, hb]) y7.accepts rfl (by norm_num) (by norm_num)
    (.cons (y7.reads rd.1) (.cons (readsWord_of_holds (x7.holdsWord t1')).1 .nil))
    (by
      intro x hx
      simp only [List.mem_cons, List.not_mem_nil, or_false] at hx
      rcases hx with rfl | rfl
      · exact vd
      · exact word_lt_fieldP _) f7
  refine ⟨u8, ?_, ?_, ?_, ?_, ?_, ?_, ?_⟩
  · have hfile : ∀ i h, handle? H.toFile i = some h → readHandle (encode (.round t)) State.stateReg i s = .ok h s :=
      fun i h hh => readHandle_ok (by rw [hst]; exact hh)
    have k2 : handle? u2.w t = some wh := by rw [y2.w_eq]; exact hw
    unfold opRound
    rw [bind_get, ← hp, bind_ok (hfile 0 H.a rfl), bind_ok (hfile 1 H.b rfl), bind_ok (hfile 2 H.c rfl),
      bind_ok (hfile 3 H.d rfl), bind_ok (hfile 4 H.e rfl), bind_ok (hfile 5 H.f rfl), bind_ok (hfile 6 H.g rfl),
      bind_ok (hfile 7 H.h rfl), bind_ok e1, bind_ok e2, bind_ok (readHandle_ok k2), bind_ok e3, bind_ok e4, bind_ok e5,
      bind_ok e6, bind_ok e7, bind_ok e8]
    rfl
  · have := y7.trans x8.up
    simpa [roundCons, roundCells, List.append_assoc] using this
  · simp only [List.any_cons, List.any_nil, word_in_range, Bool.false_or, Bool.or_false, unsatIf_false] at m3 m6 m7 m8
    have z2 : u2.unsat = s.unsatIf (decide (2 ^ 32 ≤ v.e)) := by rw [m2, m1]
    have z3 := m3.trans (unsatIf_unsatIf y2.mode z2)
    have z4 := m4.trans (unsatIf_unsatIf y3.mode z3)
    have z7 := (m7.trans (m6.trans m5)).trans z4
    rw [m8, unsatIf_unsatIf y7.mode z7]
    congr 1
    simp only [Bool.decide_or, Bool.or_assoc]
  · exact x8.holdsWord (x7.holdsWord t1')
  · exact x8.holdsWord (x7.holdsWord t2)
  · refine holdsWord_congr (fun _ => ?_) (x8.holdsWord v7)
    simp only [List.map_cons, List.map_nil, List.sum_cons, List.sum_nil, wordOf, shaRound, BitVec.toNat_add]
    omega
  · refine holdsWord_congr (fun _ => ?_) v8
    simp only [List.map_cons, List.map_nil, List.sum_cons, List.sum_nil, wordOf, shaRound, StateValues.words,
      BitVec.toNat_add, BitVec.toNat_ofNat]
    omega

end Sys2Proof.Machine
end

