-- ==== Sys2Proof/Laws/Sound.lean ====
section
/-!
SUPPORT. What the instances an operation records say of any assignment that satisfies them, honest or not
(41_table.md R141; 42_gates.md R153, R167, R172; 43_functions.md R188). `Sat cuts val ks`: the assignment `val` makes every
instance of `ks` true.
-/

namespace Sys2Proof.Machine

open Sys2Proof

/-- The assignment makes every listed instance true. -/
def Sat (cuts : TagCuts) (val : CellName → Nat) (ks : List Constraint) : Prop :=
  ∀ k ∈ ks, k.holds cuts (fun c => some (val c)) = some true

variable {cuts : TagCuts} {val : CellName → Nat}

/-- A reader that knows every cell is the assignment. -/
theorem sat_of_reader {rd : CellName → Option Nat} (hr : ∀ c, rd c = some (val c)) {ks : List Constraint}
    (h : ∀ k ∈ ks, k.holds cuts rd = some true) : Sat cuts val ks := by
  have : rd = fun c => some (val c) := funext hr
  subst this; exact h

theorem sat_append {as bs : List Constraint} : Sat cuts val (as ++ bs) ↔ Sat cuts val as ∧ Sat cuts val bs := by
  simp [Sat, or_imp, forall_and]

theorem sat_cons {k : Constraint} {ks : List Constraint} :
    Sat cuts val (k :: ks) ↔ k.holds cuts (fun c => some (val c)) = some true ∧ Sat cuts val ks := by
  simp [Sat]

/-! ### One instance -/

/-- A LOOKUP instance says its input is a dense value of the table, and the tag and spread are its row's. -/
theorem lookup_sound {t d s : CellName} {m : Nat}
    (h : (Constraint.lookup t d s m).holds cuts (fun c => some (val c)) = some true) :
    red ((m : Int) * val d) < 2 ^ 16 ∧ val s = spread16 (red ((m : Int) * val d)) := by
  simp only [Constraint.holds, tableRow, Option.some.injEq, beq_iff_eq] at h
  split at h
  · rename_i hlt
    simp only [Option.some.injEq, Prod.mk.injEq, true_and] at h
    exact ⟨by omega, h.2.symm⟩
  · cases h

/-- Two numbers below p that are equal in the field are equal. -/
theorem eq_of_red {a b : Nat} (ha : a < Config.fieldP) (hb : b < Config.fieldP) (h : red (a : Int) = red (b : Int)) : a = b :=
  (red_natCast_inj ha hb).mp h

theorem recomb_sound {d lo hi : CellName} (hd : val d < Config.fieldP) (hlo : val lo < 2 ^ 16) (hhi : val hi < 2 ^ 16)
    (h : (Constraint.recomb d lo hi).holds cuts (fun c => some (val c)) = some true) :
    val d = val lo + 2 ^ 16 * val hi := by
  simp only [Constraint.holds, Option.some.injEq, beq_iff_eq] at h
  refine eq_of_red hd (lt_fieldP_of_lt (by omega)) ?_
  rw [h]
  push_cast
  rfl

/-! ### WORD and RANGE -/

/-- What the instances of a word bundle say (42_gates.md R153). -/
structure IsWord (val : CellName → Nat) (h : Path) (x : Nat) : Prop where
  lt  : x < 2 ^ 32
  d   : val (h.cell .d) = x
  slo : val (h.cell .slo) = spread16 (lo16 x)
  shi : val (h.cell .shi) = spread16 (hi16 x)

theorem word_sound (hp : ∀ c, val c < Config.fieldP) {h : Path} (hs : Sat cuts val (wordCons h)) :
    IsWord val h (val (h.cell .d)) ∧ val (h.cell .lo) < 2 ^ 16 ∧ val (h.cell .hi) < 2 ^ 16 ∧
      val (h.cell .d) = val (h.cell .lo) + 2 ^ 16 * val (h.cell .hi) := by
  rw [wordCons, sat_cons, sat_cons, sat_cons] at hs
  obtain ⟨h1, h2, h3, -⟩ := hs
  obtain ⟨l1, l2⟩ := lookup_sound h2
  obtain ⟨k1, k2⟩ := lookup_sound h3
  simp only [Nat.cast_one, one_mul, red_of_lt (hp _)] at l1 l2 k1 k2
  have e := recomb_sound (hp _) l1 k1 h1
  have elo : lo16 (val (h.cell .d)) = val (h.cell .lo) := by unfold lo16; omega
  have ehi : hi16 (val (h.cell .d)) = val (h.cell .hi) := by unfold hi16; omega
  exact ⟨⟨by omega, rfl, by rw [elo]; exact l2, by rw [ehi]; exact k2⟩, l1, k1, e⟩

theorem range_sound (hp : ∀ c, val c < Config.fieldP) {w : Nat} {d : CellName} {p : Path} (hw : w ≤ 16)
    (hs : Sat cuts val (rangeCons w d p)) : val d < 2 ^ w ∧ val (p.cell .s) = spread16 (val d) := by
  rw [rangeCons, sat_cons] at hs
  obtain ⟨h1, h2⟩ := hs
  obtain ⟨l1, l2⟩ := lookup_sound h1
  simp only [Nat.cast_one, one_mul, red_of_lt (hp _)] at l1 l2
  refine ⟨?_, l2⟩
  by_cases hw16 : w < 16
  · rw [if_pos hw16, sat_cons] at h2
    obtain ⟨k1, -⟩ := lookup_sound h2.1
    have := range_bad hw16 (hp d)
    rw [decide_eq_false (by omega), decide_eq_false (by omega), Bool.or_false] at this
    have := of_decide_eq_false this.symm
    omega
  · rw [show w = 16 by omega]; exact l1

/-! ### DECOMP -/

/-- The pieces of a split and their spreads. -/
def IsSplit (val : CellName → Nat) (p : Path) (x : Nat) : Nat → List (Nat × Nat) → Prop
  | _, [] => True
  | i, wo :: rest =>
    val (p.cell (.pIx i)) = pieceNat x wo ∧ val (pieceSpread p i) = spread16 (pieceNat x wo) ∧
    IsSplit val p x (i + 1) rest

/-- Pieces in range whose weighted sum is the word are the word's pieces (42_gates.md R160). -/
theorem pieces_of_sum (l : Layout) {a b c d : Nat} :
    match pieces l with
    | [wa, wb, wc, wd] => a < 2 ^ wa.1 → b < 2 ^ wb.1 → c < 2 ^ wc.1 → d < 2 ^ wd.1 →
        ∀ x, x = 2 ^ wa.2 * a + 2 ^ wb.2 * b + 2 ^ wc.2 * c + 2 ^ wd.2 * d →
          x < 2 ^ 32 ∧ a = pieceNat x wa ∧ b = pieceNat x wb ∧ c = pieceNat x wc ∧ d = pieceNat x wd
    | _ => True := by
  cases l <;> simp only [pieces, pieceNat] <;> intro h1 h2 h3 h4 x hx <;> omega

theorem decomp_sound (hp : ∀ c, val c < Config.fieldP) {l : Layout} {x p : Path} (hs : Sat cuts val (decompCons l x p)) :
    val (x.cell .d) < 2 ^ 32 ∧ IsSplit val p (val (x.cell .d)) 0 (pieces l) := by
  have four : ∃ wa wb wc wd, pieces l = [wa, wb, wc, wd] ∧ wa.1 ≤ 16 ∧ wb.1 ≤ 16 ∧ wc.1 ≤ 16 ∧ wd.1 ≤ 16 ∧
      wa.2 ≤ 32 ∧ wb.2 ≤ 32 ∧ wc.2 ≤ 32 ∧ wd.2 ≤ 32 := by
    cases l <;> exact ⟨_, _, _, _, rfl, by decide, by decide, by decide, by decide, by decide, by decide, by decide, by decide⟩
  obtain ⟨wa, wb, wc, wd, e, a16, b16, c16, d16, ao, bo, co, eo⟩ := four
  have key := fun a b c d => @pieces_of_sum l a b c d
  rw [decompCons, sat_append, sat_cons] at hs
  rw [e] at hs key ⊢
  simp only [pieceCons, pieceTerms, List.append_nil, sat_append] at hs
  obtain ⟨⟨ra, rb, rc, rd⟩, hl, -⟩ := hs
  obtain ⟨a1, a2⟩ := range_sound hp a16 ra
  obtain ⟨b1, b2⟩ := range_sound hp b16 rb
  obtain ⟨c1, c2⟩ := range_sound hp c16 rc
  obtain ⟨d1, d2⟩ := range_sound hp d16 rd
  simp only [Constraint.holds, sumTerms, Option.some.injEq, beq_iff_eq] at hl
  have big : ∀ w o v : Nat, w ≤ 16 → o ≤ 32 → v < 2 ^ w → 2 ^ o * v < 2 ^ 48 := by
    intro w o v hw ho hv
    have h1 : v < 2 ^ 16 := lt_of_lt_of_le hv (Nat.pow_le_pow_right (by norm_num) hw)
    have h2 : 2 ^ o ≤ 2 ^ 32 := Nat.pow_le_pow_right (by norm_num) ho
    calc 2 ^ o * v ≤ 2 ^ 32 * v := Nat.mul_le_mul_right _ h2
      _ < 2 ^ 32 * 2 ^ 16 := by omega
      _ = 2 ^ 48 := by norm_num
  have sa := big _ _ _ a16 ao a1
  have sb := big _ _ _ b16 bo b1
  have sc := big _ _ _ c16 co c1
  have sd := big _ _ _ d16 eo d1
  have hx : val (x.cell .d) = 2 ^ wa.2 * val (p.cell (.pIx 0)) + 2 ^ wb.2 * val (p.cell (.pIx (0 + 1)))
      + 2 ^ wc.2 * val (p.cell (.pIx (0 + 1 + 1))) + 2 ^ wd.2 * val (p.cell (.pIx (0 + 1 + 1 + 1))) := by
    refine eq_of_red (hp _) (lt_fieldP_of_lt (by omega)) ?_
    rw [hl]
    refine congrArg red ?_
    push_cast
    ring
  obtain ⟨hlt, pa, pb, pc, pd⟩ := key _ _ _ _ a1 b1 c1 d1 _ hx
  refine ⟨hlt, ⟨pa, ?_, pb, ?_, pc, ?_, pd, ?_, trivial⟩⟩
  · rw [← pa]; exact a2
  · rw [← pb]; exact b2
  · rw [← pc]; exact c2
  · rw [← pd]; exact d2

/-! ### EXTRACT, MODADD -/

/-- The even and odd words are the only pair with `S = spread32(E) + 2 * spread32(O)` (42_gates.md R167). -/
theorem spread_unique {E O : Nat} (hE : E < 2 ^ 32) (hO : O < 2 ^ 32) :
    E = even32 (spread32 E + 2 * spread32 O) ∧ O = odd32 (spread32 E + 2 * spread32 O) := by
  have key : ∀ n E O, E < 2 ^ n → O < 2 ^ n → evenBits n (spreadBits n E + 2 * spreadBits n O) = E ∧
      evenBits n ((spreadBits n E + 2 * spreadBits n O) / 2) = O := by
    intro n
    induction n with
    | zero => intro E O hE hO; simp at hE hO; simp [hE, hO, evenBits]
    | succ n ih =>
      intro E O hE hO
      rw [pow_succ] at hE hO
      obtain ⟨i1, i2⟩ := ih (E / 2) (O / 2) (by omega) (by omega)
      have e1 : (spreadBits (n + 1) E + 2 * spreadBits (n + 1) O) / 4
          = spreadBits n (E / 2) + 2 * spreadBits n (O / 2) := by simp only [spreadBits]; omega
      have e2 : (spreadBits (n + 1) E + 2 * spreadBits (n + 1) O) / 2 / 4
          = (spreadBits n (E / 2) + 2 * spreadBits n (O / 2)) / 2 := by simp only [spreadBits]; omega
      rw [evenBits, evenBits, e1, e2, i1, i2]
      have m1 : (spreadBits (n + 1) E + 2 * spreadBits (n + 1) O) % 2 = E % 2 := by simp only [spreadBits]; omega
      have m2 : (spreadBits (n + 1) E + 2 * spreadBits (n + 1) O) / 2 % 2 = O % 2 := by simp only [spreadBits]; omega
      rw [m1, m2]
      omega
  rw [spread32_eq, spread32_eq]
  obtain ⟨a, b⟩ := key 32 E O hE hO
  exact ⟨a.symm, b.symm⟩

/-- The spread of a word as its bundle holds it. -/
theorem IsWord.spread {h : Path} {x : Nat} (hw : IsWord val h x) :
    val (h.cell .slo) + 4 ^ 16 * val (h.cell .shi) = spread32 x := by
  rw [hw.slo, hw.shi, spread32]

theorem sumTerms_all (val : CellName → Nat) (ts : List Term) :
    sumTerms (fun c => some (val c)) ts = some (termsValue val ts) :=
  sumTerms_eq fun _ _ => rfl

theorem spread32_lt (x : Nat) : 3 * spread32 x < 4 ^ 32 := by
  rw [spread32_eq]; exact three_spreadBits_lt 32 x

theorem extract_sound (hp : ∀ c, val c < Config.fieldP) {ops : List OperandExpr} {p : Path} {S : Nat}
    (hv : opsValue val ops = (S : Int)) (hS : S < 4 ^ 32) (hs : Sat cuts val (extractCons ops p)) :
    IsWord val (p.sub .e) (even32 S) ∧ IsWord val (p.sub .o) (odd32 S) := by
  rw [extractCons, sat_append, sat_append, sat_cons] at hs
  obtain ⟨⟨he, ho⟩, hk, -⟩ := hs
  obtain ⟨we, -⟩ := word_sound hp he
  obtain ⟨wo, -⟩ := word_sound hp ho
  have hlt := spread32_lt (val ((p.sub .e).cell .d))
  have hlt' := spread32_lt (val ((p.sub .o).cell .d))
  have se := we.spread
  have so := wo.spread
  simp only [Constraint.holds, sumTerms_all, Option.some.injEq, beq_iff_eq] at hk
  have e : S = spread32 (val ((p.sub .e).cell .d)) + 2 * spread32 (val ((p.sub .o).cell .d)) := by
    refine eq_of_red (lt_fieldP_of_lt (lt_trans hS (by norm_num))) (lt_fieldP_of_lt (by omega)) ?_
    rw [← hv, opsValue, hk, ← se, ← so]
    congr 1
  obtain ⟨ue, uo⟩ := spread_unique we.lt wo.lt
  rw [← e] at ue uo
  rw [← ue, ← uo]
  exact ⟨we, wo⟩

theorem sumCells_all (val : CellName → Nat) (ys : List CellName) :
    sumCells (fun c => some (val c)) ys = some (ys.map val).sum :=
  sumCells_eq fun _ _ => rfl

theorem cmax_le {n k : Nat} (hn : n ≤ 5) : cmax n k ≤ 5 := by unfold cmax; split <;> omega

theorem modadd_sound (hp : ∀ c, val c < Config.fieldP) {ys : List Path} {K : Nat} {p : Path} (hn : ys.length ≤ 5)
    (hK : K < 2 ^ 32) (hy : ∀ y ∈ ys, val (y.cell .d) < 2 ^ 32) (hs : Sat cuts val (modaddCons ys K p)) :
    IsWord val (p.sub .r) (((ys.map fun y => val (y.cell .d)).sum + K) % 2 ^ 32) ∧
    val (p.cell .c) = ((ys.map fun y => val (y.cell .d)).sum + K) / 2 ^ 32 := by
  rw [modaddCons, sat_append, sat_cons, sat_cons] at hs
  obtain ⟨hr, hm, hc, -⟩ := hs
  obtain ⟨wr, -⟩ := word_sound hp hr
  simp only [Constraint.holds, sumCells_all, Option.some.injEq, beq_iff_eq] at hm hc
  have hcarry := (red_carryProd (hp (p.cell .c))).mp hc
  have h5 := cmax_le (k := K) hn
  have bound : ∀ l : List Path, (∀ y ∈ l, val (y.cell .d) < 2 ^ 32) →
      (l.map fun y => val (y.cell .d)).sum ≤ l.length * 2 ^ 32 := by
    intro l
    induction l with
    | nil => simp
    | cons y l ih =>
      intro h
      have h1 := ih fun z hz => h z (List.mem_cons_of_mem _ hz)
      have h2 := h y List.mem_cons_self
      simp only [List.map_cons, List.sum_cons, List.length_cons]
      omega
  have hb := bound ys hy
  have hb5 : ys.length * 2 ^ 32 ≤ 5 * 2 ^ 32 := Nat.mul_le_mul_right _ hn
  have lt := wr.lt
  rw [List.map_map] at hm
  have e : (ys.map fun y => val (y.cell .d)).sum + K = val ((p.sub .r).cell .d) + 2 ^ 32 * val (p.cell .c) := by
    refine eq_of_red (lt_fieldP_of_lt (by omega)) (lt_fieldP_of_lt (by omega)) ?_
    push_cast at hm ⊢
    exact hm
  have e1 : ((ys.map fun y => val (y.cell .d)).sum + K) % 2 ^ 32 = val ((p.sub .r).cell .d) := by omega
  have e2 : ((ys.map fun y => val (y.cell .d)).sum + K) / 2 ^ 32 = val (p.cell .c) := by omega
  rw [e1, e2]
  exact ⟨wr, rfl⟩

/-! ### The functions -/

/-- A bundle that holds the 32-bit word `w`. -/
abbrev IsWord32 (val : CellName → Nat) (h : Path) (w : Word32) : Prop := IsWord val h w.toNat

theorem isWord_toNat {h : Path} {x : Nat} (hw : IsWord val h x) : IsWord32 val h (BitVec.ofNat 32 x) := by
  have : (BitVec.ofNat 32 x).toNat = x := by rw [BitVec.toNat_ofNat, Nat.mod_eq_of_lt hw.lt]
  rw [IsWord32, this]; exact hw

theorem termExpr_split {p : Path} {x : Nat} : ∀ {l : List (Nat × Nat)} {i : Nat} {js : List (Option Nat)},
    IsSplit val p x i l → js.length ≤ l.length →
    termsValue val (termExpr p i js) = (termSum js (l.map (pieceNat x)) : Int)
  | _, _, [], _, _ => by simp [termExpr, termsValue, termSum]
  | [], _, _ :: _, _, hl => by simp at hl
  | wo :: rest, i, j :: js, h, hl => by
    have h2 := termExpr_split (p := p) (x := x) (l := rest) (i := i + 1) (js := js) h.2.2 (by simpa using hl)
    cases j with
    | none => simpa [termExpr, termSum] using h2
    | some j =>
      simp only [termsValue] at h2
      simp only [termExpr, termsValue, List.map_cons, List.sum_cons, h.2.1, termSum, h2]
      push_cast
      rfl

theorem sigma_sound (hp : ∀ c, val c < Config.fieldP) {l : Layout} {x p : Path} {w : Word32} (hx : IsWord32 val x w)
    (hs : Sat cuts val (sigmaCons l x p)) : IsWord32 val (sigmaResult p) (sigma l w) := by
  rw [sigmaCons, sat_append] at hs
  obtain ⟨-, hd⟩ := decomp_sound hp hs.1
  rw [hx.d] at hd
  have hv : opsValue val (rotationOperands l (p.sub .dc)) = (rotationSum l w.toNat : Int) := by
    have hsum := termSum_eq l w.isLt
    have he : ∀ E : List (List (Option Nat)), (∀ js ∈ E, js.length ≤ (pieces l).length) →
        opsValue val (E.map fun js => ⟨termExpr (p.sub .dc) 0 js, 0⟩)
          = ((E.map fun js => termSum js ((pieces l).map (pieceNat w.toNat))).sum : Nat) := by
      intro E
      induction E with
      | nil => intro _; rfl
      | cons js E ih =>
        intro hE
        have h1 := termExpr_split hd (hE js List.mem_cons_self)
        have h2 := ih fun js h => hE js (List.mem_cons_of_mem _ h)
        rw [opsValue_eq] at h2 ⊢
        simp only [List.map_cons, List.sum_cons, h1, h2]
        push_cast
        omega
    rw [rotationOperands, he _ (exponents_length l), hsum]
    simp only [List.sum_cons, List.sum_nil, rotationSum]
    omega
  obtain ⟨we, -⟩ := extract_sound hp hv (rotationSum_lt l _) hs.2
  have hw := termWords_lt l w.isLt
  have : even32 (rotationSum l w.toNat) = (sigma l w).toNat := by
    have e : BitVec.ofNat 32 w.toNat = w := by simp
    rw [← e, toNat_sigma l (by simpa using w.isLt)]
    rw [e]
    exact evenBits_spread3 32 _ _ _ hw.1 hw.2.1 hw.2.2
  rw [this] at we
  exact we

theorem spr_sound {h : Path} {w : Word32} (hw : IsWord32 val h w) : termsValue val (spr h) = (spreadBits 32 w.toNat : Int) := by
  rw [← spread32_eq, ← hw.spread]
  simp only [termsValue, spr, List.map_cons, List.map_nil, List.sum_cons, List.sum_nil]
  push_cast
  ring

theorem notSpr_sound {h : Path} {w : Word32} (hw : IsWord32 val h w) :
    termsValue val (notSpr h).terms + (notSpr h).const = (spreadBits 32 (~~~ w).toNat : Int) := by
  have h1 := spr_sound hw
  have h2 := spreadBits_compl 32 w.toNat w.isLt
  have h3 : (~~~ w).toNat = 2 ^ 32 - 1 - w.toNat := by rw [BitVec.toNat_not]
  rw [spreadBits_ones_32] at h2
  rw [h3]
  simp only [termsValue, spr, List.map_cons, List.map_nil, List.sum_cons, List.sum_nil] at h1
  simp only [termsValue, notSpr, List.map_cons, List.map_nil, List.sum_cons, List.sum_nil]
  omega

theorem and_sound (hp : ∀ c, val c < Config.fieldP) {ops : List OperandExpr} {p : Path} {a b : Word32}
    (hv : opsValue val ops = ((spreadBits 32 a.toNat + spreadBits 32 b.toNat : Nat) : Int))
    (hs : Sat cuts val (extractCons ops p)) : IsWord32 val (p.sub .o) (a &&& b) := by
  have h1 := three_spreadBits_lt 32 a.toNat
  have h2 := three_spreadBits_lt 32 b.toNat
  obtain ⟨-, wo⟩ := extract_sound hp hv (by omega) hs
  rw [odd32, oddBits_spread2 a.isLt b.isLt, ← BitVec.toNat_and] at wo
  exact wo

theorem ch_sound (hp : ∀ c, val c < Config.fieldP) {e f g p : Path} {we wf wg : Word32} (he : IsWord32 val e we)
    (hf : IsWord32 val f wf) (hg : IsWord32 val g wg) (hs : Sat cuts val (chCons e f g p)) :
    IsWord32 val (chP p) (we &&& wf) ∧ IsWord32 val (chQ p) (~~~ we &&& wg) := by
  rw [chCons, sat_append] at hs
  refine ⟨and_sound hp ?_ hs.1, and_sound hp ?_ hs.2⟩
  · rw [opsValue_eq]
    simp only [chOperandsP, List.map_cons, List.map_nil, List.sum_cons, List.sum_nil, spr_sound he, spr_sound hf]
    push_cast; ring
  · rw [opsValue_eq]
    simp only [chOperandsQ, List.map_cons, List.map_nil, List.sum_cons, List.sum_nil, notSpr_sound he, spr_sound hg]
    push_cast; ring

theorem maj_sound (hp : ∀ c, val c < Config.fieldP) {a b c p : Path} {wa wb wc : Word32} (ha : IsWord32 val a wa)
    (hb : IsWord32 val b wb) (hc : IsWord32 val c wc) (hs : Sat cuts val (majCons a b c p)) :
    IsWord32 val (majResult p) (majWord wa wb wc) := by
  have h1 := three_spreadBits_lt 32 wa.toNat
  have h2 := three_spreadBits_lt 32 wb.toNat
  have h3 := three_spreadBits_lt 32 wc.toNat
  obtain ⟨-, wo⟩ := extract_sound hp
    (S := spreadBits 32 wa.toNat + spreadBits 32 wb.toNat + spreadBits 32 wc.toNat)
    (by
      rw [opsValue_eq]
      simp only [List.map_cons, List.map_nil, List.sum_cons, List.sum_nil, spr_sound ha, spr_sound hb, spr_sound hc]
      push_cast; ring) (by omega) hs
  rw [odd32, oddBits_spread3 32 _ _ _ wa.isLt wb.isLt wc.isLt] at wo
  have : (majWord wa wb wc).toNat = (wa.toNat &&& wb.toNat) ^^^ (wa.toNat &&& wc.toNat) ^^^ (wb.toNat &&& wc.toNat) := by
    simp [majWord]
  rw [← this] at wo
  exact wo

/-- MODADD on bundles that hold 32-bit words. -/
theorem add_sound (hp : ∀ c, val c < Config.fieldP) {ys : List Path} {ws : List Word32} {K : Nat} {p : Path}
    (hn : ys.length ≤ 5) (hK : K < 2 ^ 32) (hy : List.Forall₂ (IsWord32 val) ys ws)
    (hs : Sat cuts val (modaddCons ys K p)) :
    IsWord32 val (p.sub .r) (ws.sum + BitVec.ofNat 32 K) := by
  have hlt : ∀ y ∈ ys, val (y.cell .d) < 2 ^ 32 := by
    clear hs hn
    induction hy with
    | nil => simp
    | cons h _ ih =>
      intro y hm
      rcases List.mem_cons.mp hm with rfl | hm
      · rw [h.d]; exact h.lt
      · exact ih y hm
  obtain ⟨wr, -⟩ := modadd_sound hp hn hK hlt hs
  have e : ∀ {ys : List Path} {ws : List Word32}, List.Forall₂ (IsWord32 val) ys ws →
      ws.sum.toNat = (ys.map fun y => val (y.cell .d)).sum % 2 ^ 32 := by
    intro ys ws h
    induction h with
    | nil => rfl
    | cons h _ ih =>
      rw [List.sum_cons, BitVec.toNat_add, ih, List.map_cons, List.sum_cons, h.d]
      omega
  have : (ws.sum + BitVec.ofNat 32 K).toNat = ((ys.map fun y => val (y.cell .d)).sum + K) % 2 ^ 32 := by
    rw [BitVec.toNat_add, e hy, BitVec.toNat_ofNat]
    omega
  rw [IsWord32, this]
  exact wr

end Sys2Proof.Machine
end

