-- ==== Sys2Proof/Laws/Blocks.lean ====
section
/-!
SUPPORT. What satisfied instances of a round and of a schedule say about the cells they name, honest or not
(44_schedule.md R205; 45_compression.md R216).
-/

namespace Sys2Proof.Machine

open Sys2Proof

/-- The eight handles hold the words of a state. -/
structure HoldsSha (val : CellName → Nat) (H : Handles) (s : ShaState) : Prop where
  a : IsWord32 val H.a s.a
  b : IsWord32 val H.b s.b
  c : IsWord32 val H.c s.c
  d : IsWord32 val H.d s.d
  e : IsWord32 val H.e s.e
  f : IsWord32 val H.f s.f
  g : IsWord32 val H.g s.g
  h : IsWord32 val H.h s.h

/-- The instances of a round give its sums and its new state (45_compression.md R216). -/
theorem round_sound {cuts} {val : CellName → Nat} (hp : ∀ c, val c < Config.fieldP) {t : Nat} {H : Handles} {wh p : Path} {s : ShaState} {w : Word32}
   (hH : HoldsSha val H s) (hw : IsWord32 val wh w) (hs : Sat cuts val (roundCons t H wh p)) :
   (IsWord32 val (sigmaResult (p.sub .s1)) (sigma .bsig1 s.e) ∧ IsWord32 val (chP (p.sub .ch)) (s.e &&& s.f) ∧ IsWord32 val (chQ (p.sub .ch)) (~~~s.e &&& s.g) ∧ IsWord32 val (sigmaResult (p.sub .s0)) (sigma .bsig0 s.a) ∧ IsWord32 val (majResult (p.sub .maj)) (majWord s.a s.b s.c)) ∧ IsWord32 val ((p.sub .t1).sub .r) (roundT1 (BitVec.ofNat 32 (kRom t)) w s) ∧ IsWord32 val ((p.sub .t2).sub .r) (roundT2 s) ∧ HoldsSha val (H.next p) (shaRound (BitVec.ofNat 32 (kRom t)) w s) := by
  simp only [roundCons, sat_append] at hs
  obtain ⟨⟨⟨⟨⟨⟨⟨k1, k2⟩, k3⟩, k4⟩, k5⟩, k6⟩, k7⟩, k8⟩ := hs
  have s1 := sigma_sound hp hH.e k1
  obtain ⟨cp, cq⟩ := ch_sound hp hH.e hH.f hH.g k2
  have t1 := add_sound hp (by simp) (kRom_lt t) (.cons hH.h (.cons s1 (.cons cp (.cons cq (.cons hw .nil))))) k3
  have s0 := sigma_sound hp hH.a k4
  have mj := maj_sound hp hH.a hH.b hH.c k5
  have t2 := add_sound hp (by simp) (by norm_num) (.cons s0 (.cons mj .nil)) k6
  have e1 : [s.h, sigma .bsig1 s.e, s.e &&& s.f, ~~~s.e &&& s.g, w].sum + BitVec.ofNat 32 (kRom t) = roundT1 (BitVec.ofNat 32 (kRom t)) w s := by
    apply BitVec.eq_of_toNat_eq
    have hc := chParts_add s.e s.f s.g
    simp only [List.sum_cons, List.sum_nil, roundT1, BitVec.toNat_add, ← hc, BitVec.toNat_ofNat]
    have l1 := (s.e &&& s.f).isLt
    simp
    omega
  have e2 : [sigma .bsig0 s.a, majWord s.a s.b s.c].sum + BitVec.ofNat 32 0 = roundT2 s := by
    simp [roundT2]
  rw [e1] at t1
  rw [e2] at t2
  have a' := add_sound hp (by simp) (by norm_num) (.cons t1 (.cons t2 .nil)) k7
  have e' := add_sound hp (by simp) (by norm_num) (.cons hH.d (.cons t1 .nil)) k8
  refine ⟨⟨s1, cp, cq, s0, mj⟩, t1, t2, ⟨?_, hH.a, hH.b, hH.c, ?_, hH.e, hH.f, hH.g⟩⟩
  · have : (shaRound (BitVec.ofNat 32 (kRom t)) w s).a = [roundT1 (BitVec.ofNat 32 (kRom t)) w s, roundT2 s].sum + BitVec.ofNat 32 0 := by simp [shaRound]
    rw [this]; exact a'
  · have : (shaRound (BitVec.ofNat 32 (kRom t)) w s).e = [s.d, roundT1 (BitVec.ofNat 32 (kRom t)) w s].sum + BitVec.ofNat 32 0 := by simp [shaRound]
    rw [this]; exact e'

theorem isWord_of_cons {cuts} {val : CellName → Nat} (hp : ∀ c, val c < Config.fieldP) {h : Path} (hs : Sat cuts val (wordCons h)) : IsWord32 val h (BitVec.ofNat 32 (val (h.cell .d))) :=
  isWord_toNat (word_sound hp hs).1

theorem sat_of_flatMap {α} {cuts val} {l : List α} {f : α → List Constraint} (h : Sat cuts val (l.flatMap f)) : ∀ x ∈ l, Sat cuts val (f x) := by
    intro x hx k hk
    exact h k (List.mem_flatMap.mpr ⟨x, hx, hk⟩)

/-- The instances of the schedule give its 64 words (44_schedule.md R205). -/
theorem schedule_sound {cuts} {val : CellName → Nat} (hp : ∀ c, val c < Config.fieldP) {b : Nat} (hs : Sat cuts val (scheduleCons b))
   {block : List Word32} (hB : block = (List.range 16).map fun t => BitVec.ofNat 32 (val ((wordPath b t).cell .d))) :
   (∀ t < 16, IsWord val (wordPath b t) (val ((wordPath b t).cell .d))) ∧ ∀ t, t < 64 → IsWord32 val (wordHandle b t) ((schedule block).getD t 0) := by
  simp only [scheduleCons, sat_append] at hs
  obtain ⟨c2, c3⟩ := hs
  have hlen : block.length = 16 := by simp [hB]
  have ww : ∀ t < 16, IsWord val (wordPath b t) (val ((wordPath b t).cell .d)) := fun t ht => (word_sound hp (sat_of_flatMap c2 t (by simp [ht]))).1
  refine ⟨ww, ?_⟩
  intro t
  induction t using Nat.strong_induction_on with
  | _ t ih =>
    intro ht
    by_cases h16 : t < 16
    · rw [schedule_block hlen h16, wordHandle, if_pos h16, hB]
      have : ((List.range 16).map fun t => BitVec.ofNat 32 (val ((wordPath b t).cell .d))).getD t 0 = BitVec.ofNat 32 (val ((wordPath b t).cell .d)) := by
        simp [List.getD_eq_getElem?_getD, h16]
      rw [this]
      exact isWord_toNat (ww t h16)
    · have hc := sat_of_flatMap c3 t (by simp [List.mem_range'_1]; omega)
      simp only [schedCons, sat_append] at hc
      obtain ⟨⟨h1, h2⟩, h3⟩ := hc
      have s1 := sigma_sound hp (ih (t-2) (by omega) (by omega)) h1
      have s0 := sigma_sound hp (ih (t-15) (by omega) (by omega)) h2
      have := add_sound hp (by simp) (by norm_num) (.cons s1 (.cons (ih (t-7) (by omega) (by omega)) (.cons s0 (.cons (ih (t-16) (by omega) (by omega)) .nil)))) h3
      rw [schedule_next hlen (by omega) ht, wordHandle, if_neg h16]
      have e : ∀ a b c d : Word32, [a,b,c,d].sum + BitVec.ofNat 32 0 = a + b + c + d := by intro a b c d; simp [add_assoc]
      rw [e] at this
      exact this

end Sys2Proof.Machine
end

