-- ==== Sys2Proof/Laws/Facade.lean ====
section
/-!
SUPPORT. What INIT_WORD and DIGEST_WORD do when they succeed, and the completions of the facade commands
(46_facade.md R231 to R240).
-/

namespace Sys2Proof.Machine

open Sys2Proof

/-! ### INIT_WORD -/

/-- `STATE[i]` and `IV_USED[i]` set to `h`. -/
def State.withInitial (s : State) (i : Nat) (h : Path) : State :=
  { s with stateReg := s.stateReg.setIfInBounds i (some h), ivUsed := s.ivUsed.setIfInBounds i (some h) }

theorem opInitWord_of {src : WordSource} {i : Nat} {r : OpRec} {s u : State}
    (h : initBundle (encode (.initWord src i)) (ivPath s.blk i) i r src s = .ok () u) :
    opInitWord src i r s = .ok () (u.withInitial i (ivPath s.blk i)) := by
  unfold opInitWord
  rw [bind_get, bind_ok h]
  rfl

theorem ivRom_lt (i : Nat) : ivRom i < 2 ^ 32 := by
  unfold ivRom
  have h : ∀ x ∈ ivRomList, x < 2 ^ 32 := by decide
  rw [List.getD_eq_getElem?_getD]
  cases ht : ivRomList[i]? with
  | none => simp
  | some x => exact h x (List.mem_of_getElem? ht)

/-- The bundle from the IV: nothing is false, since the FIXED cell holds the constant. -/
theorem initBundle_iv {cmd : CmdWord} {h : Path} {i : Nat} {r : OpRec} {s : State} (hb : s.booted = true)
    (ha : s.hostAccepts = true) (hf : s.Fresh h) (hi : s.Reads (.fixIv i) (ivRom i)) (g : Path) :
    ∃ u, initBundle cmd h i r .iv s = .ok () u ∧ Ext s u h (wordCells h) (initWordCons h i g .iv) ∧ u.unsat = s.unsat ∧
      u.HoldsWord h (ivRom i) := by
  have lt := lt_fieldP_of_lt (lt_trans (ivRom_lt i) (by norm_num : 2 ^ 32 < 2 ^ 66))
  obtain ⟨u1, h1, x1, n1, w1⟩ := opWord_ok hb ha (v := .known (ivRom i)) (fun _ => rfl) lt hf
  rw [decide_eq_false (by have := ivRom_lt i; omega), unsatIf_false] at n1
  obtain ⟨u2, h2, x2, n2, o2⟩ := opCopy_ok (a := h.cell .d) (b := .fixIv i) (s := u1) h (by rw [x1.booted, hb]) x1.accepts
    (by simp [Path.cell, CellName.kind]) (by simp [CellName.kind]) (readsWord_of_holds w1).1 (x1.reads hi) lt lt
  rw [decide_eq_false (by simp), unsatIf_false, n1] at n2
  refine ⟨u2, ?_, ?_, n2, x2.holdsWord w1⟩
  · simp only [initBundle]
    rw [bind_ok h1, h2]
  · simpa [initWordCons] using x1.trans x2

/-- The bundle from a `din` item. -/
theorem initBundle_data {cmd : CmdWord} {h : Path} {i : Nat} {v : Val} {s : State} {n : Nat} (hb : s.booted = true)
    (ha : s.hostAccepts = true) (hf : s.Fresh h) (hv : s.mode = .witness → v = .known n) (hn : n < Config.fieldP)
    (g : Path) :
    ∃ u, initBundle cmd h i (.value v) .data s = .ok () u ∧ Ext s u h (wordCells h) (initWordCons h i g .data) ∧
      u.unsat = s.unsatIf (decide (2 ^ 32 ≤ n)) ∧ u.HoldsWord h n :=
  opWord_ok hb ha hv hn hf

/-- The bundle from the previous digest. -/
theorem initBundle_digest {cmd : CmdWord} {h g : Path} {i : Nat} {r : OpRec} {s : State} {n : Nat} (hb : s.booted = true)
    (ha : s.hostAccepts = true) (hf : s.Fresh h) (hg : handle? s.dig i = some g) (hr : s.Reads (g.cell .d) n)
    (hn : n < Config.fieldP) :
    ∃ u, initBundle cmd h i r .digest s = .ok () u ∧ Ext s u h (wordCells h) (initWordCons h i g .digest) ∧
      u.unsat = s.unsatIf (decide (2 ^ 32 ≤ n)) ∧ u.HoldsWord h n := by
  obtain ⟨v, hv, hvk⟩ := memRead_reads (cmd := cmd) hr
  obtain ⟨u1, h1, x1, n1, w1⟩ := opWord_ok (v := v) hb ha hvk hn hf
  obtain ⟨u2, h2, x2, n2, o2⟩ := opCopy_ok (a := h.cell .d) (b := g.cell .d) (s := u1) h (by rw [x1.booted, hb]) x1.accepts
    (by simp [Path.cell, CellName.kind]) (by simp [Path.cell, CellName.kind]) (readsWord_of_holds w1).1 (x1.reads hr) hn hn
  rw [decide_eq_false (by simp), unsatIf_false, n1] at n2
  refine ⟨u2, ?_, ?_, n2, x2.holdsWord w1⟩
  · simp only [initBundle]
    rw [bind_ok (readHandle_ok hg), bind_ok hv, bind_ok h1, h2]
  · simpa [initWordCons] using x1.trans x2

/-- The bundle of initial state word i from any of the three sources (46_facade.md R232). -/
theorem initBundle_ok {cmd : CmdWord} {s : State} {h g : Path} {i n : Nat} {r : OpRec} (src : WordSource)
    (hb : s.booted = true) (ha : s.hostAccepts = true) (hn : n < Config.fieldP) (hf : s.Fresh h)
    (h1 : src = .iv → n = ivRom i ∧ s.Reads (.fixIv i) n)
    (h2 : src = .data → ∃ v, r = .value v ∧ (s.mode = .witness → v = .known n))
    (h3 : src = .digest → handle? s.dig i = some g ∧ s.Reads (g.cell .d) n) :
    ∃ u, initBundle cmd h i r src s = .ok () u ∧ Ext s u h (wordCells h) (initWordCons h i g src) ∧
      u.unsat = s.unsatIf (decide (2 ^ 32 ≤ n)) ∧ u.HoldsWord h n := by
  cases src with
  | iv =>
    obtain ⟨rfl, hr⟩ := h1 rfl
    obtain ⟨u, a, b, c, d⟩ := initBundle_iv (cmd := cmd) (r := r) hb ha hf hr g
    exact ⟨u, a, b, by rw [c, decide_eq_false (by have := ivRom_lt i; omega), unsatIf_false], d⟩
  | data =>
    obtain ⟨v, rfl, hv⟩ := h2 rfl
    exact initBundle_data hb ha hf hv hn g
  | digest =>
    obtain ⟨a, b⟩ := h3 rfl
    exact initBundle_digest hb ha hf a b hn

/-! ### DIGEST_WORD -/

theorem opDigestWord_ok {i : Nat} {s : State} {a b : Path} {na nb : Nat} (hb : s.booted = true)
    (ha : s.hostAccepts = true) (h1 : handle? s.stateReg i = some a) (h2 : handle? s.ivUsed i = some b)
    (r1 : s.Reads (a.cell .d) na) (r2 : s.Reads (b.cell .d) nb) (l1 : na < Config.fieldP) (l2 : nb < Config.fieldP)
    (hf : s.Fresh (digestPath s.blk i)) :
    ∃ u, opDigestWord i s = .ok () { u with dig := u.dig.setIfInBounds i (some ((digestPath s.blk i).sub .r)) } ∧
      Ext s u (digestPath s.blk i) (modaddCells (digestPath s.blk i)) (modaddCons [a, b] 0 (digestPath s.blk i)) ∧
      u.unsat = s.unsatIf (decide (2 ^ 32 ≤ na ∨ 2 ^ 32 ≤ nb)) ∧
      u.HoldsWord ((digestPath s.blk i).sub .r) (BitVec.ofNat 32 na + BitVec.ofNat 32 nb).toNat ∧
      u.cell ((digestPath s.blk i).cell .c) = some (u.seen ((wordOf na + wordOf nb) / 2 ^ 32)) := by
  obtain ⟨u, e1, x1, n1, w1, c1⟩ := opModadd_of (n := 2) (K := 0) (ys := [a, b]) (p := digestPath s.blk i) (s := s)
    (ns := [na, nb]) hb ha rfl (by norm_num) (by norm_num) (.cons r1 (.cons r2 .nil))
    (by
      intro x hx
      simp only [List.mem_cons, List.not_mem_nil, or_false] at hx
      rcases hx with rfl | rfl
      · exact l1
      · exact l2) hf
  refine ⟨u, ?_, x1, ?_, holdsWord_congr (fun _ => ?_) w1, ?_⟩
  · unfold opDigestWord
    rw [bind_get, bind_ok (readHandle_ok h1), bind_ok (readHandle_ok h2), bind_ok e1]
    rfl
  · rw [n1]; simp only [List.any_cons, List.any_nil, Bool.or_false, Bool.decide_or]
  · simp only [List.map_cons, List.map_nil, List.sum_cons, List.sum_nil, wordOf, BitVec.toNat_add, BitVec.toNat_ofNat]
    omega
  · rw [c1]; simp only [List.map_cons, List.map_nil, List.sum_cons, List.sum_nil, Nat.add_zero]

/-! ### Completions -/

theorem readHandles_ok {n : Nat} {cmd : CmdWord} {file : State → Vector (Option Path) n} {s : State} :
    ∀ {is : List Nat} {hs : List Path}, List.Forall₂ (fun i h => handle? (file s) i = some h) is hs →
      readHandles cmd file is s = .ok hs s
  | [], _, .nil => rfl
  | _ :: _, _, .cons h hr => by
    rw [readHandles, bind_ok (readHandle_ok h), bind_ok (readHandles_ok hr)]
    rfl

theorem readAll_ok {cmd : CmdWord} {s : State} :
    ∀ {cs : List CellName} {vs : List Val}, List.Forall₂ (fun c v => s.cell c = some v) cs vs →
      readAll cmd cs s = .ok vs s
  | [], _, .nil => rfl
  | _ :: _, _, .cons h hr => by
    rw [readAll, bind_ok (memRead_ok h), bind_ok (readAll_ok hr)]
    rfl

/-- A list read off from index 0 on. -/
theorem forall₂_range {α : Type} {R : Nat → α → Prop} {l : List α} {n : Nat} (hl : l.length = n)
    (h : ∀ i, i < n → ∀ x, l[i]? = some x → R i x) : List.Forall₂ R (List.range n) l := by
  rw [List.forall₂_iff_get]
  refine ⟨by simp [hl], fun i h1 h2 => ?_⟩
  simp only [List.get_eq_getElem, List.getElem_range]
  exact h i (by simpa using h1) _ (List.getElem?_eq_getElem h2)

/-- Reading the first `k` entries of a register file. -/
theorem readHandles_range {s : State} {cmd : CmdWord} {n : Nat} {file : State → Vector (Option Path) n} {hs : List Path}
    {k : Nat} (hl : hs.length = k) (h : ∀ i < k, handle? (file s) i = hs[i]?) :
    readHandles cmd file (List.range k) s = .ok hs s :=
  readHandles_ok (forall₂_range hl fun i hi x hx => by rw [h i hi, hx])

/-- The values of existing dense cells. -/
theorem dense_values {s : State} : ∀ {hs : List Path}, (∀ h ∈ hs, s.has (h.cell .d) = true) →
    ∃ vs : List Val, List.Forall₂ (fun c v => s.cell c = some v) (hs.map (·.cell .d)) vs ∧ vs.length = hs.length ∧
      ∀ j, j < hs.length → vs[j]? = (hs[j]?).bind fun h => s.cell (h.cell .d)
  | [], _ => ⟨[], .nil, rfl, by simp⟩
  | h :: hs, hh => by
    obtain ⟨vs, a, b, c⟩ := dense_values (hs := hs) fun x hx => hh x (List.mem_cons_of_mem _ hx)
    obtain ⟨v, hv⟩ := Option.isSome_iff_exists.mp (hh h (by simp))
    refine ⟨v :: vs, .cons hv a, by simp [b], fun j hj => ?_⟩
    cases j with
    | zero => simp [hv]
    | succ j => simpa using c j (by simpa using hj)

/-- A written entry of a register file, and the others. -/
theorem handle?_set {n : Nat} {f : Vector (Option Path) n} {i j : Nat} {h : Path} (hi : i < n) :
    handle? (f.setIfInBounds i (some h)) j = if j = i then some h else handle? f j := by
  simp only [handle?, Vector.getElem?_setIfInBounds]
  by_cases e : i = j
  · subst e; simp [hi]
  · rw [if_neg e, if_neg (Ne.symm e)]

theorem busy_of_cons {s : State} {e : QEntry} {rest : List QEntry} (h : s.q = e :: rest) : s.busy = true := by
  simp [State.busy, h]

theorem whenDrained_busy {m : M Unit} {s : State} (h : s.busy = true) : whenDrained m s = .ok () s := by
  rw [whenDrained, if_pos h]

theorem whenDrained_idle {m : M Unit} {s : State} (h : s.busy = false) : whenDrained m s = m s := by
  rw [whenDrained, h]; rfl

/-! ### Accepting a command -/

/-- An item is a field element exactly when it is a number below p (10_state.md R44). -/
theorem isElem_iff (d : DinItem) : d.isElem = true ↔ ∃ x < Config.fieldP, d = .elem x := by
  cases d with
  | elem n => simp [DinItem.isElem, isFieldElem_iff]
  | bits b => simp [DinItem.isElem]

theorem checkSequence_ok {i : Instr} {s : State} (h : sequenceOk i s = true) : checkSequence i s = .ok () s :=
  require_ok s h

theorem checkSequence_raised {i : Instr} {s : State} (h : sequenceOk i s = false) :
    checkSequence i s = .error .raised (faultEntry .sequence (encode i) s) :=
  require_fails s h

/-- The phases in which an INIT command is in sequence (60_exceptions.md R262). -/
theorem phase_of_init {p : Phase} (h1 : p ≠ .reset) (h2 : p ≠ .conf) :
    (p == .ready || p == .state || p == .done || p == .digested) = true := by
  cases p <;> simp_all

theorem itemEntries_eq (op : Nat → Instr) : ∀ (vs : List Val) (j : Nat),
    itemEntries op j vs = (List.range vs.length).map fun i => ⟨encode (op (j + i)), .value (vs.getD i .unknown)⟩
  | [], _ => rfl
  | v :: vs, j => by
    rw [itemEntries, itemEntries_eq op vs (j + 1), List.length_cons, List.range_succ_eq_map, List.map_cons, List.map_map]
    refine congrArg₂ _ rfl (List.map_congr_left fun i _ => ?_)
    simp [Nat.add_comm, Nat.add_left_comm]

/-- The queue entries of the items of a `din` of `n` items (30_encoding.md R99). -/
theorem itemEntries_din (op : Nat → Instr) (mode : Mode) (din : List DinItem) (n : Nat) (h : din.length = n) :
    itemEntries op 0 (din.map (dinVal mode))
      = (List.range n).map fun i => ⟨encode (op i), .value (dinVal mode (din.getD i (.elem 0)))⟩ := by
  rw [itemEntries_eq, List.length_map, h]
  refine List.map_congr_left fun i hi => ?_
  rw [Nat.zero_add]
  have : i < din.length := by simpa [h] using hi
  simp [List.getD_eq_getElem?_getD, this]

end Sys2Proof.Machine
end

