-- ==== Sys2Proof/Laws/Setup.lean ====
section
/-!
SUPPORT. CONFIGURE and LOAD (41_table.md R130, R133): lists of requests and of FIXED writes, up to the end or to the first
refusal, and how many of LOAD's requests the host accepts.
-/

namespace Sys2Proof.Machine

open Sys2Proof

theorem seqAll_append (ms ns : List (M Unit)) (s : State) : seqAll (ms ++ ns) s = (seqAll ms >>= fun _ => seqAll ns) s := by
  induction ms generalizing s with
  | nil => rfl
  | cons m ms ih =>
    rw [List.cons_append, seqAll, seqAll]
    show EStateM.bind m _ s = EStateM.bind (EStateM.bind m _) _ s
    unfold EStateM.bind
    cases m s with
    | ok a t => exact ih t
    | error e t => rfl

/-- The host accepts the next `n` requests (00_scope.md R13: past the end of its answers it accepts). -/
def acceptsNext (as : List Bool) (n : Nat) : Prop := (as.take n).all id = true

theorem acceptsNext_of_all {as : List Bool} (h : as.all id = true) (n : Nat) : acceptsNext as n := by
  unfold acceptsNext
  rw [List.all_eq_true] at h ⊢
  exact fun x hx => h x (List.mem_of_mem_take hx)

theorem acceptsNext_replicate (n : Nat) (as : List Bool) {m : Nat} (h : m ≤ n) : acceptsNext (List.replicate n true ++ as) m := by
  unfold acceptsNext
  rw [List.take_append_of_le_length (by simpa using h), List.take_replicate]
  simp

/-- Accepting `n + m` requests is accepting `n` and then `m`. -/
theorem acceptsNext_add {as : List Bool} {n m : Nat} (h : acceptsNext as (n + m)) :
    acceptsNext as n ∧ acceptsNext (as.drop n) m := by
  unfold acceptsNext at h ⊢
  rwa [List.take_add, List.all_append, Bool.and_eq_true] at h

theorem request_next {rq : Request} {cause : FaultCause} {cmd : CmdWord} {s : State} {n : Nat}
    (h : acceptsNext s.hostAnswers (n + 1)) :
    request rq cause cmd s = .ok () { s with requests := rq :: s.requests, hostAnswers := s.hostAnswers.tail } ∧
      acceptsNext s.hostAnswers.tail n := by
  unfold acceptsNext at h ⊢
  cases ha : s.hostAnswers with
  | nil => simp [request, ha]
  | cons b rest =>
    rw [ha, List.take_succ_cons, List.all_cons, Bool.and_eq_true] at h
    simp only [id] at h
    simp only [request, ha, h.1, List.tail_cons]
    exact ⟨trivial, h.2⟩

theorem request_refused {rq : Request} {cause : FaultCause} {cmd : CmdWord} {s : State} {as : List Bool}
    (h : s.hostAnswers = false :: as) :
    request rq cause cmd s
      = .error .raised (faultEntry cause cmd { s with requests := rq :: s.requests, hostAnswers := as }) := by
  simp only [request, h]; rfl

/-- A list of accepted requests. -/
theorem seqAll_requests {cause : FaultCause} {cmd : CmdWord} : ∀ {rqs : List Request} {s : State},
    acceptsNext s.hostAnswers rqs.length →
    seqAll (rqs.map fun rq => request rq cause cmd) s
      = .ok () { s with requests := rqs.reverse ++ s.requests, hostAnswers := s.hostAnswers.drop rqs.length }
  | [], s, _ => rfl
  | rq :: rqs, s, h => by
    obtain ⟨h1, h2⟩ := request_next (rq := rq) (cause := cause) (cmd := cmd) h
    rw [List.map_cons, seqAll, bind_ok h1, seqAll_requests (rqs := rqs) h2]
    simp

/-- A list of requests whose `n`-th (from 0) is the first refused. -/
theorem seqAll_requests_refused {cause : FaultCause} {cmd : CmdWord} {rqs : List Request} {s : State} {n : Nat}
    {as : List Bool} (hn : n < rqs.length) (ha : s.hostAnswers = List.replicate n true ++ false :: as) :
    seqAll (rqs.map fun rq => request rq cause cmd) s = .error .raised (faultEntry cause cmd { s with
      requests := (rqs.take (n + 1)).reverse ++ s.requests, hostAnswers := as }) := by
  have split : rqs = rqs.take n ++ rqs[n] :: rqs.drop (n + 1) := by simp
  conv_lhs => rw [split, List.map_append, seqAll_append]
  have e1 := seqAll_requests (cause := cause) (cmd := cmd) (rqs := rqs.take n) (s := s)
    (by rw [ha]; exact acceptsNext_replicate _ _ (by simp))
  have hl : (rqs.take n).length = n := by simp; omega
  rw [bind_ok e1, List.map_cons, seqAll, bind_error (request_refused (as := as) (by simp only [hl, ha]; simp)),
    List.take_succ_eq_append_getElem hn, List.reverse_append]
  rfl

/-! ### FIXED cells -/

/-- The ROM constant of a FIXED cell (20_memory.md R63). -/
def romOf : CellName → Nat
  | .fixK t => kRom t
  | .fixIv i => ivRom i
  | _ => 0

/-- Its assign request. -/
def fixedRequest (c : CellName) : Request := .assign .k c (.known (romOf c))

theorem memWrite_fixed {cmd : CmdWord} {c : CellName} {s : State} {n : Nat} (hk : c.kind = .fixed) (hc : s.cell c = none)
    (h : acceptsNext s.hostAnswers (n + 1)) :
    memWrite cmd true c (.known (romOf c)) s = .ok () { s with
      mem := s.mem.insert c (.known (romOf c)), requests := fixedRequest c :: s.requests,
      hostAnswers := s.hostAnswers.tail } := by
  have hcol : c.column = .k := by cases c <;> simp_all [CellName.kind, CellName.column]
  have hst : storedVal s.mode c (.known (romOf c)) = .known (romOf c) := by
    unfold storedVal; rw [hk]
  unfold memWrite
  simp only [hc, hk, hst, hcol]
  rw [if_neg (by decide), (request_next h).1]
  rfl

theorem memWrite_fixed_refused {cmd : CmdWord} {c : CellName} {s : State} {as : List Bool} (hk : c.kind = .fixed)
    (hc : s.cell c = none) (h : s.hostAnswers = false :: as) :
    memWrite cmd true c (.known (romOf c)) s = .error .raised (faultEntry .assign cmd { s with
      requests := fixedRequest c :: s.requests, hostAnswers := as }) := by
  have hcol : c.column = .k := by cases c <;> simp_all [CellName.kind, CellName.column]
  have hst : storedVal s.mode c (.known (romOf c)) = .known (romOf c) := by
    unfold storedVal; rw [hk]
  unfold memWrite
  simp only [hc, hk, hst, hcol]
  rw [if_neg (by decide), request_refused h]
  rfl

/-- A list of accepted FIXED writes. -/
theorem seqAll_fixed {cmd : CmdWord} : ∀ {cs : List CellName} {s : State}, (∀ c ∈ cs, c.kind = .fixed) → cs.Nodup →
    (∀ c ∈ cs, s.cell c = none) → acceptsNext s.hostAnswers cs.length →
    ∃ t, seqAll (cs.map fun c => memWrite cmd true c (.known (romOf c))) s = .ok () t ∧
      t = { s with mem := t.mem, requests := (cs.map fixedRequest).reverse ++ s.requests,
                   hostAnswers := s.hostAnswers.drop cs.length } ∧
      (∀ c ∈ cs, t.cell c = some (.known (romOf c))) ∧ ∀ c, c ∉ cs → t.cell c = s.cell c
  | [], s, _, _, _, _ => ⟨s, rfl, rfl, by simp, by simp⟩
  | c :: cs, s, hk, hn, hc, h => by
    rw [List.nodup_cons] at hn
    have hkc : c.kind = .fixed := hk c (by simp)
    have e1 := memWrite_fixed (cmd := cmd) hkc (hc c (by simp)) h
    have h2 := (request_next (rq := fixedRequest c) (cause := .assign) (cmd := cmd) h).2
    obtain ⟨t, e2, f, w, o⟩ := seqAll_fixed (cmd := cmd) (cs := cs)
      (s := { s with mem := s.mem.insert c (.known (romOf c)), requests := fixedRequest c :: s.requests,
                     hostAnswers := s.hostAnswers.tail })
      (fun d hd => hk d (List.mem_cons_of_mem _ hd)) hn.2
      (fun d hd => by
        have ne : d ≠ c := fun e => hn.1 (e ▸ hd)
        exact (Memory.get_insert_ne _ _ _ ne).trans (hc d (List.mem_cons_of_mem _ hd))) h2
    refine ⟨t, ?_, ?_, ?_, ?_⟩
    · rw [List.map_cons, seqAll, bind_ok e1, e2]
    · simp only [List.map_cons, List.reverse_cons, List.append_assoc, List.cons_append, List.nil_append,
        List.length_cons, ← List.drop_tail]
      exact f
    · intro d hd
      rcases List.mem_cons.mp hd with rfl | hd
      · rw [o d hn.1]
        exact Memory.get_insert_self _ _ _ _ (by rw [hkc]; decide)
      · exact w d hd
    · intro d hd
      rw [List.mem_cons, not_or] at hd
      rw [o d hd.2]
      exact Memory.get_insert_ne _ _ _ hd.1

/-! ### LOAD -/

theorem takeAnswers_accepts : ∀ {as : List Bool} {n : Nat}, acceptsNext as n → takeAnswers as n = (n, false, as.drop n)
  | _, 0, _ => by simp [takeAnswers]
  | [], n + 1, _ => by simp [takeAnswers]
  | b :: as, n + 1, h => by
    unfold acceptsNext at h
    rw [List.take_succ_cons, List.all_cons, Bool.and_eq_true] at h
    simp only [id] at h
    rw [h.1, takeAnswers, takeAnswers_accepts (as := as) (n := n) h.2]
    rfl

theorem takeAnswers_refused (as : List Bool) : ∀ {k n : Nat}, k < n →
    takeAnswers (List.replicate k true ++ false :: as) n = (k, true, as)
  | 0, n + 1, _ => by simp [takeAnswers]
  | k + 1, n + 1, h => by
    rw [List.replicate_succ, List.cons_append, takeAnswers, takeAnswers_refused as (k := k) (n := n) (by omega)]

/-- Which TABLE cells a count says are written (41_table.md R133). -/
theorem get_tab (m : Memory) (cuts : TagCuts) (col : TabCol) (v : Nat) :
    m.get cuts (.tab col v) = if v < 2 ^ 16 ∧ tabIndex col v < m.tabCells then some (.known (tableVal cuts col v)) else none := by
  simp only [Memory.get, blt_eq, Bool.and_eq_true, decide_eq_true_eq]
  norm_num

end Sys2Proof.Machine
end

