-- ==== Sys2Proof/Laws/Boot.lean ====
section
/-!
SUPPORT. CONFIGURE and LOAD (41_table.md R130–R134): the FIXED cells, refused requests, and LOAD as its loop of single
writes.
-/

namespace Sys2Proof.Machine

open Sys2Proof

/-- The 72 FIXED cells in the order CONFIGURE writes them (41_table.md R130). -/
def fixedAll : List CellName := (List.range 64).map .fixK ++ (List.range 8).map .fixIv

/-- Two sequences run as one. -/
theorem seqAll_seqAll {A B : List (M Unit)} {s} {f : Unit → M Unit} : (seqAll A >>= fun _ => seqAll B >>= f) s = (seqAll (A ++ B) >>= f) s := by
  have : (seqAll A >>= fun _ => seqAll B) = seqAll (A ++ B) := by funext u; exact (seqAll_append A B u).symm
  rw [← bind_assoc, this]

/-- The two sequences of CONFIGURE are one over all FIXED cells. -/
theorem fixedWrites_eq (cmd : CmdWord) : ((List.range 64).map fun t => memWrite cmd true (.fixK t) (.known (kRom t))) ++ ((List.range 8).map fun i => memWrite cmd true (.fixIv i) (.known (ivRom i))) = fixedAll.map fun c => memWrite cmd true c (.known (romOf c)) := by
  simp [fixedAll, romOf, Function.comp_def]

theorem fixedAll_kind : ∀ c ∈ fixedAll, c.kind = .fixed := by decide

theorem fixedAll_nodup : fixedAll.Nodup := by decide

/-- Before CONFIGURE no FIXED cell is in `CELLS`. -/
theorem fixedAll_none {s : State} (h1 : ∀ t < 64, s.cell (.fixK t) = none) (h2 : ∀ i < 8, s.cell (.fixIv i) = none) : ∀ c ∈ fixedAll, s.cell c = none := by
  intro c hc
  simp only [fixedAll, List.mem_append, List.mem_map, List.mem_range] at hc
  rcases hc with ⟨i, hi, rfl⟩ | ⟨i, hi, rfl⟩
  · exact h1 i hi
  · exact h2 i hi

theorem take_getElem_drop {α} (l : List α) (n : Nat) (h : n < l.length) : l = l.take n ++ l[n] :: l.drop (n+1) := by simp

/-- A sequence of requests stops at the first refused one. -/
theorem seqAll_refused_reqs {cause : FaultCause} {cmd : CmdWord} {rqs : List Request} {s : State} {n : Nat} {as : List Bool} (hn : n < rqs.length) (ha : s.hostAnswers = List.replicate n true ++ false :: as) :
   seqAll (rqs.map fun rq => request rq cause cmd) s = .error .raised (faultEntry cause cmd { s with requests := (rqs.take (n+1)).reverse ++ s.requests, hostAnswers := as }) := by
  conv_lhs => rw [take_getElem_drop rqs n hn, List.map_append, seqAll_append]
  have e1 := seqAll_requests (cause := cause) (cmd := cmd) (rqs := rqs.take n) (s := s) (by rw [ha]; exact acceptsNext_replicate _ _ (by simp))
  rw [bind_ok e1, List.map_cons, seqAll]
  have hl : (rqs.take n).length = n := by simp; omega
  rw [bind_error (request_refused (as := as) (by simp only [hl, ha]; simp))]
  rw [List.take_succ_eq_append_getElem hn, List.reverse_append]
  rfl

/-- With no TABLE cell in `CELLS`, none is counted. -/
theorem tabCells_zero {s : State} (h : ∀ col v, s.cell (.tab col v) = none) : s.mem.tabCells = 0 := by
  have := h .tag 0
  simp only [State.cell, get_tab] at this
  by_contra hne
  rw [if_pos ⟨by norm_num, by simp [tabIndex]; omega⟩] at this
  cases this

/-- The next TABLE cell is not in `CELLS`. -/
theorem tabCellAt_none {s : State} {k : Nat} (h : s.mem.tabCells = k) : s.cell (tabCellAt k) = none := by
  unfold tabCellAt
  split <;> simp only [State.cell, get_tab, h, tabIndex] <;> rw [if_neg (by omega)]

/-- The loop of single writes of an accepting host. -/
theorem loop_ok (cmd : CmdWord) (s : State) (h0 : s.mem.tabCells = 0) : ∀ n, acceptsNext s.hostAnswers n →
   loadLoop cmd n s = .ok () { s with mem := { s.mem with tabCells := n }, hostAnswers := s.hostAnswers.drop n, requests := ((List.range n).map (tabRequest s.tagCuts)).reverse ++ s.requests }
  | 0, _ => by
    have : ({ s with mem := { s.mem with tabCells := 0 } } : State) = s := by
      rw [← h0]
    show EStateM.Result.ok () s = _
    simp only [List.drop_zero, List.range_zero, List.map_nil, List.reverse_nil, List.nil_append]
    rw [this]
  | n+1, h => by
    have hn := (acceptsNext_add h).1
    have ih := loop_ok cmd s h0 n hn
    rw [loadLoop, bind_ok ih]
    have h1 := (acceptsNext_add h).2
    unfold tableWrite
    rw [tabCellAt_none rfl]
    simp only
    rw [(request_next (n := 0) h1).1]
    simp only [List.range_succ, List.map_append, List.map_cons, List.map_nil, List.reverse_append, List.reverse_cons, List.reverse_nil, List.nil_append, List.cons_append, List.tail_drop]

/-- The loop of single writes stops at the first refused one. -/
theorem loop_refused (cmd : CmdWord) (s : State) (h0 : s.mem.tabCells = 0) (n : Nat) (as : List Bool) (ha : s.hostAnswers = List.replicate n true ++ false :: as) : ∀ k,
   loadLoop cmd (n + 1 + k) s = .error .raised (faultEntry .assign cmd { s with mem := { s.mem with tabCells := n }, hostAnswers := as, requests := ((List.range (n+1)).map (tabRequest s.tagCuts)).reverse ++ s.requests })
  | 0 => by
    have ih := loop_ok cmd s h0 n (by rw [ha]; exact acceptsNext_replicate _ _ le_rfl)
    rw [Nat.add_zero, loadLoop, bind_ok ih]
    unfold tableWrite
    rw [tabCellAt_none rfl]
    simp only
    rw [request_refused (as := as) (by simp [ha])]
    simp only [List.range_succ, List.map_append, List.map_cons, List.map_nil, List.reverse_append, List.reverse_cons, List.reverse_nil, List.nil_append, List.cons_append]
  | k+1 => by
    rw [← Nat.add_assoc, loadLoop]
    exact bind_error (loop_refused cmd s h0 n as ha k)

/-- The host accepts the next `n` requests, or refuses one of them first. -/
theorem accepts_or_refused : ∀ (as : List Bool) (n : Nat), acceptsNext as n ∨ ∃ k < n, ∃ r, as = List.replicate k true ++ false :: r
  | as, 0 => .inl (by simp [acceptsNext])
  | [], n+1 => .inl (by simp [acceptsNext])
  | false :: as, n+1 => .inr ⟨0, by omega, as, rfl⟩
  | true :: as, n+1 => by
    rcases accepts_or_refused as n with h | ⟨k, hk, r, rfl⟩
    · left; unfold acceptsNext at h ⊢; simpa using h
    · right; exact ⟨k+1, by omega, r, rfl⟩

/-- The requests of the loop are those the one request of LOAD stands for (log 10). -/
theorem expand_tabRequests (cuts : TagCuts) (n) (r : List Request) : (((List.range n).map (tabRequest cuts)).reverse ++ r).flatMap (Request.expand cuts) = Request.expand cuts (.assignTable n) ++ r.flatMap (Request.expand cuts) := by
  have : ∀ l : List Nat, (l.map (tabRequest cuts)).flatMap (Request.expand cuts) = l.map (tabRequest cuts) := by
    intro l; induction l with
    | nil => rfl
    | cons a l ih => rw [List.map_cons, List.flatMap_cons, ih]; unfold tabRequest; split <;> rfl
  rw [List.flatMap_append, ← List.map_reverse, this, List.map_reverse, Request.expand]

end Sys2Proof.Machine
end

