-- ==== Sys2Proof/Laws/Codec.lean ====
section
/-!
SUPPORT. The codec functions on bit lists (40_codec.md R120–R125): lengths, single bits, and what they invert.
-/

namespace Sys2Proof.Machine

open Sys2Proof

/-- A bit list has the length asked for (40_codec.md R120). -/
theorem bitsOfNat_length : ∀ n x, (bitsOfNat n x).length = n
  | 0, _ => rfl
  | n+1, x => by simp [bitsOfNat, bitsOfNat_length n]

/-- Bit i of the list is bit i of the number (40_codec.md R120). -/
theorem bitsOfNat_getElem : ∀ n x i, i < n → (bitsOfNat n x)[i]? = some (x.testBit i)
  | n+1, x, 0, _ => by simp [bitsOfNat, Nat.testBit_zero]; rfl
  | n+1, x, i+1, h => by
    simp only [bitsOfNat, List.getElem?_cons_succ, bitsOfNat_getElem n (x/2) i (by omega), Nat.testBit_succ]

/-- The number of a bit list as the sum of its bits (40_codec.md R121). -/
theorem intOfBits_sum (b : List Bool) : intOfBits b = ((List.range b.length).map fun i => (b.getD i false).toNat * 2 ^ i).sum := by
  induction b with
  | nil => rfl
  | cons a l ih =>
    rw [List.length_cons, List.range_succ_eq_map, List.map_cons, List.sum_cons, List.map_map, intOfBits, ih, ← List.sum_map_mul_left]
    simp only [List.getD_cons_zero, pow_zero, mul_one]
    congr 2
    apply List.map_congr_left
    intro i _
    simp [pow_succ]; ring

/-- INT_OF inverts BITS_OF on what fits (40_codec.md R121). -/
theorem intOfBits_bitsOfNat : ∀ n x, x < 2^n → intOfBits (bitsOfNat n x) = x
  | 0, x, h => by simp at h; simp [bitsOfNat, intOfBits, h]
  | n+1, x, h => by
    have := intOfBits_bitsOfNat n (x/2) (by rw [pow_succ] at h; omega)
    simp only [bitsOfNat, intOfBits, this]
    have : (x % 2 == 1).toNat = x % 2 := by rcases Nat.mod_two_eq_zero_or_one x with h | h <;> simp [h]
    omega

/-- SPREAD doubles the length (40_codec.md R122). -/
theorem spreadList_length : ∀ b, (spreadList b).length = 2 * b.length
  | [] => rfl
  | _ :: l => by simp [spreadList, spreadList_length l]; omega

/-- SPREAD puts bit i at 2i and 0 at 2i + 1 (40_codec.md R122). -/
theorem spreadList_getElem : ∀ (b : List Bool) i, i < b.length → (spreadList b)[2*i]? = b[i]? ∧ (spreadList b)[2*i+1]? = some false
  | a :: l, 0, _ => by simp [spreadList]
  | a :: l, i+1, h => by
    have := spreadList_getElem l i (by simpa using h)
    simp only [spreadList, show 2*(i+1) = 2*i+1+1 by ring, List.getElem?_cons_succ]
    exact this

/-- `spread` on numbers is SPREAD on their bits (40_codec.md R123). -/
theorem spreadBits_eq_list : ∀ n v, spreadBits n v = intOfBits (spreadList (bitsOfNat n v))
  | 0, _ => rfl
  | n+1, v => by
    rw [bitsOfNat, spreadList, intOfBits, intOfBits, ← spreadBits_eq_list n (v/2), spreadBits]
    rcases Nat.mod_two_eq_zero_or_one v with e | e <;> simp [e] <;> omega

end Sys2Proof.Machine
end

