-- ==== Sys2Proof/Laws/Decode.lean ====
section
/-!
SUPPORT. The decoder and the opcode map (30_encoding.md R90, R93, R102, R106): packed words have the fields packed in
them, rows are told apart by their opcode, and what decodes is in a row.
-/

namespace Sys2Proof

/-- The fields of a packed word are what was packed, where they fit (30_encoding.md R90, R102). -/
theorem packWord_fields {opc n sel imm : Nat} (ho : opc < 2 ^ 8) (hn : n < 2 ^ 4) (hs : sel < 2 ^ 4) (hi : imm < 2 ^ 16) :
    opcOf (packWord opc n sel imm) = opc ∧ nOf (packWord opc n sel imm) = n ∧
    selOf (packWord opc n sel imm) = sel ∧ immOf (packWord opc n sel imm) = imm := by
  have h : (packWord opc n sel imm).toNat = opc + n * 2 ^ 8 + sel * 2 ^ 12 + imm * 2 ^ 16 := by
    unfold packWord
    rw [BitVec.toNat_ofNat]
    omega
  unfold opcOf nOf selOf immOf
  rw [h]
  omega

/-- The word's fields are in the legal sets of row `r`, which gives the instruction `i` back. -/
def Row.Holds (r : Row) (w : CmdWord) (i : Instr) : Prop :=
  r.opc = opcOf w ∧ r.n.admits (nOf w) = true ∧ r.sel.admits (selOf w) = true ∧ r.imm.admits (immOf w) = true ∧
  r.build (nOf w) (selOf w) (immOf w) = i

/-- A word is its four fields packed again (30_encoding.md R90). -/
theorem packWord_of_fields (w : CmdWord) : packWord (opcOf w) (nOf w) (selOf w) (immOf w) = w := by
  apply BitVec.eq_of_toNat_eq
  unfold packWord opcOf nOf selOf immOf
  have := w.isLt
  rw [BitVec.toNat_ofNat]
  omega

/-- No two rows have the same opcode. -/
theorem opcodeMap_pairwise : opcodeMap.Pairwise fun a b => a.opc ≠ b.opc := by
  simp [opcodeMap, hostRows, levelOneRows, functionRows, primitiveRows]

theorem find_of_pairwise {r : Row} : ∀ {m : List Row}, m.Pairwise (fun a b => a.opc ≠ b.opc) → r ∈ m →
    m.find? (fun x => x.opc == r.opc) = some r
  | [], _, h => by simp at h
  | a :: l, hp, h => by
    rw [List.pairwise_cons] at hp
    rcases List.mem_cons.mp h with rfl | h'
    · simp
    · rw [List.find?_cons_of_neg (by simpa using hp.1 r h')]
      exact find_of_pairwise hp.2 h'

/-- What decodes to an instruction is exactly what lies in a row of the map. -/
theorem decode_eq_ok {w : CmdWord} {i : Instr} : decode w = .ok i ↔ ∃ r ∈ opcodeMap, r.Holds w i := by
  constructor
  · intro h
    unfold decode at h
    split at h
    · cases h
    · rename_i r hr
      split at h
      · rename_i hc
        simp only [Bool.and_eq_true] at hc
        injection h with h
        exact ⟨r, List.mem_of_find?_eq_some hr, by simpa using List.find?_some hr, hc.1, hc.2.1, hc.2.2, h⟩
      · cases h
  · rintro ⟨r, hr, a, b, c, d, e⟩
    unfold decode
    rw [← a, find_of_pairwise opcodeMap_pairwise hr]
    simp [b, c, d, e]

end Sys2Proof
end

