-- ==== Sys2Proof/Laws/Faults.lean ====
section
/-!
SUPPORT. Where an operation raises (60_exceptions.md R250, R253, R255): a missing cell or handle, a refused assignment, and
what had been done before it.
-/

namespace Sys2Proof.Machine

open Sys2Proof

/-- A read of a cell that does not exist raises F_UNASSIGNED (60_exceptions.md R250). -/
theorem memRead_raised {cmd : CmdWord} {c : CellName} {s : State} (h : s.has c = false) : memRead cmd c s = .error .raised (faultEntry .unassigned cmd s) := by
  have : s.cell c = none := by simpa [State.has] using h
  simp only [memRead, this]; rfl

/-- A read of an unwritten handle raises F_UNASSIGNED (60_exceptions.md R250). -/
theorem readHandle_raised {n : Nat} {cmd : CmdWord} {file : State → Vector (Option Path) n} {i : Nat} {s : State}
    (h : handle? (file s) i = none) : readHandle cmd file i s = .error .raised (faultEntry .unassigned cmd s) := by
  simp only [readHandle, h]; rfl

/-- An instance over a cell that does not exist raises F_UNASSIGNED (60_exceptions.md R250). -/
theorem record_raised {cmd : CmdWord} {k : Constraint} {s : State} {c : CellName} (hc : c ∈ k.cells) (h : s.has c = false) : record cmd k s = .error .raised (faultEntry .unassigned cmd s) := by
  unfold record
  rw [if_neg]; · rfl
  intro hh
  have := List.all_eq_true.mp hh c hc
  simp [State.has] at h; simp [h] at this

theorem readHandle_bind_raised {s : State} {cmd : CmdWord} {n : Nat} {file : State → Vector (Option Path) n} {i : Nat} {β} {f : Path → M β}
   (h : (∃ p, handle? (file s) i = some p ∧ f p s = .error .raised (faultEntry .unassigned cmd s)) ∨ handle? (file s) i = none) :
   (readHandle cmd file i >>= f) s = .error .raised (faultEntry .unassigned cmd s) := by
  rcases h with ⟨p, hp, h⟩ | h
  · rw [bind_ok (readHandle_ok hp), h]
  · exact bind_error (readHandle_raised h)

/-- From `s`, writing exactly `cs` and recording `ks` left `t`, with the answers `ans` to come. -/
structure PRun (s t : State) (cs : List CellName) (ks : List Constraint) (ans : List Bool) : Prop where
  f : t = { s with mem := t.mem, cons := t.cons, unsat := t.unsat, requests := t.requests, hostAnswers := ans }
  only : ∀ c, c ∉ cs → t.cell c = s.cell c
  mono : ∀ c v, s.cell c = some v → t.cell c = some v
  count : t.mem.cells.length = s.mem.cells.length + cs.length
  has : ∀ c ∈ cs, t.has c = true
  log : t.cons = s.cons ++ ks

theorem PRun.booted {s t cs ks ans} (h : PRun s t cs ks ans) : t.booted = s.booted := by
  rw [h.f]; rfl

/-- One more cell of an accepting host. -/
theorem PRun.assigned {s t cs ks as} {p : Path} {g : Seg} {cmd v} (h : PRun s t cs ks (true :: as)) (hf : s.Fresh p) (hn : p.cell g ∉ cs) :
   ∃ u, assign cmd (p.cell g) v t = .ok () u ∧ PRun s u (cs ++ [p.cell g]) ks as := by
  have hc : t.cell (p.cell g) = none := by rw [h.only _ hn]; exact hf.cell g
  have ha : t.hostAnswers = true :: as := by rw [h.f]
  refine ⟨{ t with mem := t.mem.insert (p.cell g) (storedVal t.mode (p.cell g) v), requests := .assign (p.cell g).column (p.cell g) v :: t.requests, hostAnswers := as }, ?_, ?_⟩
  · unfold assign memWrite
    simp only [hc]
    rw [if_neg (by simp [Path.cell, CellName.kind])]
    simp only [request, ha]
  · refine ⟨?_, ?_, ?_, ?_, ?_, h.log⟩
    · have := h.f; rw [this]
    · intro c hcc
      rw [List.mem_append, not_or] at hcc
      exact (Memory.get_insert_ne _ _ _ (by simpa using hcc.2)).trans (h.only c hcc.1)
    · intro c w hw
      have := h.mono c w hw
      have ne : c ≠ p.cell g := fun e => by rw [e, hc] at this; cases this
      exact (Memory.get_insert_ne _ _ _ ne).trans this
    · show (insertCell _ _ _).length = _
      rw [length_insertCell hc, h.count]; simp; omega
    · intro c hcc
      rcases List.mem_append.mp hcc with hcc | hcc
      · obtain ⟨w, hw⟩ := Option.isSome_iff_exists.mp (h.has c hcc)
        have ne : c ≠ p.cell g := fun e => by rw [e, hc] at hw; cases hw
        exact has_of_cell ((Memory.get_insert_ne _ _ _ ne).trans hw)
      · simp at hcc; subst hcc
        exact has_of_cell (Memory.get_insert_self _ _ _ _ (by simp [Path.cell, CellName.kind]))

/-- One more instance. -/
theorem PRun.recorded {s t cs ks as} {k : Constraint} {cmd} (h : PRun s t cs ks as) (hb : s.booted = true) (hk : k.kind ≠ .copy) (hc : ∀ c ∈ k.cells, c ∈ cs) :
  ∃ u, record cmd k t = .ok () u ∧ PRun s u cs (ks ++ [k]) as := by
  refine ⟨{ t with cons := t.cons ++ [k], unsat := t.unsatAfter k }, ?_, ⟨?_, h.only, h.mono, h.count, h.has, by simp [h.log]⟩⟩
  · unfold record
    have hall : (k.cells.all fun c => (t.cell c).isSome) = true := List.all_eq_true.mpr fun c hcc => h.has c (hc c hcc)
    rw [if_pos hall, if_pos (registered_of_booted (by rw [h.booted, hb]) hk)]
  · have := h.f; rw [this]

/-- A refused cell raises F_ASSIGN and is not written (60_exceptions.md R250). -/
theorem PRun.refused {s t cs ks as} {p : Path} {g : Seg} {cmd v} (h : PRun s t cs ks (false :: as)) (hf : s.Fresh p) (hn : p.cell g ∉ cs) :
   ∃ u, assign cmd (p.cell g) v t = .error .raised (faultEntry .assign cmd u) ∧ PRun s u cs ks as := by
  have hc : t.cell (p.cell g) = none := by rw [h.only _ hn]; exact hf.cell g
  have ha : t.hostAnswers = false :: as := by rw [h.f]
  refine ⟨{ t with requests := .assign (p.cell g).column (p.cell g) v :: t.requests, hostAnswers := as }, ?_, ?_⟩
  · unfold assign memWrite
    simp only [hc]
    rw [if_neg (by simp [Path.cell, CellName.kind])]
    rw [request_refused ha]
  · exact ⟨by have := h.f; rw [this], h.only, h.mono, h.count, h.has, h.log⟩

theorem lookupInput_answers {t : State} {c : CellName} {cmd e} (h : t.has c = true) : ∃ v, lookupInput cmd e c t = .ok v t := by
  unfold lookupInput
  cases t.mode with
  | shape => exact ⟨_, rfl⟩
  | witness =>
    obtain ⟨v, hv⟩ := Option.isSome_iff_exists.mp h
    exact ⟨_, map_ok (memRead_ok hv)⟩

/-! ### Operations whose first reads raise -/

/-- A sum over a missing cell raises, whichever term it is (42_gates.md R164). -/
theorem readTerms_raised {cmd : CmdWord} {s : State} : ∀ {ts : List Term}, (∃ t ∈ ts, s.has t.2 = false) →
    readTerms cmd ts s = .error .raised (faultEntry .unassigned cmd s)
  | [], h => by simp at h
  | (k, y) :: ts, h => by
    unfold readTerms
    cases hy : s.cell y with
    | none => exact bind_error (memRead_raised (by simp [State.has, hy]))
    | some v =>
      rw [bind_ok (memRead_ok hy)]
      refine bind_error (readTerms_raised ?_)
      obtain ⟨t, ht, hn⟩ := h
      rcases List.mem_cons.mp ht with rfl | ht
      · simp [State.has, hy] at hn
      · exact ⟨t, ht, hn⟩

/-- A sum of words with a missing dense cell raises, whichever word it is (42_gates.md R169). -/
theorem readWords_raised {cmd : CmdWord} {s : State} : ∀ {ys : List Path}, (∃ y ∈ ys, s.has (y.cell .d) = false) →
    readWords cmd ys s = .error .raised (faultEntry .unassigned cmd s)
  | [], h => by simp at h
  | y :: ys, h => by
    unfold readWords
    cases hy : s.cell (y.cell .d) with
    | none => exact bind_error (memRead_raised (by simp [State.has, hy]))
    | some v =>
      rw [bind_ok (memRead_ok hy)]
      refine bind_error (readWords_raised ?_)
      obtain ⟨t, ht, hn⟩ := h
      rcases List.mem_cons.mp ht with rfl | ht
      · simp [State.has, hy] at hn
      · exact ⟨t, ht, hn⟩

/-- LOOKUP reads its input first in WITNESS mode (41_table.md R136). -/
theorem opLookup_raised {e : Nat} {d t sp : CellName} {s : State} (hm : s.mode = .witness) (h : s.has d = false) :
    opLookup e d t sp s = .error .raised (faultEntry .unassigned (encode (.lookup e)) s) := by
  unfold opLookup
  rw [bind_get]
  refine bind_error ?_
  simp only [lookupInput, hm]
  show EStateM.map _ _ s = _
  simp only [EStateM.map, memRead_raised h]

/-- In SHAPE mode LOOKUP finds a missing input at the record, its two cells written (41_table.md R136; log 24). -/
theorem opLookup_raised_shape {e : Nat} {d t sp : CellName} {s : State} {p : Path} (hm : s.mode = .shape)
    (ha : s.hostAccepts = true) (h : s.has d = false) (ht : s.cell t = none) (hs : s.cell sp = none)
    (hpt : t.isBelow p = true) (hps : sp.isBelow p = true) (hne : t ≠ sp) (hdt : d ≠ t) (hds : d ≠ sp) :
    ∃ u, opLookup e d t sp s = .error .raised (faultEntry .unassigned (encode (.lookup e)) u) ∧ Ext s u p [t, sp] [] := by
  obtain ⟨u1, h1, x1, -, -, o1⟩ :=
    assign_ok (cmd := encode (.lookup e)) (v := Val.map (fun y => tagOf s.tagCuts (y % 2 ^ 16)) .unknown) ht hpt ha
  obtain ⟨u2, h2, x2, -, -, o2⟩ := assign_ok (cmd := encode (.lookup e))
    (v := Val.map (fun y => spread16 (y % 2 ^ 16)) .unknown) (by rw [o1 sp hne.symm]; exact hs) hps x1.accepts
  refine ⟨u2, ?_, x1.trans x2⟩
  have hi : lookupInput (encode (.lookup e)) e d s = .ok .unknown s := by simp only [lookupInput, hm]
  unfold opLookup
  rw [bind_get, bind_ok hi, bind_ok h1, bind_ok h2]
  refine record_raised (c := d) (by simp [Constraint.cells]) ?_
  rw [State.has, o2 d hds, o1 d hdt]
  exact h

theorem opDecomp_raised {l : Layout} {x p : Path} {s : State} (h : s.has (x.cell .d) = false) :
    opDecomp l x p s = .error .raised (faultEntry .unassigned (encode (.decomp l)) s) := by
  unfold opDecomp
  exact bind_error (memRead_raised h)

theorem opExtract_raised {k : Nat} {ops : List OperandExpr} {p : Path} {s : State} (hl : ops.length = k)
    (h : ∃ t ∈ ops.flatMap (·.terms), s.has t.2 = false) :
    opExtract k ops p s = .error .raised (faultEntry .unassigned (encode (.extract k)) s) := by
  unfold opExtract
  rw [bind_ok (require_ok _ (by simpa using hl)), bind_get]
  exact bind_error (readTerms_raised h)

theorem opModadd_raised {n K : Nat} {ys : List Path} {p : Path} {s : State} (hl : ys.length = n)
    (h : ∃ y ∈ ys, s.has (y.cell .d) = false) :
    opModadd n ys K p s = .error .raised (faultEntry .unassigned (encode (.modadd n)) s) := by
  unfold opModadd
  rw [bind_ok (require_ok _ (by simpa using hl))]
  exact bind_error (readWords_raised h)

/-- A missing spread of a word among an EXTRACT's operands (42_gates.md R151). -/
theorem exists_spr {s : State} {hs : List Path} (h : ∃ b ∈ hs, s.has (b.cell .slo) = false ∨ s.has (b.cell .shi) = false) :
    ∃ t ∈ hs.flatMap spr, s.has t.2 = false := by
  obtain ⟨b, hb, h⟩ := h
  rcases h with h | h
  · exact ⟨(1, b.cell .slo), List.mem_flatMap.mpr ⟨b, hb, by simp [spr]⟩, h⟩
  · exact ⟨(4 ^ 16, b.cell .shi), List.mem_flatMap.mpr ⟨b, hb, by simp [spr]⟩, h⟩

/-- From an operation that ended in a fault after some of its work to the step that performs it. -/
theorem raisedAfter {s u : State} {e : QEntry} {rest : List QEntry} {i : Instr} {body : OpRec → M Unit} {p : Path}
    {cs : List CellName} {ks : List Constraint} (hq : s.q = e :: rest)
    (h : body e.opnd { s with q := rest } = .error .raised (faultEntry .unassigned (encode i) u))
    (x : Ext { s with q := rest } u p cs ks) : RaisedAfter s rest i (runEntry s body) cs ks := by
  refine ⟨_, runEntry_raised hq h, ?_, ⟨x.only, x.mono, x.count⟩, x.log⟩
  have := x.frame
  rw [this]
  rfl

end Sys2Proof.Machine
end

