-- ==== Sys2Proof/Laws/PerInstr.lean ====
section
/-!
SUPPORT. Per instruction: its word lies in its row of the opcode map (30_encoding.md R102, R106).
-/

namespace Sys2Proof

/-- A row whose only used field is IMM. -/
theorem Row.holds_imm {r : Row} {lo hi x : Nat} {op : Nat → Instr} (hr : r = ⟨r.opc, .zero, .zero, .between lo hi, fun _ _ m => op m⟩)
    (ho : r.opc < 2 ^ 8) (h1 : lo ≤ x) (h2 : x ≤ hi) (h3 : hi < 2 ^ 16) : r.Holds (packWord r.opc 0 0 x) (op x) := by
  obtain ⟨a, b, c, d⟩ := packWord_fields (opc := r.opc) (n := 0) (sel := 0) (imm := x) ho (by norm_num) (by norm_num) (by omega)
  rw [Row.Holds, a, b, c, d]
  rw [hr]
  exact ⟨rfl, rfl, rfl, by rw [Legal.admits, Nat.ble_eq_true_of_le h1, Nat.ble_eq_true_of_le h2]; rfl, rfl⟩

namespace Laws.Encodes

/-- The word of a well-formed instruction is in its row of the opcode map. -/
def Statement (i : Instr) : Prop := i.wellFormed = true → ∃ r ∈ opcodeMap, r.Holds (encode i) i

/-- By the place of the row in the map. -/
theorem at_row (k : Nat) (h : k < opcodeMap.length) {w : CmdWord} {i : Instr} (hr : (opcodeMap[k]).Holds w i) :
    ∃ r ∈ opcodeMap, r.Holds w i := ⟨_, List.getElem_mem h, hr⟩

theorem configure : Statement .configure := fun _ => at_row 0 (by decide) ⟨rfl, rfl, rfl, rfl, rfl⟩

theorem load : Statement .load := fun _ => at_row 1 (by decide) ⟨rfl, rfl, rfl, rfl, rfl⟩

theorem initIv : Statement .initIv := fun _ => at_row 2 (by decide) ⟨rfl, rfl, rfl, rfl, rfl⟩

theorem initFrom (src : InitSource) : Statement (.initFrom src) := fun _ => by
  cases src <;> exact at_row 3 (by decide) ⟨rfl, rfl, rfl, rfl, rfl⟩

theorem compress : Statement .compress := fun _ => at_row 4 (by decide) ⟨rfl, rfl, rfl, rfl, rfl⟩

theorem digest : Statement .digest := fun _ => at_row 5 (by decide) ⟨rfl, rfl, rfl, rfl, rfl⟩

theorem bitsOf (n : Width) : Statement (.bitsOf n) := fun _ => by
  cases n <;> exact at_row 6 (by decide) ⟨rfl, rfl, rfl, rfl, rfl⟩

theorem intOf : Statement .intOf := fun _ => at_row 7 (by decide) ⟨rfl, rfl, rfl, rfl, rfl⟩

theorem spread : Statement .spread := fun _ => at_row 8 (by decide) ⟨rfl, rfl, rfl, rfl, rfl⟩

theorem schedIn (t : Nat) : Statement (.schedIn t) := fun h => by
  simp only [Instr.wellFormed, decide_eq_true_eq] at h
  exact at_row 9 (by decide) (Row.holds_imm rfl (by decide) (Nat.zero_le _) h (by norm_num))

theorem sched (t : Nat) : Statement (.sched t) := fun h => by
  simp only [Instr.wellFormed, decide_eq_true_eq] at h
  exact at_row 10 (by decide) (Row.holds_imm rfl (by decide) h.1 h.2 (by norm_num))

theorem round (t : Nat) : Statement (.round t) := fun h => by
  simp only [Instr.wellFormed, decide_eq_true_eq] at h
  exact at_row 11 (by decide) (Row.holds_imm rfl (by decide) (Nat.zero_le _) h (by norm_num))

theorem initWord (src : WordSource) (i : Nat) : Statement (.initWord src i) := fun h => by
  simp only [Instr.wellFormed, decide_eq_true_eq] at h
  cases src <;> interval_cases i <;> exact at_row 12 (by decide) ⟨rfl, rfl, rfl, rfl, rfl⟩

theorem digestWord (i : Nat) : Statement (.digestWord i) := fun h => by
  simp only [Instr.wellFormed, decide_eq_true_eq] at h
  exact at_row 13 (by decide) (Row.holds_imm rfl (by decide) (Nat.zero_le _) h (by norm_num))

theorem ssig0 : Statement .ssig0 := fun _ => at_row 14 (by decide) ⟨rfl, rfl, rfl, rfl, rfl⟩

theorem ssig1 : Statement .ssig1 := fun _ => at_row 15 (by decide) ⟨rfl, rfl, rfl, rfl, rfl⟩

theorem bsig0 : Statement .bsig0 := fun _ => at_row 16 (by decide) ⟨rfl, rfl, rfl, rfl, rfl⟩

theorem bsig1 : Statement .bsig1 := fun _ => at_row 17 (by decide) ⟨rfl, rfl, rfl, rfl, rfl⟩

theorem ch : Statement .ch := fun _ => at_row 18 (by decide) ⟨rfl, rfl, rfl, rfl, rfl⟩

theorem maj : Statement .maj := fun _ => at_row 19 (by decide) ⟨rfl, rfl, rfl, rfl, rfl⟩

theorem word : Statement .word := fun _ => at_row 20 (by decide) ⟨rfl, rfl, rfl, rfl, rfl⟩

theorem recomb : Statement .recomb := fun _ => at_row 21 (by decide) ⟨rfl, rfl, rfl, rfl, rfl⟩

theorem lookup (e : Nat) : Statement (.lookup e) := fun h => by
  simp only [Instr.wellFormed, decide_eq_true_eq] at h
  exact at_row 22 (by decide) (Row.holds_imm rfl (by decide) (Nat.zero_le _) h (by norm_num))

theorem range (w : Nat) : Statement (.range w) := fun h => by
  simp only [Instr.wellFormed, decide_eq_true_eq] at h
  exact at_row 23 (by decide) (Row.holds_imm rfl (by decide) h.1 h.2 (by norm_num))

theorem decomp (l : Layout) : Statement (.decomp l) := fun _ => by
  cases l <;> exact at_row 24 (by decide) ⟨rfl, rfl, rfl, rfl, rfl⟩

theorem extract (k : Nat) : Statement (.extract k) := fun h => by
  simp only [Instr.wellFormed, decide_eq_true_eq] at h
  obtain ⟨h1, h2⟩ := h
  interval_cases k <;> exact at_row 25 (by decide) ⟨rfl, rfl, rfl, rfl, rfl⟩

theorem modadd (n : Nat) : Statement (.modadd n) := fun h => by
  simp only [Instr.wellFormed, decide_eq_true_eq] at h
  obtain ⟨h1, h2⟩ := h
  interval_cases n <;> exact at_row 26 (by decide) ⟨rfl, rfl, rfl, rfl, rfl⟩

theorem carry (m : Nat) : Statement (.carry m) := fun h => by
  simp only [Instr.wellFormed, decide_eq_true_eq] at h
  exact at_row 27 (by decide) (Row.holds_imm rfl (by decide) (Nat.zero_le _) h (by norm_num))

theorem copy : Statement .copy := fun _ => at_row 28 (by decide) ⟨rfl, rfl, rfl, rfl, rfl⟩

end Laws.Encodes

end Sys2Proof
end

