-- ==== Sys2Proof/Laws/Hash.lean ====
section
/-!
SUPPORT. Runs of many steps: the steps of a command put together, queue entry by queue entry, for a host that accepts and
operands that are words (46_facade.md R234).
-/

namespace Sys2Proof.Machine

open Sys2Proof

/-! ### Steps one after another -/

theorem State.after_add {s t : State} : ∀ {m : Nat} (n : Nat), s.after m = some t → s.after (m + n) = t.after n
  | 0, n, h => by
    simp only [State.after, Option.some.injEq] at h
    rw [h, Nat.zero_add]
  | m + 1, n, h => by
    rw [Nat.add_right_comm]
    simp only [State.after] at h ⊢
    cases hs : step s with
    | next u => rw [hs] at h; exact State.after_add n h
    | fault f => rw [hs] at h; cases h
    | refused r => rw [hs] at h; cases h

theorem State.after_one {s t : State} (h : step s = .next t) : s.after 1 = some t := by
  simp only [State.after, h]

theorem State.after_trans {s t u : State} {m n : Nat} (h : s.after m = some t) (h' : t.after n = some u) :
    s.after (m + n) = some u := by rw [State.after_add n h, h']

/-- A step with a queued operation at the head of Q. -/
theorem step_entry {s : State} {i : Instr} {r : OpRec} {rest : List QEntry} (h1 : s.resetIn = false)
    (h2 : s.halted = false) (hq : s.q = ⟨encode i, r⟩ :: rest) (hd : decode (encode i) = .ok i)
    (hi : i.fromHost = false) : step s = exec i s := by
  simp [step, fetch, h1, h2, hq, hd, hi]

/-- A step with a command on `cmd_in`. -/
theorem step_command {s : State} {i : Instr} {din : List DinItem} {rest : List Presented} (hw : s.waiting)
    (hc : s.cmds = ⟨encode i, din⟩ :: rest) (hd : decode (encode i) = .ok i) (hi : i.fromHost = true) :
    step s = exec i s := by
  simp [step, fetch, hw.1, hw.2.1, hw.2.2, hc, hd, hi]

/-! ### What a run of queue entries of one block leaves -/

/-- From `s`, performing queue entries that wrote `n` cells under the paths of the segments `gs` of the block and
recorded `ks`, none of them false, left `t`. -/
structure Trail (s t : State) (gs : List Seg) (n : Nat) (ks : List Constraint) : Prop where
  same    : t = { s with
    q := t.q, stateReg := t.stateReg, ivUsed := t.ivUsed, w := t.w, dig := t.dig, digValid := t.digValid,
    dout := t.dout, hout := t.hout, mem := t.mem, cons := t.cons, requests := t.requests, hostAnswers := t.hostAnswers }
  accepts : t.hostAccepts = true
  mono    : ∀ c v, s.cell c = some v → t.cell c = some v
  count   : t.mem.cells.length = s.mem.cells.length + n
  log     : t.cons = s.cons ++ ks
  fresh   : ∀ g, g ∉ gs → s.Fresh ⟨s.blk, [g]⟩ → t.Fresh ⟨s.blk, [g]⟩

namespace Trail

variable {s t u : State} {gs hs : List Seg} {n m : Nat} {ks ls : List Constraint}

theorem mode (h : Trail s t gs n ks) : t.mode = s.mode := by rw [h.same]
theorem blk (h : Trail s t gs n ks) : t.blk = s.blk := by rw [h.same]
theorem unsat (h : Trail s t gs n ks) : t.unsat = s.unsat := by rw [h.same]
theorem halted (h : Trail s t gs n ks) : t.halted = s.halted := by rw [h.same]
theorem resetIn (h : Trail s t gs n ks) : t.resetIn = s.resetIn := by rw [h.same]
theorem phase (h : Trail s t gs n ks) : t.phase = s.phase := by rw [h.same]
theorem cmds (h : Trail s t gs n ks) : t.cmds = s.cmds := by rw [h.same]
theorem tagCuts (h : Trail s t gs n ks) : t.tagCuts = s.tagCuts := by rw [h.same]
theorem booted (h : Trail s t gs n ks) : t.booted = s.booted := by
  have h1 : t.config = s.config := by rw [h.same]
  have h2 : t.table = s.table := by rw [h.same]
  rw [State.booted, State.booted, h1, h2]

theorem refl (s : State) (ha : s.hostAccepts = true) : Trail s s [] 0 [] :=
  ⟨rfl, ha, fun _ _ h => h, rfl, by simp, fun _ _ h => h⟩

theorem trans (h : Trail s t gs n ks) (h' : Trail t u hs m ls) : Trail s u (gs ++ hs) (n + m) (ks ++ ls) where
  same := by
    have e := h'.same
    rw [h.same] at e
    exact e
  accepts := h'.accepts
  mono := fun c v hv => h'.mono c v (h.mono c v hv)
  count := by rw [h'.count, h.count, Nat.add_assoc]
  log := by rw [h'.log, h.log, List.append_assoc]
  fresh := fun g hg hf => by
    rw [List.mem_append, not_or] at hg
    have := h'.fresh g hg.2 (h.blk ▸ h.fresh g hg.1 hf)
    rwa [h.blk] at this

theorem has (h : Trail s t gs n ks) {c : CellName} (hc : s.has c = true) : t.has c = true := by
  obtain ⟨v, hv⟩ := Option.isSome_iff_exists.mp hc
  exact has_of_cell (h.mono c v hv)

theorem reads (h : Trail s t gs n ks) {c : CellName} {x : Nat} (hc : s.Reads c x) : t.Reads c x :=
  ⟨h.has hc.1, fun hm => h.mono _ _ (hc.2 (h.mode ▸ hm))⟩

theorem holdsWord (h : Trail s t gs n ks) {b : Path} {x : Nat} (hw : s.HoldsWord b x) : t.HoldsWord b x := by
  have e : ∀ y, t.seen y = s.seen y := fun y => by rw [State.seen, State.seen, h.mode]
  simp only [State.HoldsWord, e, h.tagCuts] at hw ⊢
  exact ⟨h.mono _ _ hw.1, h.mono _ _ hw.2.1, h.mono _ _ hw.2.2.1, h.mono _ _ hw.2.2.2.1, h.mono _ _ hw.2.2.2.2.1,
    h.mono _ _ hw.2.2.2.2.2.1, h.mono _ _ hw.2.2.2.2.2.2⟩

end Trail

/-- A gate run below one segment of the block, none of its instances false, and after it only registers and outputs. -/
theorem Ext.trail {s u t : State} {rest : List QEntry} {g : Seg} {cs : List CellName} {ks : List Constraint}
    (h : Ext { s with q := rest } u ⟨s.blk, [g]⟩ cs ks) (hu : u.unsat = s.unsat)
    (ht : t = { u with
      stateReg := t.stateReg, ivUsed := t.ivUsed, w := t.w, dig := t.dig, digValid := t.digValid,
      dout := t.dout, hout := t.hout }) : Trail s t [g] cs.length ks where
  same := by
    have e := h.frame
    rw [e] at ht
    rw [hu] at ht
    have hm : t.mem = u.mem := by rw [ht]
    have hc : t.cons = u.cons := by rw [ht]
    have hr : t.requests = u.requests := by rw [ht]
    have ha : t.hostAnswers = u.hostAnswers := by rw [ht]
    have hq : t.q = rest := by rw [ht]
    rw [hm, hc, hr, ha, hq]
    exact ht
  accepts := by rw [ht]; exact h.accepts
  mono := fun c v hv => by rw [ht]; exact h.mono c v hv
  count := by rw [ht]; exact h.count
  log := by rw [ht]; exact h.log
  fresh := fun g' hg hf => by
    have hd : ∀ c : CellName, c.isBelow ⟨s.blk, [g']⟩ = true → c.isBelow ⟨s.blk, [g]⟩ = false := fun c hc => by
      have : ∀ k : Seg, (⟨s.blk, [k]⟩ : Path) = (⟨s.blk, []⟩ : Path).sub k := fun _ => rfl
      rw [this] at hc ⊢
      exact isBelow_sub_disjoint (by simpa using hg) hc
    have := h.fresh (q := ⟨s.blk, [g']⟩) hf hd
    rw [ht]
    exact this

/-- A block in the middle of a command: neither reset nor halted, configured, loaded, with a host that accepts. -/
structure Live (s : State) : Prop where
  resetIn : s.resetIn = false
  halted  : s.halted = false
  booted  : s.booted = true
  accepts : s.hostAccepts = true

theorem Trail.live {s t : State} {gs : List Seg} {n : Nat} {ks : List Constraint} (h : Trail s t gs n ks) (hs : Live s) :
    Live t :=
  ⟨by rw [h.resetIn, hs.resetIn], by rw [h.halted, hs.halted], by rw [h.booted, hs.booted], h.accepts⟩

theorem decode_encode_of {i : Instr} (h : Laws.Encodes.Statement i) (hw : i.wellFormed = true) :
    decode (encode i) = .ok i := decode_eq_ok.mpr (h hw)

/-! ### The steps of the five level-1 operations, on words -/

theorem word_in_field (x : Word32) : x.toNat < Config.fieldP := word_lt_fieldP x

/-- INIT_WORD i, with the completion of its command when it is the last entry. -/
theorem initWord_step {s : State} {src : WordSource} {i : Nat} {r : OpRec} {rest : List QEntry} {g : Path} {x : Word32}
    (hl : Live s) (hq : s.q = ⟨encode (.initWord src i), r⟩ :: rest) (hi : i ≤ 7) (hf : s.Fresh (ivPath s.blk i))
    (h1 : src = .iv → x.toNat = ivRom i ∧ s.Reads (.fixIv i) x.toNat)
    (h2 : src = .data → ∃ v, r = .value v ∧ (s.mode = .witness → v = .known x.toNat))
    (h3 : src = .digest → handle? s.dig i = some g ∧ s.Reads (g.cell .d) x.toNat)
    (hc : rest = [] → ∀ j < 8, j ≠ i → handle? s.stateReg j = some (ivPath s.blk j)) :
    ∃ t, step s = .next t ∧ Trail s t [.iv i] 7 (initWordCons (ivPath s.blk i) i g src) ∧ t.q = rest ∧
      t.dig = s.dig ∧ t.digValid = s.digValid ∧ t.stateReg = s.stateReg.setIfInBounds i (some (ivPath s.blk i)) ∧
      t.ivUsed = s.ivUsed.setIfInBounds i (some (ivPath s.blk i)) ∧ t.HoldsWord (ivPath s.blk i) x.toNat := by
  obtain ⟨u, k1, x1, n1, w1⟩ := initBundle_ok (s := { s with q := rest }) (cmd := encode (.initWord src i)) src
    hl.booted hl.accepts (word_in_field x) hf h1 h2 h3
  have k2 := opInitWord_of (s := { s with q := rest }) k1
  have hu : u.unsat = s.unsat := by rw [n1, word_in_range, unsatIf_false]
  have hstep : step s = exec (.initWord src i) s := step_entry hl.resetIn hl.halted hq
    (decode_encode_of (Laws.Encodes.initWord src i) (by simp [Instr.wellFormed, hi])) rfl
  have tr : ∀ d h, Trail s { u.withInitial i (ivPath s.blk i) with dout := d, hout := h } [.iv i] 7
      (initWordCons (ivPath s.blk i) i g src) := fun d h => x1.trail hu rfl
  have hd : u.dig = s.dig := x1.dig
  have hv : u.digValid = s.digValid := by rw [x1.frame]
  have hs : u.stateReg = s.stateReg := x1.stateReg
  have hiu : u.ivUsed = s.ivUsed := x1.ivUsed
  rw [hstep]
  cases rest with
  | cons e l =>
    refine ⟨u.withInitial i (ivPath s.blk i), ?_, tr u.dout u.hout, x1.q_eq, hd, hv, ?_, ?_, w1⟩
    · simp only [exec, execInitWord]
      refine runEntry_ok hq ?_
      rw [bind_ok k2]
      exact whenDrained_busy (busy_of_cons (e := e) (rest := l) x1.q_eq)
    · simp only [State.withInitial, hs]
    · simp only [State.withInitial, hiu]
  | nil =>
    have hfin : finishInit (encode (.initWord src i)) (u.withInitial i (ivPath s.blk i))
        = .ok () { u.withInitial i (ivPath s.blk i) with dout := [], hout := (List.range 8).map (ivPath s.blk) } := by
      unfold finishInit
      rw [bind_ok (readHandles_range (hs := (List.range 8).map (ivPath s.blk)) (by simp) (by
        intro j hj
        simp only [State.withInitial, hs]
        rw [handle?_set (by omega), List.getElem?_map, List.getElem?_range hj]
        split
        · subst_vars; rfl
        · exact hc rfl j hj ‹_›))]
      rfl
    refine ⟨_, ?_, tr [] ((List.range 8).map (ivPath s.blk)), x1.q_eq, hd, hv, ?_, ?_, w1⟩
    · simp only [exec, execInitWord]
      refine runEntry_ok hq ?_
      rw [bind_ok k2, whenDrained_idle (by show (!u.q.isEmpty) = false; rw [x1.q_eq]; rfl)]
      exact hfin
    · simp only [State.withInitial, hs]
    · simp only [State.withInitial, hiu]

/-- SCHED_IN t, never the last entry. -/
theorem schedIn_step {s : State} {k : Nat} {v : Val} {rest : List QEntry} {x : Word32} (hl : Live s)
    (hq : s.q = ⟨encode (.schedIn k), .value v⟩ :: rest) (hk : k ≤ 15) (hf : s.Fresh (wordPath s.blk k))
    (hv : s.mode = .witness → v = .known x.toNat) :
    ∃ t, step s = .next t ∧ Trail s t [.w k] 7 (wordCons (wordPath s.blk k)) ∧ t.q = rest ∧ t.dig = s.dig ∧
      t.digValid = s.digValid ∧ t.stateReg = s.stateReg ∧ t.ivUsed = s.ivUsed ∧
      t.w = s.w.setIfInBounds k (some (wordPath s.blk k)) ∧ t.HoldsWord (wordPath s.blk k) x.toNat := by
  obtain ⟨u, h1, x1, n1, w1⟩ := opSchedIn_ok (s := { s with q := rest }) (t := k) hl.booted hl.accepts hv
    (word_in_field x) hf
  have hu : u.unsat = s.unsat := by rw [n1, word_in_range, unsatIf_false]
  have hw : u.w = s.w := x1.w_eq
  refine ⟨{ u with w := u.w.setIfInBounds k (some (wordPath s.blk k)) }, ?_, x1.trail hu rfl, x1.q_eq, x1.dig,
    by rw [x1.frame], x1.stateReg, x1.ivUsed, by simp only [hw], w1⟩
  rw [step_entry hl.resetIn hl.halted hq
    (decode_encode_of (Laws.Encodes.schedIn k) (by simp [Instr.wellFormed, hk])) rfl]
  simp only [exec, execSchedIn]
  exact runEntry_ok hq h1

/-- SCHED t, never the last entry. -/
theorem sched_step {s : State} {k : Nat} {r : OpRec} {rest : List QEntry} {w2 w7 w15 w16 : Path}
    {x2 x7 x15 x16 : Word32} (hl : Live s) (hq : s.q = ⟨encode (.sched k), r⟩ :: rest) (h16 : 16 ≤ k) (h63 : k ≤ 63)
    (hf : s.Fresh (wordPath s.blk k)) (a2 : handle? s.w (k - 2) = some w2) (a7 : handle? s.w (k - 7) = some w7)
    (a15 : handle? s.w (k - 15) = some w15) (a16 : handle? s.w (k - 16) = some w16) (r2 : s.HoldsWord w2 x2.toNat)
    (r7 : s.HoldsWord w7 x7.toNat) (r15 : s.HoldsWord w15 x15.toNat) (r16 : s.HoldsWord w16 x16.toNat) :
    ∃ t, step s = .next t ∧ Trail s t [.w k] 76 (schedCons w2 w7 w15 w16 (wordPath s.blk k)) ∧ t.q = rest ∧
      t.dig = s.dig ∧ t.digValid = s.digValid ∧ t.stateReg = s.stateReg ∧ t.ivUsed = s.ivUsed ∧
      t.w = s.w.setIfInBounds k (some (((wordPath s.blk k).sub .add).sub .r)) ∧
      t.HoldsWord (((wordPath s.blk k).sub .add).sub .r) (sigma .ssig1 x2 + x7 + sigma .ssig0 x15 + x16).toNat := by
  obtain ⟨u, h1, x1, n1, w1⟩ := opSched_ok (s := { s with q := rest }) (t := k)
    (i := ⟨w2, w7, w15, w16, x2.toNat, x7.toNat, x15.toNat, x16.toNat⟩) hl.booted hl.accepts a2 a7 a15 a16
    (readsWord_of_holds r2).1 (readsWord_of_holds r7).1 (readsWord_of_holds r15).1 (readsWord_of_holds r16).1
    (word_in_field x2) (word_in_field x7) (word_in_field x15) (word_in_field x16) hf
  have hu : u.unsat = s.unsat := by
    rw [n1]
    simp only [Bool.decide_or, word_in_range, Bool.or_false, unsatIf_false]
  have hw : u.w = s.w := x1.w_eq
  simp only [BitVec.ofNat_toNat, BitVec.setWidth_eq] at w1
  refine ⟨{ u with w := u.w.setIfInBounds k (some (((wordPath s.blk k).sub .add).sub .r)) }, ?_, x1.trail hu rfl,
    x1.q_eq, x1.dig, by rw [x1.frame], x1.stateReg, x1.ivUsed, by simp only [hw], w1⟩
  rw [step_entry hl.resetIn hl.halted hq
    (decode_encode_of (Laws.Encodes.sched k) (by simp [Instr.wellFormed, h16, h63])) rfl]
  simp only [exec, execSched]
  exact runEntry_ok hq h1

/-- The eight bundles hold the words of a state. -/
structure HoldsState (s : State) (H : Handles) (x : ShaState) : Prop where
  a : s.HoldsWord H.a x.a.toNat
  b : s.HoldsWord H.b x.b.toNat
  c : s.HoldsWord H.c x.c.toNat
  d : s.HoldsWord H.d x.d.toNat
  e : s.HoldsWord H.e x.e.toNat
  f : s.HoldsWord H.f x.f.toNat
  g : s.HoldsWord H.g x.g.toNat
  h : s.HoldsWord H.h x.h.toNat

/-- The words of a state as numbers. -/
def ShaState.values (x : ShaState) : StateValues :=
  ⟨x.a.toNat, x.b.toNat, x.c.toNat, x.d.toNat, x.e.toNat, x.f.toNat, x.g.toNat, x.h.toNat⟩

theorem values_words (x : ShaState) : x.values.words = x := by
  simp only [ShaState.values, StateValues.words, BitVec.ofNat_toNat, BitVec.setWidth_eq]

theorem HoldsState.reads {s : State} {H : Handles} {x : ShaState} (h : HoldsState s H x) : s.ReadsState H x.values :=
  ⟨readsWord_of_holds h.a, readsWord_of_holds h.b, readsWord_of_holds h.c, readsWord_of_holds h.d,
    readsWord_of_holds h.e, readsWord_of_holds h.f, readsWord_of_holds h.g, readsWord_of_holds h.h⟩

theorem HoldsState.cells {s : State} {H : Handles} {x : ShaState} (h : HoldsState s H x) :
    ∀ p ∈ H.toList, s.has (p.cell .d) = true := by
  intro p hp
  simp only [Handles.toList, List.mem_cons, List.not_mem_nil, or_false] at hp
  rcases hp with rfl | rfl | rfl | rfl | rfl | rfl | rfl | rfl
  · exact has_of_cell h.a.1
  · exact has_of_cell h.b.1
  · exact has_of_cell h.c.1
  · exact has_of_cell h.d.1
  · exact has_of_cell h.e.1
  · exact has_of_cell h.f.1
  · exact has_of_cell h.g.1
  · exact has_of_cell h.h.1

theorem HoldsState.trail {s t : State} {gs : List Seg} {n : Nat} {ks : List Constraint} {H : Handles} {x : ShaState}
    (h : HoldsState s H x) (tr : Trail s t gs n ks) : HoldsState t H x :=
  ⟨tr.holdsWord h.a, tr.holdsWord h.b, tr.holdsWord h.c, tr.holdsWord h.d, tr.holdsWord h.e, tr.holdsWord h.f,
    tr.holdsWord h.g, tr.holdsWord h.h⟩

/-- What the bundles hold says nothing about the handles registered. -/
theorem HoldsState.withState {s : State} {H : Handles} {x : ShaState} (h : HoldsState s H x) (f : Vector (Option Path) 8)
    (d : List DoutItem) (o : List Path) : HoldsState { s with stateReg := f, dout := d, hout := o } H x := ⟨h.a, h.b, h.c, h.d, h.e, h.f, h.g, h.h⟩

/-- ROUND t, with the completion of COMPRESS when it is the last entry. -/
theorem round_step {s : State} {k : Nat} {r : OpRec} {rest : List QEntry} {H : Handles} {wh : Path} {x : ShaState}
    {wv : Word32} (hl : Live s) (hq : s.q = ⟨encode (.round k), r⟩ :: rest) (hk : k ≤ 63)
    (hf : s.Fresh (roundPath s.blk k)) (hst : s.stateReg = H.toFile) (hw : handle? s.w k = some wh)
    (hx : HoldsState s H x) (hwv : s.HoldsWord wh wv.toNat)
    (hc : rest = [] → ∀ i < 16, handle? s.w i = some (wordPath s.blk i)) :
    ∃ t, step s = .next t ∧ Trail s t [.rIx k] 142 (roundCons k H wh (roundPath s.blk k)) ∧ t.q = rest ∧
      t.dig = s.dig ∧ t.digValid = s.digValid ∧ t.ivUsed = s.ivUsed ∧ t.w = s.w ∧
      t.stateReg = (H.next (roundPath s.blk k)).toFile ∧
      HoldsState t (H.next (roundPath s.blk k)) (shaRound (BitVec.ofNat 32 (kRom k)) wv x) := by
  obtain ⟨u, h1, x1, n1, t1, t2, wa, we⟩ := opRound_ok (s := { s with q := rest }) (t := k) (v := x.values) hl.booted
    hl.accepts hst hw hx.reads (by
      intro n hn
      simp only [StateValues.toList, ShaState.values, List.mem_cons, List.not_mem_nil, or_false] at hn
      rcases hn with rfl | rfl | rfl | rfl | rfl | rfl | rfl | rfl <;> exact word_in_field _)
    (readsWord_of_holds hwv).1 (word_in_field wv) hf
  have hu : u.unsat = s.unsat := by
    have e : ∀ y : Word32, ¬ 2 ^ 32 ≤ y.toNat := fun y => by have := y.isLt; omega
    rw [n1]
    simp only [ShaState.values, e, or_self, decide_false, unsatIf_false]
  rw [values_words, BitVec.ofNat_toNat, BitVec.setWidth_eq] at wa we
  have tr : ∀ d h, Trail s { u with stateReg := (H.next (roundPath s.blk k)).toFile, dout := d, hout := h } [.rIx k] 142
      (roundCons k H wh (roundPath s.blk k)) := fun d h => x1.trail hu rfl
  have hst' : HoldsState u (H.next (roundPath s.blk k)) (shaRound (BitVec.ofNat 32 (kRom k)) wv x) :=
    ⟨wa, x1.holdsWord hx.a, x1.holdsWord hx.b, x1.holdsWord hx.c, we, x1.holdsWord hx.e, x1.holdsWord hx.f,
      x1.holdsWord hx.g⟩
  have hstep : step s = exec (.round k) s := step_entry hl.resetIn hl.halted hq
    (decode_encode_of (Laws.Encodes.round k) (by simp [Instr.wellFormed, hk])) rfl
  rw [hstep]
  cases rest with
  | cons e l =>
    refine ⟨{ u with stateReg := (H.next (roundPath s.blk k)).toFile }, ?_, tr u.dout u.hout, x1.q_eq, x1.dig,
      by rw [x1.frame], x1.ivUsed, x1.w_eq, rfl, hst'.withState _ _ _⟩
    simp only [exec, execRound]
    refine runEntry_ok hq ?_
    rw [bind_ok h1]
    exact whenDrained_busy (busy_of_cons (e := e) (rest := l) x1.q_eq)
  | nil =>
    obtain ⟨u', hu'⟩ : ∃ u', u' = ({ u with stateReg := (H.next (roundPath s.blk k)).toFile } : State) := ⟨_, rfl⟩
    obtain ⟨vs, va, -, -⟩ := dense_values (s := u') (hs := (H.next (roundPath s.blk k)).toList) (by
      subst hu'; exact hst'.cells)
    have hfin : finishCompress (encode (.round k)) u' = .ok () { u' with
        dout := vs.map .val
        hout := (H.next (roundPath s.blk k)).toList ++ ((List.range 16).map (wordPath s.blk)).map (·.sub .d) } := by
      unfold finishCompress
      rw [bind_ok (readHandles_range (k := 8) (hs := (H.next (roundPath s.blk k)).toList) rfl (by
          intro i hi; subst hu'; simp only; interval_cases i <;> rfl)),
        bind_ok (readAll_ok va),
        bind_ok (readHandles_range (k := 16) (hs := (List.range 16).map (wordPath s.blk)) (by simp) (by
          intro i hi
          subst hu'
          have e : u.w = s.w := x1.w_eq
          simp only [e]
          rw [List.getElem?_map, List.getElem?_range hi]
          exact hc rfl i hi))]
      rfl
    refine ⟨{ u' with
      dout := vs.map .val
      hout := (H.next (roundPath s.blk k)).toList ++ ((List.range 16).map (wordPath s.blk)).map (·.sub .d) },
      ?_, ?_, ?_, ?_, ?_, ?_, ?_, ?_, ?_⟩
    · simp only [exec, execRound]
      refine runEntry_ok hq ?_
      rw [bind_ok h1, whenDrained_idle (by show (!u.q.isEmpty) = false; rw [x1.q_eq]; rfl)]
      show finishCompress _ { u with stateReg := (H.next (roundPath s.blk k)).toFile } = _
      rw [← hu', hfin]
    all_goals subst hu'
    · exact tr _ _
    · exact x1.q_eq
    · exact x1.dig
    · show u.digValid = _; rw [x1.frame]
    · exact x1.ivUsed
    · exact x1.w_eq
    · rfl
    · exact hst'.withState _ _ _

/-- DIGEST_WORD i, with the completion of DIGEST when it is the last entry: the eight words then on `DOUT`. -/
theorem digestWord_step {s : State} {i : Nat} {r : OpRec} {rest : List QEntry} {a b : Path} {xa xb : Word32}
    {words : List Word32} (hl : Live s) (hq : s.q = ⟨encode (.digestWord i), r⟩ :: rest) (hi : i ≤ 7)
    (hf : s.Fresh (digestPath s.blk i)) (h1 : handle? s.stateReg i = some a) (h2 : handle? s.ivUsed i = some b)
    (r1 : s.HoldsWord a xa.toNat) (r2 : s.HoldsWord b xb.toNat) (hw : words.length = 8) (hwi : words[i]? = some (xa + xb))
    (hc : rest = [] → ∀ j < 8, j ≠ i → handle? s.dig j = some (digestHandle s.blk j) ∧
      ∀ x, words[j]? = some x → s.HoldsWord (digestHandle s.blk j) x.toNat) :
    ∃ t, step s = .next t ∧
      Trail s t [.dg i] 8 (modaddCons [a, b] 0 (digestPath s.blk i)) ∧ t.q = rest ∧ t.stateReg = s.stateReg ∧
      t.ivUsed = s.ivUsed ∧ t.dig = s.dig.setIfInBounds i (some (digestHandle s.blk i)) ∧
      t.HoldsWord (digestHandle s.blk i) (xa + xb).toNat ∧
      (rest = [] → t.digValid = true ∧ t.dout = words.map (fun x => .val (s.seen x.toNat)) ∧
        t.hout = (List.range 8).map fun j => (digestHandle s.blk j).sub .d) := by
  obtain ⟨u, k1, x1, n1, w1, c1⟩ := opDigestWord_ok (s := { s with q := rest }) (i := i) hl.booted hl.accepts h1 h2
    (readsWord_of_holds r1).1 (readsWord_of_holds r2).1 (word_in_field xa) (word_in_field xb) hf
  have hu : u.unsat = s.unsat := by
    rw [n1]; simp only [Bool.decide_or, word_in_range, Bool.or_false, unsatIf_false]
  simp only [BitVec.ofNat_toNat, BitVec.setWidth_eq] at w1
  have hd : u.dig = s.dig := x1.dig
  have tr : ∀ v d h, Trail s { u with
      dig := u.dig.setIfInBounds i (some (digestHandle s.blk i)), digValid := v, dout := d, hout := h } [.dg i] 8
      (modaddCons [a, b] 0 (digestPath s.blk i)) := fun v d h => x1.trail hu rfl
  have hstep : step s = exec (.digestWord i) s := step_entry hl.resetIn hl.halted hq
    (decode_encode_of (Laws.Encodes.digestWord i) (by simp [Instr.wellFormed, hi])) rfl
  rw [hstep]
  cases rest with
  | cons e l =>
    refine ⟨{ u with dig := u.dig.setIfInBounds i (some (digestHandle s.blk i)) }, ?_, tr u.digValid u.dout u.hout,
      x1.q_eq, x1.stateReg, x1.ivUsed, by simp only [hd], w1, fun h => by cases h⟩
    simp only [exec, execDigestWord]
    refine runEntry_ok hq ?_
    rw [bind_ok k1]
    exact whenDrained_busy (busy_of_cons (e := e) (rest := l) x1.q_eq)
  | nil =>
    obtain ⟨u', hu'⟩ : ∃ u', u' = ({ u with dig := u.dig.setIfInBounds i (some (digestHandle s.blk i)) } : State) :=
      ⟨_, rfl⟩
    have hseen : ∀ n, u'.seen n = s.seen n := fun n => by subst hu'; exact x1.seen n
    have hdi : ∀ j < 8, handle? u'.dig j = some (digestHandle s.blk j) := by
      intro j hj
      subst hu'
      simp only [hd]
      rw [handle?_set (by omega)]
      split
      · subst_vars; rfl
      · exact (hc rfl j hj ‹_›).1
    have hcell : ∀ j < 8, ∀ x, words[j]? = some x → u'.cell ((digestHandle s.blk j).cell .d) = some (s.seen x.toNat) := by
      intro j hj x hx
      by_cases e : j = i
      · subst e
        rw [hwi] at hx
        cases hx
        rw [← hseen]
        subst hu'
        exact w1.1
      · have := (x1.holdsWord ((hc rfl j hj e).2 x hx)).1
        rw [x1.seen] at this
        subst hu'
        exact this
    have hvals : List.Forall₂ (fun c v => u'.cell c = some v)
        (((List.range 8).map (digestHandle s.blk)).map (·.cell .d)) (words.map fun x => s.seen x.toNat) := by
      rw [List.map_map, List.forall₂_map_left_iff, List.forall₂_map_right_iff]
      exact forall₂_range hw fun j hj x hx => hcell j hj x hx
    have hfin : finishDigest (encode (.digestWord i)) u' = .ok () { u' with
        digValid := true, dout := (words.map fun x => s.seen x.toNat).map .val,
        hout := ((List.range 8).map (digestHandle s.blk)).map (·.sub .d) } := by
      unfold finishDigest
      rw [bind_ok (readHandles_range (hs := (List.range 8).map (digestHandle s.blk)) (by simp) (by
          intro j hj
          rw [hdi j hj, List.getElem?_map, List.getElem?_range hj]
          rfl)),
        bind_ok (readAll_ok hvals)]
      rfl
    refine ⟨{ u' with
        digValid := true, dout := (words.map fun x => s.seen x.toNat).map .val,
        hout := ((List.range 8).map (digestHandle s.blk)).map (·.sub .d) }, ?_, ?_, ?_, ?_, ?_, ?_, ?_, fun _ => ⟨rfl, ?_, ?_⟩⟩
    · simp only [exec, execDigestWord]
      refine runEntry_ok hq ?_
      rw [bind_ok k1, whenDrained_idle (by show (!u.q.isEmpty) = false; rw [x1.q_eq]; rfl)]
      show finishDigest _ { u with dig := u.dig.setIfInBounds i (some (digestHandle s.blk i)) } = _
      rw [← hu', hfin]
    · subst hu'; exact tr _ _ _
    · subst hu'; exact x1.q_eq
    · subst hu'; exact x1.stateReg
    · subst hu'; exact x1.ivUsed
    · subst hu'; simp only [hd]
    · subst hu'; exact w1
    · simp only [List.map_map]; rfl
    · simp only [List.map_map]; rfl

/-! ### Runs of queue entries of one kind -/

/-- A run of `n` steps, one after another, each of which takes `P k` to `P (k + 1)`. -/
theorem run_queue {P : Nat → State → Prop} : ∀ {n : Nat},
    (∀ k < n, ∀ s, P k s → ∃ t, step s = .next t ∧ P (k + 1) t) → ∀ {s : State}, P 0 s → ∃ t, s.after n = some t ∧ P n t
  | 0, _, s, h0 => ⟨s, rfl, h0⟩
  | n + 1, h, s, h0 => by
    obtain ⟨t, a, b⟩ := run_queue (n := n) (fun k hk => h k (by omega)) h0
    obtain ⟨u, c, d⟩ := h n (by omega) t b
    exact ⟨u, State.after_trans a (State.after_one c), d⟩

theorem drop_range {α : Type} (f : Nat → α) {n k : Nat} (h : k < n) :
    ((List.range n).map f).drop k = f k :: ((List.range n).map f).drop (k + 1) := by
  rw [List.drop_eq_getElem_cons (by simpa using h)]
  simp

theorem drop_range_nil {α : Type} (f : Nat → α) {n k : Nat} (h : ((List.range n).map f).drop k = []) : n ≤ k := by
  have := congrArg List.length h
  simp only [List.length_drop, List.length_map, List.length_range, List.length_nil] at this
  omega

/-- The first `k` initial words of `S` are in their bundles and registered. -/
structure InitAt (src : WordSource) (S : ShaState) (g : Nat → Path) (r : Nat → OpRec) (s : State) (k : Nat) (t : State) :
    Prop where
  trail    : Trail s t ((List.range k).map .iv) (7 * k)
    ((List.range k).flatMap fun i => initWordCons (ivPath s.blk i) i (g i) src)
  q        : t.q = ((List.range 8).map fun i => ⟨encode (.initWord src i), r i⟩).drop k
  dig      : t.dig = s.dig
  digValid : t.digValid = s.digValid
  done     : ∀ j < k, handle? t.stateReg j = some (ivPath s.blk j) ∧ handle? t.ivUsed j = some (ivPath s.blk j) ∧
    t.HoldsWord (ivPath s.blk j) (S.words.getD j 0).toNat

theorem initAt_run {src : WordSource} {S : ShaState} {g : Nat → Path} {r : Nat → OpRec} {s : State} (hl : Live s)
    (hq : s.q = (List.range 8).map fun i => ⟨encode (.initWord src i), r i⟩)
    (hf : ∀ i < 8, s.Fresh (ivPath s.blk i))
    (h1 : src = .iv → ∀ i < 8, (S.words.getD i 0).toNat = ivRom i ∧ s.Reads (.fixIv i) (ivRom i))
    (h2 : src = .data → ∀ i < 8, ∃ v, r i = .value v ∧ (s.mode = .witness → v = .known (S.words.getD i 0).toNat))
    (h3 : src = .digest → ∀ i < 8, handle? s.dig i = some (g i) ∧ s.Reads ((g i).cell .d) (S.words.getD i 0).toNat) :
    ∃ t, s.after 8 = some t ∧ InitAt src S g r s 8 t := by
  refine run_queue (P := InitAt src S g r s) ?_ ⟨Trail.refl s hl.accepts, hq, rfl, rfl, fun j hj => by omega⟩
  intro k hk t ht
  have hb := ht.trail.blk
  have hk' := ht.q
  rw [drop_range _ hk] at hk'
  obtain ⟨u, a, tr, q, d1, d2, st, iu, w⟩ := initWord_step (x := S.words.getD k 0) (g := g k) (ht.trail.live hl) hk'
    (by omega) (by
      rw [hb]
      exact ht.trail.fresh _ (by simp) (hf k hk))
    (fun e => ⟨(h1 e k hk).1, by rw [(h1 e k hk).1]; exact ht.trail.reads (h1 e k hk).2⟩)
    (fun e => by rw [ht.trail.mode]; exact h2 e k hk)
    (fun e => by rw [ht.dig]; exact ⟨(h3 e k hk).1, ht.trail.reads (h3 e k hk).2⟩)
    (fun e j hj hne => by
      have := drop_range_nil _ e
      rw [hb]
      exact (ht.done j (by omega)).1)
  rw [hb] at tr st iu w
  refine ⟨u, a, ?_, q, by rw [d1, ht.dig], by rw [d2, ht.digValid], fun j hj => ?_⟩
  · have := ht.trail.trans tr
    simpa only [List.range_succ, List.map_append, List.map_cons, List.map_nil, List.flatMap_append, List.flatMap_cons,
      List.flatMap_nil, List.append_nil, Nat.mul_succ] using this
  · rw [st, iu, handle?_set (by omega), handle?_set (by omega)]
    by_cases e : j = k
    · subst e; simpa using w
    · simpa only [if_neg e] using ⟨(ht.done j (by omega)).1, (ht.done j (by omega)).2.1,
        tr.holdsWord (ht.done j (by omega)).2.2⟩

/-- The first `k` schedule words are in their bundles and registered; `r` what is queued behind. -/
structure SchedAt (ws : List Word32) (s : State) (gs : List Seg) (n : Nat) (ks : List Constraint) (q : List QEntry)
    (k : Nat) (t : State) : Prop where
  trail    : Trail s t gs n ks
  q        : t.q = q
  dig      : t.dig = s.dig
  digValid : t.digValid = s.digValid
  stateReg : t.stateReg = s.stateReg
  ivUsed   : t.ivUsed = s.ivUsed
  done     : ∀ j < k, handle? t.w j = some (wordHandle s.blk j) ∧
    t.HoldsWord (wordHandle s.blk j) (ws.getD j 0).toNat

/-- One more schedule word. -/
theorem SchedAt.snoc {ws : List Word32} {s t u : State} {gs hs : List Seg} {n m : Nat} {ks ls : List Constraint}
    {q q' : List QEntry} {k : Nat} (ht : SchedAt ws s gs n ks q k t) (hk : k < 64) (tr : Trail t u hs m ls)
    (hq : u.q = q') (d1 : u.dig = t.dig) (d2 : u.digValid = t.digValid) (st : u.stateReg = t.stateReg)
    (iu : u.ivUsed = t.ivUsed) (hw : u.w = t.w.setIfInBounds k (some (wordHandle s.blk k)))
    (w : u.HoldsWord (wordHandle s.blk k) (ws.getD k 0).toNat) :
    SchedAt ws s (gs ++ hs) (n + m) (ks ++ ls) q' (k + 1) u where
  trail := ht.trail.trans tr
  q := hq
  dig := by rw [d1, ht.dig]
  digValid := by rw [d2, ht.digValid]
  stateReg := by rw [st, ht.stateReg]
  ivUsed := by rw [iu, ht.ivUsed]
  done := fun j hj => by
    rw [hw, handle?_set hk]
    by_cases e : j = k
    · subst e; simpa using w
    · simpa only [if_neg e] using ⟨(ht.done j (by omega)).1, tr.holdsWord (ht.done j (by omega)).2⟩

theorem flatMap_succ {α β : Type} (l : List α) (x : α) (f : α → List β) :
    l.flatMap f ++ f x = (l ++ [x]).flatMap f := by
  rw [List.flatMap_append, List.flatMap_cons, List.flatMap_nil, List.append_nil]

theorem map_succ {α β : Type} (l : List α) (x : α) (f : α → β) : l.map f ++ [f x] = (l ++ [x]).map f := by
  rw [List.map_append, List.map_cons, List.map_nil]

/-- SCHED_IN 0..15. -/
theorem schedIn_run {ws : List Word32} {v : Nat → Val} {s : State} {rest : List QEntry} (hl : Live s)
    (hq : s.q = ((List.range 16).map fun t => ⟨encode (.schedIn t), .value (v t)⟩) ++ rest)
    (hf : ∀ t < 16, s.Fresh (wordPath s.blk t)) (hv : s.mode = .witness → ∀ t < 16, v t = .known (ws.getD t 0).toNat) :
    ∃ t, s.after 16 = some t ∧ SchedAt ws s ((List.range 16).map .w) 112
      ((List.range 16).flatMap fun t => wordCons (wordPath s.blk t)) rest 16 t := by
  obtain ⟨t, a, ht⟩ := run_queue (n := 16) (P := fun k => SchedAt ws s ((List.range k).map .w) (7 * k)
    ((List.range k).flatMap fun t => wordCons (wordPath s.blk t))
    (((List.range 16).map fun t => ⟨encode (.schedIn t), .value (v t)⟩).drop k ++ rest) k) (fun k hk t ht => by
      have hk' := ht.q
      rw [drop_range _ hk, List.cons_append] at hk'
      have hb := ht.trail.blk
      obtain ⟨u, a, tr, q, d1, d2, st, iu, w1, w⟩ := schedIn_step (x := ws.getD k 0) (ht.trail.live hl) hk' (by omega)
        (by rw [hb]; exact ht.trail.fresh _ (by simp) (hf k hk))
        (fun e => hv (by rwa [ht.trail.mode] at e) k hk)
      rw [hb] at tr w1 w
      have e : wordHandle s.blk k = wordPath s.blk k := if_pos hk
      have := ht.snoc (by omega) tr q d1 d2 st iu (by rw [e]; exact w1) (by rw [e]; exact w)
      refine ⟨u, a, ?_⟩
      rw [map_succ, flatMap_succ, ← List.range_succ] at this
      exact this) ⟨Trail.refl s hl.accepts, hq, rfl, rfl, rfl, rfl, fun j hj => by omega⟩
  exact ⟨t, a, ht⟩

/-- SCHED 16..63 behind them. -/
theorem sched_run {block : List Word32} {s s₀ : State} {gs : List Seg} {n : Nat} {ks : List Constraint}
    {rest : List QEntry} (hl : Live s₀) (hb : block.length = 16)
    (hs : SchedAt (schedule block) s₀ gs n ks (((List.range' 16 48).map fun t => ⟨encode (.sched t), .none⟩) ++ rest)
      16 s) (hg : ∀ t, 16 ≤ t → t < 64 → .w t ∉ gs) (hf : ∀ t < 64, s₀.Fresh (wordPath s₀.blk t)) :
    ∃ t, s.after 48 = some t ∧ SchedAt (schedule block) s₀ (gs ++ (List.range' 16 48).map .w) (n + 3648)
      (ks ++ (List.range' 16 48).flatMap fun t =>
        schedCons (wordHandle s₀.blk (t - 2)) (wordHandle s₀.blk (t - 7)) (wordHandle s₀.blk (t - 15))
          (wordHandle s₀.blk (t - 16)) (wordPath s₀.blk t)) rest 64 t := by
  obtain ⟨t, a, ht⟩ := run_queue (n := 48) (P := fun k => SchedAt (schedule block) s₀
    (gs ++ (List.range' 16 k).map .w) (n + 76 * k)
    (ks ++ (List.range' 16 k).flatMap fun t =>
        schedCons (wordHandle s₀.blk (t - 2)) (wordHandle s₀.blk (t - 7)) (wordHandle s₀.blk (t - 15))
          (wordHandle s₀.blk (t - 16)) (wordPath s₀.blk t))
    (((List.range 48).map fun t => ⟨encode (.sched (16 + t)), .none⟩).drop k ++ rest) (16 + k)) (fun k hk t ht => by
      have hk' := ht.q
      rw [drop_range _ hk, List.cons_append] at hk'
      have hbl := ht.trail.blk
      obtain ⟨u, a, tr, q, d1, d2, st, iu, w1, w⟩ := sched_step (ht.trail.live hl) hk' (by omega) (by omega)
        (by
          rw [hbl]
          refine ht.trail.fresh _ ?_ (hf _ (by omega))
          simp only [List.mem_append, List.mem_map, List.mem_range'_1, not_or, not_exists]
          exact ⟨hg _ (by omega) (by omega), fun x hx => by cases hx.2; omega⟩)
        (ht.done _ (by omega)).1 (ht.done _ (by omega)).1 (ht.done _ (by omega)).1 (ht.done _ (by omega)).1
        (ht.done _ (by omega)).2 (ht.done _ (by omega)).2 (ht.done _ (by omega)).2 (ht.done _ (by omega)).2
      rw [← schedule_next hb (by omega) (by omega)] at w
      rw [hbl] at tr w1 w
      have e : wordHandle s₀.blk (16 + k) = ((wordPath s₀.blk (16 + k)).sub .add).sub .r := if_neg (by omega)
      have := ht.snoc (by omega) tr q d1 d2 st iu (by rw [e]; exact w1) (by rw [e]; exact w)
      refine ⟨u, a, ?_⟩
      rw [List.append_assoc, List.append_assoc, map_succ, flatMap_succ] at this
      rw [List.range'_concat]
      simpa only [one_mul, Nat.mul_succ, Nat.add_assoc] using this) (by
        rw [List.range'_eq_map_range] at hs
        simpa [Function.comp_def] using hs)
  exact ⟨t, a, ht⟩

/-- The first `k` rounds of block `s.blk` from the state `S`. -/
structure RoundAt (ws : List Word32) (S : ShaState) (s : State) (k : Nat) (t : State) : Prop where
  trail    : Trail s t ((List.range k).map .rIx) (142 * k)
    ((List.range k).flatMap fun t => roundCons t (stateHandles s.blk t) (wordHandle s.blk t) (roundPath s.blk t))
  q        : t.q = ((List.range 64).map fun t => ⟨encode (.round t), .none⟩).drop k
  dig      : t.dig = s.dig
  digValid : t.digValid = s.digValid
  ivUsed   : t.ivUsed = s.ivUsed
  w        : t.w = s.w
  stateReg : t.stateReg = (stateHandles s.blk k).toFile
  holds    : HoldsState t (stateHandles s.blk k) (shaRounds ws k S)

/-- ROUND 0..63. -/
theorem round_run {ws : List Word32} {S : ShaState} {s : State} (hl : Live s)
    (hq : s.q = (List.range 64).map fun t => ⟨encode (.round t), .none⟩) (hf : ∀ t < 64, s.Fresh (roundPath s.blk t))
    (hst : s.stateReg = (initHandles s.blk).toFile) (hS : HoldsState s (initHandles s.blk) S)
    (hw : ∀ j < 64, handle? s.w j = some (wordHandle s.blk j) ∧ s.HoldsWord (wordHandle s.blk j) (ws.getD j 0).toNat) :
    ∃ t, s.after 64 = some t ∧ RoundAt ws S s 64 t := by
  refine run_queue (P := RoundAt ws S s) ?_
    ⟨Trail.refl s hl.accepts, hq, rfl, rfl, rfl, rfl, hst, hS⟩
  intro k hk t ht
  have hk' := ht.q
  rw [drop_range _ hk] at hk'
  have hb := ht.trail.blk
  obtain ⟨u, a, tr, q, d1, d2, iu, w, st, hh⟩ := round_step (ht.trail.live hl) hk' (by omega)
    (by rw [hb]; exact ht.trail.fresh _ (by simp) (hf k hk)) ht.stateReg (by rw [ht.w]; exact (hw k hk).1) ht.holds
    (ht.trail.holdsWord (hw k hk).2) (fun _ i hi => by
      rw [ht.w, hb]
      have := (hw i (by omega)).1
      rwa [wordHandle, if_pos hi] at this)
  rw [hb] at tr st hh
  refine ⟨u, a, ?_, q, by rw [d1, ht.dig], by rw [d2, ht.digValid], by rw [iu, ht.ivUsed], by rw [w, ht.w], st, hh⟩
  have := ht.trail.trans tr
  rw [flatMap_succ (f := fun t => roundCons t (stateHandles s.blk t) (wordHandle s.blk t) (roundPath s.blk t)),
    map_succ, ← List.range_succ] at this
  exact this

theorem stateHandles_getElem (b n i : Nat) (hi : i < 8) (d : Path) :
    handle? (stateHandles b n).toFile i = some ((stateHandles b n).toList.getD i d) := by
  interval_cases i <;> rfl

theorem HoldsState.getD {s : State} {H : Handles} {x : ShaState} (h : HoldsState s H x) (i : Nat) (hi : i < 8) (d : Path) :
    s.HoldsWord (H.toList.getD i d) (x.words.getD i 0).toNat := by
  interval_cases i
  · exact h.a
  · exact h.b
  · exact h.c
  · exact h.d
  · exact h.e
  · exact h.f
  · exact h.g
  · exact h.h

/-- The first `k` digest words. -/
structure DigestAt (words : List Word32) (s : State) (k : Nat) (t : State) : Prop where
  trail    : Trail s t ((List.range k).map .dg) (8 * k) ((List.range k).flatMap fun i =>
    modaddCons [(stateHandles s.blk 64).toList.getD i (ivPath s.blk i), ivPath s.blk i] 0 (digestPath s.blk i))
  q        : t.q = ((List.range 8).map fun i => ⟨encode (.digestWord i), .none⟩).drop k
  stateReg : t.stateReg = s.stateReg
  ivUsed   : t.ivUsed = s.ivUsed
  done     : ∀ j < k, handle? t.dig j = some (digestHandle s.blk j) ∧
    t.HoldsWord (digestHandle s.blk j) (words.getD j 0).toNat
  outputs  : k = 8 → t.digValid = true ∧ t.dout = words.map (fun x => .val (s.seen x.toNat)) ∧
    t.hout = (List.range 8).map fun j => (digestHandle s.blk j).sub .d

/-- DIGEST_WORD 0..7. -/
theorem digest_run {S T : ShaState} {s : State} (hl : Live s)
    (hq : s.q = (List.range 8).map fun i => ⟨encode (.digestWord i), .none⟩)
    (hf : ∀ i < 8, s.Fresh (digestPath s.blk i)) (hst : s.stateReg = (stateHandles s.blk 64).toFile)
    (hT : HoldsState s (stateHandles s.blk 64) T)
    (hi : ∀ j < 8, handle? s.ivUsed j = some (ivPath s.blk j) ∧ s.HoldsWord (ivPath s.blk j) (S.words.getD j 0).toNat) :
    ∃ t, s.after 8 = some t ∧ DigestAt (List.zipWith (· + ·) S.words T.words) s 8 t := by
  refine run_queue (P := DigestAt (List.zipWith (· + ·) S.words T.words) s) ?_
    ⟨Trail.refl s hl.accepts, hq, rfl, rfl, fun j hj => by omega, fun h => by omega⟩
  intro k hk t ht
  have hk' := ht.q
  rw [drop_range _ hk] at hk'
  have hb := ht.trail.blk
  have hz : ∀ j < 8, (List.zipWith (· + ·) S.words T.words)[j]? =
      some (T.words.getD j 0 + S.words.getD j 0) := fun j hj => by
    interval_cases j <;> exact congrArg some (BitVec.add_comm _ _)
  have hz' : ∀ j < 8, (List.zipWith (· + ·) S.words T.words).getD j 0 = T.words.getD j 0 + S.words.getD j 0 :=
    fun j hj => by rw [List.getD_eq_getElem?_getD, hz j hj]; rfl
  obtain ⟨u, a, tr, q, st, iu, d, w, o⟩ := digestWord_step (words := List.zipWith (· + ·) S.words T.words)
    (ht.trail.live hl) hk' (by omega)
    (by rw [hb]; exact ht.trail.fresh _ (by simp) (hf k hk))
    (by rw [ht.stateReg, hst]; exact stateHandles_getElem _ _ _ hk (ivPath s.blk k)) (by rw [ht.ivUsed]; exact (hi k hk).1)
    (ht.trail.holdsWord (hT.getD k hk _)) (ht.trail.holdsWord (hi k hk).2) rfl (hz k hk)
    (fun e j hj hne => by
      have := drop_range_nil _ e
      rw [hb]
      refine ⟨(ht.done j (by omega)).1, fun x hx => ?_⟩
      have h := (ht.done j (by omega)).2
      rwa [List.getD_eq_getElem?_getD, hx] at h)
  rw [hb] at tr d w o
  refine ⟨u, a, ?_, q, by rw [st, ht.stateReg], by rw [iu, ht.ivUsed], fun j hj => ?_, fun e => ?_⟩
  · have := ht.trail.trans tr
    rw [flatMap_succ (f := fun i => modaddCons [(stateHandles s.blk 64).toList.getD i (ivPath s.blk i), ivPath s.blk i] 0
      (digestPath s.blk i)), map_succ, ← List.range_succ] at this
    exact this
  · rw [d, handle?_set hk]
    by_cases e : j = k
    · subst e
      rw [hz' j hk]
      simpa using w
    · simpa only [if_neg e] using ⟨(ht.done j (by omega)).1, tr.holdsWord (ht.done j (by omega)).2⟩
  · have e7 : k = 7 := by omega
    subst e7
    have := o (by rfl)
    have hs : ∀ x, t.seen x = s.seen x := fun x => by rw [State.seen, State.seen, ht.trail.mode]
    simpa only [hs] using this

/-! ### Whole commands -/

/-- The state INIT_IV and INIT_FROM leave when they are accepted (46_facade.md R231, R233). -/
def State.begun (s : State) (cmds : List Presented) (q : List QEntry) : State :=
  { s with
    cmds := cmds, blk := s.blk + 1, stateReg := Vector.replicate 8 none, ivUsed := Vector.replicate 8 none,
    w := Vector.replicate 64 none, phase := .state, q := q }

theorem elemItems_ok (ws : List Word32) : (elemItems ws).all DinItem.isElem = true := by
  rw [List.all_eq_true]
  intro x hx
  obtain ⟨w, -, rfl⟩ := List.mem_map.mp hx
  exact (isElem_iff _).mpr ⟨_, word_in_field w, rfl⟩

theorem elemItems_getD (mode : Mode) (ws : List Word32) {i : Nat} (hi : i < ws.length) (h : mode = .witness) :
    dinVal mode ((elemItems ws).getD i (.elem 0)) = .known (ws.getD i 0).toNat := by
  subst h
  simp [elemItems, hi, dinVal]

/-- An accepted INIT command and its eight entries. -/
theorem init_segment {src : WordSource} {S : ShaState} {g : Nat → Path} {s : State} {init : Presented}
    {rest : List Presented} (hw : s.waiting) (hr : s.ready) (p1 : s.phase ≠ .reset) (p2 : s.phase ≠ .conf)
    (hf : s.fresh ⟨s.blk + 1, []⟩ = true) (hc : s.cmds = init :: rest)
    (h2 : src = .data → init = ⟨encode (.initFrom .data), elemItems S.words⟩)
    (h1 : src = .iv → init = ⟨encode .initIv, []⟩ ∧ S.words = (List.range 8).map (fun i => BitVec.ofNat 32 (ivRom i)) ∧
      ∀ i < 8, s.Reads (.fixIv i) (ivRom i))
    (h3 : src = .digest → init = ⟨encode (.initFrom .digest), []⟩ ∧ s.digValid = true ∧
      ∀ i < 8, handle? s.dig i = some (g i) ∧ s.Reads ((g i).cell .d) (S.words.getD i 0).toNat) :
    ∃ q r t, s.after 9 = some t ∧ InitAt src S g r (s.begun rest q) 8 t := by
  have hp := phase_of_init p1 p2
  have fin : ∀ r : Nat → OpRec, step s = .next (s.begun rest ((List.range 8).map fun i => ⟨encode (.initWord src i), r i⟩)) →
      (src = .data → ∀ i < 8, ∃ v, r i = .value v ∧ (s.mode = .witness → v = .known (S.words.getD i 0).toNat)) →
      ∃ q r t, s.after 9 = some t ∧ InitAt src S g r (s.begun rest q) 8 t := by
    intro r hs hd
    obtain ⟨t, a, b⟩ := initAt_run (src := src) (S := S) (g := g) (r := r)
      (s := s.begun rest ((List.range 8).map fun i => ⟨encode (.initWord src i), r i⟩)) ⟨hw.1, hw.2.1, hr.1, hr.2⟩ rfl
      (fun i _ => (fresh_of hf).sub (.iv i))
      (fun e i hi => by
        obtain ⟨-, e1, e2⟩ := h1 e
        refine ⟨?_, e2 i hi⟩
        rw [e1]
        have := ivRom_lt i
        simp [hi]
        exact this)
      hd (fun e i hi => (h3 e).2.2 i hi)
    exact ⟨_, r, t, State.after_trans (State.after_one hs) a, b⟩
  cases src with
  | iv =>
    obtain ⟨e, -, -⟩ := h1 rfl
    subst e
    refine fin (fun _ => .none) ?_ (fun e => by cases e)
    rw [step_command hw hc (decode_encode_of Laws.Encodes.initIv rfl) rfl]
    simp only [exec, execInitIv]
    refine runCommand_ok hc ?_
    rw [bind_ok (checkSequence_ok (by exact hp)), bind_ok (require_ok (ok := List.isEmpty ([] : List DinItem)) _ rfl)]
    rfl
  | data =>
    have e := h2 rfl
    subst e
    refine fin (fun i => .value (dinVal s.mode ((elemItems S.words).getD i (.elem 0)))) ?_ (fun _ i hi =>
      ⟨_, rfl, elemItems_getD _ _ hi⟩)
    rw [step_command hw hc (decode_encode_of (Laws.Encodes.initFrom .data) rfl) rfl]
    simp only [exec, execInitFrom]
    refine runCommand_ok hc ?_
    simp only
    rw [bind_ok (checkSequence_ok (by exact hp)), bind_ok (require_ok _ (by
      simp only [initDinOk, elemItems_ok, Bool.and_true, beq_iff_eq]; rfl)), bind_get]
    simp only [itemEntries_din _ _ (elemItems S.words) 8 rfl]
    rfl
  | digest =>
    obtain ⟨e, hd, -⟩ := h3 rfl
    subst e
    refine fin (fun _ => .none) ?_ (fun e => by cases e)
    rw [step_command hw hc (decode_encode_of (Laws.Encodes.initFrom .digest) rfl) rfl]
    simp only [exec, execInitFrom]
    refine runCommand_ok hc ?_
    simp only
    rw [bind_ok (checkSequence_ok (by simp only [sequenceOk, hp, hd]; rfl)),
      bind_ok (require_ok (ok := initDinOk .digest []) _ rfl), bind_get]
    rfl

/-- An accepted COMPRESS and its 128 entries, from a state whose handles are those of a finished INIT. -/
theorem compress_segment {S : ShaState} {block : List Word32} {s : State} {rest : List Presented} (hw : s.waiting)
    (hl : Live s) (hp : s.phase = .state) (hc : s.cmds = ⟨encode .compress, elemItems block⟩ :: rest)
    (hb : block.length = 16) (f1 : ∀ t < 64, s.Fresh (wordPath s.blk t)) (f2 : ∀ t < 64, s.Fresh (roundPath s.blk t))
    (hst : s.stateReg = (initHandles s.blk).toFile) (hS : HoldsState s (initHandles s.blk) S) :
    ∃ q t gs, s.after 129 = some t ∧ Trail { s with cmds := rest, phase := .done, q := q } t gs 12848 (scheduleCons s.blk ++
        (List.range 64).flatMap fun t => roundCons t (stateHandles s.blk t) (wordHandle s.blk t) (roundPath s.blk t)) ∧
      (∀ i, .dg i ∉ gs) ∧ t.q = [] ∧ t.dig = s.dig ∧ t.digValid = s.digValid ∧ t.ivUsed = s.ivUsed ∧
      t.stateReg = (stateHandles s.blk 64).toFile ∧
      HoldsState t (stateHandles s.blk 64) (shaRounds (schedule block) 64 S) := by
  obtain ⟨q, hq⟩ : ∃ q, q = compressEntries ((elemItems block).map (dinVal s.mode)) := ⟨_, rfl⟩
  have hs : step s = .next { s with cmds := rest, phase := .done, q := q } := by
    rw [step_command hw hc (decode_encode_of Laws.Encodes.compress rfl) rfl]
    simp only [exec, execCompress]
    refine runCommand_ok hc ?_
    simp only
    rw [bind_ok (checkSequence_ok (by simp [sequenceOk, hp])), bind_ok (require_ok _ (by
      simp only [elemItems_ok, Bool.and_true, beq_iff_eq]; simpa [elemItems] using hb)), modify_ok, hq]
  obtain ⟨s₁, h1⟩ : ∃ s₁, s₁ = ({ s with cmds := rest, phase := .done, q := q } : State) := ⟨_, rfl⟩
  have hq1 : s₁.q = ((List.range 16).map fun t =>
      (⟨encode (.schedIn t), .value (dinVal s.mode ((elemItems block).getD t (.elem 0)))⟩ : QEntry)) ++
      (((List.range' 16 48).map fun t => ⟨encode (.sched t), .none⟩) ++
        (List.range 64).map fun t => ⟨encode (.round t), .none⟩) := by
    subst h1
    simp only [hq, compressEntries, itemEntries_din _ _ (elemItems block) 16 (by simpa [elemItems] using hb),
      List.append_assoc]
  have l1 : Live s₁ := by subst h1; exact ⟨hl.1, hl.2, hl.3, hl.4⟩
  have hbl : s₁.blk = s.blk := by subst h1; rfl
  obtain ⟨t₁, a1, b1⟩ := schedIn_run (ws := schedule block) l1 hq1
    (by subst h1; exact fun t ht => f1 t (by omega)) (by
      intro hm t ht
      rw [schedule_block hb ht]
      exact elemItems_getD _ _ (by omega) (by subst h1; exact hm))
  obtain ⟨t₂, a2, b2⟩ := sched_run l1 hb b1 (by simp; omega) (by subst h1; exact f1)
  obtain ⟨t₃, a3, b3⟩ := round_run (ws := schedule block) (S := S) (b2.trail.live l1) b2.q
    (by
      intro t ht
      rw [b2.trail.blk]
      refine b2.trail.fresh _ (by simp) ?_
      subst h1
      exact f2 t ht)
    (by rw [b2.stateReg, b2.trail.blk]; subst h1; exact hst)
    (by
      have : HoldsState s₁ (initHandles s.blk) S := by
        subst h1
        exact ⟨hS.a, hS.b, hS.c, hS.d, hS.e, hS.f, hS.g, hS.h⟩
      rw [b2.trail.blk, hbl]
      exact this.trail b2.trail)
    (by rw [b2.trail.blk]; exact b2.done)
  have hblk := b2.trail.blk
  have tr := b2.trail.trans b3.trail
  have e1 := b3.stateReg
  have e2 := b3.holds
  rw [hblk, hbl] at e1 e2
  rw [hblk] at tr
  refine ⟨q, t₃, ((List.range 16).map .w ++ (List.range' 16 48).map .w) ++ (List.range 64).map .rIx,
    State.after_trans (State.after_one hs) (h1 ▸ State.after_trans a1 (State.after_trans a2 a3)), ?_, ?_,
    b3.q, ?_, ?_, ?_, e1, e2⟩
  · subst h1
    exact tr
  · simp
  · rw [b3.dig, b2.dig]; subst h1; rfl
  · rw [b3.digValid, b2.digValid]; subst h1; rfl
  · rw [b3.ivUsed, b2.ivUsed]; subst h1; rfl

/-- An accepted DIGEST and its eight entries. -/
theorem digest_segment {S T : ShaState} {s : State} {rest : List Presented} (hw : s.waiting) (hl : Live s)
    (hp : s.phase = .done) (hc : s.cmds = ⟨encode .digest, []⟩ :: rest) (hf : ∀ i < 8, s.Fresh (digestPath s.blk i))
    (hst : s.stateReg = (stateHandles s.blk 64).toFile) (hT : HoldsState s (stateHandles s.blk 64) T)
    (hi : ∀ j < 8, handle? s.ivUsed j = some (ivPath s.blk j) ∧ s.HoldsWord (ivPath s.blk j) (S.words.getD j 0).toNat) :
    ∃ q t, s.after 9 = some t ∧
      DigestAt (List.zipWith (· + ·) S.words T.words) { s with cmds := rest, phase := .digested, q := q } 8 t := by
  have hs : step s = .next { s with cmds := rest, phase := .digested, q := digestEntries } := by
    rw [step_command hw hc (decode_encode_of Laws.Encodes.digest rfl) rfl]
    simp only [exec, execDigest]
    refine runCommand_ok hc ?_
    simp only
    rw [bind_ok (checkSequence_ok (by simp [sequenceOk, hp])),
      bind_ok (require_ok (ok := List.isEmpty ([] : List DinItem)) _ rfl)]
    rfl
  obtain ⟨t, a, b⟩ := digest_run (S := S) (T := T) (s := { s with cmds := rest, phase := .digested, q := digestEntries })
    ⟨hl.1, hl.2, hl.3, hl.4⟩ rfl hf hst ⟨hT.a, hT.b, hT.c, hT.d, hT.e, hT.f, hT.g, hT.h⟩ hi
  exact ⟨_, t, State.after_trans (State.after_one hs) a, b⟩

end Sys2Proof.Machine
end

