-- ==== Sys2Proof/Laws/Keeps.lean ====
section
/-!
SUPPORT. Said once: what a step can do to a state. Every computation is built from a few updates (`GateClosed`,
`CommandClosed`); a property closed under them is kept by every operation, every command and every step without a reset.
-/

namespace Sys2Proof.Machine

open Sys2Proof

/-- The updates every operation is built from: fault entry (which leads from `I` to `E` and ends the operation), a boundary
request, a cell written under a fresh name, an instance recorded over existing cells, and the handle registers, outputs
and `DIG_VALID`. -/
structure GateClosed (I E : State → Prop) : Prop where
  fault  : ∀ s cause cmd, cause ≠ .none → I s → E (faultEntry cause cmd s)
  host   : ∀ s rq as, I s → I { s with requests := rq :: s.requests, hostAnswers := as }
  write  : ∀ s c v, I s → s.cell c = none → c.kind ≠ .table → I { s with mem := s.mem.insert c (storedVal s.mode c v) }
  record : ∀ s k, I s → (∀ c ∈ k.cells, s.has c = true) → I { s with cons := s.cons ++ [k], unsat := s.unsatAfter k }
  regs   : ∀ s st iv w dg d h dv, I s →
    I { s with stateReg := st, ivUsed := iv, w := w, dig := dg, dout := d, hout := h, digValid := dv }

/-- The further updates of a command and of taking the head of Q. -/
structure CommandClosed (I E : State → Prop) : Prop extends GateClosed I E where
  queue  : ∀ s q, I s → I { s with q := q }
  accept : ∀ s cmds, I s → I { s with cmds := cmds }
  phase  : ∀ s ph, I s → I { s with phase := ph }
  block  : ∀ s b, I s → I { s with blk := b }
  config : ∀ s cfg, I s → I { s with config := cfg }
  table  : ∀ s tab, I s → I { s with table := tab }
  load   : ∀ s n, I s → s.mem.tabCells = 0 → n ≤ tableCells → I { s with mem := { s.mem with tabCells := n } }

/-- How a computation ends: in `I` when it succeeds, in `E` after a fault of the block. -/
def Ends (I E : State → Prop) {α : Type} : EStateM.Result Stop State α → Prop
  | .ok _ t => I t
  | .error .raised t => E t
  | .error (.stuck _) _ => True

/-- From a state of `I` the computation ends in `I`, or in `E` after a fault. -/
def Keeps (I E : State → Prop) {α : Type} (m : M α) : Prop := ∀ s, I s → Ends I E (m s)

variable {I E : State → Prop}

theorem Keeps.pure {α : Type} (a : α) : Keeps I E (pure a : M α) := fun _ h => h

theorem Keeps.bind {α β : Type} {m : M α} {f : α → M β} (hm : Keeps I E m) (hf : ∀ a, Keeps I E (f a)) :
    Keeps I E (m >>= f) := by
  intro s h
  have h1 := hm s h
  show Ends I E (EStateM.bind m f s)
  unfold EStateM.bind
  cases hms : m s with
  | ok a t => rw [hms] at h1; exact hf a t h1
  | error e t => rw [hms] at h1; cases e <;> exact h1

theorem Keeps.map {α β : Type} {m : M α} (g : α → β) (hm : Keeps I E m) : Keeps I E (g <$> m) := by
  intro s h
  have h1 := hm s h
  show Ends I E (EStateM.map g m s)
  unfold EStateM.map
  cases hms : m s with
  | ok a t => rw [hms] at h1; exact h1
  | error e t => rw [hms] at h1; cases e <;> exact h1

theorem Keeps.get : Keeps I E (get : M State) := fun _ h => h

theorem Keeps.modify {g : State → State} (hg : ∀ s, I s → I (g s)) : Keeps I E (modify g : M PUnit) :=
  fun s h => hg s h

theorem Keeps.raise {α : Type} (hI : GateClosed I E) {cause : FaultCause} (hc : cause ≠ .none) (cmd : CmdWord) :
    Keeps I E (raise cause cmd : M α) := fun s h => hI.fault s cause cmd hc h

theorem Keeps.stuck {α : Type} (f : Fault) : Keeps I E (stuck f : M α) := fun _ _ => trivial

theorem Keeps.require (hI : GateClosed I E) (ok : Bool) {cause : FaultCause} (hc : cause ≠ .none) (cmd : CmdWord) :
    Keeps I E (require ok cause cmd) := by
  unfold Machine.require
  split
  · exact Keeps.pure ()
  · exact Keeps.raise hI hc cmd

theorem Keeps.request (hI : GateClosed I E) (rq : Request) {cause : FaultCause} (hc : cause ≠ .none) (cmd : CmdWord) :
    Keeps I E (request rq cause cmd) := by
  intro s h
  unfold Machine.request
  rcases ha : s.hostAnswers with _ | ⟨_ | _, rest⟩
  · exact hI.host s rq [] h
  · exact hI.fault _ cause cmd hc (hI.host s rq rest h)
  · exact hI.host s rq rest h

theorem Keeps.memRead (hI : GateClosed I E) (cmd : CmdWord) (c : CellName) : Keeps I E (memRead cmd c) := by
  intro s h
  unfold Machine.memRead
  cases s.cell c with
  | some v => exact h
  | none => exact hI.fault s _ cmd (by decide) h

theorem Keeps.readHandle (hI : GateClosed I E) {n : Nat} (cmd : CmdWord) (file : State → Vector (Option Path) n) (i : Nat) :
    Keeps I E (readHandle cmd file i) := by
  intro s h
  unfold Machine.readHandle
  cases handle? (file s) i with
  | some v => exact h
  | none => exact hI.fault s _ cmd (by decide) h

theorem Keeps.memWrite (hI : GateClosed I E) (cmd : CmdWord) (b : Bool) (c : CellName) (v : Val) :
    Keeps I E (memWrite cmd b c v) := by
  intro s h
  unfold Machine.memWrite
  cases hc : s.cell c with
  | some w => exact hI.fault s _ cmd (by decide) h
  | none =>
    simp only
    split
    · exact hI.fault s _ cmd (by decide) h
    · rename_i hk
      have hkind : c.kind ≠ .table := by
        intro e
        simp [e] at hk
      have ho : ∀ rq as, ({ s with requests := rq, hostAnswers := as } : State).cell c = none := fun _ _ => hc
      unfold Machine.request
      rcases ha : s.hostAnswers with _ | ⟨_ | _, rest⟩
      · exact hI.write _ c v (hI.host s (.assign c.column c v) [] h) (ho _ _) hkind
      · exact hI.fault _ _ cmd (by decide) (hI.host s _ rest h)
      · exact hI.write _ c v (hI.host s (.assign c.column c v) rest h) (ho _ _) hkind

theorem Keeps.assign (hI : GateClosed I E) (cmd : CmdWord) (c : CellName) (v : Val) : Keeps I E (assign cmd c v) :=
  Keeps.memWrite hI cmd false c v

theorem Keeps.record (hI : GateClosed I E) (cmd : CmdWord) (k : Constraint) : Keeps I E (record cmd k) := by
  intro s h
  unfold Machine.record
  split
  · rename_i hc
    split
    · exact hI.record s k h (List.all_eq_true.mp hc)
    · exact trivial
  · exact hI.fault s _ cmd (by decide) h

/-! ### Readers -/

theorem Keeps.lookupInput (hI : GateClosed I E) (cmd : CmdWord) (e : Nat) (d : CellName) :
    Keeps I E (lookupInput cmd e d) := by
  intro s h
  unfold Machine.lookupInput
  cases s.mode with
  | shape => exact h
  | witness => exact Keeps.map _ (Keeps.memRead hI cmd d) s h

theorem Keeps.readTerms (hI : GateClosed I E) (cmd : CmdWord) : ∀ ts, Keeps I E (readTerms cmd ts)
  | [] => Keeps.pure _
  | (_, y) :: ts => by
    unfold Machine.readTerms
    refine Keeps.bind (Keeps.memRead hI cmd y) fun v => Keeps.bind (Keeps.readTerms hI cmd ts) fun r => ?_
    split <;> exact Keeps.pure _

theorem Keeps.readWords (hI : GateClosed I E) (cmd : CmdWord) : ∀ ys, Keeps I E (readWords cmd ys)
  | [] => Keeps.pure _
  | y :: ys => by
    unfold Machine.readWords
    refine Keeps.bind (Keeps.memRead hI cmd _) fun v => Keeps.bind (Keeps.readWords hI cmd ys) fun r => ?_
    split <;> exact Keeps.pure _

theorem Keeps.readAll (hI : GateClosed I E) (cmd : CmdWord) : ∀ cs, Keeps I E (readAll cmd cs)
  | [] => Keeps.pure _
  | c :: cs => Keeps.bind (Keeps.memRead hI cmd c) fun _ => Keeps.bind (Keeps.readAll hI cmd cs) fun _ => Keeps.pure _

theorem Keeps.readHandles (hI : GateClosed I E) {n : Nat} (cmd : CmdWord) (file : State → Vector (Option Path) n) :
    ∀ is, Keeps I E (readHandles cmd file is)
  | [] => Keeps.pure _
  | i :: is => Keeps.bind (Keeps.readHandle hI cmd file i) fun _ =>
      Keeps.bind (Keeps.readHandles hI cmd file is) fun _ => Keeps.pure _

/-! ### Operations -/

theorem Keeps.opLookup (hI : GateClosed I E) (e : Nat) (d t sp : CellName) : Keeps I E (opLookup e d t sp) :=
  Keeps.bind Keeps.get fun _ => Keeps.bind (Keeps.lookupInput hI _ e d) fun _ =>
    Keeps.bind (Keeps.assign hI _ _ _) fun _ => Keeps.bind (Keeps.assign hI _ _ _) fun _ => Keeps.record hI _ _

theorem Keeps.opRange (hI : GateClosed I E) (w : Nat) (d : CellName) (p : Path) : Keeps I E (opRange w d p) := by
  refine Keeps.bind (Keeps.opLookup hI _ _ _ _) fun _ => ?_
  split
  · exact Keeps.opLookup hI _ _ _ _
  · exact Keeps.pure _

theorem Keeps.opRecomb (hI : GateClosed I E) (d lo hi : CellName) : Keeps I E (opRecomb d lo hi) := Keeps.record hI _ _

theorem Keeps.opWord (hI : GateClosed I E) (p : Path) (v : Val) : Keeps I E (opWord p v) :=
  Keeps.bind Keeps.get fun _ => Keeps.bind (Keeps.assign hI _ _ _) fun _ => Keeps.bind (Keeps.assign hI _ _ _) fun _ =>
    Keeps.bind (Keeps.assign hI _ _ _) fun _ => Keeps.bind (Keeps.opRecomb hI _ _ _) fun _ =>
      Keeps.bind (Keeps.opLookup hI _ _ _ _) fun _ => Keeps.opLookup hI _ _ _ _

theorem Keeps.opPieces (hI : GateClosed I E) (cmd : CmdWord) (v : Val) (p : Path) :
    ∀ i l, Keeps I E (opPieces cmd v p i l)
  | _, [] => Keeps.pure _
  | i, _ :: rest => Keeps.bind (Keeps.assign hI _ _ _) fun _ => Keeps.bind (Keeps.opRange hI _ _ _) fun _ =>
      Keeps.opPieces hI cmd v p (i + 1) rest

theorem Keeps.opDecomp (hI : GateClosed I E) (l : Layout) (x p : Path) : Keeps I E (opDecomp l x p) :=
  Keeps.bind (Keeps.memRead hI _ _) fun _ => Keeps.bind (Keeps.opPieces hI _ _ _ _ _) fun _ => Keeps.record hI _ _

theorem Keeps.opExtract (hI : GateClosed I E) (k : Nat) (ops : List OperandExpr) (p : Path) :
    Keeps I E (opExtract k ops p) :=
  Keeps.bind (Keeps.require hI _ (by decide) _) fun _ => Keeps.bind Keeps.get fun _ => Keeps.bind (Keeps.readTerms hI _ _) fun _ =>
    Keeps.bind (Keeps.opWord hI _ _) fun _ => Keeps.bind (Keeps.opWord hI _ _) fun _ => Keeps.record hI _ _

theorem Keeps.opCarry (hI : GateClosed I E) (m : Nat) (c : CellName) : Keeps I E (opCarry m c) := Keeps.record hI _ _

theorem Keeps.opModadd (hI : GateClosed I E) (n : Nat) (ys : List Path) (k : Nat) (p : Path) :
    Keeps I E (opModadd n ys k p) :=
  Keeps.bind (Keeps.require hI _ (by decide) _) fun _ => Keeps.bind (Keeps.readWords hI _ _) fun _ =>
    Keeps.bind (Keeps.opWord hI _ _) fun _ => Keeps.bind (Keeps.assign hI _ _ _) fun _ =>
      Keeps.bind (Keeps.record hI _ _) fun _ => Keeps.opCarry hI _ _

theorem Keeps.opCopy (hI : GateClosed I E) (a b : CellName) : Keeps I E (opCopy a b) :=
  Keeps.bind (Keeps.require hI _ (by decide) _) fun _ => Keeps.bind (Keeps.request hI _ (by decide) _) fun _ => Keeps.record hI _ _

theorem Keeps.opRotations (hI : GateClosed I E) (l : Layout) (x p : Path) : Keeps I E (opRotations l x p) :=
  Keeps.bind (Keeps.opDecomp hI _ _ _) fun _ => Keeps.opExtract hI _ _ _

theorem Keeps.opCh (hI : GateClosed I E) (e f g p : Path) : Keeps I E (opCh e f g p) :=
  Keeps.bind (Keeps.opExtract hI _ _ _) fun _ => Keeps.opExtract hI _ _ _

theorem Keeps.opMaj (hI : GateClosed I E) (a b c p : Path) : Keeps I E (opMaj a b c p) := Keeps.opExtract hI _ _ _

theorem Keeps.setOutputs (hI : GateClosed I E) (d : List DoutItem) (h : List Path) : Keeps I E (setOutputs d h) :=
  fun s hs => hI.regs s s.stateReg s.ivUsed s.w s.dig d h s.digValid hs

theorem Keeps.opSchedIn (hI : GateClosed I E) (t : Nat) (v : Val) : Keeps I E (opSchedIn t v) :=
  Keeps.bind Keeps.get fun _ => Keeps.bind (Keeps.opWord hI _ _) fun _ =>
    Keeps.modify fun s hs => hI.regs s s.stateReg s.ivUsed _ s.dig s.dout s.hout s.digValid hs

theorem Keeps.opSched (hI : GateClosed I E) (t : Nat) : Keeps I E (opSched t) :=
  Keeps.bind Keeps.get fun _ => Keeps.bind (Keeps.readHandle hI _ _ _) fun _ =>
    Keeps.bind (Keeps.opRotations hI _ _ _) fun _ => Keeps.bind (Keeps.readHandle hI _ _ _) fun _ =>
      Keeps.bind (Keeps.opRotations hI _ _ _) fun _ => Keeps.bind (Keeps.readHandle hI _ _ _) fun _ =>
        Keeps.bind (Keeps.readHandle hI _ _ _) fun _ => Keeps.bind (Keeps.opModadd hI _ _ _ _) fun _ =>
          Keeps.modify fun s hs => hI.regs s s.stateReg s.ivUsed _ s.dig s.dout s.hout s.digValid hs

theorem Keeps.opRound (hI : GateClosed I E) (t : Nat) : Keeps I E (opRound t) := by
  have rd := fun i => Keeps.readHandle hI (encode (.round t)) State.stateReg i
  exact Keeps.bind Keeps.get fun _ => Keeps.bind (rd 0) fun _ => Keeps.bind (rd 1) fun _ => Keeps.bind (rd 2) fun _ =>
    Keeps.bind (rd 3) fun _ => Keeps.bind (rd 4) fun _ => Keeps.bind (rd 5) fun _ => Keeps.bind (rd 6) fun _ =>
    Keeps.bind (rd 7) fun _ => Keeps.bind (Keeps.opRotations hI _ _ _) fun _ => Keeps.bind (Keeps.opCh hI _ _ _ _) fun _ =>
    Keeps.bind (Keeps.readHandle hI _ _ _) fun _ => Keeps.bind (Keeps.opModadd hI _ _ _ _) fun _ =>
    Keeps.bind (Keeps.opRotations hI _ _ _) fun _ => Keeps.bind (Keeps.opMaj hI _ _ _ _) fun _ =>
    Keeps.bind (Keeps.opModadd hI _ _ _ _) fun _ => Keeps.bind (Keeps.opModadd hI _ _ _ _) fun _ =>
    Keeps.bind (Keeps.opModadd hI _ _ _ _) fun _ =>
    Keeps.modify fun s hs => hI.regs s _ s.ivUsed s.w s.dig s.dout s.hout s.digValid hs

theorem Keeps.opInitWord (hI : GateClosed I E) (src : WordSource) (i : Nat) (r : OpRec) : Keeps I E (opInitWord src i r) := by
  refine Keeps.bind Keeps.get fun st => Keeps.bind ?_ fun _ =>
    Keeps.modify fun s hs => hI.regs s _ _ s.w s.dig s.dout s.hout s.digValid hs
  cases src with
  | iv => exact Keeps.bind (Keeps.opWord hI _ _) fun _ => Keeps.opCopy hI _ _
  | data =>
    simp only [initBundle]
    split
    · exact Keeps.opWord hI _ _
    · exact Keeps.stuck _
  | digest =>
    exact Keeps.bind (Keeps.readHandle hI _ _ _) fun _ => Keeps.bind (Keeps.memRead hI _ _) fun _ =>
      Keeps.bind (Keeps.opWord hI _ _) fun _ => Keeps.opCopy hI _ _

theorem Keeps.opDigestWord (hI : GateClosed I E) (i : Nat) : Keeps I E (opDigestWord i) :=
  Keeps.bind Keeps.get fun _ => Keeps.bind (Keeps.readHandle hI _ _ _) fun _ =>
    Keeps.bind (Keeps.readHandle hI _ _ _) fun _ => Keeps.bind (Keeps.opModadd hI _ _ _ _) fun _ =>
      Keeps.modify fun s hs => hI.regs s s.stateReg s.ivUsed s.w _ s.dout s.hout s.digValid hs

theorem Keeps.whenDrained {m : M Unit} (hm : Keeps I E m) : Keeps I E (whenDrained m) := by
  intro s h
  unfold Machine.whenDrained
  split
  · exact h
  · exact hm s h

theorem Keeps.finishInit (hI : GateClosed I E) (cmd : CmdWord) : Keeps I E (finishInit cmd) :=
  Keeps.bind (Keeps.readHandles hI _ _ _) fun _ => Keeps.setOutputs hI _ _

theorem Keeps.finishCompress (hI : GateClosed I E) (cmd : CmdWord) : Keeps I E (finishCompress cmd) :=
  Keeps.bind (Keeps.readHandles hI _ _ _) fun _ => Keeps.bind (Keeps.readAll hI _ _) fun _ =>
    Keeps.bind (Keeps.readHandles hI _ _ _) fun _ => Keeps.setOutputs hI _ _

theorem Keeps.finishDigest (hI : GateClosed I E) (cmd : CmdWord) : Keeps I E (finishDigest cmd) :=
  Keeps.bind (Keeps.readHandles hI _ _ _) fun _ => Keeps.bind (Keeps.readAll hI _ _) fun _ =>
    Keeps.bind (Keeps.modify fun s hs => hI.regs s s.stateReg s.ivUsed s.w s.dig s.dout s.hout true hs) fun _ =>
      Keeps.setOutputs hI _ _

/-! ### What an instruction leaves -/

theorem Keeps.toOutcome {α : Type} {m : M α} (hm : Keeps I E m) {s t : State} (h : I s) (e : toOutcome m s = .next t) :
    I t ∨ E t := by
  have h1 := hm s h
  unfold Machine.toOutcome at e
  rcases hms : m s with ⟨a, u⟩ | ⟨⟨⟩ | f, u⟩ <;> rw [hms] at e h1
  · injection e with e; exact Or.inl (e ▸ h1)
  · injection e with e; exact Or.inr (e ▸ h1)
  · cases e

theorem Keeps.runEntry {body : OpRec → M Unit} (hm : ∀ r, Keeps I E (body r)) {s t : State}
    (h : I { s with q := s.q.tail }) (e : runEntry s body = .next t) : I t ∨ E t := by
  unfold Machine.runEntry at e
  cases hq : s.q with
  | nil =>
    rw [hq] at e h
    have hs : I s := by
      have : ({ s with q := [].tail } : State) = s := by rw [List.tail_nil, ← hq]
      rw [← this]; exact h
    exact (hm _).toOutcome hs e
  | cons a rest =>
    rw [hq] at e h
    exact (hm _).toOutcome h e

theorem Keeps.runCommand {body : List DinItem → M Unit} (hI : CommandClosed I E) (hm : ∀ d, Keeps I E (body d))
    {s t : State} (h : I s) (e : runCommand s body = .next t) : I t ∨ E t := by
  unfold Machine.runCommand at e
  cases hc : s.cmds with
  | nil => rw [hc] at e; exact (hm _).toOutcome h e
  | cons c rest => rw [hc] at e; exact (hm _).toOutcome (hI.accept s rest h) e

/-- An internal operation keeps what is closed under the updates of operations, once its entry has left Q. -/
theorem exec_internal_keeps (hI : GateClosed I E) {i : Instr} (hi : i.fromHost = false) {s t : State}
    (h : I { s with q := s.q.tail }) (e : exec i s = .next t) : I t ∨ E t := by
  cases i with
  | schedIn t =>
    simp only [exec, execSchedIn] at e
    refine Keeps.runEntry (fun r => ?_) h e
    split <;> first | exact Keeps.opSchedIn hI _ _ | exact Keeps.stuck _
  | sched t => exact Keeps.runEntry (fun r => Keeps.opSched hI t) h e
  | round t =>
    exact Keeps.runEntry (fun r => Keeps.bind (Keeps.opRound hI t) fun _ => Keeps.whenDrained (Keeps.finishCompress hI _)) h e
  | initWord src j =>
    exact Keeps.runEntry (fun r => Keeps.bind (Keeps.opInitWord hI src j r) fun _ =>
      Keeps.whenDrained (Keeps.finishInit hI _)) h e
  | digestWord j =>
    exact Keeps.runEntry (fun r => Keeps.bind (Keeps.opDigestWord hI j) fun _ =>
      Keeps.whenDrained (Keeps.finishDigest hI _)) h e
  | ssig0 =>
    simp only [exec, execSsig0] at e
    refine Keeps.runEntry (fun r => ?_) h e
    split <;> first | exact Keeps.opRotations hI _ _ _ | exact Keeps.stuck _
  | ssig1 =>
    simp only [exec, execSsig1] at e
    refine Keeps.runEntry (fun r => ?_) h e
    split <;> first | exact Keeps.opRotations hI _ _ _ | exact Keeps.stuck _
  | bsig0 =>
    simp only [exec, execBsig0] at e
    refine Keeps.runEntry (fun r => ?_) h e
    split <;> first | exact Keeps.opRotations hI _ _ _ | exact Keeps.stuck _
  | bsig1 =>
    simp only [exec, execBsig1] at e
    refine Keeps.runEntry (fun r => ?_) h e
    split <;> first | exact Keeps.opRotations hI _ _ _ | exact Keeps.stuck _
  | ch =>
    simp only [exec, execCh] at e
    refine Keeps.runEntry (fun r => ?_) h e
    split <;> first | exact Keeps.opCh hI _ _ _ _ | exact Keeps.stuck _
  | maj =>
    simp only [exec, execMaj] at e
    refine Keeps.runEntry (fun r => ?_) h e
    split <;> first | exact Keeps.opMaj hI _ _ _ _ | exact Keeps.stuck _
  | word =>
    simp only [exec, execWord] at e
    refine Keeps.runEntry (fun r => ?_) h e
    split <;> first | exact Keeps.opWord hI _ _ | exact Keeps.stuck _
  | recomb =>
    simp only [exec, execRecomb] at e
    refine Keeps.runEntry (fun r => ?_) h e
    split <;> first | exact Keeps.opRecomb hI _ _ _ | exact Keeps.stuck _
  | lookup n =>
    simp only [exec, execLookup] at e
    refine Keeps.runEntry (fun r => ?_) h e
    split <;> first | exact Keeps.opLookup hI _ _ _ _ | exact Keeps.stuck _
  | range w =>
    simp only [exec, execRange] at e
    refine Keeps.runEntry (fun r => ?_) h e
    split <;> first | exact Keeps.opRange hI _ _ _ | exact Keeps.stuck _
  | decomp l =>
    simp only [exec, execDecomp] at e
    refine Keeps.runEntry (fun r => ?_) h e
    split <;> first | exact Keeps.opDecomp hI _ _ _ | exact Keeps.stuck _
  | extract k =>
    simp only [exec, execExtract] at e
    refine Keeps.runEntry (fun r => ?_) h e
    split <;> first | exact Keeps.opExtract hI _ _ _ | exact Keeps.stuck _
  | modadd n =>
    simp only [exec, execModadd] at e
    refine Keeps.runEntry (fun r => ?_) h e
    split <;> first | exact Keeps.opModadd hI _ _ _ _ | exact Keeps.stuck _
  | carry m =>
    simp only [exec, execCarry] at e
    refine Keeps.runEntry (fun r => ?_) h e
    split <;> first | exact Keeps.opCarry hI _ _ | exact Keeps.stuck _
  | copy =>
    simp only [exec, execCopy] at e
    refine Keeps.runEntry (fun r => ?_) h e
    split <;> first | exact Keeps.opCopy hI _ _ | exact Keeps.stuck _
  | configure => cases hi
  | load => cases hi
  | initIv => cases hi
  | initFrom src => cases hi
  | compress => cases hi
  | digest => cases hi
  | bitsOf n => cases hi
  | intOf => cases hi
  | spread => cases hi

theorem Keeps.checkSequence (hI : GateClosed I E) (i : Instr) : Keeps I E (checkSequence i) :=
  fun s h => Keeps.require hI (sequenceOk i s) (by decide) (encode i) s h

theorem Keeps.seqAll : ∀ {ms : List (M Unit)}, (∀ m ∈ ms, Keeps I E m) → Keeps I E (seqAll ms)
  | [], _ => Keeps.pure _
  | m :: _, h => Keeps.bind (h m (by simp)) fun _ => Keeps.seqAll fun m' hm => h m' (List.mem_cons_of_mem _ hm)

theorem takeAnswers_le : ∀ (as : List Bool) (n : Nat), (takeAnswers as n).1 ≤ n
  | _, 0 => by simp [takeAnswers]
  | [], _ + 1 => Nat.le_refl _
  | true :: as, n + 1 => Nat.succ_le_succ (takeAnswers_le as n)
  | false :: _, n + 1 => Nat.zero_le _

theorem Keeps.loadTable (hI : CommandClosed I E) (cmd : CmdWord) : Keeps I E (loadTable cmd) := by
  intro s h
  unfold Machine.loadTable
  split
  · rename_i h0
    have hle := takeAnswers_le s.hostAnswers tableCells
    rcases ht : takeAnswers s.hostAnswers tableCells with ⟨n, _ | _, rest⟩ <;> rw [ht] at hle
    · exact hI.host _ _ rest (hI.load s n h (by simpa using h0) hle)
    · exact hI.fault _ _ cmd (by decide) (hI.host _ _ rest (hI.load s n h (by simpa using h0) hle))
  · exact hI.fault s _ cmd (by decide) h

theorem Keeps.beginBlock (hI : CommandClosed I E) (q : List QEntry) : Keeps I E (beginBlock q) :=
  Keeps.modify fun s h => hI.queue _ q (hI.phase _ .state (hI.block _ (s.blk + 1)
    (hI.regs s (Vector.replicate 8 none) (Vector.replicate 8 none) (Vector.replicate 64 none) s.dig s.dout s.hout
      s.digValid h)))

theorem Keeps.setDout (hI : GateClosed I E) (d : DoutItem) : Keeps I E (setDout d) := Keeps.setOutputs hI _ _

theorem Keeps.opBitsOf (hI : GateClosed I E) (n : Width) : ∀ v, Keeps I E (opBitsOf n v)
  | .known _ => Keeps.bind (Keeps.require hI _ (by decide) _) fun _ => Keeps.setDout hI _
  | .unknown => Keeps.setDout hI _

/-- A command keeps what is closed under every update. -/
theorem exec_command_keeps (hI : CommandClosed I E) {i : Instr} (hi : i.fromHost = true) {s t : State} (h : I s)
    (e : exec i s = .next t) : I t ∨ E t := by
  have hG := hI.toGateClosed
  cases i with
  | configure =>
    simp only [exec, execConfigure] at e
    refine Keeps.runCommand hI (fun d => Keeps.bind (Keeps.checkSequence hG _) fun _ =>
      Keeps.bind (Keeps.require hG _ (by decide) _) fun _ => Keeps.bind (Keeps.seqAll fun m hm => ?_) fun _ =>
      Keeps.bind (Keeps.modify fun s hs => hI.config s _ hs) fun _ => Keeps.bind (Keeps.seqAll fun m hm => ?_) fun _ =>
      Keeps.bind (Keeps.seqAll fun m hm => ?_) fun _ => Keeps.bind (Keeps.modify fun s hs => hI.phase s _ hs) fun _ =>
      Keeps.setOutputs hG _ _) h e
    · obtain ⟨rq, -, rfl⟩ := List.mem_map.mp hm
      exact Keeps.request hG _ (by decide) _
    · obtain ⟨rq, -, rfl⟩ := List.mem_map.mp hm
      exact Keeps.memWrite hG _ _ _ _
    · obtain ⟨rq, -, rfl⟩ := List.mem_map.mp hm
      exact Keeps.memWrite hG _ _ _ _
  | load =>
    simp only [exec, execLoad] at e
    refine Keeps.runCommand hI (fun d => Keeps.bind (Keeps.checkSequence hG _) fun _ =>
      Keeps.bind (Keeps.require hG _ (by decide) _) fun _ => Keeps.bind (Keeps.loadTable hI _) fun _ =>
      Keeps.bind (Keeps.modify fun s hs => hI.phase _ .ready (hI.table s .loaded hs)) fun _ => Keeps.setOutputs hG _ _) h e
  | initIv =>
    simp only [exec, execInitIv] at e
    refine Keeps.runCommand hI (fun d => Keeps.bind (Keeps.checkSequence hG _) fun _ =>
      Keeps.bind (Keeps.require hG _ (by decide) _) fun _ => Keeps.beginBlock hI _) h e
  | initFrom src =>
    simp only [exec, execInitFrom] at e
    refine Keeps.runCommand hI (fun d => Keeps.bind (Keeps.checkSequence hG _) fun _ =>
      Keeps.bind (Keeps.require hG _ (by decide) _) fun _ => Keeps.bind Keeps.get fun _ => Keeps.beginBlock hI _) h e
  | compress =>
    simp only [exec, execCompress] at e
    refine Keeps.runCommand hI (fun d => Keeps.bind (Keeps.checkSequence hG _) fun _ =>
      Keeps.bind (Keeps.require hG _ (by decide) _) fun _ =>
      Keeps.modify fun s hs => hI.queue _ (compressEntries (d.map (dinVal s.mode))) (hI.phase s .done hs)) h e
  | digest =>
    simp only [exec, execDigest] at e
    refine Keeps.runCommand hI (fun d => Keeps.bind (Keeps.checkSequence hG _) fun _ =>
      Keeps.bind (Keeps.require hG _ (by decide) _) fun _ =>
      Keeps.modify fun s hs => hI.queue _ digestEntries (hI.phase s .digested hs)) h e
  | bitsOf n =>
    simp only [exec, execBitsOf] at e
    refine Keeps.runCommand hI (fun d => ?_) h e
    split
    · exact Keeps.bind (Keeps.require hG _ (by decide) _) fun _ => Keeps.bind Keeps.get fun _ => Keeps.opBitsOf hG _ _
    · exact Keeps.raise hG (by decide) _
  | intOf =>
    simp only [exec, execIntOf] at e
    refine Keeps.runCommand hI (fun d => ?_) h e
    split
    · exact Keeps.bind (Keeps.require hG _ (by decide) _) fun _ => Keeps.setDout hG _
    · exact Keeps.raise hG (by decide) _
  | spread =>
    simp only [exec, execSpread] at e
    refine Keeps.runCommand hI (fun d => ?_) h e
    split
    · exact Keeps.setDout hG _
    · exact Keeps.raise hG (by decide) _
  | schedIn t => cases hi
  | sched t => cases hi
  | round t => cases hi
  | initWord src j => cases hi
  | digestWord j => cases hi
  | ssig0 => cases hi
  | ssig1 => cases hi
  | bsig0 => cases hi
  | bsig1 => cases hi
  | ch => cases hi
  | maj => cases hi
  | word => cases hi
  | recomb => cases hi
  | lookup n => cases hi
  | range w => cases hi
  | decomp l => cases hi
  | extract k => cases hi
  | modadd n => cases hi
  | carry m => cases hi
  | copy => cases hi

/-! ### What a step does -/

/-- The ways a step without a reset answers a next state. -/
theorem step_cases {s t : State} (hr : s.resetIn = false) (h : step s = .next t) :
    (∃ e rest i, s.q = e :: rest ∧ decode e.word = .ok i ∧ i.fromHost = false ∧ exec i s = .next t) ∨
    (s.q = [] ∧ ∃ c rest i, s.cmds = c :: rest ∧ decode c.word = .ok i ∧ i.fromHost = true ∧ exec i s = .next t) ∨
    (s.q = [] ∧ ∃ c rest, s.cmds = c :: rest ∧ t = illegalCommand c.word rest s) ∨
    (s.q = [] ∧ s.cmds = [] ∧ t = s) := by
  unfold step fetch at h
  rw [hr] at h
  simp only [Bool.false_eq_true, if_false] at h
  cases hh : s.halted with
  | true => rw [hh] at h; simp at h
  | false =>
    rw [hh] at h
    simp only [Bool.false_eq_true, if_false] at h
    cases hq : s.q with
    | cons e rest =>
      rw [hq] at h
      simp only at h
      cases hd : decode e.word with
      | error x => rw [hd] at h; cases h
      | ok i =>
        rw [hd] at h
        simp only at h
        cases hf : i.fromHost with
        | true => rw [hf] at h; simp at h
        | false =>
          rw [hf] at h
          exact Or.inl ⟨e, rest, i, rfl, hd, hf, h⟩
    | nil =>
      rw [hq] at h
      simp only at h
      cases hc : s.cmds with
      | nil =>
        rw [hc] at h
        injection h with h
        exact Or.inr (Or.inr (Or.inr ⟨rfl, rfl, h.symm⟩))
      | cons c rest =>
        rw [hc] at h
        simp only at h
        cases hd : decode c.word with
        | error x =>
          rw [hd] at h
          injection h with h
          exact Or.inr (Or.inr (Or.inl ⟨rfl, c, rest, rfl, h.symm⟩))
        | ok i =>
          rw [hd] at h
          simp only at h
          cases hf : i.fromHost with
          | true =>
            rw [hf] at h
            exact Or.inr (Or.inl ⟨rfl, c, rest, i, rfl, hd, hf, h⟩)
          | false =>
            rw [hf] at h
            injection h with h
            exact Or.inr (Or.inr (Or.inl ⟨rfl, c, rest, rfl, h.symm⟩))

/-- Every step without a reset keeps a property closed under the updates. -/
theorem step_keeps (hI : CommandClosed I E) {s t : State} (hr : s.resetIn = false) (h : I s) (e : step s = .next t) :
    I t ∨ E t := by
  rcases step_cases hr e with ⟨a, rest, i, hq, -, hf, he⟩ | ⟨-, c, rest, i, -, -, hf, he⟩ | ⟨-, c, rest, -, rfl⟩ | ⟨-, -, rfl⟩
  · exact exec_internal_keeps hI.toGateClosed hf (hI.queue s _ h) he
  · exact exec_command_keeps hI hf h he
  · exact Or.inr (hI.fault _ _ _ (by decide) (hI.accept s rest h))
  · exact Or.inl h

/-- A step with `reset` high is the reset (70_reset_and_hazards.md R280). -/
theorem step_reset {s : State} (hr : s.resetIn = true) : step s = .next (resetBlock s) := by
  unfold step fetch
  rw [if_pos hr]

end Sys2Proof.Machine
end

