-- ==== Sys2Proof/Laws/Values.lean ====
section
/-!
SUPPORT. Said once: every value an operation writes or queues is one its name and the mode allow (10_state.md R21;
20_memory.md R63, R64). `Gives mode m Q`: from a state of mode `mode` with the values invariant, `m` keeps both, and its
result has `Q`; after a fault the invariant holds too.
-/

namespace Sys2Proof.Machine

open Sys2Proof

/-- How a computation ends. -/
def Gave (mode : Mode) {α : Type} (Q : α → Prop) : EStateM.Result Stop State α → Prop
  | .ok a t => t.valuesInv ∧ t.mode = mode ∧ Q a
  | .error .raised t => t.valuesInv ∧ t.mode = mode
  | .error (.stuck _) _ => True

def Gives (mode : Mode) {α : Type} (m : M α) (Q : α → Prop) : Prop :=
  ∀ s : State, s.valuesInv → s.mode = mode → Gave mode Q (m s)

variable {mode : Mode}

theorem Gives.pure {α : Type} {Q : α → Prop} {a : α} (h : Q a) : Gives mode (pure a : M α) Q := fun _ hs hm => ⟨hs, hm, h⟩

theorem Gives.bind {α β : Type} {m : M α} {f : α → M β} {Q : α → Prop} {R : β → Prop} (hm : Gives mode m Q)
    (hf : ∀ a, Q a → Gives mode (f a) R) : Gives mode (m >>= f) R := by
  intro s hs hmo
  have h1 := hm s hs hmo
  show Gave mode R (EStateM.bind m f s)
  unfold EStateM.bind
  cases hms : m s with
  | ok a t => rw [hms] at h1; exact hf a h1.2.2 t h1.1 h1.2.1
  | error e t => rw [hms] at h1; cases e <;> exact h1

theorem Gives.map {α β : Type} {m : M α} {g : α → β} {Q : β → Prop} (hm : Gives mode m fun a => Q (g a)) :
    Gives mode (g <$> m) Q := by
  intro s hs hmo
  have h1 := hm s hs hmo
  show Gave mode Q (EStateM.map g m s)
  unfold EStateM.map
  cases hms : m s with
  | ok a t => rw [hms] at h1; exact h1
  | error e t => rw [hms] at h1; cases e <;> exact h1

theorem Gives.imp {α : Type} {m : M α} {Q R : α → Prop} (hm : Gives mode m Q) (h : ∀ a, Q a → R a) : Gives mode m R := by
  intro s hs hmo
  have h1 := hm s hs hmo
  cases hms : m s with
  | ok a t => rw [hms] at h1; exact ⟨h1.1, h1.2.1, h a h1.2.2⟩
  | error e t => rw [hms] at h1; cases e <;> exact h1

theorem Gives.get : Gives mode (get : M State) fun s => s.mode = mode := fun _ hs hm => ⟨hs, hm, hm⟩

theorem Gives.modify {g : State → State} (hg : ∀ s : State, s.valuesInv → (g s).valuesInv) (hm : ∀ s, (g s).mode = s.mode) :
    Gives mode (modify g : M PUnit) fun _ => True := fun s hs hmo => ⟨hg s hs, (hm s).trans hmo, trivial⟩

theorem valuesInv_fault {s : State} {cause : FaultCause} {cmd : CmdWord} (h : s.valuesInv) :
    (faultEntry cause cmd s).valuesInv := ⟨h.1, by simp [faultEntry]⟩

theorem Gives.raise {α : Type} {Q : α → Prop} {cause : FaultCause} {cmd : CmdWord} :
    Gives mode (raise cause cmd : M α) Q := fun _ hs hm => ⟨valuesInv_fault hs, hm⟩

theorem Gives.stuck {α : Type} {Q : α → Prop} (f : Fault) : Gives mode (stuck f : M α) Q := fun _ _ _ => trivial

theorem Gives.require {ok : Bool} {cause : FaultCause} {cmd : CmdWord} :
    Gives mode (require ok cause cmd) fun _ => ok = true := by
  intro s hs hm
  cases ok with
  | true => exact ⟨hs, hm, rfl⟩
  | false => exact ⟨valuesInv_fault hs, hm⟩

theorem Gives.request {rq : Request} {cause : FaultCause} {cmd : CmdWord} :
    Gives mode (request rq cause cmd) fun _ => True := by
  intro s hs hm
  unfold Machine.request
  rcases s.hostAnswers with _ | ⟨_ | _, rest⟩
  · exact ⟨hs, hm, trivial⟩
  · exact ⟨valuesInv_fault (s := { s with requests := rq :: s.requests, hostAnswers := rest }) hs, hm⟩
  · exact ⟨hs, hm, trivial⟩

/-! ### Values read and written -/

/-- A value some cell holds: a known field element in WITNESS mode. -/
def readOk (mode : Mode) (v : Val) : Prop := mode = .witness → ∃ n < Config.fieldP, v = .known n

theorem readOk_of_okIn {v : Val} (h : v.okIn mode) : readOk mode v := by
  intro hm
  cases v with
  | unknown => exact absurd (h.symm.trans hm) (by decide)
  | known n => exact ⟨n, h.2, rfl⟩

theorem word_lt {n : Nat} (h : n < 2 ^ 66) : n < Config.fieldP := lt_trans h Config.fieldP_gt

theorem spread16_lt_fieldP (v : Nat) : spread16 v < Config.fieldP := by
  have := three_spreadBits_lt 16 v
  exact word_lt (by unfold spread16; omega)

theorem tagOf_lt_fieldP (cuts : TagCuts) (v : Nat) : tagOf cuts v < Config.fieldP :=
  word_lt (by unfold tagOf; split <;> [norm_num; (split <;> norm_num)])

theorem readOk_cell {s : State} (h : s.valuesInv) {c : CellName} {v : Val} (hc : s.cell c = some v) : readOk s.mode v := by
  have listed : findCell c.key s.mem.cells = some v → readOk s.mode v := by
    intro hf
    obtain ⟨e, he, hk, rfl⟩ := mem_of_findCell hf
    have h1 := h.1 e he
    obtain ⟨d, w⟩ := e
    cases d with
    | fixK t => intro _; exact ⟨kRom t, word_lt (lt_trans (kRom_lt t) (by norm_num)), h1.2⟩
    | fixIv i => intro _; exact ⟨ivRom i, word_lt (lt_trans (ivRom_lt i) (by norm_num)), h1.2⟩
    | tab col v => exact h1.elim
    | adv p => exact readOk_of_okIn h1
  cases c with
  | tab col v' =>
    simp only [State.cell, Memory.get] at hc
    split at hc
    · rename_i hv
      injection hc with hc
      simp only [blt_eq, Bool.and_eq_true, decide_eq_true_eq] at hv
      refine fun _ => ⟨tableVal s.tagCuts col v', ?_, hc.symm⟩
      cases col
      · exact tagOf_lt_fieldP _ _
      · exact word_lt (lt_trans hv.1 (by norm_num))
      · exact spread16_lt_fieldP _
    · cases hc
  | fixK t => exact listed hc
  | fixIv i => exact listed hc
  | adv p => exact listed hc

theorem Gives.memRead {cmd : CmdWord} {c : CellName} : Gives mode (memRead cmd c) (readOk mode) := by
  intro s hs hm
  unfold Machine.memRead
  cases hc : s.cell c with
  | some v => exact ⟨hs, hm, hm ▸ readOk_cell hs hc⟩
  | none => exact ⟨valuesInv_fault hs, hm⟩

theorem Gives.readHandle {n : Nat} {cmd : CmdWord} {file : State → Vector (Option Path) n} {i : Nat} :
    Gives mode (readHandle cmd file i) fun _ => True := by
  intro s hs hm
  unfold Machine.readHandle
  cases handle? (file s) i with
  | some v => exact ⟨hs, hm, trivial⟩
  | none => exact ⟨valuesInv_fault hs, hm⟩

/-- Every listed cell is one of the cells before a write, or the cell written. -/
theorem mem_insertCell {c : CellName} {v : Val} {e : CellName × Val} : ∀ {l}, e ∈ insertCell c v l → e = (c, v) ∨ e ∈ l
  | [], h => by simpa [insertCell] using h
  | (d, w) :: rest, h => by
    rw [insertCell] at h
    split at h
    · rcases List.mem_cons.mp h with h | h
      · exact Or.inl h
      · exact Or.inr (List.mem_cons_of_mem _ h)
    · rcases List.mem_cons.mp h with h | h
      · exact Or.inl h
      · exact Or.inr h
    · rcases List.mem_cons.mp h with h | h
      · exact Or.inr (h ▸ List.mem_cons_self)
      · exact (mem_insertCell h).imp id (List.mem_cons_of_mem _)

/-- A write of a value the cell's name allows. -/
theorem Gives.memWrite {cmd : CmdWord} {b : Bool} {c : CellName} {v : Val}
    (h : c.kind ≠ .table → cellOk mode c (storedVal mode c v)) : Gives mode (memWrite cmd b c v) fun _ => True := by
  intro s hs hm
  unfold Machine.memWrite
  cases hc : s.cell c with
  | some w => exact ⟨valuesInv_fault hs, hm⟩
  | none =>
    simp only
    split
    · exact ⟨valuesInv_fault hs, hm⟩
    · rename_i hk
      have hkind : c.kind ≠ .table := fun e => by simp [e] at hk
      have hr := Gives.request (mode := mode) (rq := .assign c.column c v) (cause := .assign)
        (cmd := cmd) s hs hm
      cases hq : Machine.request (.assign c.column c v) .assign cmd s with
      | error e t => rw [hq] at hr; cases e <;> exact hr
      | ok a t =>
        rw [hq] at hr
        refine ⟨⟨fun e he => ?_, hr.1.2⟩, hr.2.1, trivial⟩
        show cellOk t.mode e.1 e.2
        rcases mem_insertCell he with rfl | he
        · rw [hr.2.1, hm]; exact h hkind
        · exact hr.1.1 e he

/-- A write by an internal operation of a value that is a field element where it is known. -/
theorem Gives.assign {cmd : CmdWord} {c : CellName} {v : Val} (h : readOk mode v) :
    Gives mode (assign cmd c v) fun _ => True := by
  by_cases hk : c.kind = .advice
  · refine Gives.memWrite fun _ => ?_
    cases c with
    | adv p =>
      show (storedVal mode (.adv p) v).okIn mode
      unfold storedVal
      cases hm : mode with
      | shape => rfl
      | witness =>
        obtain ⟨n, hn, rfl⟩ := h hm
        exact ⟨rfl, hn⟩
    | _ => cases hk
  · intro s hs hm
    unfold Machine.assign Machine.memWrite
    cases hc : s.cell c with
    | some w => exact ⟨valuesInv_fault hs, hm⟩
    | none =>
      have : (c.kind == .table || (c.kind == .fixed && !false)) = true := by
        cases hk' : c.kind <;> simp_all
      simp only [this, if_true]
      exact ⟨valuesInv_fault hs, hm⟩

theorem Gives.record {cmd : CmdWord} {k : Constraint} : Gives mode (record cmd k) fun _ => True := by
  intro s hs hm
  unfold Machine.record
  split
  · split
    · exact ⟨hs, hm, trivial⟩
    · trivial
  · exact ⟨valuesInv_fault hs, hm⟩

/-! ### Operations -/

theorem readOk_map {f : Nat → Nat} {v : Val} (h : readOk mode v)
    (hf : ∀ n, n < Config.fieldP → f n < Config.fieldP) : readOk mode (v.map f) := by
  intro hm
  obtain ⟨n, hn, rfl⟩ := h hm
  exact ⟨f n, hf n hn, rfl⟩

theorem readOk_witnessVal {v : Val} {mo : Mode} (hmo : mo = mode) (h : readOk mode v) :
    readOk mode (witnessVal mo v) := fun hm => by
  rw [hmo, hm]
  exact h hm

theorem Gives.lookupInput {cmd : CmdWord} {e : Nat} {d : CellName} : Gives mode (lookupInput cmd e d) (readOk mode) := by
  intro s hs hm
  unfold Machine.lookupInput
  cases hmo : s.mode with
  | shape => exact ⟨hs, hm, fun h => absurd (hmo.symm.trans (hm.trans h)) (by decide)⟩
  | witness =>
    exact Gives.map (Q := readOk mode) (Gives.memRead.imp fun v hv => readOk_map hv fun n _ => red_lt _) s hs hm

theorem Gives.opLookup (e : Nat) (d t sp : CellName) : Gives mode (opLookup e d t sp) fun _ => True :=
  Gives.bind Gives.get fun _ _ => Gives.bind Gives.lookupInput fun _ hy =>
    Gives.bind (Gives.assign (readOk_map hy fun _ _ => tagOf_lt_fieldP _ _)) fun _ _ =>
      Gives.bind (Gives.assign (readOk_map hy fun _ _ => spread16_lt_fieldP _)) fun _ _ => Gives.record

theorem Gives.opRange (w : Nat) (d : CellName) (p : Path) : Gives mode (opRange w d p) fun _ => True := by
  refine Gives.bind (Gives.opLookup _ _ _ _) fun _ _ => ?_
  split
  · exact Gives.opLookup _ _ _ _
  · exact Gives.pure trivial

theorem Gives.opWord {p : Path} {v : Val} (h : readOk mode v) : Gives mode (opWord p v) fun _ => True :=
  Gives.bind Gives.get fun _ hm => Gives.bind (Gives.assign h) fun _ _ =>
    Gives.bind (Gives.assign (readOk_map (readOk_witnessVal hm h) fun _ hn => lt_of_le_of_lt (Nat.mod_le _ _) hn)) fun _ _ =>
      Gives.bind (Gives.assign (readOk_map (readOk_witnessVal hm h) fun _ hn => lt_of_le_of_lt (Nat.div_le_self _ _) hn)) fun _ _ =>
        Gives.bind Gives.record fun _ _ => Gives.bind (Gives.opLookup _ _ _ _) fun _ _ => Gives.opLookup _ _ _ _

theorem Gives.opPieces {cmd : CmdWord} {v : Val} (h : readOk mode v) (p : Path) :
    ∀ i l, Gives mode (opPieces cmd v p i l) fun _ => True
  | _, [] => Gives.pure trivial
  | i, _ :: rest =>
    Gives.bind (Gives.assign (readOk_map h fun _ hn =>
      lt_of_le_of_lt (le_trans (Nat.mod_le _ _) (Nat.div_le_self _ _)) hn)) fun _ _ =>
      Gives.bind (Gives.opRange _ _ _) fun _ _ => Gives.opPieces h p (i + 1) rest

theorem Gives.opDecomp (l : Layout) (x p : Path) : Gives mode (opDecomp l x p) fun _ => True :=
  Gives.bind Gives.memRead fun _ hv =>
    Gives.bind (Gives.opPieces (readOk_map hv fun _ hn => lt_of_le_of_lt (Nat.mod_le _ _) hn) _ _ _) fun _ _ =>
      Gives.record

theorem Gives.readTerms {cmd : CmdWord} :
    ∀ ts, Gives mode (readTerms cmd ts) fun r => mode = .witness → ∃ n, r = some n
  | [] => Gives.pure fun _ => ⟨0, rfl⟩
  | (_, _) :: ts => by
    unfold Machine.readTerms
    refine Gives.bind Gives.memRead fun v hv => Gives.bind (Gives.readTerms ts) fun r hr => ?_
    split
    · exact Gives.pure fun _ => ⟨_, rfl⟩
    · rename_i hno
      refine Gives.pure fun hm => ?_
      obtain ⟨n, -, rfl⟩ := hv hm
      obtain ⟨k, rfl⟩ := hr hm
      exact (hno n k rfl rfl).elim

theorem Gives.opExtract (k : Nat) (ops : List OperandExpr) (p : Path) : Gives mode (opExtract k ops p) fun _ => True := by
  refine Gives.bind Gives.require fun _ _ => Gives.bind Gives.get fun st hst => Gives.bind (Gives.readTerms _) fun r hr => ?_
  have hS : ∀ f : Nat → Nat, (∀ S, f S < 2 ^ 32) → readOk mode
      ((witnessVal st.mode (Val.ofOption (r.map fun r => spreadSumMod (r + (ops.map (·.const)).sum)))).map f) := by
    intro f hf hm
    obtain ⟨n, rfl⟩ := hr hm
    rw [hst, hm]
    exact ⟨_, word_lt (lt_trans (hf _) (by norm_num)), rfl⟩
  exact Gives.bind (Gives.opWord (hS even32 even32_lt)) fun _ _ =>
    Gives.bind (Gives.opWord (hS odd32 odd32_lt)) fun _ _ => Gives.record

theorem Gives.readWords {cmd : CmdWord} :
    ∀ ys, Gives mode (readWords cmd ys) fun r => mode = .witness → ∃ n ≤ ys.length * (2 ^ 32 - 1), r = some n
  | [] => Gives.pure fun _ => ⟨0, by simp, rfl⟩
  | _ :: ys => by
    unfold Machine.readWords
    refine Gives.bind Gives.memRead fun v hv => Gives.bind (Gives.readWords ys) fun r hr => ?_
    split
    · rename_i n m
      refine Gives.pure fun hm => ?_
      obtain ⟨k, hk, e⟩ := hr hm
      injection e with e
      have := wordOf_lt n
      exact ⟨_, by simp only [List.length_cons]; omega, rfl⟩
    · rename_i hno
      refine Gives.pure fun hm => ?_
      obtain ⟨n, -, rfl⟩ := hv hm
      obtain ⟨k, -, rfl⟩ := hr hm
      exact (hno n k rfl rfl).elim

theorem Gives.opModadd {n k : Nat} (ys : List Path) (p : Path) (hn : n ≤ 5) (hk : k < 2 ^ 32) :
    Gives mode (opModadd n ys k p) fun _ => True := by
  refine Gives.bind Gives.require fun _ hl => Gives.bind (Gives.readWords _) fun r hr => ?_
  have hlen : ys.length ≤ 5 := by simp at hl; omega
  have hS : ∀ f : Nat → Nat, (∀ S, S < 6 * 2 ^ 32 → f S < 2 ^ 66) →
      readOk mode ((Val.ofOption (r.map (· + k))).map f) := by
    intro f hf hm
    obtain ⟨m, hmle, rfl⟩ := hr hm
    refine ⟨_, word_lt (hf (m + k) ?_), rfl⟩
    have : ys.length * (2 ^ 32 - 1) ≤ 5 * (2 ^ 32 - 1) := Nat.mul_le_mul_right _ hlen
    omega
  exact Gives.bind (Gives.opWord (hS _ fun S _ => by omega)) fun _ _ =>
    Gives.bind (Gives.assign (hS _ fun S _ => by omega)) fun _ _ => Gives.bind Gives.record fun _ _ => Gives.record

theorem Gives.opCopy (a b : CellName) : Gives mode (opCopy a b) fun _ => True :=
  Gives.bind Gives.require fun _ _ => Gives.bind Gives.request fun _ _ => Gives.record

theorem Gives.opRotations (l : Layout) (x p : Path) : Gives mode (opRotations l x p) fun _ => True :=
  Gives.bind (Gives.opDecomp _ _ _) fun _ _ => Gives.opExtract _ _ _

theorem Gives.opCh (e f g p : Path) : Gives mode (opCh e f g p) fun _ => True :=
  Gives.bind (Gives.opExtract _ _ _) fun _ _ => Gives.opExtract _ _ _

theorem Gives.opMaj (a b c p : Path) : Gives mode (opMaj a b c p) fun _ => True := Gives.opExtract _ _ _

theorem Gives.opSchedIn (t : Nat) {v : Val} (h : readOk mode v) : Gives mode (opSchedIn t v) fun _ => True :=
  Gives.bind Gives.get fun _ _ => Gives.bind (Gives.opWord h) fun _ _ => Gives.modify (fun _ hs => hs) fun _ => rfl

theorem Gives.opSched (t : Nat) : Gives mode (opSched t) fun _ => True :=
  Gives.bind Gives.get fun _ _ => Gives.bind Gives.readHandle fun _ _ => Gives.bind (Gives.opRotations _ _ _) fun _ _ =>
    Gives.bind Gives.readHandle fun _ _ => Gives.bind (Gives.opRotations _ _ _) fun _ _ =>
    Gives.bind Gives.readHandle fun _ _ => Gives.bind Gives.readHandle fun _ _ =>
    Gives.bind (Gives.opModadd _ _ (by norm_num) (by norm_num)) fun _ _ => Gives.modify (fun _ hs => hs) fun _ => rfl

theorem Gives.opRound (t : Nat) : Gives mode (opRound t) fun _ => True :=
  Gives.bind Gives.get fun _ _ => Gives.bind Gives.readHandle fun _ _ => Gives.bind Gives.readHandle fun _ _ =>
    Gives.bind Gives.readHandle fun _ _ => Gives.bind Gives.readHandle fun _ _ => Gives.bind Gives.readHandle fun _ _ =>
    Gives.bind Gives.readHandle fun _ _ => Gives.bind Gives.readHandle fun _ _ => Gives.bind Gives.readHandle fun _ _ =>
    Gives.bind (Gives.opRotations _ _ _) fun _ _ => Gives.bind (Gives.opCh _ _ _ _) fun _ _ =>
    Gives.bind Gives.readHandle fun _ _ => Gives.bind (Gives.opModadd _ _ (by norm_num) (kRom_lt t)) fun _ _ =>
    Gives.bind (Gives.opRotations _ _ _) fun _ _ => Gives.bind (Gives.opMaj _ _ _ _) fun _ _ =>
    Gives.bind (Gives.opModadd _ _ (by norm_num) (by norm_num)) fun _ _ =>
    Gives.bind (Gives.opModadd _ _ (by norm_num) (by norm_num)) fun _ _ =>
    Gives.bind (Gives.opModadd _ _ (by norm_num) (by norm_num)) fun _ _ => Gives.modify (fun _ hs => hs) fun _ => rfl

theorem Gives.opInitWord (src : WordSource) (i : Nat) {r : OpRec} (h : ∀ v, r = .value v → readOk mode v) :
    Gives mode (opInitWord src i r) fun _ => True := by
  refine Gives.bind Gives.get fun _ _ => Gives.bind (Q := fun _ => True) ?_ fun _ _ => Gives.modify (fun _ hs => hs) fun _ => rfl
  cases src with
  | iv =>
    exact Gives.bind (Gives.opWord fun _ => ⟨_, word_lt (lt_trans (ivRom_lt i) (by norm_num)), rfl⟩) fun _ _ =>
      Gives.opCopy _ _
  | data =>
    cases r <;> first | exact Gives.opWord (h _ rfl) | exact Gives.stuck _
  | digest =>
    exact Gives.bind Gives.readHandle fun _ _ => Gives.bind Gives.memRead fun _ hv =>
      Gives.bind (Gives.opWord hv) fun _ _ => Gives.opCopy _ _

theorem Gives.opDigestWord (i : Nat) : Gives mode (opDigestWord i) fun _ => True :=
  Gives.bind Gives.get fun _ _ => Gives.bind Gives.readHandle fun _ _ => Gives.bind Gives.readHandle fun _ _ =>
    Gives.bind (Gives.opModadd _ _ (by norm_num) (by norm_num)) fun _ _ => Gives.modify (fun _ hs => hs) fun _ => rfl

theorem Gives.readHandles {n : Nat} {cmd : CmdWord} {file : State → Vector (Option Path) n} :
    ∀ is, Gives mode (readHandles cmd file is) fun _ => True
  | [] => Gives.pure trivial
  | _ :: is => Gives.bind Gives.readHandle fun _ _ => Gives.bind (Gives.readHandles is) fun _ _ => Gives.pure trivial

theorem Gives.readAll {cmd : CmdWord} : ∀ cs, Gives mode (readAll cmd cs) fun _ => True
  | [] => Gives.pure trivial
  | _ :: cs => Gives.bind Gives.memRead fun _ _ => Gives.bind (Gives.readAll cs) fun _ _ => Gives.pure trivial

theorem Gives.setOutputs (d : List DoutItem) (h : List Path) : Gives mode (setOutputs d h) fun _ => True :=
  fun _ hs hm => ⟨hs, hm, trivial⟩

theorem Gives.whenDrained {m : M Unit} (hm : Gives mode m fun _ => True) : Gives mode (whenDrained m) fun _ => True := by
  intro s hs hmo
  unfold Machine.whenDrained
  split
  · exact ⟨hs, hmo, trivial⟩
  · exact hm s hs hmo

theorem Gives.finishInit (cmd : CmdWord) : Gives mode (finishInit cmd) fun _ => True :=
  Gives.bind (Gives.readHandles _) fun _ _ => Gives.setOutputs _ _

theorem Gives.finishCompress (cmd : CmdWord) : Gives mode (finishCompress cmd) fun _ => True :=
  Gives.bind (Gives.readHandles _) fun _ _ => Gives.bind (Gives.readAll _) fun _ _ =>
    Gives.bind (Gives.readHandles _) fun _ _ => Gives.setOutputs _ _

theorem Gives.finishDigest (cmd : CmdWord) : Gives mode (finishDigest cmd) fun _ => True :=
  Gives.bind (Gives.readHandles _) fun _ _ => Gives.bind (Gives.readAll _) fun _ _ =>
    Gives.bind (Gives.modify (fun _ hs => hs) fun _ => rfl) fun _ _ => Gives.setOutputs _ _

theorem Gives.seqAll : ∀ {ms : List (M Unit)}, (∀ m ∈ ms, Gives mode m fun _ => True) →
    Gives mode (seqAll ms) fun _ => True
  | [], _ => Gives.pure trivial
  | m :: _, h => Gives.bind (h m List.mem_cons_self) fun _ _ => Gives.seqAll fun m' hm => h m' (List.mem_cons_of_mem _ hm)

theorem Gives.checkSequence (i : Instr) : Gives mode (checkSequence i) fun _ => True := by
  intro s hs hm
  unfold Machine.checkSequence
  exact Gives.require.imp (fun _ _ => trivial) s hs hm

theorem Gives.loadTable (cmd : CmdWord) : Gives mode (loadTable cmd) fun _ => True := by
  intro s hs hm
  unfold Machine.loadTable
  split
  · rcases takeAnswers s.hostAnswers tableCells with ⟨n, _ | _, rest⟩
    · exact ⟨hs, hm, trivial⟩
    · exact ⟨valuesInv_fault
        (s := { s with mem := { s.mem with tabCells := n }, hostAnswers := rest,
                       requests := .assignTable (n + 1) :: s.requests }) hs, hm⟩
  · exact ⟨valuesInv_fault hs, hm⟩

/-! ### What an instruction leaves -/

theorem Gives.toOutcome {m : M Unit} (hm : Gives mode m fun _ => True) {s t : State} (hs : s.valuesInv)
    (hmo : s.mode = mode) (e : toOutcome m s = .next t) : t.valuesInv := by
  have h1 := hm s hs hmo
  unfold Machine.toOutcome at e
  rcases hms : m s with ⟨a, u⟩ | ⟨⟨⟩ | f, u⟩ <;> rw [hms] at e h1
  · injection e with e; exact e ▸ h1.1
  · injection e with e; exact e ▸ h1.1
  · cases e

theorem Gives.runEntry {body : OpRec → M Unit} {s t : State} (hs : s.valuesInv)
    (hm : ∀ r : OpRec, r.valueOk s.mode → Gives s.mode (body r) fun _ => True) (e : runEntry s body = .next t) :
    t.valuesInv := by
  unfold Machine.runEntry at e
  cases hq : s.q with
  | nil => rw [hq] at e; exact (hm .none trivial).toOutcome hs rfl e
  | cons a rest =>
    rw [hq] at e
    refine (hm a.opnd (hs.2 a (by rw [hq]; exact List.mem_cons_self))).toOutcome
      (s := { s with q := rest }) ⟨hs.1, fun b hb => hs.2 b (by rw [hq]; exact List.mem_cons_of_mem _ hb)⟩ rfl e

theorem Gives.runCommand {body : List DinItem → M Unit} {s t : State} (hs : s.valuesInv)
    (hm : ∀ d, Gives s.mode (body d) fun _ => True) (e : runCommand s body = .next t) : t.valuesInv := by
  unfold Machine.runCommand at e
  cases hc : s.cmds with
  | nil => rw [hc] at e; exact (hm _).toOutcome hs rfl e
  | cons c rest => rw [hc] at e; exact (hm _).toOutcome (s := { s with cmds := rest }) hs rfl e

end Sys2Proof.Machine
end

