-- ==== Sys2Proof/Laws/Invariants.lean ====
section
/-!
SUPPORT. The invariants of the machine as properties closed under its updates: the canonical form of `CELLS`
(10_state.md R41; log 9), the verdict (20_memory.md R73), and that a step without a reset keeps the values invariant
(10_state.md R21).
-/

namespace Sys2Proof.Machine

open Sys2Proof

/-! ### The canonical form -/

theorem reset_memory_wf (pin : Bool) : (State.resetWith pin).mem.wf = true := Memory.wf_empty

/-- Every update keeps the canonical form. -/
theorem closed_memory_wf : CommandClosed (fun u => u.mem.wf = true) (fun u => u.mem.wf = true) where
  fault := fun _ _ _ _ h => h
  host := fun _ _ _ h => h
  write := fun _ _ _ h _ hk => Memory.wf_insert _ hk h
  record := fun _ _ h _ => h
  regs := fun _ _ _ _ _ _ _ _ h => h
  queue := fun _ _ h => h
  accept := fun _ _ h => h
  phase := fun _ _ h => h
  block := fun _ _ h => h
  config := fun _ _ h => h
  table := fun _ _ h => h
  load := fun _ _ h _ hn => Memory.wf_tabCells hn h

/-- The order of a canonical list says that its head is above all others. -/
theorem falling_all : ∀ {l : List (CellName × Val)} {e}, cellsFalling (e :: l) = true → ∀ x ∈ l, keyCmp e.1.key x.1.key = .gt
  | [], _, _, x, hx => by simp at hx
  | (c, v) :: l, (d, w), h, x, hx => by
    simp only [cellsFalling, Bool.and_eq_true, beq_iff_eq] at h
    rcases List.mem_cons.mp hx with rfl | hx
    · exact h.1
    · exact keyCmp_gt_trans h.1 (falling_all h.2 x hx)
theorem falling_tail {l : List (CellName × Val)} {e} (h : cellsFalling (e :: l) = true) : cellsFalling l = true := by
  cases l with
  | nil => rfl
  | cons a l => obtain ⟨d, w⟩ := e; obtain ⟨c, v⟩ := a; simp only [cellsFalling, Bool.and_eq_true] at h; exact h.2

theorem find_none {l : List (CellName × Val)} {k : List Nat} (h : ∀ x ∈ l, keyCmp k x.1.key = .gt) : findCell k l = none := by
  cases l with
  | nil => rfl
  | cons a l => obtain ⟨c, v⟩ := a; simp only [findCell, h (c, v) (by simp)]

theorem cells_ext : ∀ {l m : List (CellName × Val)}, cellsFalling l = true → cellsFalling m = true → (∀ c : CellName, c.kind ≠ .table → findCell c.key l = findCell c.key m) →
    (l.all fun e => e.1.kind != .table) = true → (m.all fun e => e.1.kind != .table) = true → l = m
  | [], [], _, _, _, _, _ => rfl
  | [], (c, v) :: m, _, _, h, _, hm => by
    simp only [List.all_cons, Bool.and_eq_true, bne_iff_ne] at hm
    have := h c hm.1
    simp [findCell] at this
  | (c, v) :: l, [], _, _, h, hl, _ => by
    simp only [List.all_cons, Bool.and_eq_true, bne_iff_ne] at hl
    have := h c hl.1
    simp [findCell] at this
  | (c, v) :: l, (d, w) :: m, h1, h2, h, hl, hm => by
    simp only [List.all_cons, Bool.and_eq_true, bne_iff_ne] at hl hm
    have a := h c hl.1
    have b := h d hm.1
    simp only [findCell, keyCmp_self] at a b
    have hcd : keyCmp c.key d.key = .eq := by
      cases e : keyCmp c.key d.key with
      | eq => rfl
      | gt => rw [e] at a; cases a
      | lt =>
        rw [e] at a
        have g : keyCmp d.key c.key = .gt := (keyCmp_swap _ _).mp e
        rw [g] at b; cases b
    have : c = d := keyCmp_key.mp hcd
    subst this
    rw [hcd] at a; simp only [Option.some.injEq] at a; subst a
    rw [cells_ext (falling_tail h1) (falling_tail h2) ?_ hl.2 hm.2]
    intro c' hk
    have := h c' hk
    simp only [findCell] at this
    cases e : keyCmp c'.key c.key with
    | lt => rw [e] at this; exact this
    | eq =>
      have : c' = c := keyCmp_key.mp e
      subst this
      have n1 : findCell c'.key l = none := find_none (falling_all h1)
      have n2 : findCell c'.key m = none := find_none (falling_all h2)
      rw [n1, n2]
    | gt =>
      rw [find_none fun x hx => keyCmp_gt_trans e (falling_all h1 x hx), find_none fun x hx => keyCmp_gt_trans e (falling_all h2 x hx)]

/-! ### The verdict -/

theorem any_holds_congr {cuts : TagCuts} {rd rd' : CellName → Option Nat} {ks : List Constraint} (h : ∀ k ∈ ks, ∀ c ∈ k.cells, rd c = rd' c) :
   (ks.any fun k => k.holds cuts rd == some false) = (ks.any fun k => k.holds cuts rd' == some false) := by
  induction ks with
  | nil => rfl
  | cons a l ih =>
    simp only [List.any_cons]
    rw [holds_congr (h a (by simp)), ih fun k hk => h k (by simp [hk])]

theorem verdict_of_cells {s t : State} (h : s.verdictInv) (hc : t.cons = s.cons) (hu : t.unsat = s.unsat) (hm : t.mode = s.mode) (ht : t.tagCuts = s.tagCuts)
   (hcell : ∀ c, s.has c = true → t.cell c = s.cell c) : t.verdictInv := by
  refine ⟨?_, ?_⟩
  · intro k hk c hcc
    rw [hc] at hk
    have := h.1 k hk c hcc
    simp only [State.has, hcell c this]; exact this
  · rw [hu, hm, hc, ht, h.2]
    congr 1
    apply any_holds_congr
    intro k hk c hcc
    simp only [State.num, hcell c (h.1 k hk c hcc)]

theorem closed_verdict : CommandClosed State.verdictInv State.verdictInv where
  fault := fun _ _ _ _ h => h
  host := fun _ _ _ h => h
  write := fun s c v h hc hk => verdict_of_cells h rfl rfl rfl rfl fun c' hc' => by
    have ne : c' ≠ c := fun e => by rw [e] at hc'; simp [State.has, hc] at hc'
    exact Memory.get_insert_ne _ _ _ ne
  record := fun s k h hk => by
    refine ⟨?_, ?_⟩
    · intro k' hk' c hc
      rcases List.mem_append.mp hk' with h1 | h1
      · exact h.1 k' h1 c hc
      · simp at h1; subst h1; exact hk c hc
    · show s.unsatAfter k = (s.mode == .witness && (s.cons ++ [k]).any fun k => k.holds s.tagCuts s.num == some false)
      have := h.2
      unfold State.unsatAfter
      cases hm : s.mode with
      | shape => rw [hm] at this; exact this
      | witness => rw [hm] at this; rw [List.any_append, this]; simp
  regs := fun _ _ _ _ _ _ _ _ h => h
  queue := fun _ _ h => h
  accept := fun _ _ h => h
  phase := fun _ _ h => h
  block := fun _ _ h => h
  config := fun _ _ h => h
  table := fun _ _ h => h
  load := fun s n h h0 hn => verdict_of_cells h rfl rfl rfl rfl fun c hc => by
    cases c <;> simp_all [State.has, State.cell, Memory.get]

/-! ### Values -/

theorem wf_of_row {w i} (h : decode w = .ok i) (n : Nat) (e : i = .modadd n) : n ≤ 5 := by
  obtain ⟨r, hr, h⟩ := decode_eq_ok.mp h
  simp only [opcodeMap, hostRows, levelOneRows, functionRows, primitiveRows, List.cons_append, List.nil_append, List.mem_cons, List.not_mem_nil, or_false] at hr
  obtain ⟨_, hn, _, _, hb⟩ := h
  subst e
  rcases hr with rfl|rfl|rfl|rfl|rfl|rfl|rfl|rfl|rfl|rfl|rfl|rfl|rfl|rfl|rfl|rfl|rfl|rfl|rfl|rfl|rfl|rfl|rfl|rfl|rfl|rfl|rfl|rfl|rfl <;> simp only at hb <;> try (cases hb; done)
  injection hb with hb
  subst hb
  simp only [Legal.admits, Bool.and_eq_true] at hn
  exact Nat.le_of_ble_eq_true hn.2

theorem items_ok {mode : Mode} {op : Nat → Instr} : ∀ {vs : List Val} {j}, (∀ v ∈ vs, v.okIn mode) → ∀ e ∈ itemEntries op j vs, e.opnd.valueOk mode
  | [], _, _, e, he => by simp [itemEntries] at he
  | v :: vs, j, h, e, he => by
    rw [itemEntries] at he
    rcases List.mem_cons.mp he with rfl | he
    · exact h v (by simp)
    · exact items_ok (fun v hv => h v (by simp [hv])) e he

theorem din_ok {mode : Mode} {din : List DinItem} (h : din.all DinItem.isElem = true) : ∀ v ∈ din.map (dinVal mode), v.okIn mode := by
  intro v hv
  obtain ⟨d, hd, rfl⟩ := List.mem_map.mp hv
  obtain ⟨x, hx, rfl⟩ := (isElem_iff d).mp (List.all_eq_true.mp h d hd)
  cases mode
  · rfl
  · exact ⟨rfl, hx⟩

theorem Gives.beginBlock {mode : Mode} {q : List QEntry} (hq : ∀ e ∈ q, e.opnd.valueOk mode) : Gives mode (beginBlock q) fun _ => True := by
  intro s hs hm
  exact ⟨⟨hs.1, by show ∀ e ∈ q, e.opnd.valueOk s.mode; rw [hm]; exact hq⟩, hm, trivial⟩

/-- Every step without a reset keeps the values invariant. -/
theorem step_gives {s t : State} (hr : s.resetIn = false) (h : s.valuesInv) (hst : step s = .next t) : t.valuesInv := by
  have seq : ∀ i, Gives s.mode (checkSequence i) fun _ => True := fun i s' hs hm => by
    unfold checkSequence; exact Gives.imp (Gives.require) (fun _ _ => trivial) s' hs hm
  rcases step_cases hr hst with ⟨a, rest, i, hqs, hd, hf, he⟩ | ⟨-, c, rest, i, -, -, hf, he⟩ | ⟨hq, c, rest, -, rfl⟩ | ⟨-, -, rfl⟩
  · cases i <;> first | (cases hf; done) | skip
    all_goals simp only [exec, execSchedIn, execSched, execRound, execInitWord, execDigestWord, execSsig0, execSsig1, execBsig0, execBsig1, execCh, execMaj, execWord, execRecomb, execLookup, execRange, execDecomp, execExtract, execModadd, execCarry, execCopy] at he
    all_goals refine Gives.runEntry h (fun r hr => ?_) he
    case schedIn t => cases r <;> first | exact Gives.stuck _ | exact Gives.opSchedIn _ (readOk_of_okIn hr)
    case sched t => exact Gives.opSched _
    case round t => exact Gives.bind (Gives.opRound _) fun _ _ => Gives.whenDrained (Gives.finishCompress _)
    case initWord src i => exact Gives.bind (Gives.opInitWord _ _ (fun v hv => by subst hv; exact readOk_of_okIn hr)) fun _ _ => Gives.whenDrained (Gives.finishInit _)
    case digestWord i => exact Gives.bind (Gives.opDigestWord _) fun _ _ => Gives.whenDrained (Gives.finishDigest _)
    case ssig0 => cases r <;> first | exact Gives.stuck _ | exact Gives.opRotations _ _ _
    case ssig1 => cases r <;> first | exact Gives.stuck _ | exact Gives.opRotations _ _ _
    case bsig0 => cases r <;> first | exact Gives.stuck _ | exact Gives.opRotations _ _ _
    case bsig1 => cases r <;> first | exact Gives.stuck _ | exact Gives.opRotations _ _ _
    case ch => cases r <;> first | exact Gives.stuck _ | exact Gives.opCh _ _ _ _
    case maj => cases r <;> first | exact Gives.stuck _ | exact Gives.opMaj _ _ _ _
    case word => cases r <;> first | exact Gives.stuck _ | exact Gives.opWord (readOk_of_okIn hr)
    case recomb => cases r <;> first | exact Gives.stuck _ | exact Gives.record
    case lookup => cases r <;> first | exact Gives.stuck _ | exact Gives.opLookup _ _ _ _
    case range => cases r <;> first | exact Gives.stuck _ | exact Gives.opRange _ _ _
    case decomp => cases r <;> first | exact Gives.stuck _ | exact Gives.opDecomp _ _ _
    case extract => cases r <;> first | exact Gives.stuck _ | exact Gives.opExtract _ _ _
    case modadd n => cases r <;> first | exact Gives.stuck _ | exact Gives.opModadd _ _ (wf_of_row hd n rfl) hr
    case carry => cases r <;> first | exact Gives.stuck _ | exact Gives.record
    case copy => cases r <;> first | exact Gives.stuck _ | exact Gives.opCopy _ _
  · cases i <;> first | (cases hf; done) | skip
    all_goals simp only [exec, execConfigure, execLoad, execInitIv, execInitFrom, execCompress, execDigest, execBitsOf, execIntOf, execSpread] at he
    all_goals refine Gives.runCommand h (fun d => ?_) he
    case configure =>
      refine Gives.bind (seq _) fun _ _ => Gives.bind Gives.require fun _ _ => Gives.bind (Gives.seqAll fun m hm => ?_) fun _ _ => Gives.bind (Gives.modify (fun _ hs => hs) fun _ => rfl) fun _ _ => Gives.bind (Gives.seqAll fun m hm => ?_) fun _ _ => Gives.bind (Gives.seqAll fun m hm => ?_) fun _ _ => Gives.bind (Gives.modify (fun _ hs => hs) fun _ => rfl) fun _ _ => Gives.setOutputs _ _
      · obtain ⟨rq, -, rfl⟩ := List.mem_map.mp hm; exact Gives.request
      · obtain ⟨t, ht, rfl⟩ := List.mem_map.mp hm; exact Gives.memWrite fun _ => ⟨by simpa using ht, by simp [storedVal, CellName.kind]⟩
      · obtain ⟨t, ht, rfl⟩ := List.mem_map.mp hm; exact Gives.memWrite fun _ => ⟨by simpa using ht, by simp [storedVal, CellName.kind]⟩
    case load =>
      exact Gives.bind (seq _) fun _ _ => Gives.bind Gives.require fun _ _ => Gives.bind (Gives.loadTable _) fun _ _ => Gives.bind (Gives.modify (fun _ hs => hs) fun _ => rfl) fun _ _ => Gives.setOutputs _ _
    case initIv =>
      exact Gives.bind (seq _) fun _ _ => Gives.bind Gives.require fun _ _ => Gives.beginBlock (by simp [initEntries, OpRec.valueOk])
    case initFrom src =>
      refine Gives.bind (seq _) fun _ _ => Gives.bind Gives.require fun _ hd => Gives.bind Gives.get fun st hm => Gives.beginBlock ?_
      cases src with
      | data =>
        simp only [initDinOk, Bool.and_eq_true] at hd
        rw [hm]
        exact items_ok (din_ok hd.2)
      | digest => simp [initEntries, OpRec.valueOk]
    case compress =>
      refine Gives.bind (seq _) fun _ _ => Gives.bind Gives.require fun _ hd => fun s' hs hm => ⟨⟨hs.1, ?_⟩, hm, trivial⟩
      simp only [Bool.and_eq_true] at hd
      show ∀ e ∈ compressEntries _, e.opnd.valueOk s'.mode
      intro e he
      simp only [compressEntries, List.mem_append, List.mem_map] at he
      rcases he with (he | ⟨_, _, rfl⟩) | ⟨_, _, rfl⟩
      · exact items_ok (din_ok hd.2) e he
      · trivial
      · trivial
    case digest =>
      exact Gives.bind (seq _) fun _ _ => Gives.bind Gives.require fun _ hd => fun s' hs hm => ⟨⟨hs.1, by
        show ∀ e ∈ digestEntries, e.opnd.valueOk s'.mode
        simp [digestEntries, OpRec.valueOk]⟩, hm, trivial⟩
    case bitsOf =>
      split
      · refine Gives.bind Gives.require fun _ _ => Gives.bind Gives.get fun st _ => ?_
        cases dinVal st.mode _ with
        | known x => exact Gives.bind Gives.require fun _ _ => Gives.setOutputs _ _
        | unknown => exact Gives.setOutputs _ _
      · exact Gives.raise
    case intOf =>
      split
      · exact Gives.bind Gives.require fun _ _ => fun s' hs hm => ⟨hs, hm, trivial⟩
      · exact Gives.raise
    case spread =>
      split
      · exact fun s' hs hm => ⟨hs, hm, trivial⟩
      · exact Gives.raise
  · exact ⟨h.1, by simp [illegalCommand, faultEntry]⟩
  · exact h

/-! ### An accepting verdict -/

/-- In WITNESS mode a cell that exists has a number below p. -/
theorem num_of_has {s : State} (hv : s.valuesInv) (hm : s.mode = .witness) {c : CellName} (h : s.has c = true) :
    ∃ n < Config.fieldP, s.num c = some n := by
  obtain ⟨v, hc⟩ := Option.isSome_iff_exists.mp h
  obtain ⟨n, hn, rfl⟩ := readOk_cell hv hc hm
  exact ⟨n, hn, by simp only [State.num, hc]⟩

theorem sumTerms_some {rd : CellName → Option Nat} : ∀ {ts : List Term}, (∀ c ∈ ts.map Prod.snd, ∃ n, rd c = some n) →
    ∃ x, sumTerms rd ts = some x
  | [], _ => ⟨0, rfl⟩
  | (a, y) :: ts, h => by
    obtain ⟨n, hn⟩ := h y (by simp)
    obtain ⟨x, hx⟩ := sumTerms_some (ts := ts) fun c hc => h c (List.mem_cons_of_mem _ hc)
    exact ⟨a * n + x, by simp only [sumTerms, hn, hx]⟩

theorem sumCells_some {rd : CellName → Option Nat} : ∀ {ys : List CellName}, (∀ c ∈ ys, ∃ n, rd c = some n) →
    ∃ x, sumCells rd ys = some x
  | [], _ => ⟨0, rfl⟩
  | y :: ys, h => by
    obtain ⟨n, hn⟩ := h y (by simp)
    obtain ⟨x, hx⟩ := sumCells_some (ys := ys) fun c hc => h c (List.mem_cons_of_mem _ hc)
    exact ⟨n + x, by simp only [sumCells, hn, hx]⟩

/-- A predicate over known numbers has a truth value. -/
theorem holds_some {cuts : TagCuts} {rd : CellName → Option Nat} {k : Constraint} (h : ∀ c ∈ k.cells, ∃ n, rd c = some n) :
    ∃ b, k.holds cuts rd = some b := by
  cases k with
  | lookup t d s m =>
    simp only [Constraint.cells, List.forall_mem_cons] at h
    obtain ⟨⟨a, ha⟩, ⟨b, hb⟩, ⟨c, hc⟩, -⟩ := h
    exact ⟨_, by simp only [Constraint.holds, ha, hb, hc]; rfl⟩
  | recomb t d s =>
    simp only [Constraint.cells, List.forall_mem_cons] at h
    obtain ⟨⟨a, ha⟩, ⟨b, hb⟩, ⟨c, hc⟩, -⟩ := h
    exact ⟨_, by simp only [Constraint.holds, ha, hb, hc]; rfl⟩
  | lin x ts =>
    simp only [Constraint.cells, List.forall_mem_cons] at h
    obtain ⟨⟨a, ha⟩, h⟩ := h
    obtain ⟨y, hy⟩ := sumTerms_some h
    exact ⟨_, by simp only [Constraint.holds, ha, hy]; rfl⟩
  | spreadsum ts k0 a b c d =>
    simp only [Constraint.cells, List.forall_mem_append, List.forall_mem_cons] at h
    obtain ⟨h, ⟨a, ha⟩, ⟨b, hb⟩, ⟨c, hc⟩, ⟨d, hd⟩, -⟩ := h
    obtain ⟨y, hy⟩ := sumTerms_some h
    exact ⟨_, by simp only [Constraint.holds, ha, hb, hc, hd, hy]; rfl⟩
  | modsum ys k r c =>
    simp only [Constraint.cells, List.forall_mem_append, List.forall_mem_cons] at h
    obtain ⟨h, ⟨a, ha⟩, ⟨b, hb⟩, -⟩ := h
    obtain ⟨y, hy⟩ := sumCells_some h
    exact ⟨_, by simp only [Constraint.holds, ha, hb, hy]; rfl⟩
  | carry c m =>
    simp only [Constraint.cells, List.forall_mem_cons] at h
    obtain ⟨⟨a, ha⟩, -⟩ := h
    exact ⟨_, by simp only [Constraint.holds, ha]; rfl⟩
  | copy a b =>
    simp only [Constraint.cells, List.forall_mem_cons] at h
    obtain ⟨⟨a, ha⟩, ⟨b, hb⟩, -⟩ := h
    exact ⟨_, by simp only [Constraint.holds, ha, hb]; rfl⟩

/-- In WITNESS mode, while `UNSAT` is 0, every recorded instance is true (20_memory.md R73). -/
theorem holds_of_verdict {s : State} (h : s.verdictInv) (hv : s.valuesInv) (hm : s.mode = .witness)
    (hu : s.unsat = false) {k : Constraint} (hk : k ∈ s.cons) : k.holds s.tagCuts s.num = some true := by
  obtain ⟨b, hb⟩ := holds_some (cuts := s.tagCuts) (rd := s.num) (k := k) fun c hc => by
    obtain ⟨n, -, hn⟩ := num_of_has hv hm (h.1 k hk c hc)
    exact ⟨n, hn⟩
  cases b with
  | true => exact hb
  | false =>
    have := h.2
    rw [hu, hm] at this
    simp only [beq_self_eq_true, Bool.true_and] at this
    have e := List.any_eq_false.mp this.symm k hk
    rw [hb] at e
    simp at e

end Sys2Proof.Machine
end

