-- ==== Sys2Proof/Laws/Runs.lean ====
section
/-!
SUPPORT. In a block that is configured and has its table loaded no gate operation stops the machine: it succeeds or raises
a fault of the block (20_memory.md R71; 60_exceptions.md R256). `Runs m`: so does `m`, and the block stays booted.
-/

namespace Sys2Proof.Machine

open Sys2Proof

/-- How a computation ends. -/
def Ran {α : Type} : EStateM.Result Stop State α → Prop
  | .ok _ t => t.booted = true
  | .error .raised _ => True
  | .error (.stuck _) _ => False

def Runs {α : Type} (m : M α) : Prop := ∀ s : State, s.booted = true → Ran (m s)

theorem Runs.pure {α : Type} (a : α) : Runs (pure a : M α) := fun _ h => h

theorem Runs.bind {α β : Type} {m : M α} {f : α → M β} (hm : Runs m) (hf : ∀ a, Runs (f a)) : Runs (m >>= f) := by
  intro s h
  have h1 := hm s h
  show Ran (EStateM.bind m f s)
  unfold EStateM.bind
  cases hms : m s with
  | ok a t => rw [hms] at h1; exact hf a t h1
  | error e t => rw [hms] at h1; cases e <;> exact h1

theorem Runs.map {α β : Type} {m : M α} (g : α → β) (hm : Runs m) : Runs (g <$> m) := by
  intro s h
  have h1 := hm s h
  show Ran (EStateM.map g m s)
  unfold EStateM.map
  cases hms : m s with
  | ok a t => rw [hms] at h1; exact h1
  | error e t => rw [hms] at h1; cases e <;> exact h1

theorem Runs.get : Runs (get : M State) := fun _ h => h

theorem Runs.modify {g : State → State} (hc : ∀ s, (g s).config = s.config) (ht : ∀ s, (g s).table = s.table) :
    Runs (modify g : M PUnit) := fun s h => by
  show (g s).booted = true
  rw [State.booted, hc, ht]; exact h

theorem Runs.require (ok : Bool) (cause : FaultCause) (cmd : CmdWord) : Runs (require ok cause cmd) := by
  intro s h
  cases ok with
  | true => exact h
  | false => trivial

theorem Runs.request (rq : Request) (cause : FaultCause) (cmd : CmdWord) : Runs (request rq cause cmd) := by
  intro s h
  unfold Machine.request
  rcases s.hostAnswers with _ | ⟨_ | _, rest⟩
  · exact h
  · trivial
  · exact h

theorem Runs.memRead (cmd : CmdWord) (c : CellName) : Runs (memRead cmd c) := by
  intro s h
  unfold Machine.memRead
  cases s.cell c with
  | some v => exact h
  | none => trivial

theorem Runs.readHandle {n : Nat} (cmd : CmdWord) (file : State → Vector (Option Path) n) (i : Nat) :
    Runs (readHandle cmd file i) := by
  intro s h
  unfold Machine.readHandle
  cases handle? (file s) i with
  | some v => exact h
  | none => trivial

theorem Runs.assign (cmd : CmdWord) (c : CellName) (v : Val) : Runs (assign cmd c v) := by
  intro s h
  unfold Machine.assign Machine.memWrite
  cases s.cell c with
  | some w => trivial
  | none =>
    simp only
    split
    · trivial
    · have hr := Runs.request (.assign c.column c v) .assign cmd s h
      cases hq : Machine.request (.assign c.column c v) .assign cmd s with
      | error e t => rw [hq] at hr; cases e <;> exact hr
      | ok a t => rw [hq] at hr; exact hr

/-- Every instance but a COPY is registered. -/
theorem Runs.record (cmd : CmdWord) {k : Constraint} (hk : k.kind ≠ .copy) : Runs (record cmd k) := by
  intro s h
  unfold Machine.record
  split
  · rw [if_pos (registered_of_booted h hk)]; exact h
  · trivial

theorem Runs.lookupInput (cmd : CmdWord) (e : Nat) (d : CellName) : Runs (lookupInput cmd e d) := by
  intro s h
  unfold Machine.lookupInput
  cases s.mode with
  | shape => exact h
  | witness => exact Runs.map _ (Runs.memRead cmd d) s h

theorem Runs.readTerms (cmd : CmdWord) : ∀ ts, Runs (readTerms cmd ts)
  | [] => Runs.pure _
  | (_, y) :: ts => by
    unfold Machine.readTerms
    refine Runs.bind (Runs.memRead cmd y) fun v => Runs.bind (Runs.readTerms cmd ts) fun r => ?_
    split <;> exact Runs.pure _

theorem Runs.readWords (cmd : CmdWord) : ∀ ys, Runs (readWords cmd ys)
  | [] => Runs.pure _
  | y :: ys => by
    unfold Machine.readWords
    refine Runs.bind (Runs.memRead cmd _) fun v => Runs.bind (Runs.readWords cmd ys) fun r => ?_
    split <;> exact Runs.pure _

theorem Runs.opLookup (e : Nat) (d t sp : CellName) : Runs (opLookup e d t sp) :=
  Runs.bind Runs.get fun _ => Runs.bind (Runs.lookupInput _ e d) fun _ => Runs.bind (Runs.assign _ _ _) fun _ =>
    Runs.bind (Runs.assign _ _ _) fun _ => Runs.record _ (by simp [Constraint.kind])

theorem Runs.opRange (w : Nat) (d : CellName) (p : Path) : Runs (opRange w d p) := by
  refine Runs.bind (Runs.opLookup _ _ _ _) fun _ => ?_
  split
  · exact Runs.opLookup _ _ _ _
  · exact Runs.pure _

theorem Runs.opWord (p : Path) (v : Val) : Runs (opWord p v) :=
  Runs.bind Runs.get fun _ => Runs.bind (Runs.assign _ _ _) fun _ => Runs.bind (Runs.assign _ _ _) fun _ =>
    Runs.bind (Runs.assign _ _ _) fun _ => Runs.bind (Runs.record _ (by simp [Constraint.kind])) fun _ => Runs.bind (Runs.opLookup _ _ _ _) fun _ =>
      Runs.opLookup _ _ _ _

theorem Runs.opPieces (cmd : CmdWord) (v : Val) (p : Path) : ∀ i l, Runs (opPieces cmd v p i l)
  | _, [] => Runs.pure _
  | i, _ :: rest => Runs.bind (Runs.assign _ _ _) fun _ => Runs.bind (Runs.opRange _ _ _) fun _ =>
      Runs.opPieces cmd v p (i + 1) rest

theorem Runs.opDecomp (l : Layout) (x p : Path) : Runs (opDecomp l x p) :=
  Runs.bind (Runs.memRead _ _) fun _ => Runs.bind (Runs.opPieces _ _ _ _ _) fun _ =>
    Runs.record _ (by simp [Constraint.kind])

theorem Runs.opExtract (k : Nat) (ops : List OperandExpr) (p : Path) : Runs (opExtract k ops p) :=
  Runs.bind (Runs.require _ _ _) fun _ => Runs.bind Runs.get fun _ => Runs.bind (Runs.readTerms _ _) fun _ =>
    Runs.bind (Runs.opWord _ _) fun _ => Runs.bind (Runs.opWord _ _) fun _ => Runs.record _ (by simp [Constraint.kind])

theorem Runs.opModadd (n : Nat) (ys : List Path) (k : Nat) (p : Path) : Runs (opModadd n ys k p) :=
  Runs.bind (Runs.require _ _ _) fun _ => Runs.bind (Runs.readWords _ _) fun _ => Runs.bind (Runs.opWord _ _) fun _ =>
    Runs.bind (Runs.assign _ _ _) fun _ => Runs.bind (Runs.record _ (by simp [Constraint.kind])) fun _ =>
      Runs.record _ (by simp [Constraint.kind])

/-- COPY names cells of columns with equality, or has already raised `F_SHAPE`. -/
theorem Runs.opCopy (a b : CellName) : Runs (opCopy a b) := by
  by_cases hk : a.kind ≠ .table ∧ b.kind ≠ .table
  · refine Runs.bind (Runs.require _ _ _) fun _ => Runs.bind (Runs.request _ _ _) fun _ => fun s h => ?_
    unfold Machine.record
    split
    · have hr : s.registered (.copy a b) = true := by
        simp only [State.booted, Bool.and_eq_true, beq_iff_eq] at h
        have col : ∀ c : CellName, c.kind ≠ .table → stdConfig.equality.contains c.column = true := by
          intro c hc
          cases c <;> simp_all [CellName.kind, CellName.column, stdConfig]
        simp only [State.registered, h.1, col a hk.1, col b hk.2, Bool.and_self]
      rw [if_pos hr]; exact h
    · trivial
  · intro s h
    unfold Machine.opCopy
    rw [bind_error (require_fails s (by cases ha : a.kind <;> cases hb : b.kind <;> simp_all))]
    trivial

theorem Runs.opRotations (l : Layout) (x p : Path) : Runs (opRotations l x p) :=
  Runs.bind (Runs.opDecomp _ _ _) fun _ => Runs.opExtract _ _ _

theorem Runs.opCh (e f g p : Path) : Runs (opCh e f g p) :=
  Runs.bind (Runs.opExtract _ _ _) fun _ => Runs.opExtract _ _ _

theorem Runs.opMaj (a b c p : Path) : Runs (opMaj a b c p) := Runs.opExtract _ _ _

theorem Runs.opSchedIn (t : Nat) (v : Val) : Runs (opSchedIn t v) :=
  Runs.bind Runs.get fun _ => Runs.bind (Runs.opWord _ _) fun _ => Runs.modify (fun _ => rfl) fun _ => rfl

theorem Runs.opSched (t : Nat) : Runs (opSched t) :=
  Runs.bind Runs.get fun _ => Runs.bind (Runs.readHandle _ _ _) fun _ => Runs.bind (Runs.opRotations _ _ _) fun _ =>
    Runs.bind (Runs.readHandle _ _ _) fun _ => Runs.bind (Runs.opRotations _ _ _) fun _ =>
    Runs.bind (Runs.readHandle _ _ _) fun _ => Runs.bind (Runs.readHandle _ _ _) fun _ =>
    Runs.bind (Runs.opModadd _ _ _ _) fun _ => Runs.modify (fun _ => rfl) fun _ => rfl

theorem Runs.opRound (t : Nat) : Runs (opRound t) :=
  Runs.bind Runs.get fun _ => Runs.bind (Runs.readHandle _ _ _) fun _ => Runs.bind (Runs.readHandle _ _ _) fun _ =>
    Runs.bind (Runs.readHandle _ _ _) fun _ => Runs.bind (Runs.readHandle _ _ _) fun _ =>
    Runs.bind (Runs.readHandle _ _ _) fun _ => Runs.bind (Runs.readHandle _ _ _) fun _ =>
    Runs.bind (Runs.readHandle _ _ _) fun _ => Runs.bind (Runs.readHandle _ _ _) fun _ =>
    Runs.bind (Runs.opRotations _ _ _) fun _ => Runs.bind (Runs.opCh _ _ _ _) fun _ =>
    Runs.bind (Runs.readHandle _ _ _) fun _ => Runs.bind (Runs.opModadd _ _ _ _) fun _ =>
    Runs.bind (Runs.opRotations _ _ _) fun _ => Runs.bind (Runs.opMaj _ _ _ _) fun _ =>
    Runs.bind (Runs.opModadd _ _ _ _) fun _ => Runs.bind (Runs.opModadd _ _ _ _) fun _ =>
    Runs.bind (Runs.opModadd _ _ _ _) fun _ => Runs.modify (fun _ => rfl) fun _ => rfl

/-- INIT_WORD with an item where its source is `data`. -/
theorem Runs.opInitWord (src : WordSource) (i : Nat) {r : OpRec} (h : src = .data → ∃ v, r = .value v) :
    Runs (opInitWord src i r) := by
  refine Runs.bind Runs.get fun _ => Runs.bind ?_ fun _ => Runs.modify (fun _ => rfl) fun _ => rfl
  cases src with
  | iv => exact Runs.bind (Runs.opWord _ _) fun _ => Runs.opCopy _ _
  | data =>
    obtain ⟨v, rfl⟩ := h rfl
    exact Runs.opWord _ _
  | digest =>
    exact Runs.bind (Runs.readHandle _ _ _) fun _ => Runs.bind (Runs.memRead _ _) fun _ =>
      Runs.bind (Runs.opWord _ _) fun _ => Runs.opCopy _ _

theorem Runs.opDigestWord (i : Nat) : Runs (opDigestWord i) :=
  Runs.bind Runs.get fun _ => Runs.bind (Runs.readHandle _ _ _) fun _ => Runs.bind (Runs.readHandle _ _ _) fun _ =>
    Runs.bind (Runs.opModadd _ _ _ _) fun _ => Runs.modify (fun _ => rfl) fun _ => rfl

theorem Runs.readHandles {n : Nat} (cmd : CmdWord) (file : State → Vector (Option Path) n) :
    ∀ is, Runs (readHandles cmd file is)
  | [] => Runs.pure _
  | _ :: is => Runs.bind (Runs.readHandle _ _ _) fun _ => Runs.bind (Runs.readHandles cmd file is) fun _ => Runs.pure _

theorem Runs.readAll (cmd : CmdWord) : ∀ cs, Runs (readAll cmd cs)
  | [] => Runs.pure _
  | _ :: cs => Runs.bind (Runs.memRead _ _) fun _ => Runs.bind (Runs.readAll cmd cs) fun _ => Runs.pure _

theorem Runs.setOutputs (d : List DoutItem) (h : List Path) : Runs (setOutputs d h) := fun _ hs => hs

theorem Runs.whenDrained {m : M Unit} (hm : Runs m) : Runs (whenDrained m) := by
  intro s hs
  unfold Machine.whenDrained
  split
  · exact hs
  · exact hm s hs

theorem Runs.finishInit (cmd : CmdWord) : Runs (finishInit cmd) :=
  Runs.bind (Runs.readHandles _ _ _) fun _ => Runs.setOutputs _ _

theorem Runs.finishCompress (cmd : CmdWord) : Runs (finishCompress cmd) :=
  Runs.bind (Runs.readHandles _ _ _) fun _ => Runs.bind (Runs.readAll _ _) fun _ =>
    Runs.bind (Runs.readHandles _ _ _) fun _ => Runs.setOutputs _ _

theorem Runs.finishDigest (cmd : CmdWord) : Runs (finishDigest cmd) :=
  Runs.bind (Runs.readHandles _ _ _) fun _ => Runs.bind (Runs.readAll _ _) fun _ =>
    Runs.bind (Runs.modify (fun _ => rfl) fun _ => rfl) fun _ => Runs.setOutputs _ _

theorem Runs.toOutcome {m : M Unit} (hm : Runs m) {s : State} (hs : s.booted = true) : ∃ t, toOutcome m s = .next t := by
  have h1 := hm s hs
  unfold Machine.toOutcome
  rcases hms : m s with ⟨a, u⟩ | ⟨⟨⟩ | f, u⟩ <;> rw [hms] at h1
  · exact ⟨u, rfl⟩
  · exact ⟨u, rfl⟩
  · exact h1.elim

/-- An operation performed as the head of Q has a next state. -/
theorem Runs.runEntry {body : OpRec → M Unit} {s : State} {e : QEntry} {rest : List QEntry} (hq : s.q = e :: rest)
    (hm : Runs (body e.opnd)) (hs : s.booted = true) : ∃ t, runEntry s body = .next t := by
  unfold Machine.runEntry
  rw [hq]
  exact hm.toOutcome (s := { s with q := rest }) hs

/-! ### Commands: nothing they do can stop the machine -/

/-- How a computation that cannot stop the machine ends. -/
def Answered {α : Type} : EStateM.Result Stop State α → Prop
  | .error (.stuck _) _ => False
  | _ => True

/-- From every state the computation succeeds or raises a fault of the block. -/
def Answers {α : Type} (m : M α) : Prop := ∀ s, Answered (m s)

theorem Answers.bind {α β : Type} {m : M α} {f : α → M β} (hm : Answers m) (hf : ∀ a, Answers (f a)) :
    Answers (m >>= f) := by
  intro s
  have h1 := hm s
  show Answered (EStateM.bind m f s)
  unfold EStateM.bind
  cases hms : m s with
  | ok a t => exact hf a t
  | error e t => rw [hms] at h1; cases e <;> exact h1

theorem Answers.pure {α : Type} (a : α) : Answers (pure a : M α) := fun _ => trivial
theorem Answers.get : Answers (get : M State) := fun _ => trivial
theorem Answers.modify (g : State → State) : Answers (modify g : M PUnit) := fun _ => trivial
theorem Answers.raise {α : Type} (cause : FaultCause) (cmd : CmdWord) : Answers (raise cause cmd : M α) := fun _ => trivial

theorem Answers.require (ok : Bool) (cause : FaultCause) (cmd : CmdWord) : Answers (require ok cause cmd) := by
  intro s; cases ok <;> trivial

theorem Answers.checkSequence (i : Instr) : Answers (checkSequence i) := fun s => Answers.require _ _ _ s

theorem Answers.request (rq : Request) (cause : FaultCause) (cmd : CmdWord) : Answers (request rq cause cmd) := by
  intro s
  unfold Machine.request
  rcases s.hostAnswers with _ | ⟨_ | _, rest⟩ <;> trivial

theorem Answers.memWrite (cmd : CmdWord) (b : Bool) (c : CellName) (v : Val) : Answers (memWrite cmd b c v) := by
  intro s
  unfold Machine.memWrite
  cases s.cell c with
  | some w => trivial
  | none =>
    simp only
    split
    · trivial
    · have hr := Answers.request (.assign c.column c v) .assign cmd s
      cases hq : Machine.request (.assign c.column c v) .assign cmd s with
      | error e t => rw [hq] at hr; cases e <;> exact hr
      | ok a t => trivial

theorem Answers.seqAll : ∀ {ms : List (M Unit)}, (∀ m ∈ ms, Answers m) → Answers (seqAll ms)
  | [], _ => Answers.pure _
  | m :: _, h => Answers.bind (h m List.mem_cons_self) fun _ => Answers.seqAll fun m' hm => h m' (List.mem_cons_of_mem _ hm)

theorem Answers.loadTable (cmd : CmdWord) : Answers (loadTable cmd) := by
  intro s
  unfold Machine.loadTable
  split
  · rcases takeAnswers s.hostAnswers tableCells with ⟨n, _ | _, rest⟩ <;> trivial
  · trivial

theorem Answers.setOutputs (d : List DoutItem) (h : List Path) : Answers (setOutputs d h) := fun _ => trivial
theorem Answers.setDout (d : DoutItem) : Answers (setDout d) := Answers.setOutputs _ _

theorem Answers.opBitsOf (n : Width) : ∀ v, Answers (opBitsOf n v)
  | .known _ => Answers.bind (Answers.require _ _ _) fun _ => Answers.setDout _
  | .unknown => Answers.setDout _

theorem Answers.beginBlock (q : List QEntry) : Answers (beginBlock q) := Answers.modify _

theorem Answers.runCommand {body : List DinItem → M Unit} (hm : ∀ d, Answers (body d)) (s : State) :
    ∃ t, runCommand s body = .next t := by
  have out : ∀ d u, ∃ t, toOutcome (body d) u = .next t := by
    intro d u
    have h1 := hm d u
    unfold toOutcome
    rcases hms : body d u with ⟨a, v⟩ | ⟨⟨⟩ | f, v⟩ <;> rw [hms] at h1
    · exact ⟨v, rfl⟩
    · exact ⟨v, rfl⟩
    · exact h1.elim
  unfold Machine.runCommand
  cases s.cmds with
  | nil => exact out _ _
  | cons c rest => exact out _ _

end Sys2Proof.Machine
end

