-- ==== Sys2Proof/Laws/Sequencer.lean ====
section
/-!
SUPPORT. The sequencer (10_state.md R24; 30_encoding.md R99): which entries the commands queue, and a triple for commands
whose every fault leaves the sequencer invariant.
-/

namespace Sys2Proof.Machine

open Sys2Proof

/-- What an operation of the queue never changes. -/
structure SameUnit (s : State) (rest : List QEntry) (u : State) : Prop where
  a : u.phase = s.phase
  d : u.config = s.config
  e : u.table = s.table

/-- An operation leaves the rest of Q, or faults and empties it. -/
theorem same_closed (s : State) (rest : List QEntry) : GateClosed (fun u => SameUnit s rest u ∧ u.q = rest ∧ u.halted = false) (fun u => SameUnit s rest u ∧ u.q = []) where
  fault := fun _ _ _ _ ⟨⟨a,d,e⟩, _⟩ => ⟨⟨a,d,e⟩, rfl⟩
  host := fun _ _ _ ⟨⟨a,d,e⟩, h⟩ => ⟨⟨a,d,e⟩, h⟩
  write := fun _ _ _ ⟨⟨a,d,e⟩, h⟩ _ _ => ⟨⟨a,d,e⟩, h⟩
  record := fun _ _ ⟨⟨a,d,e⟩, h⟩ _ => ⟨⟨a,d,e⟩, h⟩
  regs := fun _ _ _ _ _ _ _ _ ⟨⟨a,d,e⟩, h⟩ => ⟨⟨a,d,e⟩, h⟩

/-- A fault entry keeps the sequencer invariant. -/
theorem sequencerInv_fault {s : State} {c k} (h : s.sequencerInv) : (faultEntry c k s).sequencerInv :=
  ⟨by simp [faultEntry], by simp [faultEntry], h.2.2.1, h.2.2.2.1, by simp [faultEntry]⟩

/-- From `P` the computation ends in `Q`, or in a fault that keeps the sequencer invariant, or is stuck. -/
def Leads {α} (P : State → Prop) (m : M α) (Q : α → State → Prop) : Prop := ∀ s, P s → match m s with | .ok a t => Q a t | .error .raised t => t.sequencerInv | .error (.stuck _) _ => True

theorem Leads.bind {α β} {P} {m : M α} {f : α → M β} {Q R} (h : Leads P m Q) (hf : ∀ a, Leads (Q a) (f a) R) : Leads P (m >>= f) R := by
  intro s hs
  have := h s hs
  show match EStateM.bind m f s with | .ok a t => R a t | .error .raised t => t.sequencerInv | .error (.stuck _) _ => True
  unfold EStateM.bind
  cases hm : m s with
  | ok a t => rw [hm] at this; exact hf a t this
  | error e t => rw [hm] at this; cases e <;> exact this

theorem Leads.require {P} {ok c k} (hP : ∀ s, P s → s.sequencerInv) : Leads P (require ok c k) (fun _ s => P s) := by
  intro s hs
  cases ok
  · exact sequencerInv_fault (hP s hs)
  · exact hs

theorem Leads.check {P} {i} (hP : ∀ s, P s → s.sequencerInv) : Leads P (checkSequence i) (fun _ s => P s ∧ sequenceOk i s = true) := by
  intro s hs
  unfold checkSequence
  cases h : sequenceOk i s with
  | true => exact ⟨hs, h⟩
  | false => exact sequencerInv_fault (hP s hs)

theorem Leads.weaken {α} {P} {m : M α} {Q R} (h : Leads P m Q) (hq : ∀ a s, Q a s → R a s) : Leads P m R := by
  intro s hs
  have := h s hs
  cases hm : m s with
  | ok a t => rw [hm] at this; exact hq _ _ this
  | error e t => rw [hm] at this; cases e <;> exact this

theorem Leads.keeps {P : State → Prop} {α} {m : M α} (h : Keeps P State.sequencerInv m) : Leads P m (fun _ => P) := by
  intro s hs
  have := h s hs
  cases hm : m s with
  | ok a t => rw [hm] at this; exact this
  | error e t => rw [hm] at this; cases e <;> exact this

/-- The block waits in phase `ph` with the sequencer invariant. -/
structure Quiet (ph : Phase) (s : State) : Prop where
  inv : s.sequencerInv
  q : s.q = []
  h : s.halted = false
  p : s.phase = ph

/-- Waiting in a phase under one CONFIG is closed under the updates of operations. -/
theorem quiet_closed (ph) (cf : Option ConfigRecord) : GateClosed (fun u => Quiet ph u ∧ u.config = cf) State.sequencerInv where
  fault := fun _ _ _ _ h => sequencerInv_fault h.1.inv
  host := fun _ _ _ h => ⟨⟨h.1.inv, h.1.q, h.1.h, h.1.p⟩, h.2⟩
  write := fun _ _ _ h _ _ => ⟨⟨h.1.inv, h.1.q, h.1.h, h.1.p⟩, h.2⟩
  record := fun _ _ h _ => ⟨⟨h.1.inv, h.1.q, h.1.h, h.1.p⟩, h.2⟩
  regs := fun _ _ _ _ _ _ _ _ h => ⟨⟨h.1.inv, h.1.q, h.1.h, h.1.p⟩, h.2⟩

/-- A command whose computation leads to the sequencer invariant keeps it. -/
theorem Leads.out {P : State → Prop} {body : List DinItem → M Unit} {s t : State} (hP : ∀ c, P { s with cmds := c })
   (h : ∀ d, Leads P (body d) (fun _ t => t.sequencerInv)) (e : runCommand s body = .next t) : t.sequencerInv := by
  unfold runCommand at e
  have key : ∀ d c, toOutcome (body d) { s with cmds := c } = .next t → t.sequencerInv := by
    intro d c e
    have := h d _ (hP c)
    unfold toOutcome at e
    rcases hms : body d { s with cmds := c } with ⟨a, v⟩ | ⟨⟨⟩ | f, v⟩ <;> rw [hms] at this e
    · injection e with e; subst e; exact this
    · injection e with e; subst e; exact this
    · cases e
  cases hc : s.cmds with
  | nil => rw [hc] at e; exact key [] [] (by rw [← hc]; exact e)
  | cons c rest => rw [hc] at e; exact key _ _ e

/-- The entries queued without items are legal (30_encoding.md R99). -/
theorem fixedEntries_wf : (∀ src : WordSource, src ≠ .data → ∀ e ∈ initEntries src, e.wf = true) ∧ (∀ e ∈ digestEntries, e.wf = true) := by
  refine ⟨?_, by decide +kernel⟩
  intro src; cases src
  · intro _; decide +kernel
  · intro h; exact absurd rfl h
  · intro _; decide +kernel

/-- The entries queued with items are legal (30_encoding.md R99). -/
theorem itemEntries_wf : (∀ vs : List Val, vs.length = 8 → ∀ e ∈ itemEntries (.initWord .data) 0 vs, e.wf = true) ∧ (∀ vs : List Val, vs.length = 16 → ∀ e ∈ compressEntries vs, e.wf = true) := by
  have d1 : ∀ i < 8, decode (encode (.initWord .data i)) = .ok (.initWord .data i) := by decide +kernel
  have d2 : ∀ i < 16, decode (encode (.schedIn i)) = .ok (.schedIn i) := by decide +kernel
  refine ⟨?_, ?_⟩
  · intro vs hl e he
    rw [itemEntries_eq, hl] at he
    simp only [List.mem_map, List.mem_range] at he
    obtain ⟨i, hi, rfl⟩ := he
    simp only [Nat.zero_add, QEntry.wf, d1 i hi]
  · intro vs hl e he
    unfold compressEntries at he
    rw [itemEntries_eq, hl] at he
    simp only [List.mem_append] at he
    rcases he with (he | he) | he
    · simp only [List.mem_map, List.mem_range] at he
      obtain ⟨i, hi, rfl⟩ := he
      simp only [Nat.zero_add, QEntry.wf, d2 i hi]
    · revert e; decide +kernel
    · revert e; decide +kernel

end Sys2Proof.Machine
end

