-- ==== Sys2Proof/Laws/Shape.lean ====
section
/-!
SUPPORT. Two runs that differ in MODE, UNSAT and values only (46_facade.md R241): what every operation, command and
completion does to two such states, said once per operation.
-/

namespace Sys2Proof.Machine

open Sys2Proof

/-- The cells without their values. -/
def eraseCells (l : List (CellName × Val)) : List (CellName × Val) := l.map fun e => (e.1, .unknown)

theorem findCell_erase (k : List Nat) : ∀ l, findCell k (eraseCells l) = (findCell k l).map fun _ => Val.unknown
  | [] => rfl
  | (c, v) :: rest => by
    have ih := findCell_erase k rest
    simp only [eraseCells, List.map_cons, findCell] at ih ⊢
    split <;> simp_all

theorem insertCell_erase (c : CellName) (v : Val) :
    ∀ l, eraseCells (insertCell c v l) = insertCell c .unknown (eraseCells l)
  | [] => rfl
  | (d, w) :: rest => by
    have ih := insertCell_erase c v rest
    simp only [eraseCells, List.map_cons, insertCell] at ih ⊢
    split <;> simp_all

/-- The two states are the same but for MODE, UNSAT and every value. -/
abbrev Sim (s s' : State) : Prop := s.erased = s'.erased

theorem sim_iff {s s' : State} : Sim s s' ↔
    s.phase = s'.phase ∧ s.q.map (fun e => (⟨e.word, e.opnd.erase⟩ : QEntry)) = s'.q.map (fun e => ⟨e.word, e.opnd.erase⟩) ∧
    s.halted = s'.halted ∧ s.faultCode = s'.faultCode ∧ s.faultInfo = s'.faultInfo ∧ s.digValid = s'.digValid ∧
    s.blk = s'.blk ∧ s.stateReg = s'.stateReg ∧ s.ivUsed = s'.ivUsed ∧ s.w = s'.w ∧ s.dig = s'.dig ∧
    s.config = s'.config ∧ s.table = s'.table ∧ eraseCells s.mem.cells = eraseCells s'.mem.cells ∧
    s.mem.tabCells = s'.mem.tabCells ∧ s.cons = s'.cons ∧ s.dout.map DoutItem.erase = s'.dout.map DoutItem.erase ∧
    s.hout = s'.hout ∧ s.resetIn = s'.resetIn ∧ s.modeIn = s'.modeIn ∧
    s.cmds.map (fun c => (⟨c.word, c.din.map DinItem.erase⟩ : Presented)) = s'.cmds.map (fun c => ⟨c.word, c.din.map DinItem.erase⟩) ∧
    s.hostAnswers = s'.hostAnswers ∧ s.requests.map Request.erase = s'.requests.map Request.erase ∧
    s.tagCuts = s'.tagCuts ∧ s.inst = s'.inst := by
  simp only [Sim, State.erased, State.mk.injEq, Memory.mk.injEq, true_and, eraseCells]
  tauto

theorem Sim.has {s s' : State} (h : Sim s s') (c : CellName) : (s.cell c).isSome = (s'.cell c).isSome := by
  obtain ⟨-, -, -, -, -, -, -, -, -, -, -, -, -, hm, ht, -, -, -, -, -, -, -, -, hc, -⟩ := sim_iff.mp h
  have hf := fun k => congrArg (findCell k) hm
  have hf' : ∀ k, (findCell k s.mem.cells).isSome = (findCell k s'.mem.cells).isSome := by
    intro k
    have := congrArg Option.isSome (hf k)
    simpa [findCell_erase] using this
  unfold State.cell
  cases c <;> simp only [Memory.get, ht, hc, hf']

/-- How two computations end alike: both go on with related results, both fault, or one stops by name. -/
def Alike {α : Type} (L : List CellName) (R : α → α → Prop) :
    EStateM.Result Stop State α → EStateM.Result Stop State α → Prop
  | .ok a t, .ok b t' => R a b ∧ Sim t t' ∧ ∀ c ∈ L, (t.cell c).isSome = true
  | .error .raised t, .error .raised t' => Sim t t'
  | .error (.stuck _) _, _ => True
  | _, .error (.stuck _) _ => True
  | _, _ => False

theorem alike_stuck {α : Type} {L : List CellName} {R : α → α → Prop} (x : EStateM.Result Stop State α) (f : Fault) (t : State) :
    Alike L R x (.error (.stuck f) t) := by
  rcases x with ⟨_, _⟩ | ⟨⟨⟩ | _, _⟩ <;> trivial

/-- From two states alike in which the cells `L` exist, the two computations end alike, the cells `L'` existing. -/
def Twin {α : Type} (L L' : List CellName) (R : α → α → Prop) (m m' : M α) : Prop :=
  ∀ s s', Sim s s' → (∀ c ∈ L, (s.cell c).isSome = true) → Alike L' R (m s) (m' s')

variable {L L' L'' : List CellName}

theorem Twin.pure {α : Type} {R : α → α → Prop} {a b : α} (h : R a b) : Twin L L R (pure a : M α) (pure b) :=
  fun _ _ hs hl => ⟨h, hs, hl⟩

theorem Twin.bind {α β : Type} {R : α → α → Prop} {S : β → β → Prop} {m m' : M α} {f f' : α → M β}
    (hm : Twin L L' R m m') (hf : ∀ a b, R a b → Twin L' L'' S (f a) (f' b)) :
    Twin L L'' S (m >>= f) (m' >>= f') := by
  intro s s' hs hl
  have h1 := hm s s' hs hl
  show Alike L'' S (EStateM.bind m f s) (EStateM.bind m' f' s')
  unfold EStateM.bind
  rcases hms : m s with ⟨a, t⟩ | ⟨⟨⟩ | _, t⟩ <;> rcases hms' : m' s' with ⟨b, t'⟩ | ⟨⟨⟩ | _, t'⟩ <;>
    rw [hms, hms'] at h1
  · exact hf a b h1.1 t t' h1.2.1 h1.2.2
  · exact h1.elim
  · exact alike_stuck _ _ _
  · exact h1.elim
  · exact h1
  all_goals trivial

theorem Twin.weaken {α : Type} {R R' : α → α → Prop} {m m' : M α} (hm : Twin L L' R m m') (hl : ∀ c ∈ L'', c ∈ L')
    (hr : ∀ a b, R a b → R' a b) : Twin L L'' R' m m' := by
  intro s s' hs h
  have h1 := hm s s' hs h
  rcases hms : m s with ⟨a, t⟩ | ⟨⟨⟩ | _, t⟩ <;> rcases hms' : m' s' with ⟨b, t'⟩ | ⟨⟨⟩ | _, t'⟩ <;>
    rw [hms, hms'] at h1
  · exact ⟨hr _ _ h1.1, h1.2.1, fun c hc => h1.2.2 c (hl c hc)⟩
  all_goals exact h1

/-! ### Updates and reads -/

theorem Twin.get : Twin L L Sim (get : M State) get := fun _ _ hs hl => ⟨hs, hs, hl⟩

theorem Sim.faultEntry {s s' : State} (h : Sim s s') (cause : FaultCause) (cmd : CmdWord) :
    Sim (faultEntry cause cmd s) (faultEntry cause cmd s') := by
  have := sim_iff.mp h
  refine sim_iff.mpr ?_
  simp_all [Machine.faultEntry]

theorem Twin.raise {α : Type} {R : α → α → Prop} (cause : FaultCause) (cmd : CmdWord) :
    Twin L L' R (raise cause cmd : M α) (raise cause cmd) := fun _ _ hs _ => hs.faultEntry cause cmd

theorem Twin.stuck {α : Type} {R : α → α → Prop} (f f' : Fault) : Twin L L' R (stuck f : M α) (stuck f') :=
  fun _ _ _ _ => trivial

theorem Twin.require {ok ok' : Bool} (h : ok = ok') (cause : FaultCause) (cmd : CmdWord) :
    Twin L L Eq (require ok cause cmd) (require ok' cause cmd) := by
  subst h
  unfold Machine.require
  split
  · exact Twin.pure rfl
  · exact Twin.raise _ _

/-- An update that keeps the cells. -/
theorem Twin.modify {g g' : State → State} (h : ∀ s s', Sim s s' → Sim (g s) (g' s'))
    (hc : ∀ s c, (g s).cell c = s.cell c) : Twin L L Eq (modify g : M PUnit) (modify g') :=
  fun s s' hs hl => ⟨rfl, h s s' hs, fun c hcl => by
    show ((g s).cell c).isSome = true
    rw [hc]; exact hl c hcl⟩

theorem Sim.request {s s' : State} (h : Sim s s') {rq rq' : Request} (hr : rq.erase = rq'.erase) (as : List Bool) :
    Sim { s with requests := rq :: s.requests, hostAnswers := as } { s' with requests := rq' :: s'.requests, hostAnswers := as } := by
  have := sim_iff.mp h
  refine sim_iff.mpr ?_
  simp_all

theorem Sim.answers {s s' : State} (h : Sim s s') : s.hostAnswers = s'.hostAnswers := by
  have := sim_iff.mp h
  tauto

theorem Twin.request {rq rq' : Request} (hr : rq.erase = rq'.erase) (cause : FaultCause) (cmd : CmdWord) :
    Twin L L Eq (request rq cause cmd) (request rq' cause cmd) := by
  intro s s' hs hl
  have ha := hs.answers
  unfold Machine.request
  rw [← ha]
  rcases s.hostAnswers with _ | ⟨_ | _, rest⟩
  · exact ⟨rfl, hs.request hr [], hl⟩
  · exact (hs.request hr rest).faultEntry cause cmd
  · exact ⟨rfl, hs.request hr rest, hl⟩

theorem Twin.memRead (cmd : CmdWord) (c : CellName) : Twin L L (fun _ _ => True) (memRead cmd c) (memRead cmd c) := by
  intro s s' hs hl
  have h := hs.has c
  unfold Machine.memRead
  cases h1 : s.cell c <;> cases h2 : s'.cell c <;> simp [h1, h2] at h
  · exact hs.faultEntry _ _
  · exact ⟨trivial, hs, hl⟩

theorem Sim.insert {s s' : State} (h : Sim s s') (c : CellName) (v v' : Val) :
    Sim { s with mem := s.mem.insert c v } { s' with mem := s'.mem.insert c v' } := by
  have := sim_iff.mp h
  refine sim_iff.mpr ?_
  simp_all [Memory.insert, insertCell_erase]

theorem isSome_insert (s : State) (c c' : CellName) (v : Val) (hc : c.kind ≠ .table)
    (h : c' = c ∨ (s.cell c').isSome = true) :
    (State.cell { s with mem := s.mem.insert c v } c').isSome = true := by
  unfold State.cell at h ⊢
  by_cases e : c' = c
  · subst e; simp [Memory.get_insert_self _ _ _ _ hc]
  · rw [Memory.get_insert_ne _ _ _ e]; exact h.resolve_left e

theorem Twin.memWrite (cmd : CmdWord) (b : Bool) (c : CellName) (v v' : Val) :
    Twin L (c :: L) (fun _ _ => True) (memWrite cmd b c v) (memWrite cmd b c v') := by
  intro s s' hs hl
  have h := hs.has c
  unfold Machine.memWrite
  cases h1 : s.cell c <;> cases h2 : s'.cell c <;> simp [h1, h2] at h
  · simp only
    split
    · exact hs.faultEntry _ _
    · rename_i hk
      have hkind : c.kind ≠ .table := by intro e; simp [e] at hk
      have hr : (Request.assign c.column c v).erase = (Request.assign c.column c v').erase := rfl
      have h3 := Twin.request (L := L) hr FaultCause.assign cmd s s' hs hl
      rcases hms : Machine.request (.assign c.column c v) .assign cmd s with ⟨a, t⟩ | ⟨⟨⟩ | _, t⟩ <;>
      rcases hms' : Machine.request (.assign c.column c v') .assign cmd s' with ⟨a', t'⟩ | ⟨⟨⟩ | _, t'⟩ <;>
        rw [hms, hms'] at h3
      · refine ⟨trivial, h3.2.1.insert c _ _, fun c' hc' => isSome_insert _ _ _ _ hkind ?_⟩
        rcases List.mem_cons.mp hc' with e | e
        · exact Or.inl e
        · exact Or.inr (h3.2.2 c' e)
      all_goals exact h3
  · exact hs.faultEntry _ _

theorem Twin.assign (cmd : CmdWord) (c : CellName) (v v' : Val) :
    Twin L (c :: L) (fun _ _ => True) (Machine.assign cmd c v) (Machine.assign cmd c v') := Twin.memWrite _ _ _ _ _

theorem Twin.assign' (cmd : CmdWord) (c : CellName) (v v' : Val) :
    Twin L L (fun _ _ => True) (Machine.assign cmd c v) (Machine.assign cmd c v') :=
  (Twin.assign cmd c v v').weaken (fun _ h => List.mem_cons_of_mem _ h) fun _ _ _ => trivial

theorem Twin.record (cmd : CmdWord) (k : Constraint) : Twin L L Eq (record cmd k) (record cmd k) := by
  intro s s' hs hl
  have hf := sim_iff.mp hs
  have hall : k.cells.all (fun c => (s.cell c).isSome) = k.cells.all (fun c => (s'.cell c).isSome) := by
    congr 1; funext c; exact hs.has c
  have hreg : s.registered k = s'.registered k := by
    have e1 : s.config = s'.config := by tauto
    have e2 : s.table = s'.table := by tauto
    unfold State.registered
    rw [e1, e2]
  unfold Machine.record
  rw [hall, hreg]
  split
  · split
    · refine ⟨rfl, sim_iff.mpr ?_, hl⟩
      simp_all
    · trivial
  · exact hs.faultEntry _ _

theorem Twin.readHandle {n : Nat} (cmd : CmdWord) {file : State → Vector (Option Path) n}
    (hfile : ∀ s s', Sim s s' → file s = file s') (i : Nat) :
    Twin L L Eq (readHandle cmd file i) (readHandle cmd file i) := by
  intro s s' hs hl
  unfold Machine.readHandle
  rw [hfile s s' hs]
  cases handle? (file s') i with
  | some p => exact ⟨rfl, hs, hl⟩
  | none => exact hs.faultEntry _ _

theorem sim_stateReg (s s' : State) (h : Sim s s') : s.stateReg = s'.stateReg := by have := sim_iff.mp h; tauto
theorem sim_ivUsed (s s' : State) (h : Sim s s') : s.ivUsed = s'.ivUsed := by have := sim_iff.mp h; tauto
theorem sim_w (s s' : State) (h : Sim s s') : s.w = s'.w := by have := sim_iff.mp h; tauto
theorem sim_dig (s s' : State) (h : Sim s s') : s.dig = s'.dig := by have := sim_iff.mp h; tauto
theorem sim_blk {s s' : State} (h : Sim s s') : s.blk = s'.blk := by have := sim_iff.mp h; tauto

theorem Twin.readHandles {n : Nat} (cmd : CmdWord) {file : State → Vector (Option Path) n}
    (hfile : ∀ s s', Sim s s' → file s = file s') : ∀ is, Twin L L Eq (readHandles cmd file is) (readHandles cmd file is)
  | [] => Twin.pure rfl
  | i :: is => Twin.bind (Twin.readHandle cmd hfile i) fun _ _ e => Twin.bind (Twin.readHandles cmd hfile is) fun _ _ e' =>
      Twin.pure (by rw [e, e'])

theorem Twin.readAll (cmd : CmdWord) : ∀ cs, Twin L L (fun a b => a.length = b.length) (readAll cmd cs) (readAll cmd cs)
  | [] => Twin.pure rfl
  | c :: cs => Twin.bind (Twin.memRead cmd c) fun _ _ _ => Twin.bind (Twin.readAll cmd cs) fun _ _ e =>
      Twin.pure (by simp [e])

/-- Values are not compared. -/
abbrev anyTwo {α : Type} (_ _ : α) : Prop := True

theorem Twin.readTerms (cmd : CmdWord) : ∀ ts, Twin L L anyTwo (readTerms cmd ts) (readTerms cmd ts)
  | [] => Twin.pure trivial
  | (_, y) :: ts => by
    unfold Machine.readTerms
    refine Twin.bind (Twin.memRead cmd y) fun a b _ => Twin.bind (Twin.readTerms cmd ts) fun r r' _ => ?_
    split <;> split <;> exact Twin.pure trivial

theorem Twin.readWords (cmd : CmdWord) : ∀ ys, Twin L L anyTwo (readWords cmd ys) (readWords cmd ys)
  | [] => Twin.pure trivial
  | y :: ys => by
    unfold Machine.readWords
    refine Twin.bind (Twin.memRead cmd _) fun a b _ => Twin.bind (Twin.readWords cmd ys) fun r r' _ => ?_
    split <;> split <;> exact Twin.pure trivial

/-- A LOOKUP whose input exists. -/
theorem Twin.opLookup (e : Nat) (d t sp : CellName) (hd : d ∈ L) : Twin L L Eq (opLookup e d t sp) (opLookup e d t sp) := by
  refine Twin.bind Twin.get fun st st' _ => Twin.bind (R := anyTwo) (L' := L) ?_ fun y y' _ =>
    Twin.bind (Twin.assign' _ _ _ _) fun _ _ _ => Twin.bind (Twin.assign' _ _ _ _) fun _ _ _ => Twin.record _ _
  intro s s' hs hl
  have h1 : (s.cell d).isSome = true := hl d hd
  have h2 : (s'.cell d).isSome = true := hs.has d ▸ h1
  obtain ⟨v, hv⟩ := Option.isSome_iff_exists.mp h1
  obtain ⟨v', hv'⟩ := Option.isSome_iff_exists.mp h2
  have e1 : ∀ u : State, ∀ w, u.cell d = some w → ∃ r, lookupInput (encode (.lookup e)) e d u = .ok r u := by
    intro u w hw
    unfold lookupInput
    cases u.mode
    · exact ⟨_, rfl⟩
    · refine ⟨w.map fun n => red (((2 ^ e : Nat) : Int) * n), ?_⟩
      show EStateM.map _ _ u = _
      simp [EStateM.map, Machine.memRead, hw]
  obtain ⟨r, hr⟩ := e1 s v hv
  obtain ⟨r', hr'⟩ := e1 s' v' hv'
  rw [hr, hr']
  exact ⟨trivial, hs, hl⟩

/-! ### Operations -/

theorem Twin.opRange (w : Nat) (d : CellName) (p : Path) (hd : d ∈ L) : Twin L L Eq (opRange w d p) (opRange w d p) := by
  refine Twin.bind (Twin.opLookup _ _ _ _ hd) fun _ _ _ => ?_
  split
  · exact Twin.opLookup _ _ _ _ hd
  · exact Twin.pure rfl

theorem Twin.drop (c : CellName) {α : Type} {R : α → α → Prop} {m m' : M α} (hm : Twin L (c :: L') R m m') : Twin L L' R m m' :=
  hm.weaken (fun _ h => List.mem_cons_of_mem _ h) fun _ _ h => h

theorem Twin.opWord (p : Path) (v v' : Val) : Twin L L Eq (opWord p v) (opWord p v') := by
  refine Twin.bind Twin.get fun _ _ _ => Twin.bind (Twin.assign' _ _ _ _) fun _ _ _ => ?_
  refine Twin.drop (p.cell .lo) (Twin.drop (p.cell .hi) ?_)
  refine Twin.bind (L' := p.cell .lo :: L) (Twin.assign _ _ _ _) fun _ _ _ =>
    Twin.bind (L' := p.cell .hi :: p.cell .lo :: L) (Twin.assign _ _ _ _) fun _ _ _ =>
      Twin.bind (Twin.record _ _) fun _ _ _ => Twin.bind (Twin.opLookup _ _ _ _ (by simp)) fun _ _ _ =>
        Twin.opLookup _ _ _ _ (by simp)

theorem Twin.opPieces (cmd : CmdWord) (v v' : Val) (p : Path) :
    ∀ (L : List CellName) i l, Twin L L Eq (opPieces cmd v p i l) (opPieces cmd v' p i l)
  | _, _, [] => Twin.pure rfl
  | L, i, _ :: rest => Twin.drop (p.cell (.pIx i)) <|
      Twin.bind (Twin.assign _ _ _ _) fun _ _ _ => Twin.bind (Twin.opRange _ _ _ (by simp)) fun _ _ _ =>
        Twin.opPieces cmd v v' p _ (i + 1) rest

theorem Twin.opDecomp (l : Layout) (x p : Path) : Twin L L Eq (opDecomp l x p) (opDecomp l x p) :=
  Twin.bind (Twin.memRead _ _) fun _ _ _ => Twin.bind (Twin.opPieces _ _ _ _ _ _ _) fun _ _ _ => Twin.record _ _

theorem Twin.opExtract (k : Nat) (ops : List OperandExpr) (p : Path) :
    Twin L L Eq (opExtract k ops p) (opExtract k ops p) :=
  Twin.bind (Twin.require rfl _ _) fun _ _ _ => Twin.bind Twin.get fun _ _ _ => Twin.bind (Twin.readTerms _ _) fun _ _ _ =>
    Twin.bind (Twin.opWord _ _ _) fun _ _ _ => Twin.bind (Twin.opWord _ _ _) fun _ _ _ => Twin.record _ _

theorem Twin.opModadd (n : Nat) (ys : List Path) (k : Nat) (p : Path) :
    Twin L L Eq (opModadd n ys k p) (opModadd n ys k p) :=
  Twin.bind (Twin.require rfl _ _) fun _ _ _ => Twin.bind (Twin.readWords _ _) fun _ _ _ =>
    Twin.bind (Twin.opWord _ _ _) fun _ _ _ => Twin.bind (Twin.assign' _ _ _ _) fun _ _ _ =>
      Twin.bind (Twin.record _ _) fun _ _ _ => Twin.record _ _

theorem Twin.opCopy (a b : CellName) : Twin L L Eq (opCopy a b) (opCopy a b) :=
  Twin.bind (Twin.require rfl _ _) fun _ _ _ => Twin.bind (Twin.request rfl _ _) fun _ _ _ => Twin.record _ _

theorem Twin.opRotations (l : Layout) (x p : Path) : Twin L L Eq (opRotations l x p) (opRotations l x p) :=
  Twin.bind (Twin.opDecomp _ _ _) fun _ _ _ => Twin.opExtract _ _ _

theorem Twin.opCh (e f g p : Path) : Twin L L Eq (opCh e f g p) (opCh e f g p) :=
  Twin.bind (Twin.opExtract _ _ _) fun _ _ _ => Twin.opExtract _ _ _

theorem Twin.opMaj (a b c p : Path) : Twin L L Eq (opMaj a b c p) (opMaj a b c p) := Twin.opExtract _ _ _

theorem Twin.setOutputs {d d' : List DoutItem} (hd : d.map DoutItem.erase = d'.map DoutItem.erase) (h : List Path) :
    Twin L L Eq (setOutputs d h) (setOutputs d' h) := by
  intro s s' hs hl
  refine ⟨rfl, sim_iff.mpr ?_, hl⟩
  have := sim_iff.mp hs
  simp_all

theorem Sim.regs {s s' : State} (h : Sim s s') (st iv w dg) :
    Sim { s with stateReg := st, ivUsed := iv, w := w, dig := dg } { s' with stateReg := st, ivUsed := iv, w := w, dig := dg } := by
  have := sim_iff.mp h
  refine sim_iff.mpr ?_
  simp_all

theorem Twin.opSchedIn (t : Nat) (v v' : Val) : Twin L L Eq (opSchedIn t v) (opSchedIn t v') := by
  refine Twin.bind Twin.get fun st st' h => ?_
  rw [sim_blk h]
  refine Twin.bind (Twin.opWord _ _ _) fun _ _ _ => Twin.modify (fun s s' hs => ?_) fun _ _ => rfl
  have e := sim_iff.mp hs
  refine sim_iff.mpr ?_
  simp_all

theorem Twin.opSched (t : Nat) : Twin L L Eq (opSched t) (opSched t) := by
  refine Twin.bind Twin.get fun st st' h => ?_
  rw [sim_blk h]
  refine Twin.bind (Twin.readHandle _ sim_w _) fun _ _ e => ?_
  subst e
  refine Twin.bind (Twin.opRotations _ _ _) fun _ _ _ => Twin.bind (Twin.readHandle _ sim_w _) fun _ _ e => ?_
  subst e
  refine Twin.bind (Twin.opRotations _ _ _) fun _ _ _ => Twin.bind (Twin.readHandle _ sim_w _) fun _ _ e => ?_
  subst e
  refine Twin.bind (Twin.readHandle _ sim_w _) fun _ _ e => ?_
  subst e
  refine Twin.bind (Twin.opModadd _ _ _ _) fun _ _ _ => Twin.modify (fun s s' hs => ?_) fun _ _ => rfl
  have e := sim_iff.mp hs
  refine sim_iff.mpr ?_
  simp_all

theorem Twin.opRound (t : Nat) : Twin L L Eq (opRound t) (opRound t) := by
  refine Twin.bind Twin.get fun st st' h => ?_
  rw [sim_blk h]
  iterate 8
    refine Twin.bind (Twin.readHandle _ sim_stateReg _) fun _ _ e => ?_
    subst e
  refine Twin.bind (Twin.opRotations _ _ _) fun _ _ _ => Twin.bind (Twin.opCh _ _ _ _) fun _ _ _ =>
    Twin.bind (Twin.readHandle _ sim_w _) fun _ _ e => ?_
  subst e
  refine Twin.bind (Twin.opModadd _ _ _ _) fun _ _ _ => Twin.bind (Twin.opRotations _ _ _) fun _ _ _ =>
    Twin.bind (Twin.opMaj _ _ _ _) fun _ _ _ => Twin.bind (Twin.opModadd _ _ _ _) fun _ _ _ =>
    Twin.bind (Twin.opModadd _ _ _ _) fun _ _ _ => Twin.bind (Twin.opModadd _ _ _ _) fun _ _ _ =>
    Twin.modify (fun s s' hs => ?_) fun _ _ => rfl
  have e := sim_iff.mp hs
  refine sim_iff.mpr ?_
  simp_all

theorem Twin.opDigestWord (i : Nat) : Twin L L Eq (opDigestWord i) (opDigestWord i) := by
  refine Twin.bind Twin.get fun st st' h => ?_
  rw [sim_blk h]
  refine Twin.bind (Twin.readHandle _ sim_stateReg _) fun _ _ e => ?_
  subst e
  refine Twin.bind (Twin.readHandle _ sim_ivUsed _) fun _ _ e => ?_
  subst e
  refine Twin.bind (Twin.opModadd _ _ _ _) fun _ _ _ => Twin.modify (fun s s' hs => ?_) fun _ _ => rfl
  have e := sim_iff.mp hs
  refine sim_iff.mpr ?_
  simp_all

theorem OpRec.erase_value {r : OpRec} {v : Val} (h : r.erase = .value v) : ∃ w, r = .value w := by
  cases r <;> simp_all [OpRec.erase]

theorem Twin.opInitWord (src : WordSource) (i : Nat) {r r' : OpRec} (hr : r.erase = r'.erase) :
    Twin L L Eq (opInitWord src i r) (opInitWord src i r') := by
  refine Twin.bind Twin.get fun st st' h => ?_
  rw [sim_blk h]
  refine Twin.bind (R := Eq) (L' := L) ?_ fun _ _ _ => Twin.modify (fun s s' hs => ?_) fun _ _ => rfl
  · cases src with
    | iv => exact Twin.bind (Twin.opWord _ _ _) fun _ _ _ => Twin.opCopy _ _
    | data =>
      simp only [initBundle]
      split
      · rename_i v
        obtain ⟨w, rfl⟩ := OpRec.erase_value hr.symm
        exact Twin.opWord _ _ _
      · exact fun _ _ _ _ => trivial
    | digest =>
      refine Twin.bind (Twin.readHandle _ sim_dig _) fun _ _ e => ?_
      subst e
      exact Twin.bind (Twin.memRead _ _) fun _ _ _ => Twin.bind (Twin.opWord _ _ _) fun _ _ _ => Twin.opCopy _ _
  · have e := sim_iff.mp hs
    refine sim_iff.mpr ?_
    simp_all

theorem Sim.busy {s s' : State} (h : Sim s s') : s.busy = s'.busy := by
  have e := congrArg List.isEmpty (sim_iff.mp h).2.1
  simpa [State.busy] using e

theorem Twin.whenDrained {m m' : M Unit} (hm : Twin L L Eq m m') : Twin L L Eq (whenDrained m) (whenDrained m') := by
  intro s s' hs hl
  unfold Machine.whenDrained
  rw [hs.busy]
  split
  · exact ⟨rfl, hs, hl⟩
  · exact hm s s' hs hl

theorem vals_erase {vs vs' : List Val} (h : vs.length = vs'.length) :
    (vs.map DoutItem.val).map DoutItem.erase = (vs'.map DoutItem.val).map DoutItem.erase := by
  rw [List.map_map, List.map_map]
  show vs.map (fun _ => DoutItem.val .unknown) = vs'.map fun _ => DoutItem.val .unknown
  rw [List.map_const', List.map_const', h]

theorem Twin.finishInit (cmd : CmdWord) : Twin L L Eq (finishInit cmd) (finishInit cmd) := by
  refine Twin.bind (Twin.readHandles _ sim_stateReg _) fun _ _ e => ?_
  subst e
  exact Twin.setOutputs rfl _

theorem Twin.finishCompress (cmd : CmdWord) : Twin L L Eq (finishCompress cmd) (finishCompress cmd) := by
  refine Twin.bind (Twin.readHandles _ sim_stateReg _) fun _ _ e => ?_
  subst e
  refine Twin.bind (Twin.readAll _ _) fun _ _ hv => Twin.bind (Twin.readHandles _ sim_w _) fun _ _ e => ?_
  subst e
  exact Twin.setOutputs (vals_erase hv) _

theorem Twin.finishDigest (cmd : CmdWord) : Twin L L Eq (finishDigest cmd) (finishDigest cmd) := by
  refine Twin.bind (Twin.readHandles _ sim_dig _) fun _ _ e => ?_
  subst e
  refine Twin.bind (Twin.readAll _ _) fun _ _ hv =>
    Twin.bind (Twin.modify (fun s s' hs => ?_) fun _ _ => rfl) fun _ _ _ => Twin.setOutputs (vals_erase hv) _
  have e := sim_iff.mp hs
  refine sim_iff.mpr ?_
  simp_all

theorem Twin.toOutcome {α : Type} {R : α → α → Prop} {m m' : M α} (hm : Twin [] L R m m') {s s' t t' : State}
    (h : Sim s s') (e : toOutcome m s = .next t) (e' : toOutcome m' s' = .next t') : Sim t t' := by
  have h1 := hm s s' h (by simp)
  unfold Machine.toOutcome at e e'
  rcases hms : m s with ⟨a, u⟩ | ⟨⟨⟩ | f, u⟩ <;> rcases hms' : m' s' with ⟨a', u'⟩ | ⟨⟨⟩ | f', u'⟩ <;>
    rw [hms] at e h1 <;> rw [hms'] at e' h1 <;> simp only [Host.Outcome.next.injEq, reduceCtorEq] at e e'
  · subst e; subst e'; exact h1.2.1
  · exact h1.elim
  · exact h1.elim
  · subst e; subst e'; exact h1

theorem Twin.runEntry {body body' : OpRec → M Unit} {s s' t t' : State} (h : Sim s s')
    (hm : ∀ r r', r.erase = r'.erase → Twin [] [] Eq (body r) (body' r'))
    (e : runEntry s body = .next t) (e' : runEntry s' body' = .next t') : Sim t t' := by
  have hf := sim_iff.mp h
  have hq := hf.2.1
  unfold Machine.runEntry at e e'
  cases h1 : s.q <;> cases h2 : s'.q <;> rw [h1, h2] at hq <;> simp only [List.map_cons, List.map_nil, reduceCtorEq,
    List.cons.injEq, QEntry.mk.injEq] at hq <;> rw [h1] at e <;> rw [h2] at e'
  · exact (hm _ _ rfl).toOutcome h e e'
  · refine (hm _ _ hq.1.2).toOutcome (sim_iff.mpr ?_) e e'
    simp_all

/-- A command whose `din` numbers, those of the commands on the pins, all have the property `P`. -/
theorem Twin.runCommand {P : Nat → Prop} {body body' : List DinItem → M Unit} {s s' t t' : State} (h : Sim s s')
    (hm : ∀ d d', d.map DinItem.erase = d'.map DinItem.erase → (∀ x, .elem x ∈ d ++ d' → P x) →
      Twin [] [] Eq (body d) (body' d'))
    (hx : ∀ c ∈ s.cmds.take 1 ++ s'.cmds.take 1, ∀ x, .elem x ∈ c.din → P x)
    (e : runCommand s body = .next t) (e' : runCommand s' body' = .next t') : Sim t t' := by
  have hf := sim_iff.mp h
  have hq := hf.2.2.2.2.2.2.2.2.2.2.2.2.2.2.2.2.2.2.2.2.1
  unfold Machine.runCommand at e e'
  cases h1 : s.cmds <;> cases h2 : s'.cmds <;> rw [h1, h2] at hq <;> simp only [List.map_cons, List.map_nil, reduceCtorEq,
    List.cons.injEq, Presented.mk.injEq] at hq <;> rw [h1] at e <;> rw [h2] at e'
  · exact (hm _ _ rfl (by simp)).toOutcome h e e'
  · refine (hm _ _ hq.1.2 fun x hxm => ?_).toOutcome (sim_iff.mpr ?_) e e'
    · rcases List.mem_append.mp hxm with g | g
      · exact hx _ (by simp [h1]) x g
      · exact hx _ (by simp [h2]) x g
    · simp_all

/-! ### Commands -/

theorem Twin.checkSequence (i : Instr) : Twin L L Eq (checkSequence i) (checkSequence i) := by
  intro s s' hs hl
  have e := sim_iff.mp hs
  have h : sequenceOk i s = sequenceOk i s' := by
    unfold sequenceOk
    rw [e.1, e.2.2.2.2.2.1]
  exact Twin.require h _ _ s s' hs hl

theorem din_isEmpty {d d' : List DinItem} (h : d.map DinItem.erase = d'.map DinItem.erase) : d.isEmpty = d'.isEmpty := by
  simpa using congrArg List.isEmpty h

theorem din_length {d d' : List DinItem} (h : d.map DinItem.erase = d'.map DinItem.erase) : d.length = d'.length := by
  simpa using congrArg List.length h

theorem isFieldElem_of_lt {x : Nat} (h : x < Config.fieldP) : isFieldElem x = true := by simp [isFieldElem, h]

theorem din_allElem : ∀ {d d' : List DinItem}, d.map DinItem.erase = d'.map DinItem.erase →
    (∀ x, .elem x ∈ d ++ d' → x < Config.fieldP) → d.all DinItem.isElem = d'.all DinItem.isElem
  | [], [], _, _ => rfl
  | [], _ :: _, h, _ => by simp at h
  | _ :: _, [], h, _ => by simp at h
  | a :: d, b :: d', h, hx => by
    simp only [List.map_cons, List.cons.injEq] at h
    have ih := din_allElem h.2 fun x hxm => hx x (by simp at hxm ⊢; tauto)
    have : a.isElem = b.isElem := by
      cases a with
      | elem m =>
        cases b with
        | elem n => simp only [DinItem.isElem, isFieldElem_of_lt (hx m (by simp)), isFieldElem_of_lt (hx n (by simp))]
        | bits _ => simp [DinItem.erase] at h
      | bits _ =>
        cases b with
        | elem n => simp [DinItem.erase] at h
        | bits _ => rfl
    simp [this, ih]

theorem Twin.seqAll : ∀ ms : List (M Unit), (∀ m ∈ ms, ∀ L, Twin L L anyTwo m m) → Twin L L anyTwo (seqAll ms) (seqAll ms)
  | [], _ => Twin.pure trivial
  | m :: ms, h => Twin.bind (h m (by simp) _) fun _ _ _ => Twin.seqAll ms fun m' hm => h m' (by simp [hm])

theorem Twin.loadTable (cmd : CmdWord) : Twin [] [] Eq (loadTable cmd) (loadTable cmd) := by
  intro s s' hs _
  have e := sim_iff.mp hs
  have e1 : s.mem.tabCells = s'.mem.tabCells := by tauto
  have e2 := hs.answers
  have key : ∀ n rest rq, Sim { s with mem := { s.mem with tabCells := n }, hostAnswers := rest, requests := rq :: s.requests }
      { s' with mem := { s'.mem with tabCells := n }, hostAnswers := rest, requests := rq :: s'.requests } := by
    intro n rest rq
    refine sim_iff.mpr ?_
    simp_all
  unfold Machine.loadTable
  rw [e1, e2]
  split
  · split
    · exact ⟨rfl, key _ _ _, by simp⟩
    · exact (key _ _ _).faultEntry _ _
  · exact hs.faultEntry _ _

theorem dinVal_erase (m : Mode) (x : DinItem) : (OpRec.value (dinVal m x)).erase = .value .unknown := rfl

theorem itemEntries_erase (op : Nat → Instr) : ∀ (i : Nat) (vs vs' : List Val), vs.length = vs'.length →
    (itemEntries op i vs).map (fun e => (⟨e.word, e.opnd.erase⟩ : QEntry)) =
      (itemEntries op i vs').map (fun e => ⟨e.word, e.opnd.erase⟩)
  | _, [], [], _ => rfl
  | _, [], _ :: _, h => by simp at h
  | _, _ :: _, [], h => by simp at h
  | i, v :: vs, v' :: vs', h => by
    simp only [itemEntries, List.map_cons, itemEntries_erase op (i + 1) vs vs' (by simpa using h)]
    rfl

theorem Sim.beginBlock {q q' : List QEntry}
    (hq : q.map (fun e => (⟨e.word, e.opnd.erase⟩ : QEntry)) = q'.map fun e => ⟨e.word, e.opnd.erase⟩) :
    Twin L L Eq (beginBlock q) (beginBlock q') := by
  refine Twin.modify (fun s s' hs => ?_) fun _ _ => rfl
  have e := sim_iff.mp hs
  refine sim_iff.mpr ?_
  simp_all

theorem Twin.setDout {d d' : DoutItem} (h : d.erase = d'.erase) : Twin L L Eq (setDout d) (setDout d') :=
  Twin.setOutputs (by simp [h]) _

/-- BITS_OF of two values that both fit, or are `Unknown`. -/
theorem Twin.opBitsOf (n : Width) {v v' : Val} (h : ∀ x, v = .known x → x < 2 ^ widthBits n)
    (h' : ∀ x, v' = .known x → x < 2 ^ widthBits n) : Twin L L Eq (opBitsOf n v) (opBitsOf n v') := by
  have key : ∀ v : Val, (∀ x, v = .known x → x < 2 ^ widthBits n) →
      ∃ d, Machine.opBitsOf n v = Machine.setDout d ∧ d.erase = .unknownBits (widthBits n) := by
    intro v h
    cases v with
    | unknown => exact ⟨_, rfl, rfl⟩
    | known x =>
      refine ⟨.bits (bitsOfNat (widthBits n) x), ?_, by simp [DoutItem.erase, bitsOfNat_length]⟩
      have : Nat.blt x (2 ^ widthBits n) = true := by simpa using h x rfl
      simp only [Machine.opBitsOf, this, Machine.require, if_true]
      rfl
  obtain ⟨d, e, hd⟩ := key v h
  obtain ⟨d', e', hd'⟩ := key v' h'
  rw [e, e']
  exact Twin.setDout (hd.trans hd'.symm)

/-- A host command on field elements, BITS_OF on values that fit. -/
theorem exec_command_twin {i : Instr} (hi : i.fromHost = true) {s s' t t' : State} (h : Sim s s')
    (hx : ∀ c ∈ s.cmds.take 1 ++ s'.cmds.take 1, ∀ x, .elem x ∈ c.din →
      x < Config.fieldP ∧ ∀ n, i = .bitsOf n → x < 2 ^ widthBits n)
    (e : exec i s = .next t) (e' : exec i s' = .next t') : Sim t t' := by
  cases i <;> first | (simp [Instr.fromHost, Instr.cls] at hi; done) | skip
  case configure =>
    simp only [exec, execConfigure] at e e'
    refine Twin.runCommand h (fun d d' hd _ => ?_) hx e e'
    refine Twin.bind (Twin.checkSequence _) fun _ _ _ => Twin.bind (Twin.require (din_isEmpty hd) _ _) fun _ _ _ =>
      Twin.bind (Twin.seqAll _ ?_) fun _ _ _ => Twin.bind (Twin.modify (fun s s' hs => ?_) fun _ _ => rfl) fun _ _ _ =>
      Twin.bind (Twin.seqAll _ ?_) fun _ _ _ => Twin.bind (Twin.seqAll _ ?_) fun _ _ _ =>
      Twin.bind (Twin.modify (fun s s' hs => ?_) fun _ _ => rfl) fun _ _ _ => Twin.setOutputs rfl _
    · intro m hm L
      obtain ⟨rq, -, rfl⟩ := List.mem_map.mp hm
      exact (Twin.request rfl _ _).weaken (fun _ h => h) fun _ _ _ => trivial
    · have e := sim_iff.mp hs
      refine sim_iff.mpr ?_
      simp_all
    · intro m hm L
      obtain ⟨rq, -, rfl⟩ := List.mem_map.mp hm
      exact Twin.drop _ (Twin.memWrite _ _ _ _ _)
    · intro m hm L
      obtain ⟨rq, -, rfl⟩ := List.mem_map.mp hm
      exact Twin.drop _ (Twin.memWrite _ _ _ _ _)
    · have e := sim_iff.mp hs
      refine sim_iff.mpr ?_
      simp_all
  case load =>
    simp only [exec, execLoad] at e e'
    refine Twin.runCommand h (fun d d' hd _ => ?_) hx e e'
    refine Twin.bind (Twin.checkSequence _) fun _ _ _ => Twin.bind (Twin.require (din_isEmpty hd) _ _) fun _ _ _ =>
      Twin.bind (Twin.loadTable _) fun _ _ _ => Twin.bind (Twin.modify (fun s s' hs => ?_) fun _ _ => rfl) fun _ _ _ =>
        Twin.setOutputs rfl _
    have e := sim_iff.mp hs
    refine sim_iff.mpr ?_
    simp_all
  case initIv =>
    simp only [exec, execInitIv] at e e'
    refine Twin.runCommand h (fun d d' hd _ => ?_) hx e e'
    exact Twin.bind (Twin.checkSequence _) fun _ _ _ => Twin.bind (Twin.require (din_isEmpty hd) _ _) fun _ _ _ =>
      Sim.beginBlock rfl
  case initFrom src =>
    simp only [exec, execInitFrom] at e e'
    refine Twin.runCommand h (fun d d' hd hxd => ?_) hx e e'
    refine Twin.bind (Twin.checkSequence _) fun _ _ _ => Twin.bind (Twin.require ?_ _ _) fun _ _ _ =>
      Twin.bind Twin.get fun st st' _ => Sim.beginBlock ?_
    · cases src with
      | data => simp only [initDinOk, din_length hd, din_allElem hd fun x hm => (hxd x hm).1]
      | digest => exact din_isEmpty hd
    · cases src with
      | data => exact itemEntries_erase _ _ _ _ (by simpa using din_length hd)
      | digest => rfl
  case compress =>
    simp only [exec, execCompress] at e e'
    refine Twin.runCommand h (fun d d' hd hxd => ?_) hx e e'
    refine Twin.bind (Twin.checkSequence _) fun _ _ _ => Twin.bind (Twin.require ?_ _ _) fun _ _ _ =>
      Twin.modify (fun s s' hs => ?_) fun _ _ => rfl
    · simp only [din_length hd, din_allElem hd fun x hm => (hxd x hm).1]
    · have e := sim_iff.mp hs
      have hq := itemEntries_erase .schedIn 0 (d.map (dinVal s.mode)) (d'.map (dinVal s'.mode)) (by simpa using din_length hd)
      refine sim_iff.mpr ?_
      simp only [compressEntries, List.map_append, hq]
      simp_all
  case digest =>
    simp only [exec, execDigest] at e e'
    refine Twin.runCommand h (fun d d' hd _ => ?_) hx e e'
    refine Twin.bind (Twin.checkSequence _) fun _ _ _ => Twin.bind (Twin.require (din_isEmpty hd) _ _) fun _ _ _ =>
      Twin.modify (fun s s' hs => ?_) fun _ _ => rfl
    have e := sim_iff.mp hs
    refine sim_iff.mpr ?_
    simp_all
  case bitsOf n =>
    simp only [exec, execBitsOf] at e e'
    refine Twin.runCommand h (fun d d' hd hxd => ?_) hx e e'
    rcases d with _ | ⟨a | b, _ | ⟨c, d⟩⟩ <;> rcases d' with _ | ⟨a' | b', _ | ⟨c', d'⟩⟩ <;>
      simp only [List.map_cons, List.map_nil, DinItem.erase, reduceCtorEq, List.cons.injEq, and_false, false_and,
        DinItem.bits.injEq, and_true] at hd <;> try exact Twin.raise _ _
    have ha := hxd a (by simp)
    have ha' := hxd a' (by simp)
    refine Twin.bind (Twin.require (by rw [isFieldElem_of_lt ha.1, isFieldElem_of_lt ha'.1]) _ _) fun _ _ _ =>
      Twin.bind Twin.get fun st st' _ => Twin.opBitsOf n (fun x hv => ?_) fun x hv => ?_
    · cases hmode : st.mode <;> rw [hmode] at hv <;> simp only [dinVal, Val.known.injEq, reduceCtorEq] at hv
      exact hv ▸ ha.2 n rfl
    · cases hmode : st'.mode <;> rw [hmode] at hv <;> simp only [dinVal, Val.known.injEq, reduceCtorEq] at hv
      exact hv ▸ ha'.2 n rfl
  case intOf =>
    simp only [exec, execIntOf] at e e'
    refine Twin.runCommand h (fun d d' hd _ => ?_) hx e e'
    rcases d with _ | ⟨a | b, _ | ⟨c, d⟩⟩ <;> rcases d' with _ | ⟨a' | b', _ | ⟨c', d'⟩⟩ <;>
      simp only [List.map_cons, List.map_nil, DinItem.erase, reduceCtorEq, List.cons.injEq, and_false, false_and,
        DinItem.bits.injEq, and_true] at hd <;> try exact Twin.raise _ _
    subst hd
    refine Twin.bind (Twin.require rfl _ _) fun _ _ _ => ?_
    exact Twin.setDout rfl
  case spread =>
    simp only [exec, execSpread] at e e'
    refine Twin.runCommand h (fun d d' hd _ => ?_) hx e e'
    rcases d with _ | ⟨a | b, _ | ⟨c, d⟩⟩ <;> rcases d' with _ | ⟨a' | b', _ | ⟨c', d'⟩⟩ <;>
      simp only [List.map_cons, List.map_nil, DinItem.erase, reduceCtorEq, List.cons.injEq, and_false, false_and,
        DinItem.bits.injEq, and_true] at hd <;> try exact Twin.raise _ _
    subst hd
    exact Twin.setDout rfl

/-- An operation the sequencer queues. -/
theorem exec_level1_twin {i : Instr} {e0 : QEntry} (hdec : decode e0.word = .ok i) (hw : e0.wf = true)
    {s s' t t' : State} (h : Sim s s')
    (e : exec i s = .next t) (e' : exec i s' = .next t') : Sim t t' := by
  unfold QEntry.wf at hw
  rw [hdec] at hw
  cases i <;> simp only [Bool.false_eq_true] at hw
  case schedIn k =>
    simp only [exec, execSchedIn] at e e'
    refine Twin.runEntry h (fun r r' hr => ?_) e e'
    split
    · obtain ⟨w, rfl⟩ := OpRec.erase_value hr.symm
      exact Twin.opSchedIn _ _ _
    · exact fun _ _ _ _ => trivial
  case sched k => exact Twin.runEntry h (fun _ _ _ => Twin.opSched k) e e'
  case round k =>
    exact Twin.runEntry h (fun _ _ _ => Twin.bind (Twin.opRound k) fun _ _ _ =>
      Twin.whenDrained (Twin.finishCompress _)) e e'
  case initWord src k =>
    exact Twin.runEntry h (fun _ _ hr => Twin.bind (Twin.opInitWord src k hr) fun _ _ _ =>
      Twin.whenDrained (Twin.finishInit _)) e e'
  case digestWord k =>
    exact Twin.runEntry h (fun _ _ _ => Twin.bind (Twin.opDigestWord k) fun _ _ _ =>
      Twin.whenDrained (Twin.finishDigest _)) e e'

end Sys2Proof.Machine
end

