-- ==== Sys2Proof/Laws/State.lean ====
section
/-!
SUPPORT. The fields of `State` after each named update: fault entry (60_exceptions.md R256), an illegal command
(30_encoding.md R93), and reset (70_reset_and_hazards.md R281). The gates and commands update the state through these, through
`memWrite`, `record` and the register writes; what they leave is said in Laws/Ops.lean.
-/

namespace Sys2Proof.Machine

open Sys2Proof

/-! ### Fault entry -/

@[simp] theorem faultEntry_mode (cause : FaultCause) (cmd : CmdWord) (s : State) :
    (faultEntry cause cmd s).mode = s.mode := rfl
@[simp] theorem faultEntry_phase (cause : FaultCause) (cmd : CmdWord) (s : State) :
    (faultEntry cause cmd s).phase = s.phase := rfl
@[simp] theorem faultEntry_q (cause : FaultCause) (cmd : CmdWord) (s : State) :
    (faultEntry cause cmd s).q = [] := rfl
@[simp] theorem faultEntry_unsat (cause : FaultCause) (cmd : CmdWord) (s : State) :
    (faultEntry cause cmd s).unsat = s.unsat := rfl
@[simp] theorem faultEntry_halted (cause : FaultCause) (cmd : CmdWord) (s : State) :
    (faultEntry cause cmd s).halted = true := rfl
@[simp] theorem faultEntry_faultCode (cause : FaultCause) (cmd : CmdWord) (s : State) :
    (faultEntry cause cmd s).faultCode = cause := rfl
@[simp] theorem faultEntry_faultInfo (cause : FaultCause) (cmd : CmdWord) (s : State) :
    (faultEntry cause cmd s).faultInfo = cmd := rfl
@[simp] theorem faultEntry_digValid (cause : FaultCause) (cmd : CmdWord) (s : State) :
    (faultEntry cause cmd s).digValid = s.digValid := rfl
@[simp] theorem faultEntry_blk (cause : FaultCause) (cmd : CmdWord) (s : State) :
    (faultEntry cause cmd s).blk = s.blk := rfl
@[simp] theorem faultEntry_stateReg (cause : FaultCause) (cmd : CmdWord) (s : State) :
    (faultEntry cause cmd s).stateReg = s.stateReg := rfl
@[simp] theorem faultEntry_ivUsed (cause : FaultCause) (cmd : CmdWord) (s : State) :
    (faultEntry cause cmd s).ivUsed = s.ivUsed := rfl
@[simp] theorem faultEntry_w (cause : FaultCause) (cmd : CmdWord) (s : State) :
    (faultEntry cause cmd s).w = s.w := rfl
@[simp] theorem faultEntry_dig (cause : FaultCause) (cmd : CmdWord) (s : State) :
    (faultEntry cause cmd s).dig = s.dig := rfl
@[simp] theorem faultEntry_config (cause : FaultCause) (cmd : CmdWord) (s : State) :
    (faultEntry cause cmd s).config = s.config := rfl
@[simp] theorem faultEntry_table (cause : FaultCause) (cmd : CmdWord) (s : State) :
    (faultEntry cause cmd s).table = s.table := rfl
@[simp] theorem faultEntry_mem (cause : FaultCause) (cmd : CmdWord) (s : State) :
    (faultEntry cause cmd s).mem = s.mem := rfl
@[simp] theorem faultEntry_cons (cause : FaultCause) (cmd : CmdWord) (s : State) :
    (faultEntry cause cmd s).cons = s.cons := rfl
@[simp] theorem faultEntry_dout (cause : FaultCause) (cmd : CmdWord) (s : State) :
    (faultEntry cause cmd s).dout = [] := rfl
@[simp] theorem faultEntry_hout (cause : FaultCause) (cmd : CmdWord) (s : State) :
    (faultEntry cause cmd s).hout = [] := rfl
@[simp] theorem faultEntry_resetIn (cause : FaultCause) (cmd : CmdWord) (s : State) :
    (faultEntry cause cmd s).resetIn = s.resetIn := rfl
@[simp] theorem faultEntry_modeIn (cause : FaultCause) (cmd : CmdWord) (s : State) :
    (faultEntry cause cmd s).modeIn = s.modeIn := rfl
@[simp] theorem faultEntry_cmds (cause : FaultCause) (cmd : CmdWord) (s : State) :
    (faultEntry cause cmd s).cmds = s.cmds := rfl
@[simp] theorem faultEntry_hostAnswers (cause : FaultCause) (cmd : CmdWord) (s : State) :
    (faultEntry cause cmd s).hostAnswers = s.hostAnswers := rfl
@[simp] theorem faultEntry_requests (cause : FaultCause) (cmd : CmdWord) (s : State) :
    (faultEntry cause cmd s).requests = s.requests := rfl
@[simp] theorem faultEntry_tagCuts (cause : FaultCause) (cmd : CmdWord) (s : State) :
    (faultEntry cause cmd s).tagCuts = s.tagCuts := rfl
@[simp] theorem faultEntry_inst (cause : FaultCause) (cmd : CmdWord) (s : State) :
    (faultEntry cause cmd s).inst = s.inst := rfl

/-! ### An illegal command -/

@[simp] theorem illegalCommand_mode (w : CmdWord) (rest : List Presented) (s : State) :
    (illegalCommand w rest s).mode = s.mode := rfl
@[simp] theorem illegalCommand_phase (w : CmdWord) (rest : List Presented) (s : State) :
    (illegalCommand w rest s).phase = s.phase := rfl
@[simp] theorem illegalCommand_q (w : CmdWord) (rest : List Presented) (s : State) :
    (illegalCommand w rest s).q = [] := rfl
@[simp] theorem illegalCommand_unsat (w : CmdWord) (rest : List Presented) (s : State) :
    (illegalCommand w rest s).unsat = s.unsat := rfl
@[simp] theorem illegalCommand_halted (w : CmdWord) (rest : List Presented) (s : State) :
    (illegalCommand w rest s).halted = true := rfl
@[simp] theorem illegalCommand_faultCode (w : CmdWord) (rest : List Presented) (s : State) :
    (illegalCommand w rest s).faultCode = .illegal := rfl
@[simp] theorem illegalCommand_faultInfo (w : CmdWord) (rest : List Presented) (s : State) :
    (illegalCommand w rest s).faultInfo = w := rfl
@[simp] theorem illegalCommand_digValid (w : CmdWord) (rest : List Presented) (s : State) :
    (illegalCommand w rest s).digValid = s.digValid := rfl
@[simp] theorem illegalCommand_blk (w : CmdWord) (rest : List Presented) (s : State) :
    (illegalCommand w rest s).blk = s.blk := rfl
@[simp] theorem illegalCommand_stateReg (w : CmdWord) (rest : List Presented) (s : State) :
    (illegalCommand w rest s).stateReg = s.stateReg := rfl
@[simp] theorem illegalCommand_ivUsed (w : CmdWord) (rest : List Presented) (s : State) :
    (illegalCommand w rest s).ivUsed = s.ivUsed := rfl
@[simp] theorem illegalCommand_w (w : CmdWord) (rest : List Presented) (s : State) :
    (illegalCommand w rest s).w = s.w := rfl
@[simp] theorem illegalCommand_dig (w : CmdWord) (rest : List Presented) (s : State) :
    (illegalCommand w rest s).dig = s.dig := rfl
@[simp] theorem illegalCommand_config (w : CmdWord) (rest : List Presented) (s : State) :
    (illegalCommand w rest s).config = s.config := rfl
@[simp] theorem illegalCommand_table (w : CmdWord) (rest : List Presented) (s : State) :
    (illegalCommand w rest s).table = s.table := rfl
@[simp] theorem illegalCommand_mem (w : CmdWord) (rest : List Presented) (s : State) :
    (illegalCommand w rest s).mem = s.mem := rfl
@[simp] theorem illegalCommand_cons (w : CmdWord) (rest : List Presented) (s : State) :
    (illegalCommand w rest s).cons = s.cons := rfl
@[simp] theorem illegalCommand_dout (w : CmdWord) (rest : List Presented) (s : State) :
    (illegalCommand w rest s).dout = [] := rfl
@[simp] theorem illegalCommand_hout (w : CmdWord) (rest : List Presented) (s : State) :
    (illegalCommand w rest s).hout = [] := rfl
@[simp] theorem illegalCommand_resetIn (w : CmdWord) (rest : List Presented) (s : State) :
    (illegalCommand w rest s).resetIn = s.resetIn := rfl
@[simp] theorem illegalCommand_modeIn (w : CmdWord) (rest : List Presented) (s : State) :
    (illegalCommand w rest s).modeIn = s.modeIn := rfl
@[simp] theorem illegalCommand_cmds (w : CmdWord) (rest : List Presented) (s : State) :
    (illegalCommand w rest s).cmds = rest := rfl
@[simp] theorem illegalCommand_hostAnswers (w : CmdWord) (rest : List Presented) (s : State) :
    (illegalCommand w rest s).hostAnswers = s.hostAnswers := rfl
@[simp] theorem illegalCommand_requests (w : CmdWord) (rest : List Presented) (s : State) :
    (illegalCommand w rest s).requests = s.requests := rfl
@[simp] theorem illegalCommand_tagCuts (w : CmdWord) (rest : List Presented) (s : State) :
    (illegalCommand w rest s).tagCuts = s.tagCuts := rfl
@[simp] theorem illegalCommand_inst (w : CmdWord) (rest : List Presented) (s : State) :
    (illegalCommand w rest s).inst = s.inst := rfl

/-! ### Reset -/

@[simp] theorem resetBlock_mode (s : State) : (resetBlock s).mode = .ofPin s.modeIn := rfl
@[simp] theorem resetBlock_phase (s : State) : (resetBlock s).phase = .reset := rfl
@[simp] theorem resetBlock_q (s : State) : (resetBlock s).q = [] := rfl
@[simp] theorem resetBlock_unsat (s : State) : (resetBlock s).unsat = false := rfl
@[simp] theorem resetBlock_halted (s : State) : (resetBlock s).halted = false := rfl
@[simp] theorem resetBlock_faultCode (s : State) : (resetBlock s).faultCode = .none := rfl
@[simp] theorem resetBlock_faultInfo (s : State) : (resetBlock s).faultInfo = 0 := rfl
@[simp] theorem resetBlock_digValid (s : State) : (resetBlock s).digValid = false := rfl
@[simp] theorem resetBlock_blk (s : State) : (resetBlock s).blk = 0 := rfl
@[simp] theorem resetBlock_stateReg (s : State) : (resetBlock s).stateReg = Vector.replicate 8 none := rfl
@[simp] theorem resetBlock_ivUsed (s : State) : (resetBlock s).ivUsed = Vector.replicate 8 none := rfl
@[simp] theorem resetBlock_w (s : State) : (resetBlock s).w = Vector.replicate 64 none := rfl
@[simp] theorem resetBlock_dig (s : State) : (resetBlock s).dig = Vector.replicate 8 none := rfl
@[simp] theorem resetBlock_config (s : State) : (resetBlock s).config = none := rfl
@[simp] theorem resetBlock_table (s : State) : (resetBlock s).table = .empty := rfl
@[simp] theorem resetBlock_mem (s : State) : (resetBlock s).mem = ⟨[], 0⟩ := rfl
@[simp] theorem resetBlock_cons (s : State) : (resetBlock s).cons = [] := rfl
@[simp] theorem resetBlock_dout (s : State) : (resetBlock s).dout = [] := rfl
@[simp] theorem resetBlock_hout (s : State) : (resetBlock s).hout = [] := rfl
@[simp] theorem resetBlock_resetIn (s : State) : (resetBlock s).resetIn = false := rfl
@[simp] theorem resetBlock_modeIn (s : State) : (resetBlock s).modeIn = s.modeIn := rfl
@[simp] theorem resetBlock_cmds (s : State) : (resetBlock s).cmds = s.cmds := rfl
@[simp] theorem resetBlock_hostAnswers (s : State) : (resetBlock s).hostAnswers = s.hostAnswers := rfl
@[simp] theorem resetBlock_requests (s : State) : (resetBlock s).requests = s.requests := rfl
@[simp] theorem resetBlock_tagCuts (s : State) : (resetBlock s).tagCuts = s.tagCuts := rfl
@[simp] theorem resetBlock_inst (s : State) : (resetBlock s).inst = s.inst := rfl

end Sys2Proof.Machine
end

