-- ==== Sys2Proof/Tests/Slice0.lean ====
section
/-!
SUPPORT. The model's own tests: the well-formedness check refuses each ill-formed term, words written out from the
encodings of 30_encoding.md decode to the instructions they stand for, single operations give the values of
95_test_vectors.md, and for each obligation a concrete state that meets its hypotheses.
-/

-- one evaluation at a time: many at once need more memory than a check has
set_option Elab.async false

namespace Sys2Proof.Tests

open Sys2Proof Sys2Proof.Machine

/-! ### Well-formedness: one ill-formed term for each check -/

theorem wf_refuses_schedIn : (Instr.schedIn 16).wellFormed = false := by decide
theorem wf_refuses_sched_low : (Instr.sched 15).wellFormed = false := by decide
theorem wf_refuses_sched_high : (Instr.sched 64).wellFormed = false := by decide
theorem wf_refuses_round : (Instr.round 64).wellFormed = false := by decide
theorem wf_refuses_initWord : (Instr.initWord .iv 8).wellFormed = false := by decide
theorem wf_refuses_digestWord : (Instr.digestWord 8).wellFormed = false := by decide
theorem wf_refuses_lookup : (Instr.lookup 16).wellFormed = false := by decide
theorem wf_refuses_range_low : (Instr.range 0).wellFormed = false := by decide
theorem wf_refuses_range_high : (Instr.range 17).wellFormed = false := by decide
theorem wf_refuses_extract_low : (Instr.extract 1).wellFormed = false := by decide
theorem wf_refuses_extract_high : (Instr.extract 5).wellFormed = false := by decide
theorem wf_refuses_modadd_low : (Instr.modadd 0).wellFormed = false := by decide
theorem wf_refuses_modadd_high : (Instr.modadd 6).wellFormed = false := by decide
theorem wf_refuses_carry : (Instr.carry 6).wellFormed = false := by decide

/-! ### Decoding: words of 95_test_vectors.md V50, and of 30_encoding.md R96 to R101, `IMM N SEL` written out -/

theorem test_decode_facade :
    decode 0x00000001 = .ok .configure ∧ decode 0x00000002 = .ok .load ∧ decode 0x00000003 = .ok .initIv ∧
    decode 0x00000004 = .ok (.initFrom .data) ∧ decode 0x00001004 = .ok (.initFrom .digest) ∧
    decode 0x00000005 = .ok .compress ∧ decode 0x00000006 = .ok .digest := by decide

theorem test_decode_codec :
    decode 0x00000008 = .ok (.bitsOf .w16) ∧ decode 0x00000108 = .ok (.bitsOf .w32) ∧
    decode 0x00000009 = .ok .intOf ∧ decode 0x0000000A = .ok .spread := by decide

theorem test_decode_levelOne :
    decode 0x000F0010 = .ok (.schedIn 15) ∧ decode 0x00100011 = .ok (.sched 16) ∧
    decode 0x003F0011 = .ok (.sched 63) ∧ decode 0x00050012 = .ok (.round 5) ∧
    decode 0x00000013 = .ok (.initWord .iv 0) ∧ decode 0x00071013 = .ok (.initWord .data 7) ∧
    decode 0x00032013 = .ok (.initWord .digest 3) ∧ decode 0x00070014 = .ok (.digestWord 7) := by decide

theorem test_decode_function :
    decode 0x00000020 = .ok .ssig0 ∧ decode 0x00000021 = .ok .ssig1 ∧ decode 0x00000022 = .ok .bsig0 ∧
    decode 0x00000023 = .ok .bsig1 ∧ decode 0x00000024 = .ok .ch ∧ decode 0x00000025 = .ok .maj := by decide

theorem test_decode_primitive :
    decode 0x00000030 = .ok .word ∧ decode 0x00000031 = .ok .recomb ∧ decode 0x00050032 = .ok (.lookup 5) ∧
    decode 0x00100033 = .ok (.range 16) ∧ decode 0x00000034 = .ok (.decomp .ssig0) ∧
    decode 0x00001034 = .ok (.decomp .ssig1) ∧ decode 0x00002034 = .ok (.decomp .bsig0) ∧
    decode 0x00003034 = .ok (.decomp .bsig1) ∧ decode 0x00000435 = .ok (.extract 4) ∧
    decode 0x00000536 = .ok (.modadd 5) ∧ decode 0x00050037 = .ok (.carry 5) ∧ decode 0x00000038 = .ok .copy := by
  decide

/-- An unassigned OPC, a field out of its legal set, an unused field that is not 0 (30_encoding.md R93, R95). -/
theorem test_decode_illegal :
    decode 0x00000000 = .error .unassignedOpcode ∧ decode 0x00000007 = .error .unassignedOpcode ∧
    decode 0x00400012 = .error .fieldOutOfRange ∧ decode 0x000F0011 = .error .fieldOutOfRange ∧
    decode 0x00003013 = .error .fieldOutOfRange ∧ decode 0x00000135 = .error .fieldOutOfRange ∧
    decode 0x00000103 = .error .fieldOutOfRange ∧ decode 0x00002004 = .error .fieldOutOfRange ∧
    decode 0x00010020 = .error .fieldOutOfRange := by decide

/-- The two interface functions on a word of the table. -/
theorem test_table_word : decodeTableWord 32 0x00050012 = some (.round 5) ∧ decodeTableWord 32 0x39 = none := by decide

/-! ### Small states -/

/-- A configured, loaded block in PHASE STATE with one FIXED cell, `INST.k.iv0` (V27). -/
def booted : State :=
  { State.reset with
    phase := .state, config := some stdConfig, table := .loaded, blk := 1,
    mem := ⟨[(.fixIv 0, .known 0x6a09e667)], tableCells⟩ }

/-- The state with the word bundle `p` holding `n`. -/
def give (s : State) (p : Path) (n : Nat) : State :=
  match opWord p (.known n) s with
  | .ok _ t => t
  | .error _ t => t

/-- Operand bundle i. -/
def opd (i : Nat) : Path := ⟨1, [.iv i]⟩

/-- Where tests put results: nothing is there before. -/
def out : Path := ⟨1, [.x]⟩

/-- Operand bundles with these words. -/
def withWords (ns : List Nat) : State := (ns.zipIdx).foldl (fun s e => give s (opd e.2) e.1) booted

/-- `i` at the head of Q, another entry behind it. -/
def queued (s : State) (i : Instr) (r : OpRec) : State := { s with q := [⟨encode i, r⟩, ⟨encode (.sched 16), .none⟩] }

/-- After the step: the value of a cell, `UNSAT`, and how many cells and instances are new. -/
def result (s : State) (i : Instr) (r : OpRec) (c : CellName) : Option (Option Val × Bool × Nat × Nat) :=
  match step (queued s i r) with
  | .next t =>
    some (t.cell c, t.unsat, t.mem.cells.length - s.mem.cells.length, t.cons.length - s.cons.length)
  | _ => none

/-- The command with this word and `din` on the pins. -/
def presented (s : State) (w : CmdWord) (din : List DinItem) : State := { s with cmds := [⟨w, din⟩] }

/-- After the step: DOUT, FAULT_CODE and FAULT_INFO. -/
def answer (s : State) (w : CmdWord) (din : List DinItem) : Option (List DoutItem × FaultCause × CmdWord) :=
  match step (presented s w din) with
  | .next t => some (t.dout, t.faultCode, t.faultInfo)
  | _ => none

/-! ### The codec (V2 to V5) -/

theorem test_bitsOf : answer State.reset 0x08 [.elem 5] =
    some ([.bits ([true, false, true] ++ List.replicate 13 false)], .none, 0) := by decide +kernel
theorem test_bitsOf_fault : answer State.reset 0x108 [.elem 0x100000000] = some ([], .convert, 0x108) := by
  decide +kernel
/-- In SHAPE mode the value, here one that is too wide, is ignored (R44). -/
theorem test_bitsOf_shape : answer { State.reset with mode := .shape } 0x08 [.elem 0x10000] =
    some ([.unknownBits 16], .none, 0) := by decide +kernel
/-- `HOUT` is `[]` after a codec command (R46), whatever the command before left there. -/
theorem test_spread_hout : (step (presented { State.reset with hout := [⟨1, [.iv 0, .d]⟩] } 0x0A [.bits [true]]))
    = .next { State.reset with dout := [.bits [true, false]] } := rfl
theorem test_intOf : answer State.reset 0x09 [.bits [true, false, true]] = some ([.val (.known 5)], .none, 0) := by
  decide +kernel
theorem test_intOf_fault : answer State.reset 0x09 [.bits (List.replicate 65 true)] = some ([], .convert, 0x09) := by
  decide +kernel
theorem test_spread : answer State.reset 0x0A [.bits [true, true, false, true]] =
    some ([.bits [true, false, true, false, false, false, true, false]], .none, 0) := by decide +kernel
theorem test_spread_fault : answer State.reset 0x0A [.bits [true], .bits [false]] = some ([], .operand, 0x0A) := by
  decide +kernel

/-! ### The table (V10) -/

theorem test_table_rows :
    tableRow ⟨9, 13⟩ 0xFF = some (0, 0xFF, 0x5555) ∧ tableRow ⟨9, 13⟩ 0x100 = some (1, 0x100, 0x10000) ∧
    tableRow ⟨9, 13⟩ 0xFFF = some (1, 0xFFF, 0x555555) ∧ tableRow ⟨9, 13⟩ 0x1000 = some (2, 0x1000, 0x1000000) ∧
    tableRow ⟨9, 13⟩ 0xFFFF = some (2, 0xFFFF, 0x55555555) ∧ tableRow ⟨9, 13⟩ 0x10000 = none := by decide +kernel

/-! ### Facade commands (V11, 46_facade.md, 60_exceptions.md) -/

/-- The state after a step, or the state itself where there is none. -/
def next (s : State) : State :=
  match step s with
  | .next t => t
  | _ => s

theorem test_configure :
    (next (presented State.reset 0x01 [])).mem.cells.length = 72 ∧
    (next (presented State.reset 0x01 [])).cell (.fixK 63) = some (.known 0xc67178f2) ∧
    (next (presented State.reset 0x01 [])).status = 0x14 := by decide +kernel
theorem test_load :
    (next (presented { State.reset with phase := .conf } 0x02 [])).mem.tabCells = 196608 ∧
    (next (presented { State.reset with phase := .conf } 0x02 [])).cell (.tab .spread 0x6380)
      = some (.known 0x14054000) ∧
    (next (presented { State.reset with phase := .conf } 0x02 [])).status = 0x24 := by decide +kernel
theorem test_load_fault : answer State.reset 0x02 [] = some ([], .sequence, 0x02) := by decide +kernel
theorem test_initIv :
    (next (presented booted 0x03 [])).q.map (·.word)
      = [0x13, 0x10013, 0x20013, 0x30013, 0x40013, 0x50013, 0x60013, 0x70013] ∧
    (next (presented booted 0x03 [])).blockOut = 2 ∧ (next (presented booted 0x03 [])).status = 0x3C := by
  decide +kernel
theorem test_initFrom_fault : answer booted 0x1004 [] = some ([], .sequence, 0x1004) := by decide +kernel
theorem test_compress :
    (next (presented booted 0x05 (List.replicate 16 (.elem 1)))).q.length = 128 ∧
    ((next (presented booted 0x05 (List.replicate 16 (.elem 1)))).q.map (·.word))[127]? = some 0x3F0012 := by
  decide +kernel
theorem test_compress_fault : answer booted 0x05 (List.replicate 15 (.elem 1)) = some ([], .operand, 0x05) := by
  decide +kernel
theorem test_digest :
    (next (presented { booted with phase := .done } 0x06 [])).q.map (·.word)
      = [0x14, 0x10014, 0x20014, 0x30014, 0x40014, 0x50014, 0x60014, 0x70014] := by decide +kernel
theorem test_illegal : answer booted 0x12 [] = some ([], .illegal, 0x12) := by decide +kernel

/-! ### Primitive operations (V12, V13, V20 to V27) -/

theorem test_lookup : result (withWords [0x7FF]) (.lookup 5) (.lookup ((opd 0).cell .lo) (out.cell .t) (out.cell .s))
    (out.cell .s) = some (some (.known 0x55555400), false, 2, 1) := by decide +kernel
theorem test_lookup_false :
    result (withWords [0x800]) (.lookup 5) (.lookup ((opd 0).cell .lo) (out.cell .t) (out.cell .s)) (out.cell .s)
      = some (some (.known 0), true, 2, 1) := by decide +kernel
theorem test_range : result (withWords [0x7FF]) (.range 11) (.range ((opd 0).cell .lo) out) (out.cell .s)
    = some (some (.known 0x155555), false, 4, 2) := by decide +kernel
theorem test_range_false : result (withWords [2]) (.range 1) (.range ((opd 0).cell .lo) out) (out.cell .s2)
    = some (some (.known 0), true, 4, 2) := by decide +kernel
theorem test_word : result booted .word (.word out (.known 0x61626380)) (out.cell .shi)
    = some (some (.known 0x14011404), false, 7, 3) := by decide +kernel
theorem test_word_false : result booted .word (.word out (.known 0x100000000)) (out.cell .hi)
    = some (some (.known 0x10000), true, 7, 3) := by decide +kernel
theorem test_recomb :
    result (withWords [0x00010002]) .recomb (.recomb ((opd 0).cell .d) ((opd 0).cell .lo) ((opd 0).cell .hi))
      ((opd 0).cell .lo) = some (some (.known 2), false, 0, 1) := by decide +kernel
theorem test_recomb_false :
    result (withWords [0x00010002]) .recomb (.recomb ((opd 0).cell .d) ((opd 0).cell .hi) ((opd 0).cell .lo))
      ((opd 0).cell .lo) = some (some (.known 2), true, 0, 1) := by decide +kernel
theorem test_decomp : result (withWords [0x61626380]) (.decomp .ssig0) (.decomp (opd 0) out) (out.cell (.pIx 3))
    = some (some (.known 0x1858), false, 20, 9) := by decide +kernel
theorem test_decomp_false : result (withWords [0x100000000]) (.decomp .bsig1) (.decomp (opd 0) out) (out.cell (.pIx 0))
    = some (some (.known 0), true, 20, 9) := by decide +kernel
theorem test_extract :
    result (withWords [3, 5, 6, 0]) (.extract 4) (.extract ((List.range 4).map fun i => ⟨spr (opd i), 0⟩) out)
      ((out.sub .o).cell .d) = some (some (.known 7), false, 14, 7) := by decide +kernel
theorem test_extract_false :
    result (withWords (List.replicate 4 0x80000000)) (.extract 4)
      (.extract ((List.range 4).map fun i => ⟨spr (opd i), 0⟩) out) ((out.sub .e).cell .d)
      = some (some (.known 0), true, 14, 7) := by decide +kernel
theorem test_modadd :
    result (withWords [0x5be0cd19, 0x3587272b, 0x1104400c, 0x0e818980, 0x61626380]) (.modadd 5)
      (.modadd ((List.range 5).map opd) 0x428a2f98 out) ((out.sub .r).cell .d)
      = some (some (.known 0x54da50e8), false, 8, 5) := by decide +kernel
theorem test_modadd_carry :
    result (withWords (List.replicate 5 0xFFFFFFFF)) (.modadd 5) (.modadd ((List.range 5).map opd) 0xFFFFFFFF out)
      (out.cell .c) = some (some (.known 5), false, 8, 5) := by decide +kernel
theorem test_carry : result (withWords [5]) (.carry 5) (.carry ((opd 0).cell .d)) ((opd 0).cell .d)
    = some (some (.known 5), false, 0, 1) := by decide +kernel
theorem test_carry_false : result (withWords [6]) (.carry 5) (.carry ((opd 0).cell .d)) ((opd 0).cell .d)
    = some (some (.known 6), true, 0, 1) := by decide +kernel
theorem test_copy : result (withWords [0x6a09e667]) .copy (.copy ((opd 0).cell .d) (.fixIv 0)) (.fixIv 0)
    = some (some (.known 0x6a09e667), false, 0, 1) := by decide +kernel
theorem test_copy_fault :
    (next (queued booted .copy (.copy (.tab .dense 5) (.tab .dense 5)))).status = 0x0136 := by decide +kernel

/-! ### Function operations (V30, V32, V33) -/

theorem test_ssig0 : result (withWords [0x12345678]) .ssig0 (.sigma (opd 0) out) ((sigmaResult out).cell .d)
    = some (some (.known 0xe7fce6ee), false, 34, 16) := by decide +kernel
theorem test_ssig1 : result (withWords [0x12345678]) .ssig1 (.sigma (opd 0) out) ((sigmaResult out).cell .d)
    = some (some (.known 0xa1f78649), false, 34, 16) := by decide +kernel
theorem test_bsig0 : result (withWords [0x12345678]) .bsig0 (.sigma (opd 0) out) ((sigmaResult out).cell .d)
    = some (some (.known 0x66146474), false, 34, 16) := by decide +kernel
theorem test_bsig1 : result (withWords [0x12345678]) .bsig1 (.sigma (opd 0) out) ((sigmaResult out).cell .d)
    = some (some (.known 0x3561abda), false, 34, 16) := by decide +kernel
theorem test_ch :
    result (withWords [0xF0F0F0F0, 0xAAAAAAAA, 0x55555555]) .ch (.triple (opd 0) (opd 1) (opd 2) out)
      ((chP out).cell .d) = some (some (.known 0xa0a0a0a0), false, 28, 14) := by decide +kernel
theorem test_ch_not :
    result (withWords [0xF0F0F0F0, 0xAAAAAAAA, 0x55555555]) .ch (.triple (opd 0) (opd 1) (opd 2) out)
      ((chQ out).cell .d) = some (some (.known 0x05050505), false, 28, 14) := by decide +kernel
theorem test_maj :
    result (withWords [0xF0F0F0F0, 0xCCCCCCCC, 0xAAAAAAAA]) .maj (.triple (opd 0) (opd 1) (opd 2) out)
      ((majResult out).cell .d) = some (some (.known 0xe8e8e8e8), false, 14, 7) := by decide +kernel

/-! ### Level-1 operations (V1, V40, V41) -/

/-- The initial state of SHA-256 (10_state.md R48). -/
def ivWords : List Nat :=
  [0x6a09e667, 0xbb67ae85, 0x3c6ef372, 0xa54ff53a, 0x510e527f, 0x9b05688c, 0x1f83d9ab, 0x5be0cd19]

/-- Words 0..15 of the padded block of "abc" (V1). -/
def abcWords : List Nat := [0x61626380] ++ List.replicate 14 0 ++ [0x18]

/-- `STATE` and `IV_USED` at eight bundles that hold the initial state. -/
def inState : State :=
  { withWords ivWords with
    stateReg := #v[opd 0, opd 1, opd 2, opd 3, opd 4, opd 5, opd 6, opd 7]
    ivUsed := #v[opd 0, opd 1, opd 2, opd 3, opd 4, opd 5, opd 6, opd 7] }

/-- The state with `W[t]` at a bundle that holds `n`. -/
def giveWord (s : State) (t n : Nat) : State :=
  { give s ⟨1, [.w t]⟩ n with w := s.w.setIfInBounds t (some ⟨1, [.w t]⟩) }

/-- The same with `W[0..15]` at the words of the block. -/
def inBlock : State := abcWords.zipIdx.foldl (fun s e => giveWord s e.2 e.1) inState

theorem test_schedIn : result booted (.schedIn 15) (.value (.known 0x18)) (.adv ⟨1, [.w 15, .d]⟩)
    = some (some (.known 0x18), false, 7, 3) := by decide +kernel
theorem test_sched : result inBlock (.sched 17) .none (.adv ⟨1, [.w 17, .add, .r, .d]⟩)
    = some (some (.known 0x000f0000), false, 76, 37) := by decide +kernel
theorem test_round :
    result inBlock (.round 0) .none (.adv ⟨1, [.rIx 0, .a, .r, .d]⟩)
      = some (some (.known 0x5d6aebcd), false, 142, 73) := by decide +kernel
theorem test_round_e :
    result inBlock (.round 0) .none (.adv ⟨1, [.rIx 0, .e, .r, .d]⟩)
      = some (some (.known 0xfa2a4622), false, 142, 73) := by decide +kernel
theorem test_initWord : result { booted with blk := 2 } (.initWord .iv 0) .none (.adv ⟨2, [.iv 0, .d]⟩)
    = some (some (.known 0x6a09e667), false, 7, 4) := by decide +kernel
/-- In SHAPE mode the host is given the IV constant for the dense cell, whose halves are computed of `Unknown` (R64, R152). -/
theorem test_initWord_shape :
    (next (queued { booted with mode := .shape, blk := 2 } (.initWord .iv 0) .none)).requests =
      [.copyEqual (.adv ⟨2, [.iv 0, .d]⟩) (.fixIv 0)] ++
      ([.shi, .thi, .slo, .tlo, .hi, .lo].map fun g => .assign .adv (.adv ⟨2, [.iv 0, g]⟩) .unknown) ++
      [.assign .adv (.adv ⟨2, [.iv 0, .d]⟩) (.known 0x6a09e667)] := by decide +kernel
theorem test_initWord_false :
    result { booted with blk := 2 } (.initWord .data 7) (.value (.known 0x100000000)) (.adv ⟨2, [.iv 7, .hi]⟩)
      = some (some (.known 0x10000), true, 7, 3) := by decide +kernel
/-- Digest word 1 of V1 from the terminal b of V40 and the IV. -/
theorem test_digestWord :
    result { withWords [0xd39a2165, 0xbb67ae85] with
        stateReg := (Vector.replicate 8 none).set 1 (some (opd 0))
        ivUsed := (Vector.replicate 8 none).set 1 (some (opd 1)) }
      (.digestWord 1) .none (.adv ⟨1, [.dg 1, .r, .d]⟩) = some (some (.known 0x8f01cfea), false, 8, 5) := by
  decide +kernel

end Sys2Proof.Tests
end

