-- ==== Sys2Proof/Tests/Witnesses.lean ====
section
/-!
SUPPORT. For each statement of Obligations.lean that has hypotheses, a concrete state and operands that meet all of them
together, at boundary values; for a statement with several clauses, a witness for each.
-/

-- one evaluation at a time: many at once need more memory than a check has
set_option Elab.async false

namespace Sys2Proof.Tests

open Sys2Proof Sys2Proof.Machine

/-- A number below 2^66 is a field element (00_scope.md R10). -/
theorem lt_p {n : Nat} (h : n < 2 ^ 66) : n < Config.fieldP := h.trans Config.fieldP_gt

/-- A `din` of numbers below 2^66 is one of field elements. -/
theorem items_ok {ns : List Nat} (h : ∀ n ∈ ns, n < 2 ^ 66) :
    ∀ d ∈ ns.map DinItem.elem, ∃ x < Config.fieldP, d = .elem x := by
  intro d hd
  obtain ⟨n, hn, rfl⟩ := List.mem_map.mp hd
  exact ⟨n, lt_p (h n hn), rfl⟩

/-- A reset state lists no TABLE cell. -/
theorem no_table_cell (s : State) (h : s.mem.tabCells = 0) (col : TabCol) (v : Nat) : s.cell (.tab col v) = none := by
  have : Nat.blt (tabIndex col v) 0 = false := by cases h : tabIndex col v <;> rfl
  simp only [State.cell, Memory.get, h, this, Bool.and_false, Bool.false_eq_true, if_false]

/-- The step answers a next state. -/
def answersNext (s : State) : Bool :=
  match step s with
  | .next _ => true
  | _ => false

theorem step_next {s : State} (h : answersNext s = true) : step s = .next (next s) := by
  unfold answersNext at h
  unfold next
  cases hs : step s <;> rw [hs] at h <;> first | rfl | cases h

/-! ### Encoding and the step -/

theorem witness_DecodeOfEncode : (Instr.round 63).wellFormed = true := by decide

theorem witness_EncodeOfDecode : decode 0x003F0012 = .ok (.round 63) := by decide

theorem witness_StepRunsInstruction_queue : ∃ (s : State) (e : QEntry) (rest : List QEntry) (i : Instr),
    s.resetIn = false ∧ s.halted = false ∧ s.q = e :: rest ∧ decode e.word = .ok i ∧ i.fromHost = false :=
  ⟨{ queued booted (.round 63) .none with cmds := [⟨0x03, []⟩] }, ⟨encode (.round 63), .none⟩, _, .round 63, rfl, rfl, rfl,
    by decide, by decide⟩

theorem witness_StepRunsInstruction_command : ∃ (s : State) (c : Presented) (rest : List Presented) (i : Instr),
    s.waiting ∧ s.cmds = c :: rest ∧ decode c.word = .ok i ∧ i.fromHost = true :=
  ⟨presented booted 0x03 [], ⟨0x03, []⟩, [], .initIv, ⟨rfl, rfl, rfl⟩, rfl, by decide, by decide⟩

theorem witness_StepRefusesIllegalWord_unassigned : ∃ (s : State) (c : Presented) (rest : List Presented),
    s.waiting ∧ s.cmds = c :: rest ∧ (∀ i, decode c.word = .ok i → i.cls ≠ .facade ∧ i.cls ≠ .codec) := by
  refine ⟨presented booted 0x07 [], ⟨0x07, []⟩, [], ⟨rfl, rfl, rfl⟩, rfl, fun i h => ?_⟩
  rw [show decode 0x07 = .error .unassignedOpcode by decide] at h
  cases h

theorem witness_StepRefusesIllegalWord_internal : ∃ (s : State) (c : Presented) (rest : List Presented),
    s.waiting ∧ s.cmds = c :: rest ∧ (∀ i, decode c.word = .ok i → i.cls ≠ .facade ∧ i.cls ≠ .codec) := by
  refine ⟨presented booted 0x12 [], ⟨0x12, []⟩, [], ⟨rfl, rfl, rfl⟩, rfl, fun i h => ?_⟩
  rw [show decode 0x12 = .ok (.round 0) by decide] at h
  cases h
  decide

theorem witness_HaltedOrIdle : ({ booted with halted := true } : State).resetIn = false ∧
    ({ booted with halted := true } : State).halted = true ∧ State.reset.waiting ∧ State.reset.cmds = [] := by
  decide +kernel

theorem witness_ResetStep : ({ booted with resetIn := true } : State).resetIn = true := rfl

/-! ### The codec -/

theorem witness_BitsOfResult : (presented booted 0x108 [.elem 0xFFFFFFFF]).cmds = [⟨0x108, [.elem 0xFFFFFFFF]⟩] ∧
    booted.mode = .witness ∧ 0xFFFFFFFF < 2 ^ widthBits .w32 := ⟨rfl, rfl, by decide⟩

theorem witness_BitsOfResult_convert : booted.mode = .witness ∧ 0x10000 < Config.fieldP ∧ 2 ^ widthBits .w16 ≤ 0x10000 :=
  ⟨rfl, lt_p (by norm_num), by decide⟩

/-- In SHAPE mode, at a value that is too wide. -/
theorem witness_BitsOfResult_shape : ({ booted with mode := .shape } : State).mode = .shape ∧
    0x10000 < Config.fieldP ∧ 2 ^ widthBits .w16 ≤ 0x10000 := ⟨rfl, lt_p (by norm_num), by decide⟩

theorem witness_BitsOfResult_operand : (∀ x, [DinItem.bits []] = [.elem x] → ¬ x < Config.fieldP) ∧
    (∀ x, [DinItem.elem Config.fieldP] = [.elem x] → ¬ x < Config.fieldP) ∧
    (∀ x, ([] : List DinItem) = [.elem x] → ¬ x < Config.fieldP) := by
  refine ⟨fun x h => by simp at h, fun x h => ?_, fun x h => by simp at h⟩
  simp only [List.cons.injEq, DinItem.elem.injEq, and_true] at h
  exact h ▸ lt_irrefl _

theorem witness_IntOfResult : (List.replicate 64 true).length ≤ 64 ∧ 64 < (List.replicate 65 true).length ∧
    ∀ b, [DinItem.elem 5] ≠ [.bits b] := ⟨by decide, by decide, fun b => by simp⟩

theorem witness_SpreadResult : [DinItem.bits []] = [.bits []] ∧ ∀ b, [DinItem.bits [], .bits []] ≠ [.bits b] :=
  ⟨rfl, fun b => by simp⟩

theorem witness_SpreadFunctions : 0xFFFFFFFF < 2 ^ 32 ∧ 0xFFFF < 2 ^ 16 := by decide

/-! ### CONFIGURE and LOAD -/

theorem witness_ConfigureResult : ∃ (s : State) (w : CmdWord) (rest : List Presented), s.phase = .reset ∧
    s.cmds = ⟨w, []⟩ :: rest ∧ s.hostAccepts = true ∧ (∀ t < 64, s.cell (.fixK t) = none) ∧
    (∀ i < 8, s.cell (.fixIv i) = none) :=
  ⟨presented State.reset 0x01 [], 0x01, [], rfl, rfl, rfl, by decide +kernel, by decide +kernel⟩

theorem witness_ConfigureRefused : ∀ n ∈ [0, 12, 13, 84], ∃ (s : State) (w : CmdWord) (rest : List Presented)
    (as : List Bool), s.phase = .reset ∧ s.cmds = ⟨w, []⟩ :: rest ∧
    s.hostAnswers = List.replicate n true ++ false :: as ∧ (∀ t < 64, s.cell (.fixK t) = none) ∧
    (∀ i < 8, s.cell (.fixIv i) = none) ∧ (n < 13 ∨ 13 ≤ n ∧ n < 85) := by
  intro n hn
  refine ⟨{ presented State.reset 0x01 [] with hostAnswers := List.replicate n true ++ false :: [true] }, 0x01, [],
    [true], rfl, rfl, rfl, by decide +kernel +revert, by decide +kernel +revert, ?_⟩
  simp only [List.mem_cons, List.not_mem_nil, or_false] at hn
  omega

theorem witness_LoadResult : ∃ (s : State) (w : CmdWord) (rest : List Presented), s.phase = .conf ∧
    s.cmds = ⟨w, []⟩ :: rest ∧ s.hostAccepts = true ∧ (∀ col v, s.cell (.tab col v) = none) :=
  ⟨presented { State.reset with phase := .conf } 0x02 [], 0x02, [], rfl, rfl, rfl, no_table_cell _ rfl⟩

theorem witness_LoadRefused : ∀ n ∈ [0, 1, 2, 196607], ∃ (s : State) (w : CmdWord) (rest : List Presented)
    (as : List Bool), s.phase = .conf ∧ s.cmds = ⟨w, []⟩ :: rest ∧
    s.hostAnswers = List.replicate n true ++ false :: as ∧ n < 196608 ∧ (∀ col v, s.cell (.tab col v) = none) := by
  intro n hn
  refine ⟨{ presented State.reset 0x02 [] with
    phase := .conf, hostAnswers := List.replicate n true ++ false :: [true] }, 0x02, [], [true], rfl, rfl, rfl, ?_,
    no_table_cell _ rfl⟩
  simp only [List.mem_cons, List.not_mem_nil, or_false] at hn
  omega

/-! ### Facade commands that queue -/

/-- The word values 0 to 2^33 - 1 of some length. -/
def someItems (n : Nat) : List DinItem := (List.replicate n 0x1FFFFFFFF).map DinItem.elem

theorem someItems_ok (n : Nat) : ∀ d ∈ someItems n, ∃ x < Config.fieldP, d = .elem x :=
  items_ok fun x hx => by rw [List.eq_of_mem_replicate hx]; norm_num

theorem someItems_length (n : Nat) : (someItems n).length = n := by simp [someItems]

theorem witness_InitAccepted : ∃ (s : State) (w : CmdWord) (rest : List Presented) (din : List DinItem),
    s.phase ≠ .reset ∧ s.phase ≠ .conf ∧ s.cmds = ⟨w, din⟩ :: rest ∧ din = [] ∧ s.digValid = true :=
  ⟨presented { booted with phase := .digested, digValid := true } 0x1004 [], 0x1004, [], [], by decide, by decide, rfl,
    rfl, rfl⟩

theorem witness_InitAccepted_data : ∃ (s : State) (w : CmdWord) (rest : List Presented) (din : List DinItem),
    s.phase ≠ .reset ∧ s.phase ≠ .conf ∧ s.cmds = ⟨w, din⟩ :: rest ∧ din.length = 8 ∧
    (∀ d ∈ din, ∃ x < Config.fieldP, d = .elem x) :=
  ⟨presented { booted with phase := .ready } 0x04 (someItems 8), 0x04, [], someItems 8, by decide, by decide, rfl,
    someItems_length 8, someItems_ok 8⟩

theorem witness_CompressDigestAccepted : ∃ (s : State) (w : CmdWord) (rest : List Presented) (din : List DinItem),
    s.cmds = ⟨w, din⟩ :: rest ∧ s.phase = .state ∧ din.length = 16 ∧ (∀ d ∈ din, ∃ x < Config.fieldP, d = .elem x) :=
  ⟨presented booted 0x05 (someItems 16), 0x05, [], someItems 16, rfl, rfl, someItems_length 16, someItems_ok 16⟩

theorem witness_CompressDigestAccepted_digest : ∃ (s : State) (w : CmdWord) (rest : List Presented) (din : List DinItem),
    s.cmds = ⟨w, din⟩ :: rest ∧ s.phase = .done ∧ din = [] :=
  ⟨presented { booted with phase := .done } 0x06 [], 0x06, [], [], rfl, rfl, rfl⟩

theorem witness_SequenceFault : ∀ ph : Phase, ∃ (s : State) (c : Presented) (rest : List Presented), s.cmds = c :: rest ∧
    s.phase = ph ∧ s.digValid = false := fun ph => ⟨presented { booted with phase := ph } 0x01 [.elem 5], _, _, rfl, rfl, rfl⟩

/-- A `din` for every command of the first clause of DinFault. -/
theorem witness_DinFault : ∃ (s : State) (w : CmdWord) (din : List DinItem) (rest : List Presented),
    s.cmds = ⟨w, din⟩ :: rest ∧ s.phase = .digested ∧ s.digValid = true ∧ din ≠ [] :=
  ⟨presented { booted with phase := .digested, digValid := true } 0x03 [.elem 0], 0x03, [.elem 0], [], rfl, rfl, rfl,
    by decide⟩

theorem witness_DinFault_items : (∀ n ∈ [0, 7, 9], ¬ ((someItems n).length = 8 ∧
      ∀ d ∈ someItems n, ∃ x < Config.fieldP, d = .elem x)) ∧
    ¬ ((List.replicate 16 (DinItem.bits [])).length = 16 ∧
      ∀ d ∈ List.replicate 16 (DinItem.bits []), ∃ x < Config.fieldP, d = .elem x) ∧
    ¬ ((List.replicate 16 (DinItem.elem Config.fieldP)).length = 16 ∧
      ∀ d ∈ List.replicate 16 (DinItem.elem Config.fieldP), ∃ x < Config.fieldP, d = .elem x) := by
  refine ⟨fun n hn h => ?_, fun h => ?_, fun h => ?_⟩
  · rw [someItems_length] at h
    simp only [List.mem_cons, List.not_mem_nil, or_false] at hn
    omega
  · obtain ⟨x, -, hx⟩ := h.2 (.bits []) (by decide)
    cases hx
  · obtain ⟨x, hp, hx⟩ := h.2 (.elem Config.fieldP) (by simp)
    cases hx
    exact lt_irrefl _ hp

/-! ### Primitive operations -/

theorem witness_LookupResult : ∃ (s : State) (w : CmdWord) (rest : List QEntry) (e : Nat) (d t sp : CellName) (b : Nat)
    (lt ls : List Seg) (n : Nat), e ≤ 15 ∧ s.q = ⟨w, .lookup d t sp⟩ :: rest ∧ s.ready ∧ s.Reads d n ∧
    n < Config.fieldP ∧ t = .adv ⟨b, lt⟩ ∧ sp = .adv ⟨b, ls⟩ ∧ t ≠ sp ∧ s.cell t = none ∧ s.cell sp = none :=
  ⟨queued (withWords [2]) (.lookup 15) (.lookup ((opd 0).cell .d) (out.cell .t) (out.cell .s)), _, _, 15, _, _, _, 1,
    [.x, .t], [.x, .s], 2, by decide, rfl, by decide +kernel, by decide +kernel, lt_p (by norm_num), rfl, rfl,
    by decide +kernel, by decide +kernel, by decide +kernel⟩

/-- The same in SHAPE mode, where the cell holds `Unknown`. -/
theorem witness_LookupResult_shape : ∃ (s : State) (w : CmdWord) (rest : List QEntry) (d t sp : CellName) (n : Nat),
    s.mode = .shape ∧ s.q = ⟨w, .lookup d t sp⟩ :: rest ∧ s.ready ∧ s.Reads d n ∧ n < Config.fieldP ∧ t ≠ sp ∧
    s.cell t = none ∧ s.cell sp = none :=
  ⟨queued (give { booted with mode := .shape } (opd 0) 2) (.lookup 0)
      (.lookup ((opd 0).cell .d) (out.cell .t) (out.cell .s)), _, _, _, _, _, 2, by decide +kernel, rfl,
    by decide +kernel, by decide +kernel, lt_p (by norm_num), by decide +kernel, by decide +kernel, by decide +kernel⟩

theorem witness_RangeResult : ∀ k ∈ [1, 15, 16], ∃ (s : State) (w : CmdWord) (rest : List QEntry) (d : CellName)
    (p : Path) (n : Nat), 1 ≤ k ∧ k ≤ 16 ∧ s.q = ⟨w, .range d p⟩ :: rest ∧ s.ready ∧ s.Reads d n ∧ n < Config.fieldP ∧
    s.fresh p = true := by
  intro k hk
  simp only [List.mem_cons, List.not_mem_nil, or_false] at hk
  exact ⟨queued (withWords [0xFFFF]) (.range k) (.range ((opd 0).cell .d) out), _, _, _, _, 0xFFFF, by omega, by omega, rfl,
    (by decide +kernel : (withWords [0xFFFF]).ready), (by decide +kernel : (withWords [0xFFFF]).Reads ((opd 0).cell .d) _),
    lt_p (by norm_num), (by decide +kernel : (withWords [0xFFFF]).fresh out = true)⟩

theorem witness_RecombResult : ∃ (s : State) (w : CmdWord) (rest : List QEntry) (d lo hi : CellName) (x y z : Nat),
    s.q = ⟨w, .recomb d lo hi⟩ :: rest ∧ s.ready ∧ s.Reads d x ∧ s.Reads lo y ∧ s.Reads hi z :=
  ⟨queued (withWords [0xFFFFFFFF]) .recomb (.recomb ((opd 0).cell .d) ((opd 0).cell .lo) ((opd 0).cell .hi)), _, _, _, _,
    _, 0xFFFFFFFF, 0xFFFF, 0xFFFF, rfl, by decide +kernel, by decide +kernel, by decide +kernel, by decide +kernel⟩

theorem witness_CarryResult : ∃ (s : State) (w : CmdWord) (rest : List QEntry) (m : Nat) (c : CellName) (x : Nat),
    m ≤ 5 ∧ s.q = ⟨w, .carry c⟩ :: rest ∧ s.ready ∧ s.Reads c x ∧ x < Config.fieldP :=
  ⟨queued (withWords [6]) (.carry 5) (.carry ((opd 0).cell .d)), _, _, 5, _, 6, by decide, rfl, by decide +kernel,
    by decide +kernel, lt_p (by norm_num)⟩

theorem witness_CopyResult : ∃ (s : State) (w : CmdWord) (rest : List QEntry) (a b : CellName) (x y : Nat),
    s.q = ⟨w, .copy a b⟩ :: rest ∧ a.kind ≠ .table ∧ b.kind ≠ .table ∧ s.ready ∧ s.Reads a x ∧ s.Reads b y ∧
    x < Config.fieldP ∧ y < Config.fieldP :=
  ⟨queued (withWords [1]) .copy (.copy ((opd 0).cell .d) (.fixIv 0)), _, _, _, _, 1, 0x6a09e667, rfl, by decide,
    by decide, by decide +kernel, by decide +kernel, by decide +kernel, lt_p (by norm_num), lt_p (by norm_num)⟩

theorem witness_CopyResult_table : ∃ (s : State) (w : CmdWord) (rest : List QEntry) (a b : CellName),
    s.q = ⟨w, .copy a b⟩ :: rest ∧ (a.kind = .table ∨ b.kind = .table) :=
  ⟨queued booted .copy (.copy (.fixIv 0) (.tab .dense 5)), _, _, _, _, rfl, by decide⟩

theorem witness_CopyResult_refused : ∃ (s : State) (w : CmdWord) (rest : List QEntry) (a b : CellName)
    (as : List Bool), s.q = ⟨w, .copy a b⟩ :: rest ∧ a.kind ≠ .table ∧ b.kind ≠ .table ∧ s.hostAnswers = false :: as :=
  ⟨{ queued booted .copy (.copy (.fixIv 0) (.fixIv 0)) with hostAnswers := [false] }, _, _, _, _, [], rfl, by decide,
    by decide, rfl⟩

theorem witness_CopyResult_missing : ∃ (s : State) (w : CmdWord) (rest : List QEntry) (a b : CellName),
    s.q = ⟨w, .copy a b⟩ :: rest ∧ a.kind ≠ .table ∧ b.kind ≠ .table ∧ s.hostAnswers.head? ≠ some false ∧
    s.has a = true ∧ s.has b = false :=
  ⟨queued booted .copy (.copy (.fixIv 0) (.fixIv 7)), _, _, _, _, rfl, by decide, by decide, by decide +kernel,
    by decide +kernel, by decide +kernel⟩

theorem witness_WordResult : ∃ (s : State) (w : CmdWord) (rest : List QEntry) (p : Path) (v : Val) (n : Nat),
    s.q = ⟨w, .word p v⟩ :: rest ∧ s.ready ∧ (s.mode = .witness → v = .known n) ∧ n < Config.fieldP ∧
    s.fresh p = true :=
  ⟨queued booted .word (.word out (.known 0x100000000)), _, _, _, _, 0x100000000, rfl, by decide +kernel, fun _ => rfl,
    lt_p (by norm_num), by decide +kernel⟩

theorem witness_DecompResult : ∃ (s : State) (w : CmdWord) (rest : List QEntry) (x p : Path) (n : Nat),
    s.q = ⟨w, .decomp x p⟩ :: rest ∧ s.ready ∧ s.Reads (x.cell .d) n ∧ n < Config.fieldP ∧ s.fresh p = true :=
  ⟨queued (withWords [0x1FFFFFFFF]) (.decomp .bsig1) (.decomp (opd 0) out), _, _, _, _, 0x1FFFFFFFF, rfl,
    by decide +kernel, by decide +kernel, lt_p (by norm_num), by decide +kernel⟩

theorem witness_ExtractResult : ∀ k ∈ [2, 3, 4], ∃ (s : State) (w : CmdWord) (rest : List QEntry)
    (ops : List OperandExpr) (p : Path) (f : CellName → Nat), 2 ≤ k ∧ k ≤ 4 ∧ ops.length = k ∧
    s.q = ⟨w, .extract ops p⟩ :: rest ∧ s.ready ∧ (∀ t ∈ ops.flatMap (·.terms), s.Reads t.2 (f t.2)) ∧
    s.fresh p = true := by
  intro k hk
  refine ⟨queued (withWords (List.replicate 4 0xFFFFFFFF)) (.extract k)
    (.extract ((List.range k).map fun i => ⟨spr (opd i), 0⟩) out), _, _, _, _, fun _ => 0x55555555, ?_, ?_, by simp, rfl, ?_,
    ?_, ?_⟩ <;> revert hk <;> revert k <;> decide +kernel

theorem witness_ExtractResult_bounds : (-2 ^ 66 : Int) < -1 ∧ (-1 : Int) < 2 ^ 66 ∧ (-2 ^ 66 : Int) < 4 ^ 32 ∧
    (4 ^ 32 : Int) < 2 ^ 66 := by decide

theorem witness_ModaddResult : ∀ n ∈ [1, 5], ∃ (s : State) (w : CmdWord) (rest : List QEntry) (K : Nat) (ys : List Path)
    (p : Path) (g : Path → Nat), 1 ≤ n ∧ n ≤ 5 ∧ ys.length = n ∧ K < 2 ^ 32 ∧ s.q = ⟨w, .modadd ys K p⟩ :: rest ∧
    s.ready ∧ (∀ y ∈ ys, s.Reads (y.cell .d) (g y) ∧ g y < Config.fieldP) ∧ s.fresh p = true := by
  intro n hn
  have hr : ∀ y ∈ (List.range n).map opd, (withWords (List.replicate 5 0x1FFFFFFFF)).Reads (y.cell .d) 0x1FFFFFFFF := by
    revert hn; revert n; decide +kernel
  simp only [List.mem_cons, List.not_mem_nil, or_false] at hn
  exact ⟨queued (withWords (List.replicate 5 0x1FFFFFFFF)) (.modadd n) (.modadd ((List.range n).map opd) 0xFFFFFFFF out), _,
    _, 0xFFFFFFFF, _, _, fun _ => 0x1FFFFFFFF, by omega, by omega, by simp, by norm_num, rfl,
    (by decide +kernel : (withWords (List.replicate 5 0x1FFFFFFFF)).ready), fun y hy => ⟨hr y hy, lt_p (by norm_num)⟩,
    (by decide +kernel : (withWords (List.replicate 5 0x1FFFFFFFF)).fresh out = true)⟩

/-! ### Function operations -/

theorem witness_SigmaResult : ∃ (s : State) (w : CmdWord) (rest : List QEntry) (x p : Path) (n : Nat),
    s.q = ⟨w, .sigma x p⟩ :: rest ∧ s.ready ∧ s.Reads (x.cell .d) n ∧ n < Config.fieldP ∧ s.fresh p = true :=
  ⟨queued (withWords [0x100000000]) .ssig0 (.sigma (opd 0) out), _, _, _, _, 0x100000000, rfl, by decide +kernel,
    by decide +kernel, lt_p (by norm_num), by decide +kernel⟩

theorem witness_ChResult : ∃ (s : State) (w : CmdWord) (rest : List QEntry) (e f g p : Path) (ne nf ng : Nat),
    s.q = ⟨w, .triple e f g p⟩ :: rest ∧ s.ready ∧ s.ReadsWord e ne ∧ s.ReadsWord f nf ∧ s.ReadsWord g ng ∧
    s.fresh p = true :=
  ⟨queued (withWords [0xFFFFFFFF, 0x12345678, 0x9abcdef0]) .ch (.triple (opd 0) (opd 1) (opd 2) out), _, _, _, _, _, _,
    0xFFFFFFFF, 0x12345678, 0x9abcdef0, rfl, by decide +kernel, by decide +kernel, by decide +kernel, by decide +kernel,
    by decide +kernel⟩

theorem witness_MajResult : ∃ (s : State) (w : CmdWord) (rest : List QEntry) (a b c p : Path) (na nb nc : Nat),
    s.q = ⟨w, .triple a b c p⟩ :: rest ∧ s.ready ∧ s.ReadsWord a na ∧ s.ReadsWord b nb ∧ s.ReadsWord c nc ∧
    s.fresh p = true :=
  ⟨queued (withWords [0xF0F0F0F0, 0xCCCCCCCC, 0xAAAAAAAA]) .maj (.triple (opd 0) (opd 1) (opd 2) out), _, _, _, _, _, _,
    0xF0F0F0F0, 0xCCCCCCCC, 0xAAAAAAAA, rfl, by decide +kernel, by decide +kernel, by decide +kernel, by decide +kernel,
    by decide +kernel⟩

/-! ### Level-1 operations -/

theorem witness_SchedInResult : ∃ (s : State) (w : CmdWord) (rest : List QEntry) (t : Nat) (v : Val) (n : Nat), t ≤ 15 ∧
    s.q = ⟨w, .value v⟩ :: rest ∧ s.ready ∧ (s.mode = .witness → v = .known n) ∧ n < Config.fieldP ∧
    s.fresh ⟨s.blk, [.w t]⟩ = true :=
  ⟨queued booted (.schedIn 15) (.value (.known 0x100000000)), _, _, 15, _, 0x100000000, by decide, rfl, by decide +kernel,
    fun _ => rfl, lt_p (by norm_num), by decide +kernel⟩

theorem witness_SchedResult : ∃ (s : State) (w : CmdWord) (r : OpRec) (rest : List QEntry) (t : Nat)
    (p w2 w7 w15 w16 : Path) (n2 n7 n15 n16 : Nat), 16 ≤ t ∧ t ≤ 63 ∧ p = ⟨s.blk, [.w t]⟩ ∧ s.q = ⟨w, r⟩ :: rest ∧
    s.ready ∧ handle? s.w (t - 2) = some w2 ∧ handle? s.w (t - 7) = some w7 ∧ handle? s.w (t - 15) = some w15 ∧
    handle? s.w (t - 16) = some w16 ∧ s.Reads (w2.cell .d) n2 ∧ s.Reads (w7.cell .d) n7 ∧ s.Reads (w15.cell .d) n15 ∧
    s.Reads (w16.cell .d) n16 ∧ n2 < Config.fieldP ∧ n7 < Config.fieldP ∧ n15 < Config.fieldP ∧ n16 < Config.fieldP ∧
    s.fresh p = true :=
  ⟨queued inBlock (.sched 16) .none, _, _, _, 16, _, ⟨1, [.w 14]⟩, ⟨1, [.w 9]⟩, ⟨1, [.w 1]⟩, ⟨1, [.w 0]⟩, 0, 0, 0,
    0x61626380, by decide, by decide, rfl, rfl, by decide +kernel, by decide +kernel, by decide +kernel,
    by decide +kernel, by decide +kernel, by decide +kernel, by decide +kernel, by decide +kernel, by decide +kernel,
    lt_p (by norm_num), lt_p (by norm_num), lt_p (by norm_num), lt_p (by norm_num), by decide +kernel⟩

/-- The handles and the numbers of `inState`. -/
def ivHandles : Handles := ⟨opd 0, opd 1, opd 2, opd 3, opd 4, opd 5, opd 6, opd 7⟩
def ivValues : StateValues :=
  ⟨0x6a09e667, 0xbb67ae85, 0x3c6ef372, 0xa54ff53a, 0x510e527f, 0x9b05688c, 0x1f83d9ab, 0x5be0cd19⟩

theorem ivValues_ok : ∀ x ∈ ivValues.toList, x < Config.fieldP := by
  have : ∀ x ∈ ivValues.toList, x < 2 ^ 66 := by decide
  exact fun x hx => lt_p (this x hx)

theorem witness_RoundResult : ∃ (s : State) (w : CmdWord) (r : OpRec) (e : QEntry) (rest : List QEntry) (t : Nat)
    (p : Path) (H : Handles) (v : StateValues) (wh : Path) (wn : Nat), t ≤ 63 ∧ p = ⟨s.blk, [.rIx t]⟩ ∧
    s.q = ⟨w, r⟩ :: e :: rest ∧ s.ready ∧ s.stateReg = H.toFile ∧ handle? s.w t = some wh ∧ s.ReadsState H v ∧
    (∀ x ∈ v.toList, x < Config.fieldP) ∧ s.Reads (wh.cell .d) wn ∧ wn < Config.fieldP ∧ s.fresh p = true :=
  ⟨queued (giveWord inState 63 0x12b1edeb) (.round 63) .none, _, _, _, _, 63, _, ivHandles, ivValues, ⟨1, [.w 63]⟩,
    0x12b1edeb, by decide, rfl, rfl, by decide +kernel, by decide +kernel, by decide +kernel,
    by refine ⟨?_, ?_, ?_, ?_, ?_, ?_, ?_, ?_⟩ <;> decide +kernel, ivValues_ok, by decide +kernel, lt_p (by norm_num), by decide +kernel⟩

/-- ROUND 63 whose W[63] is not written. -/
theorem witness_OperandFaults_round : ∃ (s : State) (r : QEntry) (rest : List QEntry) (p : Path) (H : Handles)
    (v : StateValues), s.q = r :: rest ∧ s.ready ∧ p = ⟨s.blk, [.rIx 63]⟩ ∧ s.fresh p = true ∧
    s.stateReg = H.toFile ∧ s.ReadsState H v ∧ (∀ x ∈ v.toList, x < Config.fieldP) ∧ handle? s.w 63 = none :=
  ⟨queued inState (.round 63) .none, _, _, _, ivHandles, ivValues, rfl, by decide +kernel, rfl, by decide +kernel,
    by decide +kernel, by refine ⟨?_, ?_, ?_, ?_, ?_, ?_, ?_, ?_⟩ <;> decide +kernel, ivValues_ok, by decide +kernel⟩

theorem witness_CompressCompletion : ∃ (s : State) (w : CmdWord) (r : OpRec) (t : Nat) (p : Path) (H : Handles)
    (v : StateValues) (wh : Path) (wn : Nat) (ws : List Path), t ≤ 63 ∧ p = ⟨s.blk, [.rIx t]⟩ ∧ s.q = [⟨w, r⟩] ∧
    s.ready ∧ s.stateReg = H.toFile ∧ handle? s.w t = some wh ∧ (∀ i < 16, handle? s.w i = ws[i]?) ∧ ws.length = 16 ∧
    s.ReadsState H v ∧ (∀ x ∈ v.toList, x < Config.fieldP) ∧ s.Reads (wh.cell .d) wn ∧ wn < Config.fieldP ∧
    s.fresh p = true :=
  ⟨{ giveWord inBlock 63 0x12b1edeb with q := [⟨encode (.round 63), .none⟩] }, _, _, 63, _, ivHandles, ivValues,
    ⟨1, [.w 63]⟩, 0x12b1edeb, (List.range 16).map fun t => ⟨1, [.w t]⟩, by decide, rfl, rfl, by decide +kernel,
    by decide +kernel, by decide +kernel, by decide +kernel, by decide +kernel,
    by refine ⟨?_, ?_, ?_, ?_, ?_, ?_, ?_, ?_⟩ <;> decide +kernel, ivValues_ok, by decide +kernel, lt_p (by norm_num), by decide +kernel⟩

theorem witness_InitWordResult_iv : ∃ (s : State) (w : CmdWord) (r : OpRec) (e : QEntry) (rest : List QEntry) (i : Nat)
    (h : Path) (n : Nat), i ≤ 7 ∧ h = ⟨s.blk, [.iv i]⟩ ∧ s.q = ⟨w, r⟩ :: e :: rest ∧ s.ready ∧ n < Config.fieldP ∧
    s.fresh h = true ∧ n = ivRom i ∧ s.Reads (.fixIv i) n :=
  ⟨queued { booted with blk := 2 } (.initWord .iv 0) .none, _, _, _, _, 0, _, 0x6a09e667, by decide, rfl, rfl,
    by decide +kernel, lt_p (by norm_num), by decide +kernel, by decide, by decide +kernel⟩

theorem witness_InitWordResult_data : ∃ (s : State) (w : CmdWord) (r : OpRec) (e : QEntry) (rest : List QEntry) (i : Nat)
    (h : Path) (n : Nat), i ≤ 7 ∧ h = ⟨s.blk, [.iv i]⟩ ∧ s.q = ⟨w, r⟩ :: e :: rest ∧ s.ready ∧ n < Config.fieldP ∧
    s.fresh h = true ∧ ∃ v, r = .value v ∧ (s.mode = .witness → v = .known n) :=
  ⟨queued booted (.initWord .data 7) (.value (.known 0x100000000)), _, _, _, _, 7, _, 0x100000000, by decide, rfl, rfl,
    by decide +kernel, lt_p (by norm_num), by decide +kernel, _, rfl, fun _ => rfl⟩

/-- A block whose last digest is `out`'s eight bundles, here the operand bundles, ready for a second block. -/
def digested : State :=
  { inState with
    phase := .digested, blk := 2, digValid := true
    dig := #v[opd 0, opd 1, opd 2, opd 3, opd 4, opd 5, opd 6, opd 7] }

theorem witness_InitWordResult_digest : ∃ (s : State) (w : CmdWord) (r : OpRec) (e : QEntry) (rest : List QEntry)
    (i : Nat) (h g : Path) (n : Nat), i ≤ 7 ∧ h = ⟨s.blk, [.iv i]⟩ ∧ s.q = ⟨w, r⟩ :: e :: rest ∧ s.ready ∧
    n < Config.fieldP ∧ s.fresh h = true ∧ handle? s.dig i = some g ∧ s.Reads (g.cell .d) n :=
  ⟨queued digested (.initWord .digest 7) .none, _, _, _, _, 7, _, opd 7, 0x5be0cd19, by decide, rfl, rfl,
    by decide +kernel, lt_p (by norm_num), by decide +kernel, by decide +kernel, by decide +kernel⟩

theorem witness_InitCompletion : ∃ (s : State) (w : CmdWord) (r : OpRec) (i : Nat) (h g : Path) (n : Nat)
    (hs : List Path), i ≤ 7 ∧ h = ⟨s.blk, [.iv i]⟩ ∧ s.q = [⟨w, r⟩] ∧ s.ready ∧ n < Config.fieldP ∧ s.fresh h = true ∧
    handle? s.dig i = some g ∧ s.Reads (g.cell .d) n ∧ hs.length = 8 ∧ hs[i]? = some h ∧
    (∀ j < 8, j ≠ i → handle? s.stateReg j = hs[j]?) :=
  ⟨{ digested with q := [⟨encode (.initWord .digest 7), .none⟩] }, _, _, 7, _, opd 7, 0x5be0cd19,
    (List.range 7).map opd ++ [⟨2, [.iv 7]⟩], by decide, rfl, rfl, by decide +kernel, lt_p (by norm_num),
    by decide +kernel, by decide +kernel, by decide +kernel, by decide, by decide, by decide +kernel⟩

theorem witness_DigestWordResult : ∃ (s : State) (w : CmdWord) (r : OpRec) (e : QEntry) (rest : List QEntry) (i : Nat)
    (p a b : Path) (na nb : Nat), i ≤ 7 ∧ p = ⟨s.blk, [.dg i]⟩ ∧ s.q = ⟨w, r⟩ :: e :: rest ∧ s.ready ∧
    handle? s.stateReg i = some a ∧ handle? s.ivUsed i = some b ∧ s.Reads (a.cell .d) na ∧ s.Reads (b.cell .d) nb ∧
    na < Config.fieldP ∧ nb < Config.fieldP ∧ s.fresh p = true :=
  ⟨queued inState (.digestWord 0) .none, _, _, _, _, 0, _, opd 0, opd 0, 0x6a09e667, 0x6a09e667, by decide, rfl, rfl,
    by decide +kernel, by decide +kernel, by decide +kernel, by decide +kernel, by decide +kernel, lt_p (by norm_num),
    lt_p (by norm_num), by decide +kernel⟩

theorem witness_DigestCompletion : ∃ (s : State) (w : CmdWord) (r : OpRec) (i : Nat) (p a b : Path) (na nb : Nat)
    (hs : List Path), i ≤ 7 ∧ p = ⟨s.blk, [.dg i]⟩ ∧ s.q = [⟨w, r⟩] ∧ s.ready ∧ handle? s.stateReg i = some a ∧
    handle? s.ivUsed i = some b ∧ s.Reads (a.cell .d) na ∧ s.Reads (b.cell .d) nb ∧ na < Config.fieldP ∧
    nb < Config.fieldP ∧ s.fresh p = true ∧ hs.length = 8 ∧ hs[i]? = some (p.sub .r) ∧
    (∀ j < 8, j ≠ i → handle? s.dig j = hs[j]?) ∧
    (∀ j < 8, j ≠ i → ∀ h, hs[j]? = some h → s.has (h.cell .d) = true) := by
  refine ⟨{ digested with q := [⟨encode (.digestWord 7), .none⟩] }, _, _, 7, _, opd 7, opd 7, 0x5be0cd19, 0x5be0cd19,
    (List.range 7).map opd ++ [⟨2, [.dg 7, .r]⟩], by decide, rfl, rfl, by decide +kernel, by decide +kernel,
    by decide +kernel, by decide +kernel, by decide +kernel, lt_p (by norm_num), lt_p (by norm_num), by decide +kernel,
    by decide, by decide, by decide +kernel, fun j hj hne h hh => ?_⟩
  have : ∀ k < 7, digested.has ((opd k).cell .d) = true := by decide +kernel
  have hj7 : j < 7 := by omega
  rw [List.getElem?_append_left (by simpa using hj7), List.getElem?_map, List.getElem?_range hj7] at hh
  cases hh
  exact this j hj7

/-! ### Faults -/

theorem witness_MemWriteRule : ∃ (s : State) (c c' : CellName), s.has c = true ∧ c'.kind ≠ .advice ∧
    ∃ c'' : CellName, s.has c'' = false ∧ c''.kind = .advice ∧ s.hostAnswers.head? ≠ some false ∧
    ∃ s' : State, s'.has c'' = false ∧ s'.hostAnswers = [false] :=
  ⟨booted, .fixIv 0, .tab .dense 65536, by decide +kernel, by decide, out.cell .d, by decide +kernel, by decide,
    by decide, { booted with hostAnswers := [false] }, by decide +kernel, rfl⟩

theorem witness_OperandFaults : ∃ (s : State) (rest : List QEntry) (d : CellName) (x : Path),
    s.q = ⟨encode .recomb, .recomb d d d⟩ :: rest ∧ s.has d = false ∧ s.has (x.cell .d) = false ∧
    (∀ t ∈ [16, 63], handle? s.w (t - 2) = none) ∧ handle? s.stateReg 7 = none ∧ handle? s.ivUsed 7 = none ∧
    handle? s.dig 7 = none :=
  ⟨queued booted .recomb (.recomb (out.cell .d) (out.cell .d) (out.cell .d)), _, _, out, rfl, by decide +kernel,
    by decide +kernel, by decide +kernel, by decide +kernel, by decide +kernel, by decide +kernel⟩

/-- Operands that do not exist, for the other operations: one of two, one of three, the last. -/
theorem witness_OperandFaults_cells :
    (queued booted (.lookup 3) (.lookup (out.cell .d) (out.cell .t) (out.cell .s))).mode = .witness ∧
    (∀ i ∈ [Instr.lookup 3, .range 16, .decomp .ssig0, .ssig0, .bsig1],
      (queued booted i (.range (out.cell .d) out)).has (out.cell .d) = false) ∧
    ([⟨spr (opd 0), 0⟩, ⟨spr (opd 1), 0⟩] : List OperandExpr).length = 2 ∧
    (∃ t ∈ ([⟨spr (opd 0), 0⟩, ⟨spr (opd 1), 0⟩] : List OperandExpr).flatMap (·.terms),
      (withWords [7]).has t.2 = false) ∧
    [opd 0, opd 1].length = 2 ∧ (∃ y ∈ [opd 0, opd 1], (withWords [7]).has (y.cell .d) = false) ∧
    (∃ h ∈ [opd 0, opd 1, opd 2], (withWords [7, 8]).has (h.cell .slo) = false ∨ (withWords [7, 8]).has (h.cell .shi) = false) ∧
    (∃ h ∈ [opd 0, opd 1], (withWords [7]).has (h.cell .slo) = false ∨ (withWords [7]).has (h.cell .shi) = false) := by
  decide +kernel

/-- A block whose handles of word 7 name a bundle that does not exist. -/
def dangling : State :=
  queued { booted with stateReg := inState.stateReg, ivUsed := inState.ivUsed, dig := inState.stateReg }
    (.digestWord 7) .none

theorem witness_OperandFaults_handles : handle? dangling.stateReg 7 = some (opd 7) ∧
    handle? dangling.ivUsed 7 = some (opd 7) ∧ dangling.has ((opd 7).cell .d) = false ∧
    ∀ g ∈ handle? dangling.dig 7, dangling.has (g.cell .d) = false := by decide +kernel

/-- LOOKUP in SHAPE mode of a cell that does not exist. -/
theorem witness_OperandFaults_shape : ∃ (s : State) (rest : List QEntry) (d : CellName) (b : Nat) (lt ls : List Seg),
    s.q = ⟨encode (.lookup 3), .lookup d (.adv ⟨b, lt⟩) (.adv ⟨b, ls⟩)⟩ :: rest ∧ s.ready ∧ s.mode = .shape ∧
    s.has d = false ∧ lt ≠ ls ∧ d ≠ .adv ⟨b, lt⟩ ∧ d ≠ .adv ⟨b, ls⟩ ∧ s.has (.adv ⟨b, lt⟩) = false ∧
    s.has (.adv ⟨b, ls⟩) = false :=
  ⟨queued { booted with mode := .shape } (.lookup 3) (.lookup (out.cell .d) (out.cell .t) (out.cell .s)), _, _, 1,
    [.x, .t], [.x, .s], rfl, by decide +kernel, by decide +kernel, by decide +kernel, by decide +kernel,
    by decide +kernel, by decide +kernel, by decide +kernel, by decide +kernel⟩

/-- CH whose third operand does not exist: its first EXTRACT completes. -/
theorem witness_OperandFaults_ch : ∃ (s : State) (rest : List QEntry) (a b c p : Path) (na nb : Nat),
    s.q = ⟨encode .ch, .triple a b c p⟩ :: rest ∧ s.ready ∧ s.fresh p = true ∧ s.ReadsWord a na ∧ s.ReadsWord b nb ∧
    s.has (c.cell .slo) = false ∧ ∀ g, c.cell g ∉ extractCells (p.sub .p) :=
  ⟨queued (withWords [0xFFFFFFFF, 0x12345678]) .ch (.triple (opd 0) (opd 1) (opd 2) out), _, _, _, _, _,
    0xFFFFFFFF, 0x12345678, rfl, by decide +kernel, by decide +kernel, by decide +kernel, by decide +kernel,
    by decide +kernel, fun g h => by simp [extractCells, wordCells, Path.cell, Path.sub, opd, out] at h⟩

/-- SCHED 63 with W[61] written and W[48] not, and with both written and neither W[56] nor W[47]. -/
theorem witness_OperandFaults_sched : ∃ (s : State) (r : QEntry) (rest : List QEntry) (w2 : Path),
    s.q = r :: rest ∧ s.ready ∧ s.fresh ⟨s.blk, [.w 63]⟩ = true ∧ handle? s.w (63 - 2) = some w2 ∧
    s.Reads (w2.cell .d) 5 ∧ 5 < Config.fieldP ∧ handle? s.w (63 - 15) = none ∧
    ∃ w15, handle? (giveWord s 48 6).w (63 - 15) = some w15 ∧ (giveWord s 48 6).Reads (w15.cell .d) 6 ∧
      handle? (giveWord s 48 6).w (63 - 7) = none ∧ handle? (giveWord s 48 6).w (63 - 16) = none :=
  ⟨queued (giveWord booted 61 5) (.sched 63) .none, _, _, ⟨1, [.w 61]⟩, rfl, by decide +kernel, by decide +kernel,
    by decide +kernel, by decide +kernel, lt_p (by norm_num), by decide +kernel, ⟨1, [.w 48]⟩, by decide +kernel,
    by decide +kernel, by decide +kernel, by decide +kernel⟩

theorem witness_OperandFaults_lists : ([⟨spr (opd 0), 0⟩] : List OperandExpr).length ≠ 2 ∧
    ((List.range 6).map opd).length ≠ 5 := by decide

theorem witness_WordRefused : ∀ n ∈ [0, 2, 3, 6], ∃ (s : State) (w : CmdWord) (rest : List QEntry) (p : Path) (v : Val)
    (as : List Bool), s.q = ⟨w, .word p v⟩ :: rest ∧ s.booted = true ∧ s.fresh p = true ∧ n < 7 ∧
    s.hostAnswers = List.replicate n true ++ false :: as := by
  intro n hn
  simp only [List.mem_cons, List.not_mem_nil, or_false] at hn
  exact ⟨{ queued booted .word (.word out (.known 5)) with hostAnswers := List.replicate n true ++ false :: [true] }, _, _,
    _, _, [true], rfl, (by decide +kernel : booted.booted = true), (by decide +kernel : booted.fresh out = true), by omega,
    rfl⟩

/-- A queued operation that faults: a CARRY of a cell that does not exist. -/
def faulting : State := queued (withWords [5]) (.carry 0) (.carry (out.cell .d))

theorem witness_FaultEntry : ∃ s t : State, s.resetIn = false ∧ s.halted = false ∧ s.q ≠ [] ∧ step s = .next t ∧
    t.halted = true :=
  ⟨faulting, next faulting, by decide +kernel, by decide +kernel, by decide +kernel, step_next (by decide +kernel),
    by decide +kernel⟩

/-! ### Invariants: a state that has them all, with cells, instances and a queue, and its next state -/

/-- A queued INIT_WORD with an item that is not a word: its step writes cells, records instances and sets `UNSAT`. -/
def busyState : State := queued (withWords [5]) (.initWord .data 7) (.value (.known 0x100000000))

theorem busyState_step : step busyState = .next (next busyState) := step_next (by decide +kernel)

theorem witness_StepKeepsMemoryCanonical : busyState.mem.wf = true ∧ busyState.mem.cells.length = 8 := by decide +kernel

theorem witness_CanonicalMemoryExtensional : busyState.mem.wf = true ∧
    (∀ c, busyState.mem.get ⟨9, 13⟩ c = busyState.mem.get ⟨9, 13⟩ c) := ⟨by decide +kernel, fun _ => rfl⟩

theorem witness_StepOnlyAdds : busyState.resetIn = false ∧ (next busyState).unsat = true := by decide +kernel

theorem witness_QueueStep : busyState.resetIn = false ∧
    busyState.q = [⟨encode (.initWord .data 7), .value (.known 0x100000000)⟩, ⟨encode (.sched 16), .none⟩] :=
  ⟨by decide +kernel, rfl⟩

theorem witness_StepKeepsVerdict : busyState.verdictInv ∧ busyState.cons.length = 3 := by decide +kernel

theorem witness_StepKeepsValues : busyState.valuesInv := by
  have hc : ∀ e ∈ busyState.mem.cells, (match e.1, e.2 with
      | .fixIv i, v => decide (i < 8 ∧ v = .known (ivRom i))
      | .adv _, .known n => decide (n < 2 ^ 66)
      | _, _ => false) = true := by decide +kernel
  refine ⟨fun e he => ?_, fun e he => ?_⟩
  · have := hc e he
    obtain ⟨c, v⟩ := e
    cases c <;> cases v <;> simp only [decide_eq_true_eq, Bool.false_eq_true] at this
    · exact this
    · exact absurd this.2 (by simp)
    · exact ⟨by decide +kernel, lt_p this⟩
  · change e ∈ [(⟨encode (.initWord .data 7), .value (.known 0x100000000)⟩ : QEntry), ⟨encode (.sched 16), .none⟩] at he
    simp only [List.mem_cons, List.not_mem_nil, or_false] at he
    rcases he with rfl | rfl
    · exact ⟨by decide +kernel, lt_p (by norm_num)⟩
    · trivial

theorem witness_StepKeepsSequencer : busyState.sequencerInv := by decide +kernel

theorem witness_SequencerNeverStuck : busyState.sequencerInv ∧ busyState.halted = false := by decide +kernel

/-! ### Soundness -/

/-- The number a cell of a state holds, below 2^66. -/
def honest (s : State) (c : CellName) : Nat := ((s.num c).getD 0) % 2 ^ 66

theorem honest_lt (s : State) (c : CellName) : honest s c < Config.fieldP := lt_p (Nat.mod_lt _ (by norm_num))

/-- A block after WORD and RANGE. -/
def proved : State :=
  next (queued (withWords [0x61626380, 0xFFFFFFFF, 0x80000001]) (.range 16) (.range ((opd 0).cell .lo) out))

theorem witness_RangeProofs : (∀ k ∈ wordCons (opd 1), k.holds ⟨9, 13⟩ (fun c => some (honest proved c)) = some true) ∧
    (∀ k ∈ rangeCons 16 ((opd 0).cell .lo) out, k.holds ⟨9, 13⟩ (fun c => some (honest proved c)) = some true) := by
  decide +kernel

/-- A block after MODADD, and one after EXTRACT. -/
def summed : State := next (queued (withWords [0x80000000, 0xFFFFFFFF]) (.modadd 2) (.modadd [opd 0, opd 1] 0xFFFFFFFF out))
def extracted : State :=
  next (queued (withWords [0xF0F0F0F0, 0xFF00FF00]) (.extract 2) (.extract [⟨spr (opd 0), 0⟩, ⟨spr (opd 1), 0⟩] out))

theorem witness_GatesSound :
    (∀ y ∈ [opd 0, opd 1], ∀ k ∈ wordCons y, k.holds ⟨9, 13⟩ (fun c => some (honest summed c)) = some true) ∧
    (∀ k ∈ modaddCons [opd 0, opd 1] 0xFFFFFFFF out, k.holds ⟨9, 13⟩ (fun c => some (honest summed c)) = some true) := by
  decide +kernel

theorem witness_GatesSound_extract :
    opsValue (honest extracted) [⟨spr (opd 0), 0⟩, ⟨spr (opd 1), 0⟩]
      = ((spread32 0xF0F0F0F0 + spread32 0xFF00FF00 : Nat) : Int) ∧
    spread32 0xF0F0F0F0 + spread32 0xFF00FF00 < 4 ^ 32 ∧
    (∀ k ∈ extractCons [⟨spr (opd 0), 0⟩, ⟨spr (opd 1), 0⟩] out,
      k.holds ⟨9, 13⟩ (fun c => some (honest extracted c)) = some true) := by decide +kernel

theorem witness_GatesSound_exists : 4 ^ 32 - 1 < 4 ^ 32 ∧ even32 (4 ^ 32 - 1) < 2 ^ 32 ∧
    4 ^ 32 - 1 = spread32 (even32 (4 ^ 32 - 1)) + 2 * spread32 (odd32 (4 ^ 32 - 1)) := by decide +kernel

/-- A block after ROUND 63. -/
def rounded : State := next (queued (giveWord inState 63 0x12b1edeb) (.round 63) .none)

theorem witness_RoundSound :
    (∀ h ∈ (⟨1, [.w 63]⟩ : Path) :: ivHandles.toList, ∀ k ∈ wordCons h,
      k.holds ⟨9, 13⟩ (fun c => some (honest rounded c)) = some true) ∧
    (∀ k ∈ roundCons 63 ivHandles ⟨1, [.w 63]⟩ ⟨1, [.rIx 63]⟩,
      k.holds ⟨9, 13⟩ (fun c => some (honest rounded c)) = some true) ∧
    ivHandles.toList.map (fun h => honest rounded (h.cell .d)) = ivValues.words.words.map (·.toNat) := by
  decide +kernel

/-! ### The relation -/

/-- A block just loaded, with the eight FIXED cells of the IV. -/
def loaded : State :=
  { booted with
    phase := .ready, blk := 0
    mem := ⟨((List.range 8).reverse).map fun i => (.fixIv i, .known (ivRom i)), tableCells⟩ }

/-- The block of "abc", and the initial state. -/
def abcBlock : List Word32 := abcWords.map (BitVec.ofNat 32)
def ivState : ShaState := ivValues.words

theorem witness_HashRun_iv : ∃ (s : State) (init : Presented) (rest : List Presented), s.waiting ∧ s.ready ∧
    s.phase ≠ .reset ∧ s.phase ≠ .conf ∧ s.fresh ⟨s.blk + 1, []⟩ = true ∧ abcBlock.length = 16 ∧
    init = ⟨encode .initIv, []⟩ ∧ ivState.words = (List.range 8).map (fun i => BitVec.ofNat 32 (ivRom i)) ∧
    (∀ i < 8, s.Reads (.fixIv i) (ivRom i)) ∧
    s.cmds = [init, ⟨encode .compress, elemItems abcBlock⟩, ⟨encode .digest, []⟩] ++ rest :=
  ⟨{ loaded with cmds := [⟨encode .initIv, []⟩, ⟨encode .compress, elemItems abcBlock⟩, ⟨encode .digest, []⟩] }, _, [],
    by decide +kernel, by decide +kernel, by decide, by decide, by decide +kernel, by decide, rfl, by decide +kernel,
    by decide +kernel, rfl⟩

theorem witness_HashRun_data : ∃ (s : State) (init : Presented) (rest : List Presented), s.waiting ∧ s.ready ∧
    s.phase ≠ .reset ∧ s.phase ≠ .conf ∧ s.fresh ⟨s.blk + 1, []⟩ = true ∧ abcBlock.length = 16 ∧
    init = ⟨encode (.initFrom .data), elemItems ivState.words⟩ ∧
    s.cmds = [init, ⟨encode .compress, elemItems abcBlock⟩, ⟨encode .digest, []⟩] ++ rest :=
  ⟨{ loaded with cmds := [⟨encode (.initFrom .data), elemItems ivState.words⟩, ⟨encode .compress, elemItems abcBlock⟩,
      ⟨encode .digest, []⟩] }, _, [], by decide +kernel, by decide +kernel, by decide, by decide, by decide +kernel,
    by decide, rfl, rfl⟩

theorem witness_HashRun_digest : ∃ (s : State) (init : Presented) (rest : List Presented), s.waiting ∧ s.ready ∧
    s.phase ≠ .reset ∧ s.phase ≠ .conf ∧ s.fresh ⟨s.blk + 1, []⟩ = true ∧ abcBlock.length = 16 ∧
    init = ⟨encode (.initFrom .digest), []⟩ ∧ s.digValid = true ∧
    (∀ i < 8, handle? s.dig i = some (opd i) ∧ s.Reads ((opd i).cell .d) (ivState.words.getD i 0).toNat) ∧
    s.cmds = [init, ⟨encode .compress, elemItems abcBlock⟩, ⟨encode .digest, []⟩] ++ rest :=
  ⟨{ digested with cmds := [⟨encode (.initFrom .digest), []⟩, ⟨encode .compress, elemItems abcBlock⟩,
      ⟨encode .digest, []⟩] }, _, [], by decide +kernel, by decide +kernel, by decide +kernel, by decide +kernel,
    by decide +kernel, by decide, rfl, by decide +kernel, by decide +kernel, rfl⟩

/-- The start of the block of `witness_HashRun_data`. -/
def hashStart : State :=
  { loaded with cmds := [⟨encode (.initFrom .data), elemItems ivState.words⟩, ⟨encode .compress, elemItems abcBlock⟩,
      ⟨encode .digest, []⟩] }

/-- A run keeps what every step of it keeps. -/
theorem after_keeps {I : State → Prop} (h : ∀ s t, I s → step s = .next t → I t) :
    ∀ {n : Nat} {s t : State}, I s → s.after n = some t → I t
  | 0, s, t, hs, e => by cases e; exact hs
  | n + 1, s, t, hs, e => by
    simp only [State.after] at e
    cases hst : step s with
    | next u => rw [hst] at e; exact after_keeps h (h s u hs hst) e
    | fault f => rw [hst] at e; cases e
    | refused r => rw [hst] at e; cases e

/-- What the steps of a run in WITNESS mode keep. -/
def Accepting (s : State) : Prop := s.resetIn = false ∧ s.mode = .witness ∧ s.verdictInv ∧ s.valuesInv

theorem accepting_step (s t : State) (h : Accepting s) (e : step s = .next t) : Accepting t := by
  obtain ⟨h1, h2, h3, h4⟩ := h
  have c : CommandClosed (fun u : State => u.resetIn = false ∧ u.mode = .witness)
      (fun u : State => u.resetIn = false ∧ u.mode = .witness) := by
    constructor
    · constructor
      all_goals intros; assumption
    all_goals intros; assumption
  obtain ⟨k1, k2⟩ := (step_keeps c h1 ⟨h1, h2⟩ e).elim id id
  exact ⟨k1, k2, (step_keeps closed_verdict h1 h3 e).elim id id, step_gives h1 h4 e⟩

/-- The run of a block whose initial state the host gives: where it ends, `UNSAT` is 0 and the block's instances are
recorded. -/
theorem hashStart_run : ∃ t, Accepting t ∧ t.unsat = false ∧ t.cons = blockCons 1 .data opd := by
  have hw : hashStart.waiting := by decide +kernel
  have hr : hashStart.ready := by decide +kernel
  obtain ⟨q, r, t1, a1, b1⟩ := init_segment (src := .data) (S := ivState) (g := opd) (s := hashStart) hw hr (by decide)
    (by decide) (by decide +kernel) rfl (fun _ => rfl) (fun h => by cases h) (fun h => by cases h)
  have l1 := b1.trail.live (s := hashStart.begun _ q) ⟨hw.1, hw.2.1, hr.1, hr.2⟩
  have f0 : ∀ g, hashStart.Fresh ⟨1, [g]⟩ := fun g =>
    (fresh_of (p := ⟨1, []⟩) (s := hashStart) (by decide +kernel)).sub g
  have f1 : ∀ g, (∀ i, g ≠ .iv i) → t1.Fresh ⟨1, [g]⟩ := fun g hg =>
    b1.trail.fresh g (by simpa using fun x _ => (hg x).symm) (f0 g)
  have k1 : t1.blk = 1 := b1.trail.blk
  have w1 : t1.waiting := ⟨l1.resetIn, l1.halted, b1.q⟩
  have d1 := b1.done
  obtain ⟨q2, t2, gs, a2, b2, n2, e2, -, -, i2, s2, h2⟩ := compress_segment (S := ivState) (block := abcBlock) w1 l1
    (by rw [b1.trail.phase]; rfl) (by rw [b1.trail.cmds]; rfl) rfl
    (by rw [k1]; exact fun t _ => f1 _ (by simp)) (by rw [k1]; exact fun t _ => f1 _ (by simp)) (by
      rw [k1]
      apply Vector.ext
      intro i hi
      have := (d1 i hi).1
      simp only [handle?, Vector.getElem?_eq_getElem hi] at this
      rw [this]
      interval_cases i <;> rfl)
    (by
      rw [k1]
      exact ⟨(d1 0 (by decide)).2.2, (d1 1 (by decide)).2.2, (d1 2 (by decide)).2.2, (d1 3 (by decide)).2.2,
        (d1 4 (by decide)).2.2, (d1 5 (by decide)).2.2, (d1 6 (by decide)).2.2, (d1 7 (by decide)).2.2⟩)
  have l2 := b2.live ⟨l1.1, l1.2, l1.3, l1.4⟩
  have k2 : t2.blk = 1 := b2.blk.trans k1
  obtain ⟨q3, t3, a3, b3⟩ := digest_segment (S := ivState) (T := shaRounds (schedule abcBlock) 64 ivState)
    ⟨l2.resetIn, l2.halted, e2⟩ l2 (by rw [b2.phase]) (by rw [b2.cmds])
    (by
      intro i _
      have := b2.fresh _ (n2 i) (show t1.Fresh ⟨t1.blk, [.dg i]⟩ by rw [k1]; exact f1 _ (by simp))
      rw [k2]
      rw [show State.blk _ = t1.blk from rfl, k1] at this
      exact this)
    (by rw [k2, ← k1]; exact s2) (by rw [k2, ← k1]; exact h2) (by
      intro j hj
      rw [k2, i2]
      exact ⟨(d1 j hj).2.1, b2.holdsWord (d1 j hj).2.2⟩)
  refine ⟨t3, after_keeps accepting_step (s := hashStart) (n := 9 + (129 + 9)) ?_
    (State.after_trans a1 (State.after_trans a2 a3)), ?_, ?_⟩
  · exact ⟨rfl, rfl, by decide +kernel, by
      refine ⟨?_, by simp [hashStart, loaded, booted, State.reset, State.resetWith]⟩
      intro e he
      obtain ⟨i, hi, rfl⟩ := List.mem_map.mp he
      exact ⟨by simpa using hi, rfl⟩⟩
  · rw [b3.trail.unsat]
    show t2.unsat = false
    rw [b2.unsat]
    show t1.unsat = false
    rw [b1.trail.unsat]
    rfl
  · rw [b3.trail.log]
    show t2.cons ++ _ = _
    rw [b2.log]
    show (t1.cons ++ _) ++ _ = _
    rw [b1.trail.log, k1]
    show (([] ++ _) ++ _) ++ _ = _
    simp only [List.nil_append, k2, blockCons, List.append_assoc]
    rfl

theorem witness_HashSound : ∃ (cuts : TagCuts) (rd : CellName → Option Nat) (val : CellName → Nat),
    (∀ c, rd c = some (val c)) ∧ (∀ c, val c < Config.fieldP) ∧
    (∀ k ∈ scheduleCons 1, k.holds cuts rd = some true) ∧ ∀ k ∈ blockCons 1 .data opd, k.holds cuts rd = some true := by
  obtain ⟨t, ⟨-, hm, hv, hx⟩, hu, hc⟩ := hashStart_run
  have hk : ∀ k ∈ blockCons 1 .data opd, k.holds t.tagCuts (fun c => some ((t.num c).getD 0)) = some true := by
    intro k hk
    rw [← hc] at hk
    rw [← holds_of_verdict hv hx hm hu hk]
    refine holds_congr fun c hcc => ?_
    obtain ⟨n, -, hn⟩ := num_of_has hx hm (hv.1 k hk c hcc)
    rw [hn]; rfl
  refine ⟨t.tagCuts, fun c => some ((t.num c).getD 0), fun c => (t.num c).getD 0, fun _ => rfl, fun c => ?_,
    fun k h => hk k ?_, hk⟩
  · cases h : t.cell c with
    | none => simp only [State.num, h]; exact lt_p (by decide)
    | some v =>
      obtain ⟨n, hn, rfl⟩ := readOk_cell hx h hm
      simpa only [State.num, h, Option.getD_some] using hn
  · simp only [blockCons, List.mem_append]
    exact .inl (.inl (.inr h))

/-- The state of a block in SHAPE mode that queues what `busyState` queues. -/
def shapeState : State :=
  queued (give { booted with mode := .shape } (opd 0) 9) (.initWord .data 7) (.value .unknown)

theorem witness_ShapeIndependence : busyState.sequencerInv ∧ busyState.erased = shapeState.erased ∧
    busyState.cmds ++ shapeState.cmds = [] ∧ step busyState = .next (next busyState) ∧
    step shapeState = .next (next shapeState) :=
  ⟨by decide +kernel, by decide +kernel, by decide +kernel, busyState_step, step_next (by decide +kernel)⟩

/-- Two commands whose values differ and fit the widths they are given. -/
theorem witness_ShapeIndependence_bitsOf : ∃ s s' : State, s.sequencerInv ∧ s.erased = s'.erased ∧
    (∀ c ∈ s.cmds ++ s'.cmds, ∀ x, .elem x ∈ c.din →
      x < Config.fieldP ∧ ∀ n, decode c.word = .ok (.bitsOf n) → x < 2 ^ widthBits n) ∧
    s.cmds = [⟨0x08, [.elem 0xFFFF]⟩] ∧ s'.cmds = [⟨0x08, [.elem 0]⟩] ∧ step s = .next (next s) ∧
    step s' = .next (next s') := by
  refine ⟨presented State.reset 0x08 [.elem 0xFFFF], presented { State.reset with mode := .shape } 0x08 [.elem 0],
    by decide +kernel, by decide +kernel, fun c hc x hx => ?_, rfl, rfl, step_next (by decide +kernel),
    step_next (by decide +kernel)⟩
  change c ∈ [(⟨0x08, [.elem 0xFFFF]⟩ : Presented), ⟨0x08, [.elem 0]⟩] at hc
  simp only [List.mem_cons, List.not_mem_nil, or_false] at hc
  have hx : x < 2 ^ 16 ∧ c.word = 0x08 := by
    rcases hc with rfl | rfl <;>
    · simp only [List.mem_singleton, DinItem.elem.injEq] at hx
      subst hx
      exact ⟨by norm_num, rfl⟩
  refine ⟨lt_p (hx.1.trans (by norm_num)), fun n hn => ?_⟩
  rw [hx.2] at hn
  cases n with
  | w16 => exact hx.1
  | w32 => exact absurd hn (by decide)

theorem witness_LoadIsItsLoop : State.reset.mem.tabCells = 0 := rfl

end Sys2Proof.Tests
end

section
/-!
PROOFS. The statements about the state of a block (10_state.md): what a step performs, what every step keeps, what no step
undoes, and that a block which is not halted always has a step. Each rests on a lemma that says once what a kind of step is,
and on the updates of Laws/Keeps.lean, Laws/Values.lean and Laws/Runs.lean.
-/

namespace Sys2Proof.Machine

open Sys2Proof

/-! ### What a step is, by what stands in Q and on the pins -/

/-- A step with an internal operation's word at the head of Q. -/
theorem step_of_entry {s : State} {e : QEntry} {rest : List QEntry} {i : Instr} (hr : s.resetIn = false)
    (hh : s.halted = false) (hq : s.q = e :: rest) (hd : decode e.word = .ok i) (hi : i.fromHost = false) :
    step s = exec i s := by
  simp [step, fetch, hr, hh, hq, hd, hi]

/-- A step of a waiting block with a host command's word on `cmd_in`. -/
theorem step_of_command {s : State} {c : Presented} {rest : List Presented} {i : Instr} (hw : s.waiting)
    (hc : s.cmds = c :: rest) (hd : decode c.word = .ok i) (hi : i.fromHost = true) : step s = exec i s := by
  obtain ⟨hr, hh, hq⟩ := hw
  simp [step, fetch, hr, hh, hq, hc, hd, hi]

/-- A step of a waiting block with a word on `cmd_in` that is no host command's. -/
theorem step_of_illegal {s : State} {c : Presented} {rest : List Presented} (hw : s.waiting) (hc : s.cmds = c :: rest)
    (hi : ∀ i, decode c.word = .ok i → i.fromHost = false) : step s = .next (illegalCommand c.word rest s) := by
  obtain ⟨hr, hh, hq⟩ := hw
  cases hd : decode c.word with
  | error x => simp [step, fetch, hr, hh, hq, hc, hd]
  | ok i => simp [step, fetch, hr, hh, hq, hc, hd, hi i hd]

theorem step_of_idle {s : State} (hw : s.waiting) (hc : s.cmds = []) : step s = .next s := by
  obtain ⟨hr, hh, hq⟩ := hw
  simp [step, fetch, hr, hh, hq, hc]

theorem step_of_halted {s : State} (hr : s.resetIn = false) (hh : s.halted = true) : step s = .fault .halted := by
  simp [step, fetch, hr, hh]

/-- Settles O4: the step with an entry in Q, and the step of a waiting block with a command. -/
theorem stepRunsInstruction : Obligations.StepRunsInstruction :=
  ⟨fun _ _ _ _ hr hh hq hd hi => step_of_entry hr hh hq hd hi, fun _ _ _ _ hw hc hd hi => step_of_command hw hc hd hi⟩

/-- Settles O6: the step of a halted block, and of an idle one. -/
theorem haltedOrIdle : Obligations.HaltedOrIdle :=
  ⟨fun _ hr hh => step_of_halted hr hh, fun _ hw hc => step_of_idle hw hc⟩

/-! ### Invariants: a step without a reset keeps them, and the reset state has them -/

theorem eq_resetBlock_of_step {s t : State} (hr : s.resetIn = true) (hst : step s = .next t) : t = resetBlock s := by
  rw [step_reset hr] at hst
  injection hst with hst
  exact hst.symm

/-- Settles O45: every update keeps the canonical form, and the store of a reset block is empty. -/
theorem stepKeepsMemoryCanonical : Obligations.StepKeepsMemoryCanonical := by
  intro s t h hst
  cases hr : s.resetIn with
  | false => exact (step_keeps closed_memory_wf hr h hst).elim id id
  | true => rw [eq_resetBlock_of_step hr hst]; exact reset_memory_wf s.modeIn

theorem resetBlock_valuesInv (s : State) : (resetBlock s).valuesInv := ⟨by simp, by simp⟩

/-- Settles O50: every operation and command keeps the values invariant, and a reset block has neither cells nor queued
values. -/
theorem stepKeepsValues : Obligations.StepKeepsValues := by
  intro s t h hst
  cases hr : s.resetIn with
  | false => exact step_gives hr h hst
  | true => rw [eq_resetBlock_of_step hr hst]; exact resetBlock_valuesInv s

/-! ### What no step without a reset undoes -/

/-- What may have happened between `s` and a later state `t` of one run without a reset: cells and constraints were added,
`UNSAT` was set in WITNESS mode at most, and MODE stayed. -/
def OnlyAdds (s t : State) : Prop :=
  (∀ c v, s.cell c = some v → t.cell c = some v) ∧ (∃ ks, t.cons = s.cons ++ ks) ∧
  (s.unsat = true → t.unsat = true) ∧ (s.mode = .shape → t.unsat = s.unsat) ∧ t.mode = s.mode

theorem OnlyAdds.refl (s : State) : OnlyAdds s s :=
  ⟨fun _ _ h => h, ⟨[], (List.append_nil _).symm⟩, id, fun _ => rfl, rfl⟩

theorem OnlyAdds.trans {s t u : State} (h : OnlyAdds s t) (h' : OnlyAdds t u) : OnlyAdds s u := by
  obtain ⟨cells, ⟨ks, log⟩, sticky, shape, mode⟩ := h
  obtain ⟨cells', ⟨ks', log'⟩, sticky', shape', mode'⟩ := h'
  exact ⟨fun c v hc => cells' c v (cells c v hc), ⟨ks ++ ks', by rw [log', log, List.append_assoc]⟩,
    fun hu => sticky' (sticky hu), fun hm => (shape' (mode.trans hm)).trans (shape hm), mode'.trans mode⟩

/-- New contents of the store that agree with the old wherever a cell was. -/
theorem OnlyAdds.of_mem {s : State} {m : Memory} (h : ∀ c v, s.cell c = some v → m.get s.tagCuts c = some v) :
    OnlyAdds s { s with mem := m } :=
  ⟨h, ⟨[], (List.append_nil _).symm⟩, id, fun _ => rfl, rfl⟩

/-- A cell written under a fresh name is none of the cells there were. -/
theorem OnlyAdds.write {s : State} {c : CellName} (v : Val) (hc : s.cell c = none) :
    OnlyAdds s { s with mem := s.mem.insert c v } := by
  refine OnlyAdds.of_mem fun d w hd => ?_
  have hne : d ≠ c := by
    rintro rfl
    rw [hc] at hd
    cases hd
  exact (Memory.get_insert_ne s.mem s.tagCuts v hne).trans hd

/-- While no TABLE cell is counted every cell is a listed one, which the count does not touch. -/
theorem OnlyAdds.load {s : State} (n : Nat) (h0 : s.mem.tabCells = 0) :
    OnlyAdds s { s with mem := { s.mem with tabCells := n } } := by
  refine OnlyAdds.of_mem fun d w hd => ?_
  cases d with
  | tab col k => simp [State.cell, Memory.get, h0] at hd
  | fixK t => exact hd
  | fixIv i => exact hd
  | adv p => exact hd

theorem OnlyAdds.record (s : State) (k : Constraint) :
    OnlyAdds s { s with cons := s.cons ++ [k], unsat := s.unsatAfter k } := by
  refine ⟨fun _ _ h => h, ⟨[k], rfl⟩, fun hu => ?_, fun hm => ?_, rfl⟩
  · cases hm : s.mode <;> simp [State.unsatAfter, hm, hu]
  · simp [State.unsatAfter, hm]

/-- The updates that can undo something are a cell write, LOAD's count and a recorded constraint; the others touch neither
cells, log, `UNSAT` nor MODE. -/
theorem closed_onlyAdds (s : State) : CommandClosed (OnlyAdds s) (OnlyAdds s) where
  fault := fun _ _ _ _ h => h
  host := fun _ _ _ h => h
  write := fun _ _ _ h hc _ => h.trans (OnlyAdds.write _ hc)
  record := fun u k h _ => h.trans (OnlyAdds.record u k)
  regs := fun _ _ _ _ _ _ _ _ h => h
  queue := fun _ _ h => h
  accept := fun _ _ h => h
  phase := fun _ _ h => h
  block := fun _ _ h => h
  config := fun _ _ h => h
  table := fun _ _ h => h
  load := fun _ n h h0 _ => h.trans (OnlyAdds.load n h0)

/-- Settles O47: every update only adds. -/
theorem stepOnlyAdds : Obligations.StepOnlyAdds :=
  fun s _ hr hst => (step_keeps (closed_onlyAdds s) hr (OnlyAdds.refl s) hst).elim id id

/-! ### What a queued operation leaves of the control state -/

/-- PHASE, B, MODE, CONFIG, TABLE and the presented commands are those of `s`. -/
def SameControl (s u : State) : Prop :=
  u.phase = s.phase ∧ u.blk = s.blk ∧ u.mode = s.mode ∧ u.config = s.config ∧ u.table = s.table ∧ u.cmds = s.cmds

/-- No update of an operation touches the control state; of Q an operation that succeeds leaves what it found, and a fault
entry leaves nothing. -/
theorem closed_sameControl (s : State) (rest : List QEntry) :
    GateClosed (fun u => u.q = rest ∧ SameControl s u) (fun u => (u.halted = true ∧ u.q = []) ∧ SameControl s u) where
  fault := fun _ _ _ _ h => ⟨⟨rfl, rfl⟩, h.2⟩
  host := fun _ _ _ h => h
  write := fun _ _ _ h _ _ => h
  record := fun _ _ h _ => h
  regs := fun _ _ _ _ _ _ _ _ h => h

/-- Settles O48: the step is that of the head's operation, which works on the state with the rest of Q. -/
theorem queueStep : Obligations.QueueStep := by
  intro s t e rest hr hq hst
  rcases step_cases hr hst with ⟨_, _, i, -, -, hi, hexec⟩ | ⟨hnil, -⟩ | ⟨hnil, -⟩ | ⟨hnil, -⟩
  · have start : s.q.tail = rest ∧ SameControl s { s with q := s.q.tail } :=
      ⟨by rw [hq, List.tail_cons], rfl, rfl, rfl, rfl, rfl, rfl⟩
    exact (exec_internal_keeps (closed_sameControl s rest) hi start hexec).elim
      (fun h => ⟨.inl h.1, h.2⟩) (fun h => ⟨.inr h.1, h.2⟩)
  all_goals exact absurd (hq.symm.trans hnil) (List.cons_ne_nil e rest)

/-! ### A block that is not halted has a step -/

/-- The entries the sequencer may hold: the five level-1 operations, with the item of those that take one. -/
theorem QEntry.wf_cases {e : QEntry} (h : e.wf = true) :
    (∃ t v, decode e.word = .ok (.schedIn t) ∧ e.opnd = .value v) ∨
    (∃ src i, decode e.word = .ok (.initWord src i) ∧ (src = .data → ∃ v, e.opnd = .value v)) ∨
    (∃ t, decode e.word = .ok (.sched t)) ∨ (∃ t, decode e.word = .ok (.round t)) ∨
    (∃ i, decode e.word = .ok (.digestWord i)) := by
  have item : (match e.opnd with | .value _ => true | _ => false) = true → ∃ v, e.opnd = .value v := by
    cases e.opnd <;> simp
  unfold QEntry.wf at h
  split at h
  case h_1 t hd =>
    obtain ⟨v, hv⟩ := item h
    exact .inl ⟨t, v, hd, hv⟩
  case h_2 i hd => exact .inr (.inl ⟨.data, i, hd, fun _ => item h⟩)
  case h_3 src i hsrc hd => exact .inr (.inl ⟨src, i, hd, fun hs => (hsrc hs).elim⟩)
  case h_4 t hd => exact .inr (.inr (.inl ⟨t, hd⟩))
  case h_5 t hd => exact .inr (.inr (.inr (.inl ⟨t, hd⟩)))
  case h_6 i hd => exact .inr (.inr (.inr (.inr ⟨i, hd⟩)))
  case h_7 => cases h

/-- A booted block performs every entry the sequencer may hold. -/
theorem entry_has_step {s : State} {e : QEntry} {rest : List QEntry} (hr : s.resetIn = false) (hh : s.halted = false)
    (hq : s.q = e :: rest) (hb : s.booted = true) (hwf : e.wf = true) : ∃ t, step s = .next t := by
  rcases e.wf_cases hwf with ⟨t, v, hd, hv⟩ | ⟨src, i, hd, hv⟩ | ⟨t, hd⟩ | ⟨t, hd⟩ | ⟨i, hd⟩ <;>
    simp only [step_of_entry hr hh hq hd rfl, exec, execSchedIn, execInitWord, execSched, execRound, execDigestWord] <;>
    refine Runs.runEntry hq ?_ hb
  · rw [hv]
    exact Runs.opSchedIn t v
  · exact Runs.bind (Runs.opInitWord src i hv) fun _ => Runs.whenDrained (Runs.finishInit _)
  · exact Runs.opSched t
  · exact Runs.bind (Runs.opRound t) fun _ => Runs.whenDrained (Runs.finishCompress _)
  · exact Runs.bind (Runs.opDigestWord i) fun _ => Runs.whenDrained (Runs.finishDigest _)

/-- What the commands begin with: the sequencing check, then the check of `din`. -/
theorem Answers.checked {i : Instr} {ok : Bool} {cause : FaultCause} {cmd : CmdWord} {m : M Unit} (hm : Answers m) :
    Answers (do Machine.checkSequence i; Machine.require ok cause cmd; m) :=
  Answers.bind (Answers.checkSequence _) fun _ => Answers.bind (Answers.require _ _ _) fun _ => hm

/-- A command of the host is always answered, by its result or by a fault of the block. -/
theorem command_answers {i : Instr} (hi : i.fromHost = true) (s : State) : ∃ t, exec i s = .next t := by
  cases i with
  | configure =>
    simp only [exec, execConfigure]
    refine Answers.runCommand (fun _ => Answers.checked <| Answers.bind (Answers.seqAll ?_) fun _ =>
      Answers.bind (Answers.modify _) fun _ => Answers.bind (Answers.seqAll ?_) fun _ =>
      Answers.bind (Answers.seqAll ?_) fun _ => Answers.bind (Answers.modify _) fun _ => Answers.setOutputs _ _) s
    · exact List.forall_mem_map.mpr fun _ _ => Answers.request _ _ _
    · exact List.forall_mem_map.mpr fun _ _ => Answers.memWrite _ _ _ _
    · exact List.forall_mem_map.mpr fun _ _ => Answers.memWrite _ _ _ _
  | load =>
    exact Answers.runCommand (fun _ => Answers.checked <| Answers.bind (Answers.loadTable _) fun _ =>
      Answers.bind (Answers.modify _) fun _ => Answers.setOutputs _ _) s
  | initIv => exact Answers.runCommand (fun _ => Answers.checked (Answers.beginBlock _)) s
  | initFrom src =>
    simp only [exec, execInitFrom]
    exact Answers.runCommand (fun _ => Answers.checked (Answers.bind Answers.get fun _ => Answers.beginBlock _)) s
  | compress =>
    simp only [exec, execCompress]
    exact Answers.runCommand (fun _ => Answers.checked (Answers.modify _)) s
  | digest => exact Answers.runCommand (fun _ => Answers.checked (Answers.modify _)) s
  | bitsOf n =>
    simp only [exec, execBitsOf]
    refine Answers.runCommand (fun din => ?_) s
    split
    · exact Answers.bind (Answers.require _ _ _) fun _ => Answers.bind Answers.get fun _ => Answers.opBitsOf n _
    · exact Answers.raise _ _
  | intOf =>
    simp only [exec, execIntOf]
    refine Answers.runCommand (fun din => ?_) s
    split
    · exact Answers.bind (Answers.require _ _ _) fun _ => Answers.setDout _
    · exact Answers.raise _ _
  | spread =>
    simp only [exec, execSpread]
    refine Answers.runCommand (fun din => ?_) s
    split
    · exact Answers.setDout _
    · exact Answers.raise _ _
  | _ => cases hi

theorem waiting_has_step {s : State} (hw : s.waiting) : ∃ t, step s = .next t := by
  cases hc : s.cmds with
  | nil => exact ⟨s, step_of_idle hw hc⟩
  | cons c rest =>
    by_cases hlegal : ∃ i, decode c.word = .ok i ∧ i.fromHost = true
    · obtain ⟨i, hd, hi⟩ := hlegal
      rw [step_of_command hw hc hd hi]
      exact command_answers hi s
    · exact ⟨_, step_of_illegal hw hc fun i hd => Bool.eq_false_iff.mpr fun hi => hlegal ⟨i, hd, hi⟩⟩

/-- Settles O52: a reset, the head of Q in a block that is booted because Q is not empty, or a waiting block. -/
theorem sequencerNeverStuck : Obligations.SequencerNeverStuck := by
  intro s hinv hlive
  obtain ⟨hwf, hphase, -, hbooted, -⟩ := hinv
  cases hr : s.resetIn with
  | true => exact ⟨_, step_reset hr⟩
  | false =>
    have hh : s.halted = false := hlive.resolve_left (by simp [hr])
    cases hq : s.q with
    | nil => exact waiting_has_step ⟨hr, hh, hq⟩
    | cons e rest =>
      obtain ⟨hreset, hconf⟩ := hphase (by simp [hq])
      exact entry_has_step hr hh hq (hbooted hreset hconf) (hwf e (by simp [hq]))

/-! ### Canonical stores that read alike -/

theorem exists_tabIndex {k : Nat} (hk : k < tableCells) : ∃ col v, v < 65536 ∧ tabIndex col v = k := by
  have hv : k / 3 < 65536 := by unfold tableCells at hk; omega
  obtain h | h | h : k % 3 = 0 ∨ k % 3 = 1 ∨ k % 3 = 2 := by omega
  · exact ⟨.tag, k / 3, hv, by simp only [tabIndex]; omega⟩
  · exact ⟨.dense, k / 3, hv, by simp only [tabIndex]; omega⟩
  · exact ⟨.spread, k / 3, hv, by simp only [tabIndex]; omega⟩

/-- A store that counts more TABLE cells than another shows it at the first cell the other has not. -/
theorem tabCells_le_of_get {m m' : Memory} {cuts : TagCuts} (hle : m'.tabCells ≤ tableCells)
    (h : ∀ c, m.get cuts c = m'.get cuts c) : m'.tabCells ≤ m.tabCells := by
  by_contra hlt
  have hlt : m.tabCells < m'.tabCells := Nat.lt_of_not_le hlt
  obtain ⟨col, v, hv, hi⟩ := exists_tabIndex (hlt.trans_le hle)
  have hget := h (.tab col v)
  simp [Memory.get, hv, hi, hlt] at hget

/-- Settles O46: the counts of TABLE cells agree by the TABLE cells, the lists by the others. -/
theorem canonicalMemoryExtensional : Obligations.CanonicalMemoryExtensional := by
  intro m m' cuts hwf hwf' h
  simp only [Memory.wf, Bool.and_eq_true, ble_eq, decide_eq_true_eq] at hwf hwf'
  obtain ⟨hfall, hkinds, hle⟩ := hwf
  obtain ⟨hfall', hkinds', hle'⟩ := hwf'
  have htab : m.tabCells = m'.tabCells :=
    le_antisymm (tabCells_le_of_get hle fun c => (h c).symm) (tabCells_le_of_get hle' h)
  have hcells : m.cells = m'.cells := by
    refine cells_ext hfall hfall' (fun c hc => ?_) hkinds hkinds'
    cases c with
    | tab col v => exact absurd rfl hc
    | fixK t => exact h (.fixK t)
    | fixIv i => exact h (.fixIv i)
    | adv p => exact h (.adv p)
  cases m
  cases m'
  exact congrArg₂ Memory.mk hcells htab

end Sys2Proof.Machine
end

section
/-!
PROOFS. The statements about cells and the verdict (20_memory.md): what a write of an internal operation does, what an
operation does about an operand that is missing, and that `UNSAT` is at any time the verdict on the recorded constraints. An
operation either finds the missing operand at its first read, with nothing done, or after earlier operations that succeed,
whose cells and constraints stay (`Ext`).
-/

namespace Sys2Proof.Machine

open Sys2Proof

/-! ### The verdict -/

/-- A reset block has recorded nothing. -/
theorem resetBlock_verdictInv (s : State) : (resetBlock s).verdictInv := ⟨by simp, by simp⟩

/-- Settles O49: every update keeps the verdict invariant, and a reset block has it. -/
theorem stepKeepsVerdict : Obligations.StepKeepsVerdict := by
  intro s t h hst
  cases hr : s.resetIn with
  | false => exact (step_keeps closed_verdict hr h hst).elim id id
  | true => rw [eq_resetBlock_of_step hr hst]; exact resetBlock_verdictInv s

/-! ### Writes of an internal operation -/

theorem cell_eq_none {s : State} {c : CellName} (h : s.has c = false) : s.cell c = none := by
  simpa [State.has] using h

/-- A write to a name that exists (20_memory.md R64). -/
theorem assign_raised_of_has {cmd : CmdWord} {c : CellName} {v : Val} {s : State} (h : s.has c = true) :
    assign cmd c v s = .error .raised (faultEntry .assign cmd s) := by
  obtain ⟨w, hw⟩ := Option.isSome_iff_exists.mp h
  simp only [assign, memWrite, hw]
  rfl

/-- An internal operation writes no FIXED and no TABLE cell (20_memory.md R64). -/
theorem assign_raised_of_kind {cmd : CmdWord} {c : CellName} {v : Val} {s : State} (hc : s.has c = false)
    (hk : c.kind ≠ .advice) : assign cmd c v s = .error .raised (faultEntry .assign cmd s) := by
  have hbad : (c.kind == .table || (c.kind == .fixed && !false)) = true := by
    cases hkind : c.kind with
    | advice => exact absurd hkind hk
    | fixed => rfl
    | table => rfl
  simp only [assign, memWrite, cell_eq_none hc, hbad]
  rfl

theorem column_of_advice {c : CellName} (hk : c.kind = .advice) : c.column = .adv := by
  cases c with
  | adv p => rfl
  | _ => cases hk

/-- The write of a fresh ADVICE cell: the request first, then the cell (20_memory.md R64). -/
theorem assign_of_fresh {cmd : CmdWord} {c : CellName} {v : Val} {s : State} (hc : s.has c = false)
    (hk : c.kind = .advice) :
    assign cmd c v s = (do
      request (.assign .adv c v) .assign cmd
      modify fun t : State => { t with mem := t.mem.insert c (storedVal s.mode c v) }) s := by
  have hgood : (CellKind.advice == CellKind.table || (CellKind.advice == CellKind.fixed && !false)) = false := rfl
  simp only [assign, memWrite, cell_eq_none hc, hk, hgood, column_of_advice hk]
  cases hr : request (.assign .adv c v) .assign cmd s with
  | ok a t => rw [bind_ok hr]; rfl
  | error x t => rw [bind_error hr]; rfl

/-- A request the host does not refuse (20_memory.md R67; 00_scope.md R13). -/
theorem request_accepted {rq : Request} {cause : FaultCause} {cmd : CmdWord} {s : State}
    (h : s.hostAnswers.head? ≠ some false) :
    request rq cause cmd s
      = .ok () { s with requests := rq :: s.requests, hostAnswers := s.hostAnswers.tail } := by
  unfold request
  rcases ha : s.hostAnswers with _ | ⟨_ | _, as⟩
  · simp
  · simp [ha] at h
  · rfl

theorem storedVal_of_advice {mode : Mode} {c : CellName} {v : Val} (hk : c.kind = .advice) :
    storedVal mode c v = if mode = .shape then .unknown else v := by
  cases mode <;> simp [storedVal, hk]

/-- Settles O41: a write that is refused before the request, one the host refuses, and one it accepts. -/
theorem memWriteRule : Obligations.MemWriteRule := by
  intro s cmd c v
  refine ⟨fun h => ?_, fun hc hk as has => ?_, fun hc hk has => ?_⟩
  · cases hc : s.has c with
    | true => exact assign_raised_of_has hc
    | false => exact assign_raised_of_kind hc (h.resolve_left (by simp [hc]))
  · rw [assign_of_fresh hc hk]
    exact bind_error (request_refused has)
  · refine ⟨{ s with
        requests := .assign .adv c v :: s.requests, hostAnswers := s.hostAnswers.tail,
        mem := s.mem.insert c (if s.mode = .shape then .unknown else v) },
      ?_, rfl, Memory.get_insert_self s.mem s.tagCuts c _ (by rw [hk]; decide), rfl,
      fun c' hne => Memory.get_insert_ne s.mem s.tagCuts _ hne⟩
    rw [assign_of_fresh hc hk, bind_ok (request_accepted has), storedVal_of_advice hk]
    rfl

/-! ### A first read that raises: nothing has been done -/

/-- The step of an operation whose operand record is `r`, when it raises. -/
theorem runEntry_raised_of {s u : State} {e : QEntry} {rest : List QEntry} {r : OpRec} {body : OpRec → M Unit}
    (hq : s.q = e :: rest) (ho : e.opnd = r) (h : body r { s with q := rest } = .error .raised u) :
    runEntry s body = .next u :=
  runEntry_raised hq (ho ▸ h)

/-- A handle is read and what follows raises, so whether or not the entry is written the whole raises. -/
theorem readHandle_then_raised {β : Type} {s : State} {cmd : CmdWord} {n : Nat} {file : State → Vector (Option Path) n}
    {i : Nat} {f : Path → M β}
    (h : ∀ p, handle? (file s) i = some p → f p s = .error .raised (faultEntry .unassigned cmd s)) :
    (readHandle cmd file i >>= f) s = .error .raised (faultEntry .unassigned cmd s) := by
  cases hp : handle? (file s) i with
  | none => exact readHandle_bind_raised (.inr hp)
  | some p => exact readHandle_bind_raised (.inl ⟨p, hp, h p hp⟩)

theorem opRecomb_raised {d lo hi : CellName} {s : State} (h : s.has d = false ∨ s.has lo = false ∨ s.has hi = false) :
    opRecomb d lo hi s = .error .raised (faultEntry .unassigned (encode .recomb) s) := by
  rcases h with h | h | h
  all_goals exact record_raised (by simp [Constraint.cells]) h

theorem opCarry_raised {m : Nat} {c : CellName} {s : State} (h : s.has c = false) :
    opCarry m c s = .error .raised (faultEntry .unassigned (encode (.carry m)) s) :=
  record_raised (c := c) (by simp [Constraint.cells]) h

theorem opRange_raised {w : Nat} {d : CellName} {p : Path} {s : State} (hm : s.mode = .witness) (h : s.has d = false) :
    opRange w d p s = .error .raised (faultEntry .unassigned (encode (.lookup 0)) s) :=
  bind_error (opLookup_raised hm h)

theorem opRotations_raised {l : Layout} {x p : Path} {s : State} (h : s.has (x.cell .d) = false) :
    opRotations l x p s = .error .raised (faultEntry .unassigned (encode (.decomp l)) s) :=
  bind_error (opDecomp_raised h)

/-- CH's first extraction reads `e` and `f` (43_functions.md R186). -/
theorem opCh_raised {e f g p : Path} {s : State}
    (h : ∃ b ∈ [e, f], s.has (b.cell .slo) = false ∨ s.has (b.cell .shi) = false) :
    opCh e f g p s = .error .raised (faultEntry .unassigned (encode (.extract 2)) s) :=
  bind_error (opExtract_raised rfl (exists_spr h))

theorem opMaj_raised {a b c p : Path} {s : State}
    (h : ∃ x ∈ [a, b, c], s.has (x.cell .slo) = false ∨ s.has (x.cell .shi) = false) :
    opMaj a b c p s = .error .raised (faultEntry .unassigned (encode (.extract 3)) s) :=
  opExtract_raised rfl (exists_spr h)

/-- An operand list of another length than the word's `N` (42_gates.md R164). -/
theorem opExtract_wrong_length {k : Nat} {ops : List OperandExpr} {p : Path} {s : State} (h : ops.length ≠ k) :
    opExtract k ops p s = .error .raised (faultEntry .operand (encode (.extract k)) s) :=
  bind_error (require_fails s (beq_false_of_ne h))

/-- An operand list of another length than the word's `N` (42_gates.md R169). -/
theorem opModadd_wrong_length {n K : Nat} {ys : List Path} {p : Path} {s : State} (h : ys.length ≠ n) :
    opModadd n ys K p s = .error .raised (faultEntry .operand (encode (.modadd n)) s) :=
  bind_error (require_fails s (beq_false_of_ne h))

theorem opSched_raised {t : Nat} {s : State} (h : handle? s.w (t - 2) = none) :
    opSched t s = .error .raised (faultEntry .unassigned (encode (.sched t)) s) := by
  unfold opSched
  rw [bind_get]
  exact bind_error (readHandle_raised h)

/-- ROUND reads the eight entries of `STATE` one after another, before it does anything (45_compression.md R211). -/
theorem opRound_raised {t i : Nat} {s : State} (hi : i < 8) (h : handle? s.stateReg i = none) :
    opRound t s = .error .raised (faultEntry .unassigned (encode (.round t)) s) := by
  unfold opRound
  rw [bind_get]
  refine readHandle_then_raised fun a ha => readHandle_then_raised fun b hb => readHandle_then_raised fun c hc =>
    readHandle_then_raised fun d hd => readHandle_then_raised fun e he => readHandle_then_raised fun f hf =>
    readHandle_then_raised fun g hg => readHandle_then_raised fun k hk => ?_
  have written : ∀ j < 8, handle? s.stateReg j ≠ none := by
    intro j hj
    interval_cases j <;> simp [ha, hb, hc, hd, he, hf, hg, hk]
  exact absurd h (written i hi)

theorem opDigestWord_raised {i : Nat} {s : State} (h : handle? s.stateReg i = none ∨ handle? s.ivUsed i = none) :
    opDigestWord i s = .error .raised (faultEntry .unassigned (encode (.digestWord i)) s) := by
  unfold opDigestWord
  rw [bind_get]
  refine readHandle_then_raised fun a ha => bind_error (readHandle_raised (h.resolve_left ?_))
  simp [ha]

/-- The two words of DIGEST_WORD are read by its MODADD (46_facade.md R239; 60_exceptions.md R253). -/
theorem opDigestWord_raised_modadd {i : Nat} {a b : Path} {s : State} (ha : handle? s.stateReg i = some a)
    (hb : handle? s.ivUsed i = some b) (h : s.has (a.cell .d) = false ∨ s.has (b.cell .d) = false) :
    opDigestWord i s = .error .raised (faultEntry .unassigned (encode (.modadd 2)) s) := by
  unfold opDigestWord
  rw [bind_get, bind_ok (readHandle_ok ha), bind_ok (readHandle_ok hb)]
  exact bind_error (opModadd_raised rfl (by simpa using h))

/-- INIT_WORD `digest` reads `DIG[i]`, then its dense cell (46_facade.md R232). -/
theorem opInitWord_digest_raised {i : Nat} {r : OpRec} {s : State}
    (h : ∀ g, handle? s.dig i = some g → s.has (g.cell .d) = false) :
    opInitWord .digest i r s = .error .raised (faultEntry .unassigned (encode (.initWord .digest i)) s) := by
  unfold opInitWord
  rw [bind_get]
  exact bind_error (readHandle_then_raised fun g hg => bind_error (memRead_raised (h g hg)))

/-! ### A later read that raises: what was done before it stays -/

/-- CH finds a missing `g` in its second extraction, the first one done (43_functions.md R186). -/
theorem opCh_raised_of_g {e f g p : Path} {s : State} {ne nf : Nat} (hb : s.booted = true) (ha : s.hostAccepts = true)
    (he : s.ReadsWord e ne) (hf : s.ReadsWord f nf) (hp : s.Fresh p)
    (hg : s.has (g.cell .slo) = false ∨ s.has (g.cell .shi) = false) (hout : ∀ y, g.cell y ∉ extractCells (p.sub .p)) :
    ∃ u, opCh e f g p s = .error .raised (faultEntry .unassigned (encode (.extract 2)) u) ∧
      Ext s u (p.sub .p) (extractCells (p.sub .p)) (extractCons (chOperandsP e f) (p.sub .p)) := by
  have reads : ∀ t ∈ spr e ++ spr f, s.Reads t.2 (s.numOf t.2) := fun t ht =>
    (List.mem_append.mp ht).elim (spr_reads he t) (spr_reads hf t)
  obtain ⟨u, hu, x, -⟩ := opExtract_ok (ops := chOperandsP e f) hb ha rfl reads ((hp.sub .p).sub .e) ((hp.sub .p).sub .o)
  have missing : ∀ y, u.has (g.cell y) = s.has (g.cell y) := fun y => by rw [State.has, x.only _ (hout y), State.has]
  obtain ⟨t, ht, hmiss⟩ := exists_spr (s := u) (hs := [g]) ⟨g, by simp, by simpa [missing] using hg⟩
  exact ⟨u, (bind_ok hu).trans (opExtract_raised rfl ⟨t, List.mem_append_right _ ht, hmiss⟩), x⟩

/-- SCHED finds W[t−15] unwritten with its first rotation done (44_schedule.md R202; log 23). -/
theorem opSched_raised_of_w15 {t : Nat} {w2 : Path} {s : State} {n2 : Nat} (hb : s.booted = true)
    (ha : s.hostAccepts = true) (hp : s.Fresh (wordPath s.blk t)) (h2 : handle? s.w (t - 2) = some w2)
    (r2 : s.Reads (w2.cell .d) n2) (l2 : n2 < Config.fieldP) (h15 : handle? s.w (t - 15) = none) :
    ∃ u, opSched t s = .error .raised (faultEntry .unassigned (encode (.sched t)) u) ∧
      Ext s u (wordPath s.blk t) (sigmaCells .ssig1 ((wordPath s.blk t).sub .s1))
        (sigmaCons .ssig1 w2 ((wordPath s.blk t).sub .s1)) := by
  obtain ⟨u, hu, x, -⟩ := opRotations_ok (l := .ssig1) hb ha r2 l2 (hp.sub .s1)
  refine ⟨u, ?_, x.up⟩
  unfold opSched
  rw [bind_get, bind_ok (readHandle_ok h2), bind_ok hu]
  exact bind_error (readHandle_raised (by rw [x.w_eq]; exact h15))

/-- SCHED finds W[t−7] or W[t−16] unwritten with both rotations done (44_schedule.md R202; log 23). -/
theorem opSched_raised_of_w7_or_w16 {t : Nat} {w2 w15 : Path} {s : State} {n2 n15 : Nat} (hb : s.booted = true)
    (ha : s.hostAccepts = true) (hp : s.Fresh (wordPath s.blk t)) (h2 : handle? s.w (t - 2) = some w2)
    (h15 : handle? s.w (t - 15) = some w15) (r2 : s.Reads (w2.cell .d) n2) (l2 : n2 < Config.fieldP)
    (r15 : s.Reads (w15.cell .d) n15) (l15 : n15 < Config.fieldP)
    (h : handle? s.w (t - 7) = none ∨ handle? s.w (t - 16) = none) :
    ∃ u, opSched t s = .error .raised (faultEntry .unassigned (encode (.sched t)) u) ∧
      Ext s u (wordPath s.blk t)
        (sigmaCells .ssig1 ((wordPath s.blk t).sub .s1) ++ sigmaCells .ssig0 ((wordPath s.blk t).sub .s0))
        (sigmaCons .ssig1 w2 ((wordPath s.blk t).sub .s1) ++ sigmaCons .ssig0 w15 ((wordPath s.blk t).sub .s0)) := by
  obtain ⟨u1, hu1, x1, -⟩ := opRotations_ok (l := .ssig1) hb ha r2 l2 (hp.sub .s1)
  obtain ⟨u, hu, x2, -⟩ := opRotations_ok (l := .ssig0) (s := u1) (by rw [x1.booted, hb]) x1.accepts (x1.reads r15) l15
    (x1.fresh_sibling (hp.sub .s0) (by decide))
  have x := x1.up.trans x2.up
  refine ⟨u, ?_, x⟩
  unfold opSched
  rw [bind_get, bind_ok (readHandle_ok h2), bind_ok hu1, bind_ok (readHandle_ok (by rw [x1.w_eq]; exact h15)), bind_ok hu]
  refine readHandle_then_raised fun w7 h7 => bind_error (readHandle_raised ?_)
  rw [x.w_eq] at h7 ⊢
  exact h.resolve_left (by simp [h7])

/-- ROUND finds W[t] unwritten with Σ1 and CH done (45_compression.md R211; log 23). -/
theorem opRound_raised_of_w {t : Nat} {H : Handles} {v : StateValues} {s : State} (hb : s.booted = true)
    (ha : s.hostAccepts = true) (hp : s.Fresh (roundPath s.blk t)) (hst : s.stateReg = H.toFile) (hr : s.ReadsState H v)
    (hv : v.inField) (hw : handle? s.w t = none) :
    ∃ u, opRound t s = .error .raised (faultEntry .unassigned (encode (.round t)) u) ∧
      Ext s u (roundPath s.blk t)
        (sigmaCells .bsig1 ((roundPath s.blk t).sub .s1) ++ chCells ((roundPath s.blk t).sub .ch))
        (sigmaCons .bsig1 H.e ((roundPath s.blk t).sub .s1) ++ chCons H.e H.f H.g ((roundPath s.blk t).sub .ch)) := by
  obtain ⟨-, -, -, -, re, rf, rg, -⟩ := hr
  obtain ⟨u1, hu1, x1, -⟩ := opRotations_ok (l := .bsig1) hb ha re.1 (hv _ (by simp [StateValues.toList])) (hp.sub .s1)
  obtain ⟨u, hu, x2, -⟩ := opCh_ok (s := u1) (by rw [x1.booted, hb]) x1.accepts (x1.readsWord re) (x1.readsWord rf)
    (x1.readsWord rg) (x1.fresh_sibling (hp.sub .ch) (by decide))
  have x := x1.up.trans x2.up
  refine ⟨u, ?_, x⟩
  have file : ∀ i h, handle? H.toFile i = some h → readHandle (encode (.round t)) State.stateReg i s = .ok h s :=
    fun i h hh => readHandle_ok (by rw [hst]; exact hh)
  unfold opRound
  rw [bind_get, bind_ok (file 0 H.a rfl), bind_ok (file 1 H.b rfl), bind_ok (file 2 H.c rfl), bind_ok (file 3 H.d rfl),
    bind_ok (file 4 H.e rfl), bind_ok (file 5 H.f rfl), bind_ok (file 6 H.g rfl), bind_ok (file 7 H.h rfl), bind_ok hu1,
    bind_ok hu]
  exact bind_error (readHandle_raised (by rw [x.w_eq]; exact hw))

/-! ### From the operations to the steps that perform them -/

/-- `raisedAfter` for an operation whose operand record is `r`. -/
theorem raisedAfter_of {s u : State} {e : QEntry} {rest : List QEntry} {r : OpRec} {i : Instr} {body : OpRec → M Unit}
    {p : Path} {cs : List CellName} {ks : List Constraint} (hq : s.q = e :: rest) (ho : e.opnd = r)
    (h : body r { s with q := rest } = .error .raised (faultEntry .unassigned (encode i) u))
    (x : Ext { s with q := rest } u p cs ks) : RaisedAfter s rest i (runEntry s body) cs ks :=
  raisedAfter hq (ho ▸ h) x

section
variable {s : State} {e : QEntry} {rest : List QEntry} (hq : s.q = e :: rest)
include hq

/-- A σ or Σ operation reads the word it rotates in its DECOMP (43_functions.md R185; 60_exceptions.md R253). -/
theorem exec_sigma_raised {i : Instr} {l : Layout} {x p : Path}
    (hi : (i = .ssig0 ∧ l = .ssig0) ∨ (i = .ssig1 ∧ l = .ssig1) ∨ (i = .bsig0 ∧ l = .bsig0) ∨ (i = .bsig1 ∧ l = .bsig1))
    (ho : e.opnd = .sigma x p) (h : s.has (x.cell .d) = false) :
    exec i s = .next (faultEntry .unassigned (encode (.decomp l)) { s with q := rest }) := by
  rcases hi with ⟨rfl, rfl⟩ | ⟨rfl, rfl⟩ | ⟨rfl, rfl⟩ | ⟨rfl, rfl⟩
  all_goals
    rw [exec]
    exact runEntry_raised_of hq ho (opRotations_raised h)

/-- LOOKUP in SHAPE mode over a missing input (41_table.md R136; log 24). -/
theorem exec_lookup_raisedAfter {m b : Nat} {d : CellName} {lt ls : List Seg} (ha : s.hostAccepts = true)
    (ho : e.opnd = .lookup d (.adv ⟨b, lt⟩) (.adv ⟨b, ls⟩)) (hm : s.mode = .shape) (hd : s.has d = false) (hne : lt ≠ ls)
    (hdt : d ≠ .adv ⟨b, lt⟩) (hds : d ≠ .adv ⟨b, ls⟩) (ht : s.has (.adv ⟨b, lt⟩) = false)
    (hs : s.has (.adv ⟨b, ls⟩) = false) :
    RaisedAfter s rest (.lookup m) (exec (.lookup m) s) [.adv ⟨b, lt⟩, .adv ⟨b, ls⟩] [] := by
  have below : ∀ l : List Seg, (CellName.adv ⟨b, l⟩).isBelow ⟨b, []⟩ = true := fun l => isBelow_iff.mpr ⟨l, rfl⟩
  obtain ⟨u, hu, x⟩ := opLookup_raised_shape (e := m) (s := { s with q := rest }) hm ha hd (cell_eq_none ht)
    (cell_eq_none hs) (below lt) (below ls) (by simpa using hne) hdt hds
  rw [exec]
  exact raisedAfter_of hq ho hu x

/-- CH over a missing `g` (43_functions.md R186). -/
theorem exec_ch_raisedAfter {a b c p : Path} {na nb : Nat} (hr : s.ready) (ho : e.opnd = .triple a b c p)
    (hp : s.fresh p = true) (hna : s.ReadsWord a na) (hnb : s.ReadsWord b nb)
    (hc : s.has (c.cell .slo) = false ∨ s.has (c.cell .shi) = false) (hout : ∀ g, c.cell g ∉ extractCells (p.sub .p)) :
    RaisedAfter s rest (.extract 2) (exec .ch s) (extractCells (p.sub .p))
      (extractCons (chOperandsP a b) (p.sub .p)) := by
  obtain ⟨u, hu, x⟩ := opCh_raised_of_g (s := { s with q := rest }) hr.1 hr.2 hna hnb (fresh_of hp) hc hout
  rw [exec]
  exact raisedAfter_of hq ho hu x

/-- SCHED with W[t−15] unwritten. -/
theorem exec_sched_raisedAfter_of_w15 {t : Nat} {w2 : Path} {n2 : Nat} (hr : s.ready)
    (hp : s.fresh (wordPath s.blk t) = true) (h2 : handle? s.w (t - 2) = some w2) (r2 : s.Reads (w2.cell .d) n2)
    (l2 : n2 < Config.fieldP) (h15 : handle? s.w (t - 15) = none) :
    RaisedAfter s rest (.sched t) (exec (.sched t) s) (sigmaCells .ssig1 ((wordPath s.blk t).sub .s1))
      (sigmaCons .ssig1 w2 ((wordPath s.blk t).sub .s1)) := by
  obtain ⟨u, hu, x⟩ := opSched_raised_of_w15 (s := { s with q := rest }) hr.1 hr.2 (fresh_of hp) h2 r2 l2 h15
  rw [exec]
  exact raisedAfter hq hu x

/-- SCHED with W[t−7] or W[t−16] unwritten. -/
theorem exec_sched_raisedAfter_of_w7_or_w16 {t : Nat} {w2 w15 : Path} {n2 n15 : Nat} (hr : s.ready)
    (hp : s.fresh (wordPath s.blk t) = true) (h2 : handle? s.w (t - 2) = some w2) (h15 : handle? s.w (t - 15) = some w15)
    (r2 : s.Reads (w2.cell .d) n2) (l2 : n2 < Config.fieldP) (r15 : s.Reads (w15.cell .d) n15) (l15 : n15 < Config.fieldP)
    (h : handle? s.w (t - 7) = none ∨ handle? s.w (t - 16) = none) :
    RaisedAfter s rest (.sched t) (exec (.sched t) s)
      (sigmaCells .ssig1 ((wordPath s.blk t).sub .s1) ++ sigmaCells .ssig0 ((wordPath s.blk t).sub .s0))
      (sigmaCons .ssig1 w2 ((wordPath s.blk t).sub .s1) ++ sigmaCons .ssig0 w15 ((wordPath s.blk t).sub .s0)) := by
  obtain ⟨u, hu, x⟩ :=
    opSched_raised_of_w7_or_w16 (s := { s with q := rest }) hr.1 hr.2 (fresh_of hp) h2 h15 r2 l2 r15 l15 h
  rw [exec]
  exact raisedAfter hq hu x

/-- ROUND with W[t] unwritten. -/
theorem exec_round_raisedAfter {t : Nat} {H : Handles} {v : StateValues} (hr : s.ready)
    (hp : s.fresh (roundPath s.blk t) = true) (hst : s.stateReg = H.toFile) (hreads : s.ReadsState H v) (hv : v.inField)
    (hw : handle? s.w t = none) :
    RaisedAfter s rest (.round t) (exec (.round t) s)
      (sigmaCells .bsig1 ((roundPath s.blk t).sub .s1) ++ chCells ((roundPath s.blk t).sub .ch))
      (sigmaCons .bsig1 H.e ((roundPath s.blk t).sub .s1) ++ chCons H.e H.f H.g ((roundPath s.blk t).sub .ch)) := by
  obtain ⟨u, hu, x⟩ := opRound_raised_of_w (s := { s with q := rest }) hr.1 hr.2 (fresh_of hp) hst hreads hv hw
  rw [exec]
  exact raisedAfter hq (bind_error hu) x

end

/-- Settles O42: each operation over a missing operand, first where nothing has been done before the raise, then (`ready`)
where earlier operations have. -/
theorem operandFaults : Obligations.OperandFaults := by
  intro s e rest hq
  simp only [exec]
  refine ⟨fun d lo hi ho h => runEntry_raised_of hq ho (opRecomb_raised h),
    fun m c ho h => runEntry_raised_of hq ho (opCarry_raised h),
    fun m d t sp ho hm h => runEntry_raised_of hq ho (opLookup_raised hm h),
    fun k d p ho hm h => runEntry_raised_of hq ho (opRange_raised hm h),
    fun l x p ho h => runEntry_raised_of hq ho (opDecomp_raised h),
    fun k ops p ho hl h => runEntry_raised_of hq ho (opExtract_raised hl h),
    fun n ys K p ho hl h => runEntry_raised_of hq ho (opModadd_raised hl h),
    fun i l x p hi ho h => exec_sigma_raised hq hi ho h,
    fun a b c p ho h => runEntry_raised_of hq ho (opMaj_raised h),
    fun a b c p ho h => runEntry_raised_of hq ho (opCh_raised h),
    fun t h => runEntry_raised hq (opSched_raised h),
    fun t i hi h => runEntry_raised hq (bind_error (opRound_raised hi h)),
    fun i h => runEntry_raised hq (bind_error (opDigestWord_raised h)),
    fun i a b ha hb h => runEntry_raised hq (bind_error (opDigestWord_raised_modadd ha hb h)),
    fun i h => runEntry_raised hq (bind_error (opInitWord_digest_raised h)),
    fun k ops p ho h => runEntry_raised_of hq ho (opExtract_wrong_length h),
    fun n ys K p ho h => runEntry_raised_of hq ho (opModadd_wrong_length h),
    fun hr => ⟨?_, ?_, ?_, ?_, ?_⟩⟩
  · intro m d b lt ls ho hm hd hne hdt hds ht hs
    exact exec_lookup_raisedAfter hq hr.2 ho hm hd hne hdt hds ht hs
  · intro a b c p na nb ho hp hna hnb hc hout
    exact exec_ch_raisedAfter hq hr ho hp hna hnb hc hout
  · rintro t p w2 n2 rfl hp h2 r2 l2 h15
    exact exec_sched_raisedAfter_of_w15 hq hr hp h2 r2 l2 h15
  · rintro t p w2 w15 n2 n15 rfl hp h2 h15 r2 l2 r15 l15 h
    exact exec_sched_raisedAfter_of_w7_or_w16 hq hr hp h2 h15 r2 l2 r15 l15 h
  · rintro t p H v rfl hp hst hreads hv hw
    exact exec_round_raisedAfter hq hr hp hst hreads hv hw

end Sys2Proof.Machine
end

section
/-!
PROOFS. The encoding (30_encoding.md): decoding inverts encoding on well-formed instructions, and every word that decodes is
the encoding of the instruction it decodes to. The first rests on Laws/PerInstr.lean (every word lies in its row of the
opcode map); the second on `Row.Sound`, said once per shape of a row.
-/

namespace Sys2Proof

open Sys2Proof.Machine

/-! ### From instructions to words -/

/-- Every well-formed instruction's word is in a row of the opcode map (30_encoding.md R102, R106). -/
theorem encode_in_opcodeMap (i : Instr) : Laws.Encodes.Statement i :=
  match i with
  | .configure => Laws.Encodes.configure
  | .load => Laws.Encodes.load
  | .initIv => Laws.Encodes.initIv
  | .initFrom src => Laws.Encodes.initFrom src
  | .compress => Laws.Encodes.compress
  | .digest => Laws.Encodes.digest
  | .bitsOf n => Laws.Encodes.bitsOf n
  | .intOf => Laws.Encodes.intOf
  | .spread => Laws.Encodes.spread
  | .schedIn t => Laws.Encodes.schedIn t
  | .sched t => Laws.Encodes.sched t
  | .round t => Laws.Encodes.round t
  | .initWord src j => Laws.Encodes.initWord src j
  | .digestWord j => Laws.Encodes.digestWord j
  | .ssig0 => Laws.Encodes.ssig0
  | .ssig1 => Laws.Encodes.ssig1
  | .bsig0 => Laws.Encodes.bsig0
  | .bsig1 => Laws.Encodes.bsig1
  | .ch => Laws.Encodes.ch
  | .maj => Laws.Encodes.maj
  | .word => Laws.Encodes.word
  | .recomb => Laws.Encodes.recomb
  | .lookup e => Laws.Encodes.lookup e
  | .range w => Laws.Encodes.range w
  | .decomp l => Laws.Encodes.decomp l
  | .extract k => Laws.Encodes.extract k
  | .modadd n => Laws.Encodes.modadd n
  | .carry m => Laws.Encodes.carry m
  | .copy => Laws.Encodes.copy

/-- Settles O1: the instruction's word is in its row, and what is in a row decodes by it. -/
theorem decodeOfEncode : Obligations.DecodeOfEncode :=
  fun i hi => decode_encode_of (encode_in_opcodeMap i) hi

/-- A word that is the encoding of a well-formed instruction decodes to it. -/
theorem decode_of_encode_eq {w : CmdWord} {i : Instr} (hi : i.wellFormed = true) (hw : encode i = w) : decode w = .ok i :=
  hw ▸ decodeOfEncode i hi

/-- Settles O3: each word is the encoding of a well-formed instruction. -/
theorem specWords : Obligations.SpecWords := by
  unfold Obligations.SpecWords
  and_intros <;> exact decode_of_encode_eq rfl rfl

/-! ### From words to instructions -/

@[simp] theorem Legal.admits_zero {v : Nat} : Legal.zero.admits v = true ↔ v = 0 := by simp [Legal.admits]

@[simp] theorem Legal.admits_between {lo hi v : Nat} : (Legal.between lo hi).admits v = true ↔ lo ≤ v ∧ v ≤ hi := by
  simp [Legal.admits]

/-- A value of a `SEL` field in its legal set is the code of the name it decodes to (30_encoding.md R96, R98, R101). -/
theorem code_initSourceOf {v : Nat} (h : v ≤ 1) : (initSourceOf v).code = v := by interval_cases v <;> rfl

theorem code_wordSourceOf {v : Nat} (h : v ≤ 2) : (wordSourceOf v).code = v := by interval_cases v <;> rfl

theorem code_layoutOf {v : Nat} (h : v ≤ 3) : (layoutOf v).code = v := by interval_cases v <;> rfl

/-- The same for the `N` of BITS_OF (30_encoding.md R97). -/
theorem code_widthOf {v : Nat} (h : v ≤ 1) : (widthOf v).code = v := by interval_cases v <;> rfl

/-- The row makes of fields in its legal sets a well-formed instruction, whose encoding is these fields packed. -/
def Row.Sound (r : Row) : Prop :=
  ∀ n sel imm, r.n.admits n = true → r.sel.admits sel = true → r.imm.admits imm = true →
    (r.build n sel imm).wellFormed = true ∧ encode (r.build n sel imm) = packWord r.opc n sel imm

namespace Row.Sound

/-- A row without a used field. -/
theorem fixed {opc : Nat} {i : Instr} (hi : i.wellFormed = true) (he : encode i = packWord opc 0 0 0) :
    Row.Sound ⟨opc, .zero, .zero, .zero, fun _ _ _ => i⟩ := by
  intro n sel imm hn hs hm
  obtain ⟨rfl, rfl, rfl⟩ : n = 0 ∧ sel = 0 ∧ imm = 0 := ⟨by simpa using hn, by simpa using hs, by simpa using hm⟩
  exact ⟨hi, he⟩

/-- A row whose only used field is N. -/
theorem of_n {opc lo hi : Nat} {op : Nat → Instr}
    (h : ∀ v, lo ≤ v → v ≤ hi → (op v).wellFormed = true ∧ encode (op v) = packWord opc v 0 0) :
    Row.Sound ⟨opc, .between lo hi, .zero, .zero, fun n _ _ => op n⟩ := by
  intro n sel imm hn hs hm
  obtain ⟨rfl, rfl⟩ : sel = 0 ∧ imm = 0 := ⟨by simpa using hs, by simpa using hm⟩
  obtain ⟨hlo, hhi⟩ := Legal.admits_between.mp hn
  exact h n hlo hhi

/-- A row whose only used field is SEL. -/
theorem of_sel {opc lo hi : Nat} {op : Nat → Instr}
    (h : ∀ v, lo ≤ v → v ≤ hi → (op v).wellFormed = true ∧ encode (op v) = packWord opc 0 v 0) :
    Row.Sound ⟨opc, .zero, .between lo hi, .zero, fun _ sel _ => op sel⟩ := by
  intro n sel imm hn hs hm
  obtain ⟨rfl, rfl⟩ : n = 0 ∧ imm = 0 := ⟨by simpa using hn, by simpa using hm⟩
  obtain ⟨hlo, hhi⟩ := Legal.admits_between.mp hs
  exact h sel hlo hhi

/-- A row whose only used field is IMM. -/
theorem of_imm {opc lo hi : Nat} {op : Nat → Instr}
    (h : ∀ v, lo ≤ v → v ≤ hi → (op v).wellFormed = true ∧ encode (op v) = packWord opc 0 0 v) :
    Row.Sound ⟨opc, .zero, .zero, .between lo hi, fun _ _ imm => op imm⟩ := by
  intro n sel imm hn hs hm
  obtain ⟨rfl, rfl⟩ : n = 0 ∧ sel = 0 := ⟨by simpa using hn, by simpa using hs⟩
  obtain ⟨hlo, hhi⟩ := Legal.admits_between.mp hm
  exact h imm hlo hhi

end Row.Sound

theorem hostRows_sound : ∀ r ∈ hostRows, r.Sound := by
  simp only [hostRows, List.forall_mem_cons]
  refine ⟨.fixed rfl rfl, .fixed rfl rfl, .fixed rfl rfl, .of_sel fun v _ h => ⟨rfl, ?_⟩, .fixed rfl rfl, .fixed rfl rfl,
    .of_n fun v _ h => ⟨rfl, ?_⟩, .fixed rfl rfl, .fixed rfl rfl, List.forall_mem_nil _⟩
  · rw [encode, code_initSourceOf h]
  · rw [encode, code_widthOf h]

theorem levelOneRows_sound : ∀ r ∈ levelOneRows, r.Sound := by
  simp only [levelOneRows, List.forall_mem_cons]
  refine ⟨.of_imm fun v _ h => ⟨decide_eq_true h, rfl⟩, .of_imm fun v h h' => ⟨decide_eq_true ⟨h, h'⟩, rfl⟩,
    .of_imm fun v _ h => ⟨decide_eq_true h, rfl⟩, fun n sel imm hn hs hm => ?_,
    .of_imm fun v _ h => ⟨decide_eq_true h, rfl⟩, List.forall_mem_nil _⟩
  obtain ⟨-, hsel⟩ := Legal.admits_between.mp hs
  obtain ⟨-, himm⟩ := Legal.admits_between.mp hm
  refine ⟨decide_eq_true himm, ?_⟩
  rw [encode, code_wordSourceOf hsel, Legal.admits_zero.mp hn]

theorem functionRows_sound : ∀ r ∈ functionRows, r.Sound := by
  simp only [functionRows, List.forall_mem_cons]
  exact ⟨.fixed rfl rfl, .fixed rfl rfl, .fixed rfl rfl, .fixed rfl rfl, .fixed rfl rfl, .fixed rfl rfl,
    List.forall_mem_nil _⟩

theorem primitiveRows_sound : ∀ r ∈ primitiveRows, r.Sound := by
  simp only [primitiveRows, List.forall_mem_cons]
  refine ⟨.fixed rfl rfl, .fixed rfl rfl, .of_imm fun v _ h => ⟨decide_eq_true h, rfl⟩,
    .of_imm fun v h h' => ⟨decide_eq_true ⟨h, h'⟩, rfl⟩, .of_sel fun v _ h => ⟨rfl, ?_⟩,
    .of_n fun v h h' => ⟨decide_eq_true ⟨h, h'⟩, rfl⟩, .of_n fun v h h' => ⟨decide_eq_true ⟨h, h'⟩, rfl⟩,
    .of_imm fun v _ h => ⟨decide_eq_true h, rfl⟩, .fixed rfl rfl, List.forall_mem_nil _⟩
  rw [encode, code_layoutOf h]

theorem opcodeMap_sound : ∀ r ∈ opcodeMap, r.Sound := by
  simp only [opcodeMap, List.forall_mem_append]
  exact ⟨⟨⟨hostRows_sound, levelOneRows_sound⟩, functionRows_sound⟩, primitiveRows_sound⟩

/-- Settles O2: the word is in a row, and a word is its four fields packed again. -/
theorem encodeOfDecode : Obligations.EncodeOfDecode := by
  intro w i hd
  obtain ⟨r, hr, hopc, hn, hsel, himm, rfl⟩ := decode_eq_ok.mp hd
  obtain ⟨hwf, hword⟩ := opcodeMap_sound r hr _ _ _ hn hsel himm
  exact ⟨hwf, by rw [hword, hopc, packWord_of_fields]⟩

/-! ### Words the host may not present -/

/-- The internal operations are those of no host class (30_encoding.md R94). -/
theorem fromHost_eq_false_iff {i : Instr} : i.fromHost = false ↔ i.cls ≠ .facade ∧ i.cls ≠ .codec := by
  unfold Instr.fromHost
  cases i.cls <;> simp

/-- Settles O5: a waiting block with a word on `cmd_in` that is no host command's. -/
theorem stepRefusesIllegalWord : Obligations.StepRefusesIllegalWord :=
  fun _ _ _ hw hc hi => step_of_illegal hw hc fun i hd => fromHost_eq_false_iff.mpr (hi i hd)

end Sys2Proof
end

section
/-!
PROOFS. The sequencer invariant is kept by every step (30_encoding.md R94, R99; 41_table.md R139; 60_exceptions.md R262). An
operation of the queue leaves PHASE, CONFIG and TABLE and the rest of Q (`same_closed`); a command is accepted with Q empty
and leads from its sequencing check to a state with the invariant (`Leads`).
-/

namespace Sys2Proof.Machine

open Sys2Proof

/-! ### The invariant with an empty queue and with a full one -/

theorem sequencerInv_of_empty {s : State} (hq : s.q = []) (hconf : s.phase = .conf → s.config = some stdConfig)
    (hboot : s.phase ≠ .reset → s.phase ≠ .conf → s.booted = true) : s.sequencerInv :=
  ⟨by simp [hq], by simp [hq], hconf, hboot, fun _ => hq⟩

theorem sequencerInv_of_booted {s : State} (hwf : ∀ e ∈ s.q, e.wf = true) (hphase : s.phase ≠ .reset ∧ s.phase ≠ .conf)
    (hb : s.booted = true) (hh : s.halted = true → s.q = []) : s.sequencerInv :=
  ⟨hwf, fun _ => hphase, fun h => absurd h hphase.2, fun _ _ => hb, hh⟩

/-! ### Operations of the queue -/

theorem SameUnit.booted {s u : State} {rest : List QEntry} (h : SameUnit s rest u) : u.booted = s.booted := by
  rw [State.booted, State.booted, h.d, h.e]

/-- Performing the head of Q keeps the sequencer invariant. -/
theorem sequencerInv_of_entry {s t : State} {e : QEntry} {rest : List QEntry} {i : Instr} (hinv : s.sequencerInv)
    (hh : s.halted = false) (hq : s.q = e :: rest) (hi : i.fromHost = false) (hexec : exec i s = .next t) :
    t.sequencerInv := by
  obtain ⟨hwf, hphase, -, hboot, -⟩ := hinv
  have hphase := hphase (by simp [hq])
  have start : SameUnit s rest { s with q := s.q.tail } ∧ s.q.tail = rest ∧ s.halted = false :=
    ⟨⟨rfl, rfl, rfl⟩, by rw [hq, List.tail_cons], hh⟩
  have booted : ∀ {u}, SameUnit s rest u → u.booted = true := fun h => h.booted.trans (hboot hphase.1 hphase.2)
  rcases exec_internal_keeps (same_closed s rest) hi start hexec with ⟨same, hrest, hlive⟩ | ⟨same, hnil⟩
  · refine sequencerInv_of_booted (fun a ha => hwf a ?_) (same.a ▸ hphase) (booted same) (by simp [hlive])
    rw [hq]
    exact List.mem_cons_of_mem e (hrest ▸ ha)
  · exact sequencerInv_of_booted (by simp [hnil]) (same.a ▸ hphase) (booted same) fun _ => hnil

/-! ### Commands -/

/-- The block waits in phase `ph` under CONFIG `cf`, with the sequencer invariant. -/
def QuietWith (ph : Phase) (cf : Option ConfigRecord) (s : State) : Prop := Quiet ph s ∧ s.config = cf

theorem QuietWith.inv {ph : Phase} {cf : Option ConfigRecord} {s : State} (h : QuietWith ph cf s) : s.sequencerInv := h.1.inv

/-- A waiting block in a phase from READY on is configured and has its table loaded. -/
theorem QuietWith.booted {ph : Phase} {cf : Option ConfigRecord} {s : State} (h : QuietWith ph cf s)
    (hp : s.phase ≠ .reset ∧ s.phase ≠ .conf) : s.booted = true := by
  obtain ⟨-, -, -, hboot, -⟩ := h.inv
  exact hboot hp.1 hp.2

/-- Of the facade commands only CONFIGURE and LOAD pass the sequencing check before READY (60_exceptions.md R262). -/
theorem phase_of_sequenceOk {i : Instr} {s : State} (hi : i.cls = .facade) (hc : i ≠ .configure) (hl : i ≠ .load)
    (h : sequenceOk i s = true) : s.phase ≠ .reset ∧ s.phase ≠ .conf := by
  cases i with
  | configure => exact absurd rfl hc
  | load => exact absurd rfl hl
  | initFrom src => cases src <;> cases hp : s.phase <;> simp [sequenceOk, hp] at h ⊢
  | initIv | compress | digest => cases hp : s.phase <;> simp [sequenceOk, hp] at h ⊢
  | _ => cases hi

section
variable {ph : Phase} {cf : Option ConfigRecord}

/-- A waiting block stays so under the updates of operations, or faults with the sequencer invariant. -/
theorem closed_quietWith (ph : Phase) (cf : Option ConfigRecord) : GateClosed (QuietWith ph cf) State.sequencerInv :=
  quiet_closed ph cf

theorem Leads.get {P : State → Prop} : Leads P (get : M State) fun _ => P := fun _ h => h

theorem Leads.setOutputs (d : List DoutItem) (h : List Path) :
    Leads State.sequencerInv (setOutputs d h) fun _ t => t.sequencerInv := fun _ hs => hs

theorem Leads.of_modify {P R : State → Prop} {g : State → State} (h : ∀ s, P s → R (g s)) :
    Leads P (modify g : M PUnit) fun _ => R := h

theorem Leads.of_imp {α : Type} {P P' : State → Prop} {m : M α} {R : α → State → Prop} (hP : ∀ s, P s → P' s)
    (h : Leads P' m R) : Leads P m R := fun s hs => h s (hP s hs)

/-- What the commands begin with: the sequencing check, then the check of `din`. -/
theorem Leads.checked {i : Instr} {ok : Bool} {cause : FaultCause} {cmd : CmdWord} {m : M Unit} {R : Unit → State → Prop}
    (h : ok = true → Leads (fun s => QuietWith ph cf s ∧ sequenceOk i s = true) m R) :
    Leads (QuietWith ph cf) (do checkSequence i; Machine.require ok cause cmd; m) R := by
  refine Leads.bind (Leads.check fun _ => QuietWith.inv) fun _ => ?_
  cases hok : ok with
  | true => exact Leads.bind (Leads.require fun _ hs => hs.1.inv) fun _ => h hok
  | false =>
    intro s hs
    exact sequencerInv_fault hs.1.inv

/-- A command that begins work: it moves to a phase from READY on and queues level-1 entries. -/
theorem Leads.queued {i : Instr} {g : State → State} (hi : i.cls = .facade) (hc : i ≠ .configure) (hl : i ≠ .load)
    (hunit : ∀ s, (g s).booted = s.booted ∧ (g s).halted = s.halted)
    (hphase : ∀ s, (g s).phase ≠ .reset ∧ (g s).phase ≠ .conf) (hwf : ∀ s, ∀ e ∈ (g s).q, e.wf = true) :
    Leads (fun s => QuietWith ph cf s ∧ sequenceOk i s = true) (modify g : M PUnit)
      fun _ t => t.sequencerInv := by
  refine Leads.of_modify fun s ⟨hs, hok⟩ => sequencerInv_of_booted (hwf s) (hphase s) ?_ ?_
  · exact (hunit s).1.trans (hs.booted (phase_of_sequenceOk hi hc hl hok))
  · simp [(hunit s).2, hs.1.h]

/-- LOAD's writes change cells, answers and requests only. -/
theorem loadTable_keeps_quiet (cmd : CmdWord) : Keeps (QuietWith ph cf) State.sequencerInv (loadTable cmd) := by
  rintro s ⟨⟨hinv, hq, hh, hp⟩, hc⟩
  unfold loadTable
  split
  · rcases takeAnswers s.hostAnswers tableCells with ⟨n, _ | _, rest⟩
    · exact ⟨⟨hinv, hq, hh, hp⟩, hc⟩
    · exact sequencerInv_fault hinv
  · exact sequencerInv_fault hinv

/-- What CONFIGURE does after its checks: the requests and CONFIG in RESET, the FIXED cells, then CONF (41_table.md R130). -/
theorem configure_leads (cmd : CmdWord) :
    Leads (fun s => QuietWith ph cf s ∧ sequenceOk .configure s = true) (do
      seqAll (configRequests.map fun rq => request rq .shape cmd)
      modify fun s => { s with config := some stdConfig }
      seqAll ((List.range 64).map fun t => memWrite cmd true (.fixK t) (.known (kRom t)))
      seqAll ((List.range 8).map fun i => memWrite cmd true (.fixIv i) (.known (ivRom i)))
      modify fun s => { s with phase := .conf }
      setOutputs [] []) fun _ t => t.sequencerInv := by
  have closed := closed_quietWith .reset
  refine Leads.of_imp (P' := QuietWith .reset cf)
    (fun s ⟨⟨hs, hc⟩, hok⟩ => ⟨⟨hs.inv, hs.q, hs.h, by simpa [sequenceOk] using hok⟩, hc⟩) ?_
  refine Leads.bind (Leads.keeps (Keeps.seqAll ?_)) fun _ => ?_
  · exact List.forall_mem_map.mpr fun _ _ => Keeps.request (closed cf) _ (by decide) _
  refine Leads.bind (Leads.of_modify (R := QuietWith .reset (some stdConfig)) fun s ⟨hs, _⟩ => ⟨⟨?_, hs.q, hs.h, hs.p⟩, rfl⟩)
    fun _ => ?_
  · exact sequencerInv_of_empty hs.q (fun _ => rfl) fun h => absurd hs.p h
  refine Leads.bind (Leads.keeps (Keeps.seqAll ?_)) fun _ => Leads.bind (Leads.keeps (Keeps.seqAll ?_)) fun _ => ?_
  · exact List.forall_mem_map.mpr fun _ _ => Keeps.memWrite (closed _) _ _ _ _
  · exact List.forall_mem_map.mpr fun _ _ => Keeps.memWrite (closed _) _ _ _ _
  refine Leads.bind (Leads.of_modify (R := State.sequencerInv) fun s ⟨hs, hc⟩ => ?_) fun _ => Leads.setOutputs _ _
  exact sequencerInv_of_empty hs.q (fun _ => hc) fun _ h => absurd rfl h

/-- What LOAD does after its checks: the TABLE cells in CONF, then TABLE and READY (41_table.md R133). -/
theorem load_leads (cmd : CmdWord) :
    Leads (fun s => QuietWith ph cf s ∧ sequenceOk .load s = true) (do
      loadTable cmd
      modify fun s => { s with table := .loaded, phase := .ready }
      setOutputs [] []) fun _ t => t.sequencerInv := by
  refine Leads.of_imp (P' := QuietWith .conf (some stdConfig)) (fun s ⟨⟨hs, _⟩, hok⟩ => ?_) ?_
  · have hconf : s.phase = .conf := by simpa [sequenceOk] using hok
    obtain ⟨-, -, hcfg, -, -⟩ := hs.inv
    exact ⟨⟨hs.inv, hs.q, hs.h, hconf⟩, hcfg hconf⟩
  refine Leads.bind (Leads.keeps (loadTable_keeps_quiet cmd)) fun _ => ?_
  refine Leads.bind (Leads.of_modify (R := State.sequencerInv) fun s ⟨hs, hc⟩ => ?_) fun _ => Leads.setOutputs _ _
  exact sequencerInv_of_empty hs.q (fun h => nomatch h) fun _ _ => by simp [State.booted, hc]

end

/-- A command made of updates of operations only, as the codec commands are. -/
theorem sequencerInv_of_keeps {ph : Phase} {cf : Option ConfigRecord} {body : List DinItem → M Unit} {s t : State}
    (hs : ∀ c, QuietWith ph cf { s with cmds := c }) (h : ∀ d, Keeps (QuietWith ph cf) State.sequencerInv (body d))
    (e : runCommand s body = .next t) : t.sequencerInv :=
  Leads.out hs (fun d => Leads.weaken (Leads.keeps (h d)) fun _ _ => QuietWith.inv) e

/-- A command keeps the sequencer invariant of a waiting block. -/
theorem sequencerInv_of_command {s t : State} {i : Instr} (hinv : s.sequencerInv) (hq : s.q = []) (hh : s.halted = false)
    (hi : i.fromHost = true) (hexec : exec i s = .next t) : t.sequencerInv := by
  have start : ∀ c, QuietWith s.phase s.config { s with cmds := c } := fun _ => ⟨⟨hinv, hq, hh, rfl⟩, rfl⟩
  have closed := closed_quietWith s.phase s.config
  cases i with
  | configure =>
    simp only [exec, execConfigure] at hexec
    exact Leads.out start (fun din => Leads.checked fun _ => configure_leads _) hexec
  | load =>
    exact Leads.out start (fun din => Leads.checked fun _ => load_leads _) hexec
  | initIv =>
    refine Leads.out start (fun din => Leads.checked fun _ => ?_) hexec
    exact Leads.queued rfl nofun nofun (fun _ => ⟨rfl, rfl⟩) (fun _ => ⟨nofun, nofun⟩)
      fun _ => fixedEntries_wf.1 .iv nofun
  | initFrom src =>
    simp only [exec, execInitFrom] at hexec
    refine Leads.out start (fun din => Leads.checked fun hdin => Leads.bind Leads.get fun st => ?_) hexec
    refine Leads.queued rfl nofun nofun (fun _ => ⟨rfl, rfl⟩) (fun _ => ⟨nofun, nofun⟩) fun _ => ?_
    cases src with
    | digest => exact fixedEntries_wf.1 .digest nofun
    | data =>
      simp only [initDinOk, Bool.and_eq_true, beq_iff_eq] at hdin
      exact itemEntries_wf.1 _ (by simp [hdin.1])
  | compress =>
    simp only [exec, execCompress] at hexec
    refine Leads.out start (fun din => Leads.checked fun hdin => ?_) hexec
    simp only [Bool.and_eq_true, beq_iff_eq] at hdin
    exact Leads.queued rfl nofun nofun (fun _ => ⟨rfl, rfl⟩) (fun _ => ⟨nofun, nofun⟩)
      fun _ => itemEntries_wf.2 _ (by simp [hdin.1])
  | digest =>
    refine Leads.out start (fun din => Leads.checked fun _ => ?_) hexec
    exact Leads.queued rfl nofun nofun (fun _ => ⟨rfl, rfl⟩) (fun _ => ⟨nofun, nofun⟩)
      fun _ => fixedEntries_wf.2
  | bitsOf n =>
    simp only [exec, execBitsOf] at hexec
    refine sequencerInv_of_keeps start (fun din => ?_) hexec
    split
    · exact Keeps.bind (Keeps.require closed _ (by decide) _) fun _ => Keeps.bind Keeps.get fun _ =>
        Keeps.opBitsOf closed _ _
    · exact Keeps.raise closed (by decide) _
  | intOf =>
    simp only [exec, execIntOf] at hexec
    refine sequencerInv_of_keeps start (fun din => ?_) hexec
    split
    · exact Keeps.bind (Keeps.require closed _ (by decide) _) fun _ => Keeps.setDout closed _
    · exact Keeps.raise closed (by decide) _
  | spread =>
    simp only [exec, execSpread] at hexec
    refine sequencerInv_of_keeps start (fun din => ?_) hexec
    split
    · exact Keeps.setDout closed _
    · exact Keeps.raise closed (by decide) _
  | _ => cases hi

/-! ### Every step -/

/-- Settles O51: a reset, the head of Q, a command, an illegal word, or an idle block. -/
theorem stepKeepsSequencer : Obligations.StepKeepsSequencer := by
  intro s t hinv hst
  cases hr : s.resetIn with
  | true =>
    rw [eq_resetBlock_of_step hr hst]
    exact sequencerInv_of_empty rfl nofun fun h => absurd rfl h
  | false =>
    have hh : s.halted = false := by
      refine Bool.eq_false_iff.mpr fun hh => ?_
      rw [step_of_halted hr hh] at hst
      cases hst
    rcases step_cases hr hst with ⟨e, rest, i, hq, -, hi, hexec⟩ | ⟨hq, -, -, i, -, -, hi, hexec⟩ | ⟨-, c, rest, -, rfl⟩ |
      ⟨-, -, rfl⟩
    · exact sequencerInv_of_entry hinv hh hq hi hexec
    · exact sequencerInv_of_command hinv hq hh hi hexec
    · exact sequencerInv_fault (s := { s with cmds := rest }) hinv
    · exact hinv

end Sys2Proof.Machine
end

section
/-!
PROOFS. The codec (40_codec.md): BITS_OF, INT_OF and SPREAD by what stands on `din`, and the value functions the gates take
from them. What the functions on bit lists give is Laws/Codec.lean, and the arithmetic of spread is Laws/Bits.lean.
-/

namespace Sys2Proof.Machine

open Sys2Proof

/-! ### BITS_OF -/

/-- What BITS_OF makes of a value that fits: its bits. -/
theorem opBitsOf_known_ok {n : Width} {x : Nat} (s : State) (h : x < 2 ^ widthBits n) :
    opBitsOf n (.known x) s = .ok () { s with dout := [.bits (bitsOfNat (widthBits n) x)], hout := [] } :=
  bind_ok (require_ok s (Nat.blt_eq.mpr h))

/-- What BITS_OF makes of a value that is too wide. -/
theorem opBitsOf_known_raised {n : Width} {x : Nat} (s : State) (h : 2 ^ widthBits n ≤ x) :
    opBitsOf n (.known x) s = .error .raised (faultEntry .convert (encode (.bitsOf n)) s) :=
  bind_error (require_fails s (Bool.eq_false_iff.mpr fun hb => h.not_gt (Nat.blt_eq.mp hb)))

section
variable {s : State} {n : Width} {w : CmdWord} {rest : List Presented}

/-- On a field element BITS_OF is `opBitsOf` of the value the mode lets it see. -/
theorem exec_bitsOf_elem {x : Nat} (hc : s.cmds = ⟨w, [.elem x]⟩ :: rest) (hx : x < Config.fieldP) :
    exec (.bitsOf n) s = toOutcome (opBitsOf n (dinVal s.mode (.elem x))) { s with cmds := rest } := by
  have hreq := require_ok (cause := .operand) (cmd := encode (.bitsOf n)) { s with cmds := rest } (isFieldElem_of_lt hx)
  simp only [exec, execBitsOf, runCommand, hc, toOutcome]
  rw [bind_ok hreq, bind_get]

/-- A `din` that is not one field element. -/
theorem exec_bitsOf_operand {din : List DinItem} (hc : s.cmds = ⟨w, din⟩ :: rest)
    (h : ∀ x, din = [.elem x] → ¬ x < Config.fieldP) :
    exec (.bitsOf n) s = .next (faultEntry .operand (encode (.bitsOf n)) { s with cmds := rest }) := by
  simp only [exec, execBitsOf]
  refine runCommand_raised hc ?_
  dsimp only
  split
  next x =>
    exact bind_error (require_fails _ (Bool.eq_false_iff.mpr fun hx => h x rfl ((isFieldElem_iff x).mp hx)))
  next => rfl

end

/-- Settles O8: the item is too wide, or seen in one of the two modes, or no field element. -/
theorem bitsOfResult : Obligations.BitsOfResult := by
  refine ⟨⟨decode_of_encode_eq rfl rfl, decode_of_encode_eq rfl rfl⟩, fun s n w rest din hc => ⟨?_, ?_, ?_, ?_⟩⟩
  · rintro x rfl hm hx
    have hp : x < Config.fieldP := by
      have := Config.fieldP_gt
      cases n <;> simp only [widthBits] at hx <;> omega
    refine ⟨bitsOfNat (widthBits n) x, ?_, bitsOfNat_length _ x, fun i => bitsOfNat_getElem _ x i⟩
    rw [exec_bitsOf_elem hc hp, hm]
    exact toOutcome_ok (opBitsOf_known_ok _ hx)
  · rintro x rfl hm hp hx
    rw [exec_bitsOf_elem hc hp, hm]
    exact toOutcome_raised (opBitsOf_known_raised _ hx)
  · rintro x rfl hm hp
    rw [exec_bitsOf_elem hc hp, hm]
    rfl
  · exact exec_bitsOf_operand hc

/-! ### INT_OF and SPREAD -/

/-- Settles O9: the length check on a bit list, and every other `din`. -/
theorem intOfResult : Obligations.IntOfResult := by
  refine ⟨decode_of_encode_eq rfl rfl, intOfBits_bitsOfNat 32, fun s w rest din hc => ?_⟩
  simp only [exec, execIntOf]
  refine ⟨?_, ?_, fun h => runCommand_raised hc ?_⟩
  · rintro b rfl hb
    rw [← intOfBits_sum]
    exact runCommand_ok hc (bind_ok (require_ok _ (Nat.ble_eq.mpr hb)))
  · rintro b rfl hb
    exact runCommand_raised hc
      (bind_error (require_fails _ (Bool.eq_false_iff.mpr fun hle => hb.not_ge (Nat.ble_eq.mp hle))))
  · dsimp only
    split
    next b => exact absurd rfl (h b)
    next => rfl

/-- Settles O10: a bit list, and every other `din`. -/
theorem spreadResult : Obligations.SpreadResult := by
  refine ⟨decode_of_encode_eq rfl rfl, fun s w rest din hc => ?_⟩
  simp only [exec, execSpread]
  refine ⟨?_, fun h => runCommand_raised hc ?_⟩
  · rintro b rfl
    exact ⟨spreadList b, runCommand_ok hc rfl, spreadList_length b, spreadList_getElem b⟩
  · dsimp only
    split
    next b => exact absurd rfl (h b)
    next => rfl

/-! ### The value functions of the gates -/

/-- `even32(spread32(x)) = x` (40_codec.md R123). -/
theorem even32_spread32 {x : Nat} (h : x < 2 ^ 32) : even32 (spread32 x) = x := by
  rw [spread32_eq]
  exact evenBits_spread1 h

/-- `odd32(spread32(x)) = 0` (40_codec.md R123). -/
theorem odd32_spread32 {x : Nat} (h : x < 2 ^ 32) : odd32 (spread32 x) = 0 := by
  rw [spread32_eq]
  exact oddBits_spread1 h

/-- Even-bit extraction inverts spread, so numbers with one spread are equal (40_codec.md R125). -/
theorem spreadBits_inj {n v w : Nat} (hv : v < 2 ^ n) (hw : w < 2 ^ n) (h : spreadBits n v = spreadBits n w) : v = w := by
  rw [← evenBits_spread1 hv, h, evenBits_spread1 hw]

theorem spread16_ones : spread16 0xFFFF = 0x55555555 := by decide

/-- The complement of a 16-bit number as a difference. -/
theorem xor_ones_16 {v : Nat} (h : v < 2 ^ 16) : v ^^^ 0xFFFF = 2 ^ 16 - 1 - v := by
  simpa using congrArg BitVec.toNat (BitVec.xor_allOnes (x := BitVec.ofNatLT v h))

/-- Settles O11: spread on numbers is SPREAD on their bits, even-bit extraction undoes it, and the spread of a complement is
a difference. -/
theorem spreadFunctions : Obligations.SpreadFunctions := by
  refine ⟨fun v _ => ⟨spreadBits_eq_list 16 v, ?_⟩,
    fun x hx => ⟨rfl, ?_, even32_spread32 hx, odd32_spread32 hx⟩,
    spreadBits_zero 16, spread16_ones, fun v hv => ?_, fun v w hv hw => spreadBits_inj hv hw, fun x => ?_⟩
  · have := three_spreadBits_lt 16 v
    rw [spread16]
    omega
  · rw [spread32_eq, spreadBits_eq_list]
  · have h := spreadBits_compl 16 v hv
    rw [xor_ones_16 hv, ← spread16_ones]
    exact Nat.eq_sub_of_add_eq h
  · have h := spreadBits_compl 32 x.toNat x.isLt
    rw [spread32_eq, spread32_eq, BitVec.toNat_not, ← spreadBits_ones_32]
    exact Nat.eq_sub_of_add_eq h

end Sys2Proof.Machine
end

section
/-!
PROOFS. The spread table (41_table.md): CONFIGURE and LOAD up to their end or to the first refused request, LOAD at once as
its loop of single writes, LOOKUP and RANGE as the head of Q, and what their instances prove. Sequences of requests and of
FIXED writes, and the loop, are Laws/Setup.lean and Laws/Boot.lean.
-/

namespace Sys2Proof.Machine

open Sys2Proof

/-! ### LOAD at once and LOAD cell by cell -/

theorem loadTable_ok {cmd : CmdWord} {s : State} (h0 : s.mem.tabCells = 0) (h : acceptsNext s.hostAnswers tableCells) :
    loadTable cmd s = .ok () { s with
      mem := { s.mem with tabCells := tableCells }, hostAnswers := s.hostAnswers.drop tableCells,
      requests := .assignTable tableCells :: s.requests } := by
  rw [loadTable, if_pos (beq_iff_eq.mpr h0), takeAnswers_accepts h]

/-- LOAD whose host refuses its `n`-th write (from 0). -/
theorem loadTable_refused {cmd : CmdWord} {s : State} {n : Nat} {as : List Bool} (h0 : s.mem.tabCells = 0)
    (hn : n < tableCells) (ha : s.hostAnswers = List.replicate n true ++ false :: as) :
    loadTable cmd s = .error .raised (faultEntry .assign cmd { s with
      mem := { s.mem with tabCells := n }, hostAnswers := as, requests := .assignTable (n + 1) :: s.requests }) := by
  rw [loadTable, if_pos (beq_iff_eq.mpr h0), ha, takeAnswers_refused as hn]
  rfl

/-- A run-length request and the requests it stands for are written out alike (log 10). -/
theorem expand_assignTable (cuts : TagCuts) (n : Nat) (rqs : List Request) :
    (Request.assignTable n :: rqs).flatMap (Request.expand cuts)
      = (((List.range n).map (tabRequest cuts)).reverse ++ rqs).flatMap (Request.expand cuts) := by
  rw [expand_tabRequests, List.flatMap_cons]

/-- Settles O60: the host accepts every write, or refuses one of them first. -/
theorem loadIsItsLoop : Obligations.LoadIsItsLoop := by
  intro s cmd h0
  rcases accepts_or_refused s.hostAnswers tableCells with h | ⟨n, hn, as, ha⟩
  · refine .inl ⟨_, _, loadTable_ok h0 h, loop_ok cmd s h0 tableCells h, ?_⟩
    simp only [State.expanded, expand_assignTable]
  · obtain ⟨k, hk⟩ := Nat.exists_eq_add_of_le (Nat.succ_le_of_lt hn)
    refine .inr ⟨_, _, loadTable_refused h0 hn ha, hk ▸ loop_refused cmd s h0 n as ha k, ?_⟩
    simp only [State.expanded, faultEntry, expand_assignTable]

/-! ### CONFIGURE -/

/-- What CONFIGURE and LOAD begin with, in sequence and with an empty `din`: both checks pass. -/
theorem checked_eq {i : Instr} {s : State} {m : M Unit} (h : sequenceOk i s = true) :
    (do checkSequence i; require ([] : List DinItem).isEmpty .operand (encode i); m) s = m s := by
  rw [bind_ok (checkSequence_ok h), bind_ok (require_ok _ List.isEmpty_nil)]

/-- What CONFIGURE does after its checks (41_table.md R130), its FIXED writes in one sequence. -/
def configureWork : M Unit := do
  seqAll (configRequests.map fun rq => request rq .shape (encode .configure))
  modify fun s => { s with config := some stdConfig }
  seqAll (fixedAll.map fun c => memWrite (encode .configure) true c (.known (romOf c)))
  modify fun s => { s with phase := .conf }
  setOutputs [] []

section
variable {s : State} {w : CmdWord} {rest : List Presented}

/-- CONFIGURE passes its checks in RESET with an empty `din`. -/
theorem exec_configure_eq (hp : s.phase = .reset) (hc : s.cmds = ⟨w, []⟩ :: rest) :
    exec .configure s = toOutcome configureWork { s with cmds := rest } := by
  have hseq : sequenceOk .configure { s with cmds := rest } = true := by simp [sequenceOk, hp]
  have happ : ∀ ms ns, seqAll (ms ++ ns) = (seqAll ms >>= fun _ => seqAll ns) :=
    fun ms ns => funext (seqAll_append ms ns)
  simp only [exec, execConfigure, runCommand, hc, toOutcome, configureWork, ← fixedWrites_eq, happ, bind_assoc]
  rw [checked_eq hseq]

end

theorem configRequests_length : configRequests.length = 13 := rfl

theorem fixedAll_length : fixedAll.length = 72 := rfl

/-- The FIXED cells among the first `m` CONFIGURE writes. -/
theorem mem_fixedAll_take {m : Nat} {c : CellName} :
    c ∈ fixedAll.take m ↔ (∃ i < 64, i < m ∧ c = .fixK i) ∨ ∃ i < 8, i + 64 < m ∧ c = .fixIv i := by
  simp only [fixedAll, List.take_append, ← List.map_take, List.take_range, List.length_map, List.length_range,
    List.mem_append, List.mem_map, List.mem_range, lt_min_iff, Nat.lt_sub_iff_add_lt, eq_comm (b := c), and_assoc,
    and_left_comm]

theorem mem_fixedAll {c : CellName} : c ∈ fixedAll ↔ (∃ i < 64, c = .fixK i) ∨ ∃ i < 8, c = .fixIv i := by
  simp only [fixedAll, List.mem_append, List.mem_map, List.mem_range, eq_comm (b := c)]

theorem not_mem_fixedAll {c : CellName} (hK : ∀ i < 64, c ≠ .fixK i) (hIv : ∀ i < 8, c ≠ .fixIv i) : c ∉ fixedAll := by
  intro h
  rcases mem_fixedAll.mp h with ⟨i, hi, rfl⟩ | ⟨i, hi, rfl⟩
  · exact hK i hi rfl
  · exact hIv i hi rfl

theorem fixedAll_requests :
    fixedAll.map fixedRequest
      = (List.range 64).map (fun i => Request.assign .k (.fixK i) (.known (kRom i)))
        ++ (List.range 8).map (fun i => Request.assign .k (.fixIv i) (.known (ivRom i))) := by
  simp [fixedAll, fixedRequest, romOf, Function.comp_def]

/-- A list of FIXED writes whose `m`-th (from 0) is the first the host refuses. -/
theorem seqAll_fixed_refused {cmd : CmdWord} {cs : List CellName} {s : State} {m : Nat} {as : List Bool}
    (hk : ∀ c ∈ cs, c.kind = .fixed) (hnd : cs.Nodup) (hc : ∀ c ∈ cs, s.cell c = none) (hm : m < cs.length)
    (ha : s.hostAnswers = List.replicate m true ++ false :: as) :
    ∃ t, seqAll (cs.map fun c => memWrite cmd true c (.known (romOf c))) s = .error .raised (faultEntry .assign cmd t) ∧
      t = { s with mem := t.mem, requests := ((cs.map fixedRequest).take (m + 1)).reverse ++ s.requests,
                   hostAnswers := as } ∧
      (∀ c ∈ cs.take m, t.cell c = some (.known (romOf c))) ∧ ∀ c, c ∉ cs.take m → t.cell c = s.cell c := by
  have hl : (cs.take m).length = m := List.length_take_of_le hm.le
  obtain ⟨hnd', -, hdisj⟩ := List.nodup_append.mp ((List.take_append_drop m cs).symm ▸ hnd)
  obtain ⟨t, ht, hframe, hwritten, hother⟩ := seqAll_fixed (cmd := cmd) (cs := cs.take m) (s := s)
    (fun c h => hk c (List.mem_of_mem_take h)) hnd' (fun c h => hc c (List.mem_of_mem_take h))
    (by rw [ha, hl]; exact acceptsNext_replicate _ _ le_rfl)
  have hfresh : t.cell cs[m] = none := by
    rw [hother _ fun h => hdisj _ h _ (List.mem_drop_iff_getElem.mpr ⟨0, by simpa using hm, by simp⟩) rfl]
    exact hc _ (List.getElem_mem hm)
  have hanswers : t.hostAnswers = false :: as := by rw [hframe, hl, ha]; simp
  have hrequests : fixedRequest cs[m] :: t.requests = ((cs.map fixedRequest).take (m + 1)).reverse ++ s.requests := by
    rw [hframe, ← List.map_take, List.take_succ_eq_append_getElem hm, List.map_append, List.reverse_append]
    rfl
  have hlast := memWrite_fixed_refused (cmd := cmd) (hk _ (List.getElem_mem hm)) hfresh hanswers
  refine ⟨{ t with requests := fixedRequest cs[m] :: t.requests, hostAnswers := as }, ?_, ?_, hwritten, hother⟩
  · conv_lhs => rw [take_getElem_drop cs m hm, List.map_append, seqAll_append]
    rw [bind_ok ht, List.map_cons, seqAll, bind_error hlast]
  · rw [hrequests, hframe]

/-- The state after CONFIGURE's 13 configuration requests, CONFIG written (41_table.md R130). -/
def State.afterRequests (s : State) : State :=
  { s with
    config := some stdConfig, requests := configRequests.reverse ++ s.requests, hostAnswers := s.hostAnswers.drop 13 }

section
variable {s : State}

/-- CONFIGURE's requests are all accepted: CONFIG is written and the FIXED cells come next. -/
theorem configureWork_of_requests (h : acceptsNext s.hostAnswers 13) :
    configureWork s = (do
      seqAll (fixedAll.map fun c => memWrite (encode .configure) true c (.known (romOf c)))
      modify fun s : State => { s with phase := .conf }
      setOutputs [] [] : M Unit) s.afterRequests := by
  rw [configureWork, bind_ok (seqAll_requests (configRequests_length ▸ h)), bind_ok (modify_ok _ _)]
  rfl

theorem configureWork_ok (ha : s.hostAccepts = true) (hc : ∀ c ∈ fixedAll, s.cell c = none) :
    ∃ t, configureWork s = .ok () t ∧
      t = { s with
        config := some stdConfig, phase := .conf, dout := [], hout := [], mem := t.mem,
        requests := (configRequests ++ fixedAll.map fixedRequest).reverse ++ s.requests,
        hostAnswers := t.hostAnswers } ∧
      (∀ c ∈ fixedAll, t.cell c = some (.known (romOf c))) ∧ ∀ c, c ∉ fixedAll → t.cell c = s.cell c := by
  obtain ⟨h13, hrest⟩ := acceptsNext_add (acceptsNext_of_all ha (13 + fixedAll.length))
  obtain ⟨t, ht, hframe, hwritten, hother⟩ := seqAll_fixed (cmd := encode .configure) fixedAll_kind fixedAll_nodup
    (s := s.afterRequests) hc hrest
  refine ⟨{ t with phase := .conf, dout := [], hout := [] }, ?_, ?_, hwritten, hother⟩
  · rw [configureWork_of_requests h13, bind_ok ht, bind_ok (modify_ok _ _)]
    rfl
  · rw [hframe]
    simp [State.afterRequests]

/-- CONFIGURE whose `n`-th configuration request (from 0) is refused. -/
theorem configureWork_request_refused {n : Nat} {as : List Bool} (hn : n < 13)
    (ha : s.hostAnswers = List.replicate n true ++ false :: as) :
    configureWork s = .error .raised (faultEntry .shape (encode .configure) { s with
      requests := (configRequests.take (n + 1)).reverse ++ s.requests, hostAnswers := as }) :=
  bind_error (seqAll_requests_refused (configRequests_length ▸ hn) ha)

/-- CONFIGURE whose `m`-th FIXED write (from 0) is refused. -/
theorem configureWork_fixed_refused {m : Nat} {as : List Bool} (hm : m < fixedAll.length)
    (ha : s.hostAnswers = List.replicate (13 + m) true ++ false :: as) (hc : ∀ c ∈ fixedAll, s.cell c = none) :
    ∃ t, configureWork s = .error .raised (faultEntry .assign (encode .configure) t) ∧
      t = { s with
        config := some stdConfig, mem := t.mem,
        requests := ((configRequests ++ fixedAll.map fixedRequest).take (13 + m + 1)).reverse ++ s.requests,
        hostAnswers := as } ∧
      (∀ c ∈ fixedAll.take m, t.cell c = some (.known (romOf c))) ∧ ∀ c, c ∉ fixedAll.take m → t.cell c = s.cell c := by
  have hdrop : s.hostAnswers.drop 13 = List.replicate m true ++ false :: as := by
    rw [ha, List.replicate_add, List.append_assoc]
    exact List.drop_left' List.length_replicate
  obtain ⟨t, ht, hframe, hwritten, hother⟩ := seqAll_fixed_refused (cmd := encode .configure) (as := as)
    (s := s.afterRequests) fixedAll_kind fixedAll_nodup hc hm hdrop
  refine ⟨t, ?_, ?_, hwritten, hother⟩
  · rw [configureWork_of_requests (ha ▸ acceptsNext_replicate _ _ (Nat.le_add_right 13 m)), bind_error ht]
  · have htake : (configRequests ++ fixedAll.map fixedRequest).take (13 + m + 1)
        = configRequests ++ (fixedAll.map fixedRequest).take (m + 1) := by
      rw [Nat.add_assoc, ← configRequests_length, List.take_length_add_append]
    rw [htake, hframe]
    simp [State.afterRequests]

end

/-- Settles O12: the ROM numbers, and CONFIGURE of a host that accepts. -/
theorem configureResult : Obligations.ConfigureResult := by
  refine ⟨rfl, rfl, fun s w rest hp hc ha hK hIv => ?_⟩
  obtain ⟨t, ht, hframe, hwritten, hother⟩ := configureWork_ok (s := { s with cmds := rest }) ha (fixedAll_none hK hIv)
  refine ⟨t, ?_, by rw [hframe], fun i hi => hwritten _ (mem_fixedAll.mpr (.inl ⟨i, hi, rfl⟩)),
    fun i hi => hwritten _ (mem_fixedAll.mpr (.inr ⟨i, hi, rfl⟩)),
    fun c hcK hcIv => hother c (not_mem_fixedAll hcK hcIv), ?_⟩
  · rw [exec_configure_eq hp hc, toOutcome_ok ht]
  · rw [hframe, fixedAll_requests, ← List.append_assoc]

/-- Settles O13: a configuration request is refused, or the FIXED write `n - 13`. -/
theorem configureRefused : Obligations.ConfigureRefused := by
  intro s w rest n as hp hc ha hK hIv
  rw [exec_configure_eq hp hc]
  refine ⟨fun hn => toOutcome_raised (configureWork_request_refused hn ha), fun h13 h85 => ?_⟩
  obtain ⟨m, rfl⟩ := Nat.exists_eq_add_of_le h13
  obtain ⟨t, ht, hframe, hwritten, hother⟩ := configureWork_fixed_refused (s := { s with cmds := rest }) (m := m)
    (by rw [fixedAll_length]; omega) ha (fixedAll_none hK hIv)
  rw [Nat.add_sub_cancel_left]
  refine ⟨_, toOutcome_raised ht, ?_, fun i hi => ?_, fun i hi => ?_,
    fun c hcK hcIv => hother c fun h => not_mem_fixedAll hcK hcIv (List.mem_of_mem_take h), ?_⟩
  · rw [hframe]
    rfl
  · split_ifs with him
    · exact hwritten _ (mem_fixedAll_take.mpr (.inl ⟨i, hi, him, rfl⟩))
    · exact (hother _ (by simp [mem_fixedAll_take, him])).trans (hK i hi)
  · split_ifs with him
    · exact hwritten _ (mem_fixedAll_take.mpr (.inr ⟨i, hi, him, rfl⟩))
    · exact (hother _ (by simp [mem_fixedAll_take, him])).trans (hIv i hi)
  · rw [hframe, fixedAll_requests, ← List.append_assoc]
    rfl

/-! ### LOAD -/

section
variable {s t : State} {w : CmdWord} {rest : List Presented}

/-- LOAD passes its checks in CONF with an empty `din`. -/
theorem exec_load_eq (hp : s.phase = .conf) (hc : s.cmds = ⟨w, []⟩ :: rest) :
    exec .load s = toOutcome (do
      loadTable (encode .load)
      modify fun s : State => { s with table := .loaded, phase := .ready }
      setOutputs [] []) { s with cmds := rest } := by
  have hseq : sequenceOk .load { s with cmds := rest } = true := by simp [sequenceOk, hp]
  simp only [exec, execLoad, runCommand, hc, toOutcome]
  rw [checked_eq hseq]

theorem exec_load_ok (hp : s.phase = .conf) (hc : s.cmds = ⟨w, []⟩ :: rest)
    (h : loadTable (encode .load) { s with cmds := rest } = .ok () t) :
    exec .load s = .next { t with table := .loaded, phase := .ready, dout := [], hout := [] } := by
  rw [exec_load_eq hp hc]
  exact toOutcome_ok (bind_ok h)

theorem exec_load_raised (hp : s.phase = .conf) (hc : s.cmds = ⟨w, []⟩ :: rest)
    (h : loadTable (encode .load) { s with cmds := rest } = .error .raised t) : exec .load s = .next t := by
  rw [exec_load_eq hp hc]
  exact toOutcome_raised (bind_error h)

end

/-- The count of TABLE cells says nothing of the other cells. -/
theorem get_of_tabCells {m : Memory} {cuts : TagCuts} {n : Nat} {c : CellName} (hc : c.kind ≠ .table) :
    ({ m with tabCells := n } : Memory).get cuts c = m.get cuts c := by
  cases c with
  | tab col v => exact absurd rfl hc
  | fixK t => rfl
  | fixIv i => rfl
  | adv p => rfl

/-- A TABLE cell of the table's rows when `n` cells are counted. -/
theorem get_tab_of_lt {m : Memory} {cuts : TagCuts} {n v : Nat} (col : TabCol) (hv : v < 2 ^ 16) :
    ({ m with tabCells := n } : Memory).get cuts (.tab col v)
      = if tabIndex col v < n then some (.known (tableVal cuts col v)) else none := by
  simp only [get_tab, hv, true_and]

/-- All TABLE cells of the table's rows are among the first 3 * 2^16. -/
theorem tabIndex_lt {col : TabCol} {v : Nat} (hv : v < 2 ^ 16) : tabIndex col v < tableCells := by
  unfold tableCells
  cases col <;> simp only [tabIndex] <;> omega

/-- A loaded store has the cell of every row of the table (41_table.md R134). -/
theorem get_tab_loaded {m : Memory} {cuts : TagCuts} {v : Nat} (col : TabCol) (hv : v < 2 ^ 16) :
    ({ m with tabCells := tableCells } : Memory).get cuts (.tab col v) = some (.known (tableVal cuts col v)) := by
  rw [get_tab_of_lt col hv, if_pos (tabIndex_lt hv)]

/-- There is no TABLE cell past the last row. -/
theorem get_tab_past {m : Memory} {cuts : TagCuts} {col : TabCol} {v : Nat} (hv : 2 ^ 16 ≤ v) :
    m.get cuts (.tab col v) = none := by
  rw [get_tab, if_neg fun h => hv.not_gt h.1]

/-- Settles O14: LOAD of a host that accepts, from a state that counts no TABLE cell. -/
theorem loadResult : Obligations.LoadResult := by
  intro s w rest hp hc ha htab
  have hload := loadTable_ok (cmd := encode .load) (s := { s with cmds := rest }) (tabCells_zero htab)
    (acceptsNext_of_all ha _)
  refine ⟨_, exec_load_ok hp hc hload, rfl, fun v hv => ⟨get_tab_loaded .tag hv, get_tab_loaded .dense hv,
    get_tab_loaded .spread hv⟩, fun col v hv => get_tab_past hv, fun v => rfl, fun c hk => get_of_tabCells hk⟩

/-- Settles O15: LOAD whose host refuses its `n`-th write, which leaves `n` TABLE cells. -/
theorem loadRefused : Obligations.LoadRefused := by
  intro s w rest n as hp hc ha hn htab
  have hload := loadTable_refused (cmd := encode .load) (s := { s with cmds := rest }) (tabCells_zero htab) hn ha
  exact ⟨_, exec_load_raised hp hc hload, rfl, fun v hv => ⟨get_tab_of_lt .tag hv, get_tab_of_lt .dense hv,
    get_tab_of_lt .spread hv⟩, fun c hk => get_of_tabCells hk⟩

/-! ### LOOKUP and RANGE -/

/-- Settles O20: LOOKUP below the path of the block the two new cells are in. -/
theorem lookupResult : Obligations.LookupResult := by
  rintro s w rest e d t sp b lt ls n - hq ⟨hb, ha⟩ hd - rfl rfl hne ht hs
  have below : ∀ l : List Seg, (CellName.adv ⟨b, l⟩).isBelow ⟨b, []⟩ = true := fun l => isBelow_iff.mpr ⟨l, rfl⟩
  obtain ⟨u, hu, x, hunsat, htag, hspread, -⟩ := opLookup_ok (e := e) (s := { s with q := rest }) hb ha hd ht hs
    (below lt) (below ls) hne
  rw [Nat.cast_pow, Nat.cast_ofNat] at hunsat htag hspread
  refine ⟨u, ?_, x.performed hunsat, htag, hspread⟩
  rw [exec]
  exact runEntry_ok hq hu

/-- Settles O21: RANGE, whose one or two queries bound the cell by `2^k`. -/
theorem rangeResult : Obligations.RangeResult := by
  rintro s w rest k d p n - hk hq ⟨hb, ha⟩ hd hn hf
  obtain ⟨u, hu, x, hunsat, -, hspread⟩ := opRange_ok (s := { s with q := rest }) hb ha hd hn (fresh_of hf) hk
  refine ⟨u, ?_, x.performed hunsat, hspread⟩
  rw [exec]
  exact runEntry_ok hq hu

/-! ### What the instances prove -/

/-- A range-proved bundle's spread terms make the spread of its word (42_gates.md R151, R153). -/
theorem IsWord.termsValue_spr {val : CellName → Nat} {h : Path} {x : Nat} (hw : IsWord val h x) :
    termsValue val (spr h) = (spread32 x : Int) := by
  rw [← hw.spread]
  simp [termsValue, spr]

/-- Settles O54: the instances of a word bundle, and those of a RANGE. -/
theorem rangeProofs : Obligations.RangeProofs := by
  intro cuts rd val hrd hp
  refine ⟨fun h hs => ?_, fun w d p _ hw hs => range_sound hp hw (sat_of_reader hrd hs)⟩
  obtain ⟨hword, hlo, hhi, hsum⟩ := word_sound hp (sat_of_reader hrd hs)
  exact ⟨hlo, hhi, hsum, hword.lt, hword.termsValue_spr⟩

end Sys2Proof.Machine
end

section
/-!
PROOFS. The gate library (42_gates.md): RECOMB, CARRY, COPY, WORD, DECOMP, EXTRACT and MODADD as the head of Q, the words
EXTRACT reads out of a sum of spreads, and what the instances of MODADD and EXTRACT prove. What each operation does when it
succeeds is Laws/Gates.lean, Laws/Splits.lean and Laws/Functions.lean, what satisfied instances say is Laws/Sound.lean.
-/

namespace Sys2Proof.Machine

open Sys2Proof

/-! ### Soundness of MODADD and EXTRACT -/

/-- Settles O55: a sum of spreads has one even and one odd word, and MODADD's inputs are words by their own instances. -/
theorem gatesSound : Obligations.GatesSound := by
  refine ⟨fun S hS => ⟨even32_lt S, odd32_lt S, (spread32_even_odd hS).symm, ?_⟩, fun cuts rd val hrd hp => ⟨?_, ?_⟩⟩
  · intro E O hE hO hsum
    rw [hsum]
    exact spread_unique hE hO
  · intro ys K p hn hK hwords hs
    have hlt : ∀ y ∈ ys, val (y.cell .d) < 2 ^ 32 := fun y hy =>
      (word_sound hp (sat_of_reader hrd (hwords y hy))).1.lt
    obtain ⟨hr, hc⟩ := modadd_sound hp hn hK hlt (sat_of_reader hrd hs)
    exact ⟨hr.d, hc⟩
  · intro ops p S hv hS hs
    obtain ⟨he, ho⟩ := extract_sound hp hv hS (sat_of_reader hrd hs)
    exact ⟨he.d, ho.d⟩

/-! ### RECOMB and CARRY -/

/-- Equality in the field is equality of residues mod p (00_scope.md R15). -/
theorem red_inj_iff_emod (x y : Int) : red x = red y ↔ x % (Config.fieldP : Int) = y % Config.fieldP := by
  rw [← red_eq_emod, ← red_eq_emod, Nat.cast_inj]

/-- Settles O22: RECOMB writes no cell, and its predicate compares residues. -/
theorem recombResult : Obligations.RecombResult := by
  rintro s w rest d lo hi x y z hq ⟨hb, ha⟩ hd hlo hhi
  obtain ⟨u, hu, ext, hunsat, -⟩ := opRecomb_ok (s := { s with q := rest }) ⟨0, []⟩ hb ha hd hlo hhi
  simp only [ne_eq, red_inj_iff_emod] at hunsat
  exact ⟨u, by rw [exec]; exact runEntry_ok hq hu, ext.performed hunsat⟩

/-- Settles O23: CARRY writes no cell, and its product vanishes at 0..m only. -/
theorem carryResult : Obligations.CarryResult := by
  rintro s w rest m c x - hq ⟨hb, ha⟩ hc hx
  obtain ⟨u, hu, ext, hunsat, -⟩ := opCarry_ok (m := m) (s := { s with q := rest }) ⟨0, []⟩ hb ha hc hx
  exact ⟨u, by rw [exec]; exact runEntry_ok hq hu, ext.performed hunsat⟩

/-! ### COPY -/

/-- COPY of a TABLE cell ends at the check of kinds (42_gates.md R176). -/
theorem opCopy_table {a b : CellName} (s : State) (h : a.kind = .table ∨ b.kind = .table) :
    opCopy a b s = .error .raised (faultEntry .shape (encode .copy) s) := by
  refine bind_error (require_fails s ?_)
  rcases h with h | h <;> simp [h]

/-- COPY of cells with an equality is the request and then the instance (42_gates.md R176; log 14). -/
theorem opCopy_no_table {a b : CellName} (s : State) (hka : a.kind ≠ .table) (hkb : b.kind ≠ .table) :
    opCopy a b s = (do
      request (.copyEqual a b) .assign (encode .copy)
      record (encode .copy) (.copy a b)) s :=
  bind_ok (require_ok s (by simp [hka, hkb]))

/-- COPY when the host refuses its request (20_memory.md R67). -/
theorem opCopy_refused {a b : CellName} {s : State} {as : List Bool} (hka : a.kind ≠ .table) (hkb : b.kind ≠ .table)
    (has : s.hostAnswers = false :: as) :
    opCopy a b s = .error .raised (faultEntry .assign (encode .copy)
      { s with requests := .copyEqual a b :: s.requests, hostAnswers := as }) := by
  rw [opCopy_no_table s hka hkb]
  exact bind_error (request_refused has)

/-- COPY of a missing cell: the request has been sent when the instance finds it missing (log 14). -/
theorem opCopy_missing {a b : CellName} {s : State} (hka : a.kind ≠ .table) (hkb : b.kind ≠ .table)
    (has : s.hostAnswers.head? ≠ some false) (h : s.has a = false ∨ s.has b = false) :
    opCopy a b s = .error .raised (faultEntry .unassigned (encode .copy)
      { s with requests := .copyEqual a b :: s.requests, hostAnswers := s.hostAnswers.tail }) := by
  rw [opCopy_no_table s hka hkb, bind_ok (request_accepted has)]
  rcases h with h | h
  all_goals exact record_raised (by simp [Constraint.cells]) h

/-- Settles O24: COPY of two cells that exist, of a TABLE cell, when the host refuses, and of a missing cell. -/
theorem copyResult : Obligations.CopyResult := by
  intro s w rest a b hq
  have hexec : exec .copy s = toOutcome (opCopy a b) { s with q := rest } := by
    rw [exec, execCopy, runEntry, hq]
  rw [hexec]
  refine ⟨?_, fun hk => toOutcome_raised (opCopy_table _ hk),
    fun as hka hkb has => toOutcome_raised (opCopy_refused hka hkb has),
    fun hka hkb has hmissing => toOutcome_raised (opCopy_missing hka hkb has hmissing)⟩
  rintro x y hka hkb ⟨hb, ha⟩ hx hy hxp hyp
  obtain ⟨u, hu, ext, hunsat, -, hreq⟩ := opCopy_ok (s := { s with q := rest }) ⟨0, []⟩ hb ha hka hkb hx hy hxp hyp
  exact ⟨u, toOutcome_ok hu, ext.performed hunsat, hreq⟩

/-! ### WORD and DECOMP -/

/-- Settles O25: WORD below a fresh prefix. -/
theorem wordResult : Obligations.WordResult := by
  rintro s w rest p v n hq ⟨hb, ha⟩ hv hn hf
  obtain ⟨u, hu, ext, hunsat, hword⟩ := opWord_ok (s := { s with q := rest }) hb ha hv hn (fresh_of hf)
  exact ⟨u, by rw [exec]; exact runEntry_ok hq hu, ext.performed hunsat, hword⟩

/-- The cells of piece `k` of a list of pieces that starts at piece `i`. -/
theorem State.HoldsPieces.at_index {s : State} {p : Path} {x : Nat} {wo : Nat × Nat} :
    ∀ {l : List (Nat × Nat)} {i k : Nat}, s.HoldsPieces p x i l → l[k]? = some wo →
      s.cell (p.cell (.pIx (i + k))) = some (s.seen (pieceNat x wo)) ∧
      s.cell (pieceSpread p (i + k)) = some (s.seen (spread16 (pieceNat x wo)))
  | [], _, _, _, hk => by simp at hk
  | wo' :: rest, i, 0, ⟨hpiece, hspread, _⟩, hk => by
    obtain rfl : wo' = wo := by simpa using hk
    exact ⟨hpiece, hspread⟩
  | wo' :: rest, i, k + 1, ⟨_, _, hrest⟩, hk => by
    rw [show i + (k + 1) = i + 1 + k by omega]
    exact hrest.at_index (by simpa using hk)

theorem decompCells_length (l : Layout) (p : Path) : (decompCells l p).length = 20 := by cases l <;> rfl

theorem decompCons_length (l : Layout) (x p : Path) : (decompCons l x p).length = 9 := by cases l <;> rfl

/-- Settles O26: DECOMP below a fresh prefix, each piece read off the split. -/
theorem decompResult : Obligations.DecompResult := by
  rintro s w rest l x p n hq ⟨hb, ha⟩ hx hn hf
  obtain ⟨u, hu, ext, hunsat, hpieces⟩ := opDecomp_ok (l := l) (s := { s with q := rest }) hb ha hx hn (fresh_of hf)
  refine ⟨u, by rw [exec]; exact runEntry_ok hq hu, ext.performed hunsat, decompCells_length l p,
    decompCons_length l x p, ?_⟩
  intro i width offset hi
  have h := hpieces.at_index hi
  rw [Nat.zero_add, ext.seen, ext.seen] at h
  exact h

/-! ### EXTRACT -/

/-- `S` and `S mod 4^32` differ by a multiple of `2^64`, which p divides only when it is 0 (42_gates.md R164). -/
theorem red_eq_spreadSumMod_iff {S : Int} (hlo : -2 ^ 66 < S) (hhi : S < 2 ^ 66) :
    red S = spreadSumMod S ↔ 0 ≤ S ∧ S < 4 ^ 32 := by
  have hp := Config.fieldP_gt
  have hmod : (spreadSumMod S : Int) = S % 4 ^ 32 := Int.toNat_of_nonneg (Int.emod_nonneg S (by norm_num))
  have hdiff : S - spreadSumMod S = 2 ^ 64 * (S / 4 ^ 32) := by omega
  have hred : red (spreadSumMod S : Int) = spreadSumMod S :=
    red_of_lt (lt_fieldP_of_lt ((spreadSumMod_lt S).trans (by norm_num)))
  have hquot : |S / 4 ^ 32| < (Config.fieldP : Int) := by rw [abs_lt]; omega
  rw [← hred, red_eq_iff, hdiff]
  constructor
  · intro hdvd
    have := dvd_pow_two_mul hquot hdvd
    omega
  · intro h
    rw [Int.ediv_eq_zero_of_lt h.1 h.2, mul_zero]
    exact dvd_zero _

/-- Settles O27: EXTRACT below a fresh prefix, and its verdict for a sum below 2^66. -/
theorem extractResult : Obligations.ExtractResult := by
  refine ⟨?_, fun S hlo hhi => ?_⟩
  · rintro s w rest k ops p f - - hl hq ⟨hb, ha⟩ hreads hf
    have hfresh := fresh_of hf
    obtain ⟨u, hu, ext, hunsat, heven, hodd⟩ := opExtract_ok (s := { s with q := rest }) hb ha hl hreads
      (hfresh.sub .e) (hfresh.sub .o)
    exact ⟨u, by rw [exec]; exact runEntry_ok hq hu, ext.performed hunsat, rfl, rfl, heven, hodd⟩
  · rw [Ne, red_eq_spreadSumMod_iff hlo hhi]
    omega

/-- Settles O28: the even and odd bits of a sum of spreads, column by column. -/
theorem extractComponents : Obligations.ExtractComponents := by
  intro a b c
  simp only [spread32_eq, even32, odd32, majWord, BitVec.toNat_xor, BitVec.toNat_and]
  exact ⟨evenBits_spread2 a.isLt b.isLt, oddBits_spread2 a.isLt b.isLt, evenBits_spread3 32 _ _ _ a.isLt b.isLt c.isLt,
    oddBits_spread3 32 _ _ _ a.isLt b.isLt c.isLt⟩

/-! ### MODADD -/

/-- Settles O29: MODADD below a fresh prefix, its carry bounded by the number of addends. -/
theorem modaddResult : Obligations.ModaddResult := by
  rintro s w rest n K ys p g - hn rfl hK hq ⟨hb, ha⟩ hy hf
  obtain ⟨u, hu, ext, hunsat, hword, hcarry⟩ := opModadd_ok (s := { s with q := rest }) hb ha rfl hn hK
    (fun y h => (hy y h).1) (fun _ y h => (hy y h).2) (fresh_of hf)
  rw [ext.seen] at hcarry
  exact ⟨u, by rw [exec]; exact runEntry_ok hq hu, ext.performed hunsat, rfl, rfl, hword, hcarry, carry_le (wordSum_bounds ys) hK⟩

end Sys2Proof.Machine
end

section
/-!
PROOFS. The function operations (43_functions.md R180 to R188) as the head of Q: σ0, σ1, Σ0, Σ1, CH and MAJ, and the sum of
CH's two parts. What each operation does when it succeeds is Laws/Functions.lean.
The model has paths named `sigmaResult` and `majResult`; the theorems about those operations end in `_holds`.
-/

namespace Sys2Proof.Machine

open Sys2Proof

/-! ### σ and Σ -/

/-- A σ or Σ operation at the head of Q is R185's split and extraction with its layout. -/
theorem exec_sigma_ok {s u : State} {w : CmdWord} {rest : List QEntry} {i : Instr} {l : Layout} {x p : Path}
    (hi : (i = .ssig0 ∧ l = .ssig0) ∨ (i = .ssig1 ∧ l = .ssig1) ∨ (i = .bsig0 ∧ l = .bsig0) ∨ (i = .bsig1 ∧ l = .bsig1))
    (hq : s.q = ⟨w, .sigma x p⟩ :: rest) (hu : opRotations l x p { s with q := rest } = .ok () u) :
    exec i s = .next u := by
  rcases hi with ⟨rfl, rfl⟩ | ⟨rfl, rfl⟩ | ⟨rfl, rfl⟩ | ⟨rfl, rfl⟩
  all_goals
    rw [exec]
    exact runEntry_ok hq hu

/-- A split's 20 cells and the 14 of an extraction. -/
theorem sigmaCells_length (l : Layout) (p : Path) : (sigmaCells l p).length = 34 := by
  rw [sigmaCells, List.length_append, decompCells_length]
  rfl

/-- A split's 9 instances and the 7 of an extraction. -/
theorem sigmaCons_length (l : Layout) (x p : Path) : (sigmaCons l x p).length = 16 := by
  rw [sigmaCons, List.length_append, decompCons_length]
  rfl

/-- Settles O30: the split and the extraction of its three terms, below a fresh path. -/
theorem sigmaResult_holds : Obligations.SigmaResult := by
  rintro s w rest i l x p n hi hq ⟨hb, ha⟩ hx hn hf
  obtain ⟨u, hu, ext, hunsat, hword⟩ := opRotations_ok (l := l) (s := { s with q := rest }) hb ha hx hn (fresh_of hf)
  exact ⟨u, exec_sigma_ok hi hq hu, ext.performed hunsat, sigmaCells_length l p, sigmaCons_length l x p, hword⟩

/-! ### CH -/

/-- The two parts of Ch share no bit: one is inside `e`, the other outside (43_functions.md R188). -/
theorem chWord_parts_disjoint (e f g : Word32) : (e &&& f) &&& (~~~e &&& g) = 0 := by
  ext i
  cases h : e[i] <;> simp [h]

/-- Words that share no bit add up without a carry, to their exclusive or (43_functions.md R188). -/
theorem toNat_add_toNat_of_disjoint {x y : Word32} (h : x &&& y = 0) : x.toNat + y.toNat = (x ^^^ y).toNat := by
  have hor : x ||| y = x ^^^ y := by
    ext i
    have hand : (x[i] && y[i]) = false := by simp [← BitVec.getElem_and, h]
    rw [BitVec.getElem_or, BitVec.getElem_xor]
    revert hand
    cases x[i] <;> simp
  rw [← BitVec.toNat_add_of_and_eq_zero h, BitVec.add_eq_or_of_and_eq_zero x y h, hor]

/-- Settles O31: the two extractions below a fresh path, and the sum of their disjoint words. -/
theorem chResult : Obligations.ChResult := by
  refine ⟨?_, fun e f g => ⟨chWord_parts_disjoint e f g, toNat_add_toNat_of_disjoint (chWord_parts_disjoint e f g)⟩⟩
  rintro s w rest e f g p ne nf ng hq ⟨hb, ha⟩ he hf hg hp
  obtain ⟨u, hu, ext, hunsat, hwordP, hwordQ⟩ := opCh_ok (s := { s with q := rest }) hb ha he hf hg (fresh_of hp)
  exact ⟨u, by rw [exec]; exact runEntry_ok hq hu, ext.performed (hunsat.trans (unsatIf_false _).symm), rfl, rfl, hwordP, hwordQ⟩

/-! ### MAJ -/

/-- Settles O32: the extraction of three words below a fresh path. -/
theorem majResult_holds : Obligations.MajResult := by
  rintro s w rest a b c p na nb nc hq ⟨hboot, hacc⟩ ha hb hc hp
  obtain ⟨u, hu, ext, hunsat, hword⟩ := opMaj_ok (s := { s with q := rest }) hboot hacc ha hb hc (fresh_of hp)
  exact ⟨u, by rw [exec]; exact runEntry_ok hq hu, ext.performed (hunsat.trans (unsatIf_false _).symm), rfl, rfl, hword⟩

end Sys2Proof.Machine
end

section
/-!
PROOFS. The message schedule (44_schedule.md) and what a block proves: SCHED_IN and SCHED as the head of Q, and the schedule
and the compression in every assignment that satisfies a block's instances. What the operations do when they succeed is
Laws/Rounds.lean, what the instances of one word, of one round and of the schedule say is Laws/Sound.lean and
Laws/Blocks.lean.
-/

namespace Sys2Proof.Machine

open Sys2Proof

/-! ### SCHED_IN and SCHED -/

/-- A run of gate operations, then a write of the schedule handles. -/
theorem Ext.performed_withW {s t : State} {p : Path} {cs : List CellName} {ks : List Constraint} {bad : Bool}
    (h : Ext s t p cs ks) (hu : t.unsat = s.unsatIf bad) (f : Vector (Option Path) 64) :
    Performed { s with w := f } { t with w := f } cs ks bad :=
  ⟨congrArg (fun u : State => { u with w := f }) h.frame, ⟨h.only, h.mono, h.count⟩, h.log, hu⟩

theorem exec_schedIn_ok {s u : State} {w : CmdWord} {rest : List QEntry} {t : Nat} {v : Val}
    (hq : s.q = ⟨w, .value v⟩ :: rest) (hu : opSchedIn t v { s with q := rest } = .ok () u) :
    exec (.schedIn t) s = .next u := by
  rw [exec]
  exact runEntry_ok hq hu

theorem exec_sched_ok {s u : State} {e : QEntry} {rest : List QEntry} {t : Nat} (hq : s.q = e :: rest)
    (hu : opSched t { s with q := rest } = .ok () u) : exec (.sched t) s = .next u := by
  rw [exec]
  exact runEntry_ok hq hu

/-- Settles O33: WORD below the path of the schedule word, then its handle. -/
theorem schedInResult : Obligations.SchedInResult := by
  rintro s w rest t v n - hq ⟨hb, ha⟩ hv hn hf
  obtain ⟨u, hu, ext, hunsat, hword⟩ := opSchedIn_ok (s := { s with q := rest }) (t := t) hb ha hv hn (fresh_of hf)
  exact ⟨_, exec_schedIn_ok hq hu, ext.performed_withW hunsat _,
    congrArg (·.setIfInBounds t (some (wordPath s.blk t))) ext.w_eq, hword⟩

/-- Two σ operations of 34 cells and a MODADD of 8. -/
theorem schedCells_length (p : Path) : (schedCells p).length = 76 := by
  rw [schedCells, List.length_append, List.length_append, sigmaCells_length, sigmaCells_length]
  rfl

/-- Two σ operations of 16 instances and a MODADD of 5. -/
theorem schedCons_length (w2 w7 w15 w16 p : Path) : (schedCons w2 w7 w15 w16 p).length = 37 := by
  rw [schedCons, List.length_append, List.length_append, sigmaCons_length, sigmaCons_length]
  rfl

/-- Settles O34: σ1, σ0 and the sum of four words below the path of the schedule word, then its handle. -/
theorem schedResult : Obligations.SchedResult := by
  rintro s w r rest t p w2 w7 w15 w16 n2 n7 n15 n16 - - rfl hq ⟨hb, ha⟩ h2 h7 h15 h16 r2 r7 r15 r16 l2 l7 l15 l16 hf
  obtain ⟨u, hu, ext, hunsat, hword⟩ := opSched_ok (s := { s with q := rest }) (t := t)
    (i := ⟨w2, w7, w15, w16, n2, n7, n15, n16⟩) hb ha h2 h7 h15 h16 r2 r7 r15 r16 l2 l7 l15 l16 (fresh_of hf)
  exact ⟨_, exec_sched_ok hq hu, ext.performed_withW hunsat _, schedCells_length _, schedCons_length ..,
    congrArg (·.setIfInBounds t (some (((wordPath s.blk t).sub .add).sub .r))) ext.w_eq, hword⟩

/-! ### Words read off an assignment -/

/-- The word value of a bundle's dense cell (00_scope.md R17). -/
def heldWord (val : CellName → Nat) (h : Path) : Word32 := BitVec.ofNat 32 (val (h.cell .d))

/-- The word values of the eight handles. -/
def Handles.held (val : CellName → Nat) (H : Handles) : ShaState :=
  ⟨heldWord val H.a, heldWord val H.b, heldWord val H.c, heldWord val H.d, heldWord val H.e, heldWord val H.f,
    heldWord val H.g, heldWord val H.h⟩

theorem Handles.held_words (val : CellName → Nat) (H : Handles) : (H.held val).words = H.toList.map (heldWord val) := rfl

theorem initHandles_toList (b : Nat) : (initHandles b).toList = (List.range 8).map (ivPath b) := rfl

/-- Numbers from index 0 on that are the words of a list. -/
theorem map_range_eq_map_toNat {f : Nat → Nat} {ws : List Word32} {n : Nat} (hl : ws.length = n)
    (h : ∀ i < n, f i = (ws.getD i 0).toNat) : (List.range n).map f = ws.map (·.toNat) := by
  refine List.ext_getElem (by simp [hl]) fun i hi _ => ?_
  have hin : i < n := by simpa using hi
  simp [h i hin, List.getD_eq_getElem?_getD, hl ▸ hin]

/-! ### The instances of a block, part by part -/

section
variable {cuts : TagCuts} {val : CellName → Nat} {b : Nat}

theorem sat_of_flatMap_range {n : Nat} {f : Nat → List Constraint} (hs : Sat cuts val ((List.range n).flatMap f)) :
    ∀ i < n, Sat cuts val (f i) :=
  fun i hi => sat_of_flatMap hs i (List.mem_range.mpr hi)

/-- An initial word is range-proved, whatever its source. -/
theorem wordCons_of_initWordCons {h g : Path} {i : Nat} {src : WordSource}
    (hs : Sat cuts val (initWordCons h i g src)) : Sat cuts val (wordCons h) := by
  cases src with
  | iv => exact (sat_append.mp hs).1
  | data => exact hs
  | digest => exact (sat_append.mp hs).1

/-- The 16 input words are range-proved. -/
theorem wordCons_of_scheduleCons (hs : Sat cuts val (scheduleCons b)) :
    ∀ t < 16, Sat cuts val (wordCons (wordPath b t)) :=
  sat_of_flatMap_range (sat_append.mp hs).1

/-- A block's instances: the initial words', the schedule's, the rounds' and the digest words'. -/
theorem sat_of_blockCons {src : WordSource} {g : Nat → Path} (hs : Sat cuts val (blockCons b src g)) :
    (∀ i < 8, Sat cuts val (wordCons (ivPath b i))) ∧ Sat cuts val (scheduleCons b) ∧
    (∀ t < 64, Sat cuts val (roundCons t (stateHandles b t) (wordHandle b t) (roundPath b t))) ∧
    ∀ i < 8, Sat cuts val
      (modaddCons [(stateHandles b 64).toList.getD i (ivPath b i), ivPath b i] 0 (digestPath b i)) := by
  simp only [blockCons, sat_append] at hs
  obtain ⟨⟨⟨hinit, hsched⟩, hrounds⟩, hdigest⟩ := hs
  exact ⟨fun i hi => wordCons_of_initWordCons (sat_of_flatMap_range hinit i hi), hsched, sat_of_flatMap_range hrounds,
    sat_of_flatMap_range hdigest⟩

end

/-! ### What they say of the words -/

section
variable {cuts : TagCuts} {val : CellName → Nat} {b : Nat} (hp : ∀ c, val c < Config.fieldP)
include hp

/-- The dense cells of range-proved bundles are the words read off them. -/
theorem map_heldWord {h : Nat → Path} {n : Nat} (hs : ∀ i < n, Sat cuts val (wordCons (h i))) :
    ((List.range n).map fun i => heldWord val (h i)).map (·.toNat) = (List.range n).map fun i => val ((h i).cell .d) := by
  rw [List.map_map]
  exact List.map_congr_left fun i hi => (isWord_of_cons hp (hs i (List.mem_range.mp hi))).d.symm

/-- The instances of the schedule hold its 64 words (44_schedule.md R205). -/
theorem schedule_values (hs : Sat cuts val (scheduleCons b)) {block : List Word32}
    (hB : block = (List.range 16).map fun t => heldWord val (wordPath b t)) :
    (List.range 64).map (fun t => val ((wordHandle b t).cell .d)) = (schedule block).map (·.toNat) :=
  map_range_eq_map_toNat (schedule_length (by simp [hB])) fun t ht => ((schedule_sound hp hs hB).2 t ht).d

/-- The initial words' instances hold, whatever their source. -/
theorem holdsSha_initHandles (hs : ∀ i < 8, Sat cuts val (wordCons (ivPath b i))) :
    HoldsSha val (initHandles b) ((initHandles b).held val) :=
  have hw : ∀ i < 8, IsWord32 val (ivPath b i) (heldWord val (ivPath b i)) := fun i hi => isWord_of_cons hp (hs i hi)
  ⟨hw 0 (by decide), hw 1 (by decide), hw 2 (by decide), hw 3 (by decide), hw 4 (by decide), hw 5 (by decide),
    hw 6 (by decide), hw 7 (by decide)⟩

/-- The instances of the first `n` rounds give the state after them (45_compression.md R215, R216). -/
theorem rounds_sound {S : ShaState} {ws : List Word32} (hS : HoldsSha val (initHandles b) S)
    (hw : ∀ t < 64, IsWord32 val (wordHandle b t) (ws.getD t 0))
    (hs : ∀ t < 64, Sat cuts val (roundCons t (stateHandles b t) (wordHandle b t) (roundPath b t))) :
    ∀ n ≤ 64, HoldsSha val (stateHandles b n) (shaRounds ws n S)
  | 0, _ => hS
  | n + 1, hn =>
    have ⟨_, _, _, hnext⟩ := round_sound hp (rounds_sound hS hw hs n (by omega)) (hw n hn) (hs n hn)
    hnext

/-- The instances of a digest word give the sum of the two words it adds (46_facade.md R239). -/
theorem digestWord_sound {x y p : Path} {a b : Word32} (hx : IsWord32 val x a) (hy : IsWord32 val y b)
    (hs : Sat cuts val (modaddCons [x, y] 0 p)) : IsWord32 val (p.sub .r) (a + b) := by
  have h := add_sound hp (by simp) (by norm_num) (.cons hx (.cons hy .nil)) hs
  simpa using h

end

theorem HoldsSha.getD {val : CellName → Nat} {H : Handles} {x : ShaState} (h : HoldsSha val H x) {i : Nat} (hi : i < 8)
    (d : Path) : IsWord32 val (H.toList.getD i d) (x.words.getD i 0) := by
  interval_cases i
  · exact h.a
  · exact h.b
  · exact h.c
  · exact h.d
  · exact h.e
  · exact h.f
  · exact h.g
  · exact h.h

theorem shaCompress_length (S : ShaState) (block : List Word32) : (shaCompress S block).length = 8 := rfl

/-- A word of the compression is the sum of the initial and the last word (46_facade.md R239). -/
theorem shaCompress_getD (S : ShaState) (block : List Word32) {i : Nat} (hi : i < 8) :
    (shaCompress S block).getD i 0 = (shaRounds (schedule block) 64 S).words.getD i 0 + S.words.getD i 0 := by
  have hlen (T : ShaState) : i < T.words.length := hi
  simp [shaCompress, List.getD_eq_getElem?_getD, hlen, BitVec.add_comm]

/-- The instances of a block hold the compression of its input words from its initial words (the converse of
46_facade.md R234). -/
theorem digest_sound {cuts : TagCuts} {val : CellName → Nat} (hp : ∀ c, val c < Config.fieldP) {b : Nat}
    {src : WordSource} {g : Nat → Path} (hs : Sat cuts val (blockCons b src g)) {block : List Word32}
    (hB : block = (List.range 16).map fun t => heldWord val (wordPath b t)) :
    ∀ i < 8, IsWord32 val (digestHandle b i) ((shaCompress ((initHandles b).held val) block).getD i 0) := by
  obtain ⟨hinit, hsched, hrounds, hdigest⟩ := sat_of_blockCons hs
  have hfirst := holdsSha_initHandles hp hinit
  have hlast := rounds_sound hp hfirst (schedule_sound hp hsched hB).2 hrounds 64 le_rfl
  intro i hi
  have hiv : IsWord32 val (ivPath b i) (((initHandles b).held val).words.getD i 0) := by
    have h := hfirst.getD hi (ivPath b i)
    simpa [initHandles_toList, List.getD_eq_getElem?_getD, hi] using h
  rw [shaCompress_getD _ block hi]
  exact digestWord_sound hp (hlast.getD hi (ivPath b i)) hiv (hdigest i hi)

/-- Settles O58: the words are read off the dense cells of the bundles that the instances range-prove. -/
theorem hashSound : Obligations.HashSound := by
  intro cuts rd val hrd hp b src g
  refine ⟨fun hs => ?_, fun hs => ?_⟩
  · have hsched := sat_of_reader hrd hs
    exact ⟨_, map_heldWord hp (wordCons_of_scheduleCons hsched), schedule_values hp hsched rfl⟩
  · have hblock := sat_of_reader hrd hs
    obtain ⟨hinit, hsched, -⟩ := sat_of_blockCons hblock
    refine ⟨(initHandles b).held val, _, ?_, map_heldWord hp (wordCons_of_scheduleCons hsched),
      map_range_eq_map_toNat (shaCompress_length ..) fun i hi => (digest_sound hp hblock rfl i hi).d⟩
    rw [Handles.held_words, initHandles_toList, List.map_map]
    exact map_heldWord hp hinit

end Sys2Proof.Machine
end

section
/-!
PROOFS. One round (45_compression.md): ROUND as the head of Q with another entry behind it, and what its instances say of
every assignment that satisfies them. What the operation does when it succeeds is Laws/Rounds.lean, what its instances say
is Laws/Blocks.lean.
-/

namespace Sys2Proof.Machine

open Sys2Proof

/-! ### Soundness -/

section
variable {cuts : TagCuts} {val : CellName → Nat} (hp : ∀ c, val c < Config.fieldP)
include hp

/-- A range-proved bundle holds the word whose number is in its dense cell (42_gates.md R153). -/
theorem isWord32_of_dense {h : Path} {w : Word32} (hs : Sat cuts val (wordCons h)) (hd : val (h.cell .d) = w.toNat) :
    IsWord32 val h w := by
  rw [IsWord32, ← hd]
  exact (word_sound hp hs).1

/-- Eight range-proved handles hold the state whose numbers are in their dense cells (45_compression.md R216). -/
theorem holdsSha_of_dense {H : Handles} {x : ShaState} (hs : ∀ h ∈ H.toList, Sat cuts val (wordCons h))
    (hd : H.toList.map (fun h => val (h.cell .d)) = x.words.map (·.toNat)) : HoldsSha val H x := by
  simp only [Handles.toList, List.forall_mem_cons] at hs
  simp only [Handles.toList, ShaState.words, List.map_cons, List.cons.injEq] at hd
  obtain ⟨sa, sb, sc, sd, se, sf, sg, sh, -⟩ := hs
  obtain ⟨da, db, dc, dd, de, df, dg, dh, -⟩ := hd
  exact ⟨isWord32_of_dense hp sa da, isWord32_of_dense hp sb db, isWord32_of_dense hp sc dc, isWord32_of_dense hp sd dd,
    isWord32_of_dense hp se de, isWord32_of_dense hp sf df, isWord32_of_dense hp sg dg, isWord32_of_dense hp sh dh⟩

end

/-- Settles O56: the nine words read are held by their bundles, and the round's instances carry them to its results; the
two parts of Ch add up without a carry. -/
theorem roundSound : Obligations.RoundSound := by
  rintro cuts rd val hrd hp t H wh p - hwords hround v hv
  have hstate : HoldsSha val H v :=
    holdsSha_of_dense hp (fun h hh => sat_of_reader hrd (hwords h (List.mem_cons_of_mem wh hh))) hv
  have hword := isWord_of_cons hp (sat_of_reader hrd (hwords wh List.mem_cons_self))
  obtain ⟨⟨hs1, hchP, hchQ, hs0, hmaj⟩, ht1, ht2, hnext⟩ := round_sound hp hstate hword (sat_of_reader hrd hround)
  exact ⟨hs1.d, by rw [hchP.d, hchQ.d, chParts_add], hs0.d, hmaj.d, ht1.d, ht2.d, hnext.a.d, hnext.e.d⟩

/-! ### ROUND -/

/-- A run of gate operations, then a write of the state handles. -/
theorem Ext.performed_withStateReg {s t : State} {p : Path} {cs : List CellName} {ks : List Constraint} {bad : Bool}
    (h : Ext s t p cs ks) (hu : t.unsat = s.unsatIf bad) (f : Vector (Option Path) 8) :
    Performed { s with stateReg := f } { t with stateReg := f } cs ks bad :=
  ⟨congrArg (fun u : State => { u with stateReg := f }) h.frame, ⟨h.only, h.mono, h.count⟩, h.log, hu⟩

/-- ROUND at the head of Q, when the entry behind it keeps the completion of COMPRESS from being due (46_facade.md R230). -/
theorem exec_round_ok {s u : State} {e e' : QEntry} {rest : List QEntry} {t : Nat} (hq : s.q = e :: e' :: rest)
    (hu : opRound t { s with q := e' :: rest } = .ok () u) (hrest : u.q = e' :: rest) : exec (.round t) s = .next u := by
  rw [exec]
  exact runEntry_ok hq ((bind_ok hu).trans (whenDrained_busy (busy_of_cons hrest)))

/-- Two Σ operations of 34 cells, CH's 28, MAJ's 14 and four MODADDs of 8 (45_compression.md R211). -/
theorem roundCells_length (p : Path) : (roundCells p).length = 142 := by
  simp only [roundCells, List.length_append, sigmaCells_length]
  rfl

/-- Two Σ operations of 16 instances, CH's 14, MAJ's 7 and four MODADDs of 5 (45_compression.md R211). -/
theorem roundCons_length (t : Nat) (H : Handles) (wh p : Path) : (roundCons t H wh p).length = 73 := by
  simp only [roundCons, List.length_append, sigmaCons_length]
  rfl

/-- Settles O35: the eight operations of the round below its path, then the new handles, while Q is not yet empty. -/
theorem roundResult : Obligations.RoundResult := by
  rintro s w r e rest t p H v wh wn - rfl hq ⟨hb, ha⟩ hst hw hreads hv hwread hwn hf
  obtain ⟨u, hu, ext, hunsat, ht1, ht2, hnewA, hnewE⟩ := opRound_ok (s := { s with q := e :: rest }) (t := t)
    hb ha hst hw hreads hv hwread hwn (fresh_of hf)
  exact ⟨_, exec_round_ok hq hu ext.q_eq, ext.performed_withStateReg hunsat _, roundCells_length _,
    roundCons_length .., rfl, ht1, ht2, hnewA, hnewE⟩

end Sys2Proof.Machine
end

section
/-!
PROOFS. The facade (46_facade.md): the INIT commands, COMPRESS and DIGEST as they are accepted, INIT_WORD and DIGEST_WORD as
the head of Q, and the completions in the step of a command's last entry. What the operations do when they succeed is
Laws/Facade.lean and Laws/Rounds.lean.
-/

namespace Sys2Proof.Machine

open Sys2Proof

/-! ### Commands that queue -/

/-- A command whose sequencing check and `din` check pass does what stands behind them (60_exceptions.md R254). -/
theorem runCommand_checked {s u : State} {w : CmdWord} {din : List DinItem} {rest : List Presented} {i : Instr}
    {ok : List DinItem → Bool} {cause : FaultCause} {cmd : CmdWord} {m : List DinItem → M Unit}
    (hc : s.cmds = ⟨w, din⟩ :: rest) (hseq : sequenceOk i { s with cmds := rest } = true) (hok : ok din = true)
    (hm : m din { s with cmds := rest } = .ok () u) :
    runCommand s (fun din => do checkSequence i; require (ok din) cause cmd; m din) = .next u :=
  runCommand_ok hc (by rw [bind_ok (checkSequence_ok hseq), bind_ok (require_ok _ hok), hm])

/-- A `din` of `n` field elements passes the check of its command. -/
theorem elems_ok {din : List DinItem} {n : Nat} (hlen : din.length = n)
    (helem : ∀ d ∈ din, ∃ x < Config.fieldP, d = .elem x) : (din.length == n && din.all DinItem.isElem) = true := by
  rw [Bool.and_eq_true, beq_iff_eq, List.all_eq_true]
  exact ⟨hlen, fun d hd => (isElem_iff d).mpr (helem d hd)⟩

/-- Settles O16: the two checks pass, then the block is begun with the entries of its source. -/
theorem initAccepted : Obligations.InitAccepted := by
  intro s w rest din hreset hconf hc
  have hphase := phase_of_init hreset hconf
  refine ⟨fun hdin => ?_, fun hlen helem => ?_, fun hdin hvalid => ?_⟩
  · rw [exec, execInitIv]
    exact runCommand_checked hc hphase (List.isEmpty_iff.mpr hdin) rfl
  · rw [exec, execInitFrom]
    refine runCommand_checked hc hphase (elems_ok hlen helem) ?_
    rw [bind_get]
    simp only [itemEntries_din _ _ din 8 hlen]
    rfl
  · rw [exec, execInitFrom]
    exact runCommand_checked hc (Bool.and_eq_true_iff.mpr ⟨hphase, hvalid⟩) (List.isEmpty_iff.mpr hdin) rfl

/-- Settles O17: the two checks pass, then PHASE and the queue are set. -/
theorem compressDigestAccepted : Obligations.CompressDigestAccepted := by
  intro s w rest din hc
  refine ⟨fun hphase hlen helem => ?_, fun hphase hdin => ?_⟩
  · rw [exec, execCompress]
    refine runCommand_checked hc (beq_iff_eq.mpr hphase) (elems_ok hlen helem) ?_
    rw [modify_ok, compressEntries, itemEntries_din _ _ din 16 hlen]
  · rw [exec, execDigest]
    exact runCommand_checked hc (beq_iff_eq.mpr hphase) (List.isEmpty_iff.mpr hdin) rfl

/-! ### Operations with and without a completion behind them -/

/-- An operation with another entry behind it: its command's completion is not due (46_facade.md R230). -/
theorem runEntry_busy {s u : State} {e e' : QEntry} {rest : List QEntry} {op : OpRec → M Unit} {fin : M Unit}
    (hq : s.q = e :: e' :: rest) (hop : op e.opnd { s with q := e' :: rest } = .ok () u) (hu : u.q = e' :: rest) :
    runEntry s (fun r => do op r; whenDrained fin) = .next u :=
  runEntry_ok hq ((bind_ok hop).trans (whenDrained_busy (busy_of_cons hu)))

/-- The last entry of a command, with the completion in the same step (46_facade.md R230). -/
theorem runEntry_last {s u v : State} {e : QEntry} {op : OpRec → M Unit} {fin : M Unit} (hq : s.q = [e])
    (hop : op e.opnd { s with q := [] } = .ok () u) (hu : u.q = []) (hfin : fin u = .ok () v) :
    runEntry s (fun r => do op r; whenDrained fin) = .next v :=
  runEntry_ok hq ((bind_ok hop).trans ((whenDrained_idle (by rw [State.busy, hu]; rfl)).trans hfin))

/-! ### Registers written after the cells of an operation -/

namespace Performed

variable {s t : State} {cs : List CellName} {ks : List Constraint} {bad : Bool}

theorem withInitial (h : Performed s t cs ks bad) (f f' : Vector (Option Path) 8) :
    Performed { s with stateReg := f, ivUsed := f' } { t with stateReg := f, ivUsed := f' } cs ks bad :=
  ⟨congrArg (fun u : State => { u with stateReg := f, ivUsed := f' }) h.1, h.2⟩

theorem withDig (h : Performed s t cs ks bad) (f : Vector (Option Path) 8) :
    Performed { s with dig := f } { t with dig := f } cs ks bad :=
  ⟨congrArg (fun u : State => { u with dig := f }) h.1, h.2⟩

theorem withDigValid (h : Performed s t cs ks bad) :
    Performed { s with digValid := true } { t with digValid := true } cs ks bad :=
  ⟨congrArg (fun u : State => { u with digValid := true }) h.1, h.2⟩

theorem withOutputs (h : Performed s t cs ks bad) (d : List DoutItem) (o : List Path) :
    Performed { s with dout := d, hout := o } { t with dout := d, hout := o } cs ks bad :=
  ⟨congrArg (fun u : State => { u with dout := d, hout := o }) h.1, h.2⟩

end Performed

/-- A register file of which entry `i` was written last. -/
theorem handle?_set_getElem? {n k : Nat} {f : Vector (Option Path) n} {hs : List Path} {i : Nat} {h : Path} (hi : i < n)
    (hwritten : hs[i]? = some h) (hothers : ∀ j < k, j ≠ i → handle? f j = hs[j]?) :
    ∀ j < k, handle? (f.setIfInBounds i (some h)) j = hs[j]? := by
  intro j hj
  rw [handle?_set hi]
  split
  case isTrue hji => rw [hji, hwritten]
  case isFalse hji => exact hothers j hj hji

/-! ### The completions -/

theorem finishInit_ok {cmd : CmdWord} {s : State} {hs : List Path} (hlen : hs.length = 8)
    (hstate : ∀ j < 8, handle? s.stateReg j = hs[j]?) :
    finishInit cmd s = .ok () { s with dout := [], hout := hs } := by
  rw [finishInit, bind_ok (readHandles_range hlen hstate)]
  rfl

/-- The eight values are those of the dense cells of the registered bundles. -/
theorem finishDigest_ok {cmd : CmdWord} {s : State} {hs : List Path} (hlen : hs.length = 8)
    (hdig : ∀ j < 8, handle? s.dig j = hs[j]?) (hcells : ∀ h ∈ hs, s.has (h.cell .d) = true) :
    ∃ vs : List Val, finishDigest cmd s
        = .ok () { s with digValid := true, dout := vs.map .val, hout := hs.map (·.sub .d) } ∧
      vs.length = 8 ∧ ∀ j < 8, vs[j]? = (hs[j]?).bind fun h => s.cell (h.cell .d) := by
  obtain ⟨vs, hread, hvlen, hvals⟩ := dense_values hcells
  rw [hlen] at hvlen hvals
  refine ⟨vs, ?_, hvlen, hvals⟩
  rw [finishDigest, bind_ok (readHandles_range hlen hdig), bind_ok (readAll_ok hread)]
  rfl

/-- The eight values are those of the dense cells of the terminal state. -/
theorem finishCompress_ok {cmd : CmdWord} {s : State} {hs ws : List Path} (hlen : hs.length = 8) (hwlen : ws.length = 16)
    (hstate : ∀ j < 8, handle? s.stateReg j = hs[j]?) (hwords : ∀ j < 16, handle? s.w j = ws[j]?)
    (hcells : ∀ h ∈ hs, s.has (h.cell .d) = true) :
    ∃ vs : List Val, finishCompress cmd s
        = .ok () { s with dout := vs.map .val, hout := hs ++ ws.map (·.sub .d) } ∧
      vs.length = 8 ∧ ∀ j < 8, vs[j]? = (hs[j]?).bind fun h => s.cell (h.cell .d) := by
  obtain ⟨vs, hread, hvlen, hvals⟩ := dense_values hcells
  rw [hlen] at hvlen hvals
  refine ⟨vs, ?_, hvlen, hvals⟩
  rw [finishCompress, bind_ok (readHandles_range hlen hstate), bind_ok (readAll_ok hread),
    bind_ok (readHandles_range hwlen hwords)]
  rfl

/-! ### INIT_WORD -/

/-- INIT_WORD from any of its sources (46_facade.md R232): the bundle below its path, then its handle in both files. -/
theorem opInitWord_ok {s : State} {src : WordSource} {i n : Nat} {r : OpRec} {g : Path} (hready : s.ready)
    (hn : n < Config.fieldP) (hf : s.fresh (ivPath s.blk i) = true)
    (hiv : src = .iv → n = ivRom i ∧ s.Reads (.fixIv i) n)
    (hdata : src = .data → ∃ v, r = .value v ∧ (s.mode = .witness → v = .known n))
    (hdigest : src = .digest → handle? s.dig i = some g ∧ s.Reads (g.cell .d) n) :
    ∃ u, opInitWord src i r s = .ok () { u with
          stateReg := s.stateReg.setIfInBounds i (some (ivPath s.blk i))
          ivUsed := s.ivUsed.setIfInBounds i (some (ivPath s.blk i)) } ∧
      u.q = s.q ∧
      Performed s u (wordCells (ivPath s.blk i)) (initWordCons (ivPath s.blk i) i g src) (decide (2 ^ 32 ≤ n)) ∧
      u.HoldsWord (ivPath s.blk i) n := by
  obtain ⟨u, hu, ext, hunsat, hword⟩ := initBundle_ok (cmd := encode (.initWord src i)) src hready.1 hready.2 hn
    (fresh_of hf) hiv hdata hdigest
  refine ⟨u, ?_, ext.q_eq, ext.performed hunsat, hword⟩
  rw [opInitWord_of hu, State.withInitial, ext.stateReg, ext.ivUsed]

/-- Settles O37: the operation with another entry behind it. -/
theorem initWordResult : Obligations.InitWordResult := by
  rintro s w r e rest src i h g n - rfl hq hready hn hf hiv hdata hdigest
  obtain ⟨u, hop, huq, hperf, hword⟩ := opInitWord_ok (s := { s with q := e :: rest }) hready hn hf hiv hdata hdigest
  exact ⟨_, runEntry_busy hq hop huq, hperf.withInitial _ _, rfl, rfl, hword⟩

/-- Settles O38: the operation, then the completion on the eight handles. -/
theorem initCompletion : Obligations.InitCompletion := by
  rintro s w r src i h g n hs hi rfl hq hready hn hf hiv hdata hdigest hlen hlast hothers
  obtain ⟨u, hop, huq, hperf, hword⟩ := opInitWord_ok (s := { s with q := [] }) hready hn hf hiv hdata hdigest
  have hhandles := handle?_set_getElem? (Nat.lt_succ_of_le hi) hlast hothers
  exact ⟨_, runEntry_last hq hop huq (finishInit_ok hlen hhandles), (hperf.withInitial _ _).withOutputs [] hs, hword⟩

/-! ### DIGEST_WORD -/

/-- Settles O39: the operation with another entry behind it. -/
theorem digestWordResult : Obligations.DigestWordResult := by
  rintro s w r e rest i p a b na nb - rfl hq ⟨hb, ha⟩ hsa hsb ra rb la lb hf
  obtain ⟨u, hop, ext, hunsat, hword, hcarry⟩ :=
    opDigestWord_ok (s := { s with q := e :: rest }) hb ha hsa hsb ra rb la lb (fresh_of hf)
  rw [ext.dig] at hop
  rw [ext.seen] at hcarry
  refine ⟨_, ?_, (ext.performed hunsat).withDig (s.dig.setIfInBounds i (some (digestHandle s.blk i))), rfl, hword,
    hcarry⟩
  rw [exec, execDigestWord]
  exact runEntry_busy hq hop ext.q_eq

/-- Settles O40: the operation, then the completion on the eight handles, of which the last written exists too. -/
theorem digestCompletion : Obligations.DigestCompletion := by
  rintro s w r i p a b na nb hs hi rfl hq ⟨hb, ha⟩ hsa hsb ra rb la lb hf hlen hlast hothers hcells
  obtain ⟨u, hop, ext, hunsat, hword, -⟩ :=
    opDigestWord_ok (s := { s with q := [] }) hb ha hsa hsb ra rb la lb (fresh_of hf)
  rw [ext.dig] at hop
  have hcells' : ∀ h ∈ hs, u.has (h.cell .d) = true := by
    intro h hh
    obtain ⟨j, hget⟩ := List.mem_iff_getElem?.mp hh
    have hj : j < hs.length := (List.getElem?_eq_some_iff.mp hget).1
    by_cases hji : j = i
    · rw [hji, hlast] at hget
      cases hget
      exact has_of_cell hword.1
    · exact ext.has (hcells j (hlen ▸ hj) hji h hget)
  obtain ⟨vs, hfin, hvlen, hvals⟩ := finishDigest_ok (cmd := encode (.digestWord i))
    (s := { u with dig := s.dig.setIfInBounds i (some ((digestPath s.blk i).sub .r)) }) hlen
    (handle?_set_getElem? (Nat.lt_succ_of_le hi) hlast hothers) hcells'
  refine ⟨_, ?_, ((ext.performed hunsat).withDig _).withDigValid.withOutputs _ _, hword, vs, rfl, hvlen, hvals⟩
  rw [exec, execDigestWord]
  exact runEntry_last hq hop ext.q_eq hfin

/-! ### The completion of COMPRESS -/

theorem handle?_toFile (H : Handles) : ∀ i < 8, handle? H.toFile i = H.toList[i]? := by
  intro i hi
  interval_cases i <;> rfl

/-- Settles O36: the operation, then the completion on the handles it leaves: six are those of the state before, two are the
bundles just written. -/
theorem compressCompletion : Obligations.CompressCompletion := by
  rintro s w r t p H v wh wn ws - rfl hq ⟨hb, ha⟩ hst hw hwords hwlen hreads hv hwread hwn hf
  obtain ⟨u, hop, ext, hunsat, -, -, hnewA, hnewE⟩ :=
    opRound_ok (s := { s with q := [] }) (t := t) hb ha hst hw hreads hv hwread hwn (fresh_of hf)
  have hcells : ∀ h ∈ (H.next (roundPath s.blk t)).toList, u.has (h.cell .d) = true := by
    obtain ⟨ra, rb, rc, -, re, rf, rg, -⟩ := hreads
    simp only [Handles.toList, Handles.next, List.forall_mem_cons]
    exact ⟨has_of_cell hnewA.1, ext.has ra.1.1, ext.has rb.1.1, ext.has rc.1.1, has_of_cell hnewE.1, ext.has re.1.1,
      ext.has rf.1.1, ext.has rg.1.1, by simp⟩
  obtain ⟨vs, hfin, hvlen, hvals⟩ := finishCompress_ok (cmd := encode (.round t))
    (s := { u with stateReg := (H.next (roundPath s.blk t)).toFile }) rfl hwlen (handle?_toFile _)
    (fun i hi => ext.w_eq ▸ hwords i hi) hcells
  refine ⟨_, ?_, (ext.performed_withStateReg hunsat _).withOutputs _ _, ⟨vs, rfl, hvlen, hvals⟩, rfl, hnewA, hnewE⟩
  rw [exec, execRound]
  exact runEntry_last hq hop ext.q_eq hfin

end Sys2Proof.Machine
end

section
/-!
PROOFS. Shape independence (46_facade.md R241): two blocks that differ in MODE, `UNSAT` and values only find the same word
at the head of Q and on their pins, so they perform the same instruction; that it keeps them alike is Laws/Shape.lean.
-/

namespace Sys2Proof.Machine

open Sys2Proof

/-! ### What two such blocks have in common -/

namespace Sim

variable {s s' : State}

/-- Erasing leaves every field that holds no value. -/
theorem resetIn (h : Sim s s') : s.resetIn = s'.resetIn := (congrArg State.resetIn (h : s.erased = s'.erased) :)

theorem halted (h : Sim s s') : s.halted = s'.halted := (congrArg State.halted (h : s.erased = s'.erased) :)

theorem q_nil (h : Sim s s') (hq : s.q = []) : s'.q = [] := by
  have e := congrArg State.q h
  rw [State.erased, State.erased, hq] at e
  exact List.map_eq_nil_iff.mp e.symm

/-- The heads of Q have one word. -/
theorem q_cons (h : Sim s s') {e : QEntry} {rest : List QEntry} (hq : s.q = e :: rest) :
    ∃ e' rest', s'.q = e' :: rest' ∧ e'.word = e.word := by
  have he := congrArg State.q h
  rw [State.erased, State.erased, hq] at he
  obtain ⟨e', rest', hq', heq, -⟩ := List.map_eq_cons_iff.mp he.symm
  exact ⟨e', rest', hq', (congrArg QEntry.word heq :)⟩

theorem cmds_nil (h : Sim s s') (hc : s.cmds = []) : s'.cmds = [] := by
  have e := congrArg State.cmds h
  rw [State.erased, State.erased, hc] at e
  exact List.map_eq_nil_iff.mp e.symm

/-- The commands on the pins have one word, and what is left when they are accepted differs in values only. -/
theorem cmds_cons (h : Sim s s') {c : Presented} {rest : List Presented} (hc : s.cmds = c :: rest) :
    ∃ c' rest', s'.cmds = c' :: rest' ∧ c'.word = c.word ∧
      Sim { s with cmds := rest } { s' with cmds := rest' } := by
  have he := congrArg State.cmds h
  rw [State.erased, State.erased, hc] at he
  obtain ⟨c', rest', hc', heq, hrest⟩ := List.map_eq_cons_iff.mp he.symm
  refine ⟨c', rest', hc', (congrArg Presented.word heq :), ?_⟩
  have e := sim_iff.mp h
  refine sim_iff.mpr ?_
  simp_all

theorem waiting (h : Sim s s') (hw : s.waiting) : s'.waiting := by
  obtain ⟨hr, hh, hq⟩ := hw
  exact ⟨h.resetIn.symm.trans hr, h.halted.symm.trans hh, h.q_nil hq⟩

/-- A reset keeps the host's side only, and sets MODE by the pin. -/
theorem resetBlock (h : Sim s s') : Sim (resetBlock s) (resetBlock s') := by
  have e := sim_iff.mp h
  refine sim_iff.mpr ?_
  simp_all [Machine.resetBlock, State.resetWith]

end Sim

/-! ### One step of each -/

/-- Two busy blocks perform the operation at the head of Q, which has one word. -/
theorem sim_step_of_busy {s s' t t' : State} (h : Sim s s') (hwf : ∀ e ∈ s.q, e.wf = true) (hr : s.resetIn = false)
    (hh : s.halted = false) (hq : s.q ≠ []) (hst : step s = .next t) (hst' : step s' = .next t') : Sim t t' := by
  rcases step_cases hr hst with ⟨e, rest, i, hcons, hd, hi, hexec⟩ | ⟨hnil, -⟩ | ⟨hnil, -⟩ | ⟨hnil, -⟩
  · obtain ⟨e', rest', hq', hword⟩ := h.q_cons hcons
    rw [step_of_entry (h.resetIn ▸ hr) (h.halted ▸ hh) hq' (hword ▸ hd) hi] at hst'
    exact exec_level1_twin hd (hwf e (hcons ▸ List.mem_cons_self)) h hexec hst'
  all_goals exact absurd hnil hq

/-- Two waiting blocks are idle alike, refuse the same word, or perform the same command. -/
theorem sim_step_of_waiting {s s' t t' : State} (h : Sim s s')
    (hx : ∀ c ∈ s.cmds ++ s'.cmds, ∀ x, .elem x ∈ c.din →
      x < Config.fieldP ∧ ∀ n, decode c.word = .ok (.bitsOf n) → x < 2 ^ widthBits n)
    (hw : s.waiting) (hst : step s = .next t) (hst' : step s' = .next t') : Sim t t' := by
  have hw' := h.waiting hw
  cases hc : s.cmds with
  | nil =>
    rw [step_of_idle hw hc] at hst
    rw [step_of_idle hw' (h.cmds_nil hc)] at hst'
    cases hst
    cases hst'
    exact h
  | cons c rest =>
    obtain ⟨c', rest', hc', hword, hrest⟩ := h.cmds_cons hc
    by_cases hlegal : ∃ i, decode c.word = .ok i ∧ i.fromHost = true
    · obtain ⟨i, hd, hi⟩ := hlegal
      have hd' : decode c'.word = .ok i := hword ▸ hd
      rw [step_of_command hw hc hd hi] at hst
      rw [step_of_command hw' hc' hd' hi] at hst'
      refine exec_command_twin hi h (fun a ha x hxa => ?_) hst hst'
      rw [hc, hc'] at ha hx
      simp only [List.take_succ_cons, List.take_zero, List.cons_append, List.nil_append, List.mem_cons,
        List.not_mem_nil, or_false] at ha
      have hda : decode a.word = .ok i := by rcases ha with rfl | rfl <;> assumption
      obtain ⟨hlt, hfit⟩ := hx a (by rcases ha with rfl | rfl <;> simp) x hxa
      exact ⟨hlt, fun n hn => hfit n (hn ▸ hda)⟩
    · have hillegal : ∀ i, decode c.word = .ok i → i.fromHost = false :=
        fun i hd => Bool.eq_false_iff.mpr fun hi => hlegal ⟨i, hd, hi⟩
      rw [step_of_illegal hw hc hillegal] at hst
      rw [step_of_illegal hw' hc' (hword ▸ hillegal)] at hst'
      cases hst
      cases hst'
      rw [hword]
      exact hrest.faultEntry .illegal c.word

/-- Settles O59: two resets, two waiting blocks, or two busy ones. -/
theorem shapeIndependence : Obligations.ShapeIndependence := by
  intro s s' t t' hinv (h : Sim s s') hx hst hst'
  cases hr : s.resetIn with
  | true =>
    rw [eq_resetBlock_of_step hr hst, eq_resetBlock_of_step (h.resetIn ▸ hr) hst']
    exact h.resetBlock
  | false =>
    have hh : s.halted = false := by
      by_contra hh
      rw [step_of_halted hr (by simpa using hh)] at hst
      cases hst
    by_cases hq : s.q = []
    · exact sim_step_of_waiting h hx ⟨hr, hh, hq⟩ hst hst'
    · exact sim_step_of_busy h hinv.1 hr hh hq hst hst'

end Sys2Proof.Machine
end

section
/-!
PROOFS. The relation of a block (46_facade.md R234): an INIT command, COMPRESS and DIGEST one after another, from the runs of
the three commands of Laws/Runs.lean.
-/

namespace Sys2Proof.Machine

open Sys2Proof

/-! ### The numbers of a block -/

/-- The worked example of 95_test_vectors.md V1: the padded block of "abc" from the IV. -/
theorem shaCompress_abc :
    shaCompress ⟨0x6a09e667, 0xbb67ae85, 0x3c6ef372, 0xa54ff53a, 0x510e527f, 0x9b05688c, 0x1f83d9ab, 0x5be0cd19⟩
      (0x61626380 :: List.replicate 14 0 ++ [0x00000018])
      = [0xba7816bf, 0x8f01cfea, 0x414140de, 0x5dae2223, 0xb00361a3, 0x96177a9c, 0xb410ff61, 0xf20015ad] := by
  decide +kernel

/-- The instances of WORD, and a COPY for every source but the data. -/
theorem initWordCons_length (h : Path) (i : Nat) (g : Path) (src : WordSource) :
    (initWordCons h i g src).length = if src = .data then 3 else 4 := by
  cases src <;> rfl

theorem length_flatMap_of_const {α β : Type} {f : α → List β} {n : Nat} (h : ∀ a, (f a).length = n) (l : List α) :
    (l.flatMap f).length = l.length * n := by
  simp [List.length_flatMap, h]

/-- 16 words of 3 instances and 48 of 37 (44_schedule.md R200, R202). -/
theorem scheduleCons_length (b : Nat) : (scheduleCons b).length = 1824 := by
  rw [scheduleCons, List.length_append, length_flatMap_of_const (n := 3) fun _ => rfl,
    length_flatMap_of_const (n := 37) fun _ => schedCons_length ..]
  rfl

/-- The instances of 46_facade.md R242. -/
theorem blockCons_length (b : Nat) (src : WordSource) (g : Nat → Path) :
    (blockCons b src g).length = if src = .data then 6560 else 6568 := by
  rw [blockCons, List.length_append, List.length_append, List.length_append, scheduleCons_length,
    length_flatMap_of_const fun i => initWordCons_length _ i _ src,
    length_flatMap_of_const (n := 73) fun _ => roundCons_length ..,
    length_flatMap_of_const (n := 5) fun _ => rfl]
  simp only [List.length_range]
  split <;> rfl

/-! ### Where a block stands between two commands -/

/-- The block begun in `s` waits in `t`, in phase `ph`, with `cmds` still presented: its commands so far wrote `n` cells and
recorded `ks`, none of them false. -/
structure BlockAt (s : State) (ph : Phase) (cmds : List Presented) (n : Nat) (ks : List Constraint) (t : State) :
    Prop where
  live  : Live t
  q     : t.q = []
  phase : t.phase = ph
  cmds  : t.cmds = cmds
  blk   : t.blk = s.blk + 1
  mode  : t.mode = s.mode
  unsat : t.unsat = s.unsat
  log   : t.cons = s.cons ++ ks
  count : t.mem.cells.length = s.mem.cells.length + n

namespace BlockAt

variable {s t u : State} {ph ph' : Phase} {cmds rest : List Presented} {n m : Nat} {ks ls : List Constraint}
  {gs : List Seg} {q : List QEntry}

theorem waiting (h : BlockAt s ph cmds n ks t) : t.waiting := ⟨h.live.resetIn, h.live.halted, h.q⟩

/-- One more command of the block: accepted, and its queue performed. -/
theorem next (h : BlockAt s ph cmds n ks t) (tr : Trail { t with cmds := rest, phase := ph', q := q } u gs m ls)
    (hq : u.q = []) : BlockAt s ph' rest (n + m) (ks ++ ls) u where
  live := tr.live ⟨h.live.resetIn, h.live.halted, h.live.booted, h.live.accepts⟩
  q := hq
  phase := tr.phase
  cmds := tr.cmds
  blk := tr.blk.trans h.blk
  mode := tr.mode.trans h.mode
  unsat := tr.unsat.trans h.unsat
  log := by rw [tr.log, h.log, List.append_assoc]
  count := by rw [tr.count, h.count, Nat.add_assoc]

end BlockAt

/-! ### A block whose initial state is in place -/

theorem eq_of_handle? {n : Nat} {f f' : Vector (Option Path) n} (h : ∀ i < n, handle? f i = handle? f' i) : f = f' := by
  refine Vector.ext fun i hi => ?_
  have := h i hi
  rwa [handle?, handle?, Vector.getElem?_eq_getElem hi, Vector.getElem?_eq_getElem hi] at this

theorem handle?_initHandles {b i : Nat} (hi : i < 8) : handle? (initHandles b).toFile i = some (ivPath b i) := by
  rw [handle?_toFile _ i hi, initHandles_toList, List.getElem?_map, List.getElem?_range hi, Option.map_some]

namespace InitAt

variable {src : WordSource} {S : ShaState} {g : Nat → Path} {r : Nat → OpRec} {s t : State}

/-- The register file after INIT_WORD 0..7. -/
theorem stateReg (h : InitAt src S g r s 8 t) : t.stateReg = (initHandles s.blk).toFile :=
  eq_of_handle? fun i hi => by rw [(h.done i hi).1, handle?_initHandles hi]

/-- The bundles after INIT_WORD 0..7. -/
theorem holds (h : InitAt src S g r s 8 t) : HoldsState t (initHandles s.blk) S := by
  have word : ∀ j < 8, t.HoldsWord (ivPath s.blk j) (S.words.getD j 0).toNat := fun j hj => (h.done j hj).2.2
  exact ⟨word 0 (by decide), word 1 (by decide), word 2 (by decide), word 3 (by decide), word 4 (by decide),
    word 5 (by decide), word 6 (by decide), word 7 (by decide)⟩

/-- Names below other segments than `iv<i>` stay fresh. -/
theorem fresh (h : InitAt src S g r s 8 t) {k : Seg} (hk : ∀ i, .iv i ≠ k) (hf : s.Fresh ⟨s.blk, [k]⟩) :
    t.Fresh ⟨s.blk, [k]⟩ :=
  h.trail.fresh k (by simp [hk]) hf

/-- The block waits for COMPRESS. -/
theorem blockAt {cmds : List Presented} {q : List QEntry} (h : InitAt src S g r (s.begun cmds q) 8 t) (hw : s.waiting)
    (hr : s.ready) : BlockAt s .state cmds 56
      ((List.range 8).flatMap fun i => initWordCons (ivPath (s.blk + 1) i) i (g i) src) t where
  live := h.trail.live ⟨hw.1, hw.2.1, hr.1, hr.2⟩
  q := h.q
  phase := h.trail.phase
  cmds := h.trail.cmds
  blk := h.trail.blk
  mode := h.trail.mode
  unsat := h.trail.unsat
  log := h.trail.log
  count := h.trail.count

end InitAt

/-! ### The three commands of a block -/

/-- COMPRESS and DIGEST behind an INIT: the digest is the compression of the block from the initial state. -/
theorem compress_digest_run {src : WordSource} {S : ShaState} {g : Nat → Path} {r : Nat → OpRec} {s t : State}
    {block : List Word32} {rest : List Presented} {q : List QEntry} (hw : s.waiting) (hr : s.ready)
    (hf : s.Fresh ⟨s.blk + 1, []⟩) (hb : block.length = 16)
    (h : InitAt src S g r (s.begun ([⟨encode .compress, elemItems block⟩, ⟨encode .digest, []⟩] ++ rest) q) 8 t) :
    ∃ u, t.after 138 = some u ∧ BlockAt s .digested rest 12968 (blockCons (s.blk + 1) src g) u ∧ u.digValid = true ∧
      u.dout = (shaCompress S block).map (fun w => .val (s.seen w.toNat)) ∧
      u.hout = (List.range 8).map fun i => (digestHandle (s.blk + 1) i).sub .d := by
  have at1 := h.blockAt hw hr
  have hblk := at1.blk
  have hfresh : ∀ {k : Seg}, (∀ i, .iv i ≠ k) → t.Fresh ⟨t.blk, [k]⟩ := fun hk => hblk ▸ h.fresh hk (hf.sub _)
  obtain ⟨q2, u, gs, a2, tr2, hgs, hq2, -, -, hiv, hst, hT⟩ := compress_segment (S := S) at1.waiting at1.live at1.phase
    at1.cmds hb (fun k _ => hfresh fun _ => Seg.noConfusion) (fun k _ => hfresh fun _ => Seg.noConfusion)
    (hblk ▸ h.stateReg) (hblk ▸ h.holds)
  have at2 := at1.next tr2 hq2
  have hblk2 : u.blk = t.blk := tr2.blk
  rw [← hblk2] at hst hT
  obtain ⟨q3, v, a3, hv⟩ := digest_segment (S := S) at2.waiting at2.live at2.phase at2.cmds
    (fun i _ => hblk2 ▸ tr2.fresh (.dg i) (hgs i) (hfresh fun _ => Seg.noConfusion)) hst hT
    (fun j hj => by
      rw [at2.blk, hiv]
      exact ⟨(h.done j hj).2.1, tr2.holdsWord (h.done j hj).2.2⟩)
  have at3 : BlockAt s .digested rest 12968 _ v := at2.next hv.trail hv.q
  obtain ⟨hvalid, hdout, hhout⟩ := hv.outputs rfl
  refine ⟨v, State.after_trans a2 a3, ?_, hvalid, ?_, ?_⟩
  · rw [hblk] at at3
    simpa only [blockCons, at2.blk, List.append_assoc] using at3
  · rw [hdout]
    exact List.map_congr_left fun x _ => congrArg DoutItem.val (by simp only [State.seen, at2.mode])
  · rw [hhout, ← at2.blk]

/-- Settles O57: the INIT command and its eight entries, then COMPRESS and DIGEST; the instances are counted part by part. -/
theorem hashRun : Obligations.HashRun := by
  refine ⟨shaCompress_abc, fun s S block init rest src g hw hr p1 p2 hf hb hdata hiv hdigest hc => ?_⟩
  obtain ⟨q, r, t, a1, h1⟩ := init_segment hw hr p1 p2 hf hc hdata hiv hdigest
  obtain ⟨u, a2, hu, hvalid, hdout, hhout⟩ := compress_digest_run hw hr (fresh_of hf) hb h1
  exact ⟨u, State.after_trans a1 a2, hu.waiting, hu.unsat, hu.phase, hvalid, hu.blk, hu.cmds, hu.log,
    by rw [hu.log, List.length_append, blockCons_length], hu.count, hdout, hhout⟩

end Sys2Proof.Machine
end

section
/-!
PROOFS. Faults of the block (60_exceptions.md): the checks a facade command begins with, WORD up to the cell the host
refuses, fault entry of a busy block, and the bits of STATUS. A computation that the host stops is followed write by write
(`PRun` of Laws/Faults.lean); what every fault entry leaves is a property closed under the updates of Laws/Keeps.lean.
-/

namespace Sys2Proof.Machine

open Sys2Proof

/-! ### The two checks of a facade command -/

/-- The `din` shape a facade command accepts (46_facade.md R230; 41_table.md R130, R133). -/
def facadeDinOk : Instr → List DinItem → Bool
  | .initFrom src, din => initDinOk src din
  | .compress, din => din.length == 16 && din.all DinItem.isElem
  | _, din => din.isEmpty

/-- What every facade command is: the sequencing check, the `din` check, then its work (60_exceptions.md R254). -/
theorem exec_facade {i : Instr} (hi : i.cls = .facade) :
    ∃ work : List DinItem → M Unit, ∀ s, exec i s = runCommand s (fun din => do
      checkSequence i
      require (facadeDinOk i din) .operand (encode i)
      work din) := by
  cases i with
  | configure => exact ⟨_, fun s => by rw [exec, execConfigure]; rfl⟩
  | load => exact ⟨_, fun s => by rw [exec, execLoad]; rfl⟩
  | initIv => exact ⟨_, fun s => by rw [exec, execInitIv]; rfl⟩
  | initFrom src => exact ⟨_, fun s => by rw [exec, execInitFrom]; rfl⟩
  | compress => exact ⟨_, fun s => by rw [exec, execCompress]; rfl⟩
  | digest => exact ⟨_, fun s => by rw [exec, execDigest]; rfl⟩
  | _ => cases hi

/-- The sequencing check reads PHASE and DIG_VALID only, not the pins (60_exceptions.md R262). -/
theorem sequenceOk_cmds (i : Instr) (s : State) (cmds : List Presented) :
    sequenceOk i { s with cmds := cmds } = sequenceOk i s := by
  cases i with
  | initFrom src => cases src <;> rfl
  | _ => rfl

section
variable {s : State} {c : Presented} {rest : List Presented} {i : Instr}

theorem exec_sequence_raised (hi : i.cls = .facade) (hc : s.cmds = c :: rest) (hseq : sequenceOk i s = false) :
    exec i s = .next (faultEntry .sequence (encode i) { s with cmds := rest }) := by
  obtain ⟨work, hwork⟩ := exec_facade hi
  rw [← sequenceOk_cmds i s rest] at hseq
  rw [hwork]
  exact runCommand_raised hc (bind_error (checkSequence_raised hseq))

theorem exec_operand_raised (hi : i.cls = .facade) (hc : s.cmds = c :: rest) (hseq : sequenceOk i s = true)
    (hdin : facadeDinOk i c.din = false) :
    exec i s = .next (faultEntry .operand (encode i) { s with cmds := rest }) := by
  obtain ⟨work, hwork⟩ := exec_facade hi
  rw [← sequenceOk_cmds i s rest] at hseq
  rw [hwork]
  exact runCommand_raised hc ((bind_ok (checkSequence_ok hseq)).trans (bind_error (require_fails _ hdin)))

end

/-- No INIT command is in sequence before BOOT (60_exceptions.md R262). -/
theorem init_out_of_sequence {s : State} (h : s.phase = .reset ∨ s.phase = .conf) :
    sequenceOk .initIv s = false ∧ ∀ src, sequenceOk (.initFrom src) s = false := by
  refine ⟨?_, fun src => ?_⟩
  · rcases h with h | h <;> simp [sequenceOk, h]
  · rcases h with h | h <;> cases src <;> simp [sequenceOk, h]

/-- Settles O18: in each row of R262 the sequencing check of the command fails. -/
theorem sequenceFault : Obligations.SequenceFault := by
  intro s c rest hc
  refine ⟨fun h => ?_, fun h => ?_, fun h => ⟨?_, fun src => ?_⟩, fun h => ?_, fun h => ?_, fun h => ?_⟩
  · exact exec_sequence_raised rfl hc (beq_false_of_ne h)
  · exact exec_sequence_raised rfl hc (beq_false_of_ne h)
  · exact exec_sequence_raised rfl hc (init_out_of_sequence h).1
  · exact exec_sequence_raised rfl hc ((init_out_of_sequence h).2 src)
  · exact exec_sequence_raised rfl hc (Bool.and_eq_false_iff.mpr (.inr h))
  · exact exec_sequence_raised rfl hc (beq_false_of_ne h)
  · exact exec_sequence_raised rfl hc (beq_false_of_ne h)

/-- A `din` that is not `n` field elements fails the check of its command. -/
theorem elems_fail {din : List DinItem} {n : Nat}
    (h : ¬ (din.length = n ∧ ∀ d ∈ din, ∃ x < Config.fieldP, d = .elem x)) :
    (din.length == n && din.all DinItem.isElem) = false := by
  refine Bool.eq_false_iff.mpr fun hok => h ?_
  rw [Bool.and_eq_true, beq_iff_eq, List.all_eq_true] at hok
  exact ⟨hok.1, fun d hd => (isElem_iff d).mp (hok.2 d hd)⟩

/-- Settles O19: the sequencing check passes, the `din` check fails. -/
theorem dinFault : Obligations.DinFault := by
  intro s w din rest hc
  refine ⟨fun i hi hdin => ?_, fun hreset hconf hdin => ?_, fun hphase hdin => ?_⟩
  · have hempty := List.isEmpty_eq_false_iff.mpr hdin
    rcases hi with ⟨rfl, hp⟩ | ⟨rfl, hp⟩ | ⟨rfl, hp⟩ | ⟨rfl | ⟨rfl, hvalid⟩, hreset, hconf⟩
    · exact exec_operand_raised rfl hc (beq_iff_eq.mpr hp) hempty
    · exact exec_operand_raised rfl hc (beq_iff_eq.mpr hp) hempty
    · exact exec_operand_raised rfl hc (beq_iff_eq.mpr hp) hempty
    · exact exec_operand_raised rfl hc (phase_of_init hreset hconf) hempty
    · exact exec_operand_raised rfl hc (Bool.and_eq_true_iff.mpr ⟨phase_of_init hreset hconf, hvalid⟩) hempty
  · exact exec_operand_raised rfl hc (phase_of_init hreset hconf) (elems_fail hdin)
  · exact exec_operand_raised rfl hc (beq_iff_eq.mpr hphase) (elems_fail hdin)

/-! ### A cell the host refuses -/

theorem PRun.refl (s : State) : PRun s s [] [] s.hostAnswers :=
  ⟨rfl, fun _ _ => rfl, fun _ _ h => h, rfl, by simp, (List.append_nil _).symm⟩

/-- The computation ended at a cell the host refused: from `s` it had written exactly `cs` and recorded exactly `ks`, `as`
are the answers left, and the word of the fault is `cmd`. -/
def RefusedAfter (s : State) (as : List Bool) (cmd : CmdWord) (cs : List CellName) (ks : List Constraint)
    (r : EStateM.Result Stop State Unit) : Prop :=
  ∃ u, r = .error .raised (faultEntry .assign cmd u) ∧ PRun s u cs ks as

section
variable {s t : State} {p : Path} {g : Seg} {cs : List CellName} {ks : List Constraint} {as bs : List Bool}
  {cmd cmd' : CmdWord} {v : Val} {f : Unit → M Unit} {cs' : List CellName} {ks' : List Constraint}

/-- A refusal ends what it is part of. -/
theorem RefusedAfter.bind {m : M Unit} (h : RefusedAfter s as cmd cs ks (m t)) :
    RefusedAfter s as cmd cs ks ((m >>= f) t) := by
  obtain ⟨u, hu, hrun⟩ := h
  exact ⟨u, bind_error hu, hrun⟩

theorem PRun.refused_then (h : PRun s t cs ks (false :: as)) (hf : s.Fresh p) (hn : p.cell g ∉ cs) :
    RefusedAfter s as cmd cs ks ((assign cmd (p.cell g) v >>= f) t) :=
  RefusedAfter.bind (h.refused hf hn)

theorem PRun.assigned_then (h : PRun s t cs ks (true :: bs)) (hf : s.Fresh p) (hn : p.cell g ∉ cs)
    (hnext : ∀ u, PRun s u (cs ++ [p.cell g]) ks bs → RefusedAfter s as cmd' cs' ks' (f () u)) :
    RefusedAfter s as cmd' cs' ks' ((assign cmd (p.cell g) v >>= f) t) := by
  obtain ⟨u, hu, hrun⟩ := h.assigned (cmd := cmd) (v := v) hf hn
  rw [bind_ok hu]
  exact hnext u hrun

/-- LOOKUP over an existing input, up to its two writes. -/
theorem opLookup_of_has {e : Nat} {d tg sp : CellName} (hd : t.has d = true) :
    ∃ v v' : Val, opLookup e d tg sp t = (do
      assign (encode (.lookup e)) tg v
      assign (encode (.lookup e)) sp v'
      record (encode (.lookup e)) (.lookup tg d sp (2 ^ e))) t := by
  obtain ⟨y, hy⟩ := lookupInput_answers (cmd := encode (.lookup e)) (e := e) hd
  exact ⟨y.map fun y => tagOf t.tagCuts (y % 2 ^ 16), y.map fun y => spread16 (y % 2 ^ 16),
    by rw [opLookup, bind_get, bind_ok hy]⟩

variable {e : Nat} {d : CellName} {g' : Seg}

theorem PRun.lookup_ok (h : PRun s t cs ks (true :: true :: as)) (hb : s.booted = true) (hf : s.Fresh p) (hd : d ∈ cs)
    (hg : p.cell g ∉ cs) (hg' : p.cell g' ∉ cs) (hne : g' ≠ g) :
    ∃ u, opLookup e d (p.cell g) (p.cell g') t = .ok () u ∧
      PRun s u (cs ++ [p.cell g, p.cell g']) (ks ++ [.lookup (p.cell g) d (p.cell g') (2 ^ e)]) as := by
  obtain ⟨v, v', heq⟩ := opLookup_of_has (e := e) (tg := p.cell g) (sp := p.cell g') (h.has d hd)
  obtain ⟨u1, h1, r1⟩ := h.assigned (cmd := encode (.lookup e)) (v := v) hf hg
  obtain ⟨u2, h2, r2⟩ := r1.assigned (cmd := encode (.lookup e)) (v := v') (g := g') hf (by simp [hg', cell_inj, hne])
  obtain ⟨u3, h3, r3⟩ := r2.recorded (cmd := encode (.lookup e)) (k := .lookup (p.cell g) d (p.cell g') (2 ^ e)) hb
    (by simp [Constraint.kind]) (by simp [Constraint.cells, hd])
  exact ⟨u3, by rw [heq, bind_ok h1, bind_ok h2, h3], by simpa using r3⟩

/-- LOOKUP whose host refuses its `n`-th cell (from 0). -/
theorem PRun.lookup_refused {n : Nat} (h : PRun s t cs ks (List.replicate n true ++ false :: as)) (hn : n < 2)
    (hf : s.Fresh p) (hd : d ∈ cs) (hg : p.cell g ∉ cs) (hg' : p.cell g' ∉ cs) (hne : g' ≠ g) :
    RefusedAfter s as (encode (.lookup e)) (cs ++ [p.cell g, p.cell g'].take n) ks
      (opLookup e d (p.cell g) (p.cell g') t) := by
  obtain ⟨v, v', heq⟩ := opLookup_of_has (e := e) (tg := p.cell g) (sp := p.cell g') (h.has d hd)
  rw [heq]
  obtain rfl | rfl : n = 0 ∨ n = 1 := by omega
  · rw [List.take_zero, List.append_nil]
    exact h.refused_then hf hg
  · exact h.assigned_then hf hg fun u hu => hu.refused_then hf (by simp [hg', cell_inj, hne])

/-- WORD whose host refuses one of the three cells it writes itself. -/
theorem opWord_refused {n : Nat} (ha : s.hostAnswers = List.replicate n true ++ false :: as) (hn : n < 3)
    (hf : s.Fresh p) : RefusedAfter s as (encode .word) ((wordCells p).take n) [] (opWord p v s) := by
  have h := PRun.refl s
  rw [ha] at h
  rw [opWord, bind_get]
  obtain rfl | rfl | rfl : n = 0 ∨ n = 1 ∨ n = 2 := by omega
  · exact h.refused_then hf (by simp)
  · exact h.assigned_then hf (by simp) fun u hu => hu.refused_then hf (by simp [cell_inj])
  · exact h.assigned_then hf (by simp) fun u hu => hu.assigned_then hf (by simp [cell_inj]) fun u hu =>
      hu.refused_then hf (by simp [cell_inj])

/-- WORD with the three cells it writes itself accepted goes on with its two LOOKUPs, RECOMB recorded. -/
theorem opWord_of_accepted (ha : s.hostAnswers = true :: true :: true :: bs) (hb : s.booted = true) (hf : s.Fresh p) :
    ∃ u, opWord p v s = (do
        opLookup 0 (p.cell .lo) (p.cell .tlo) (p.cell .slo)
        opLookup 0 (p.cell .hi) (p.cell .thi) (p.cell .shi)) u ∧
      PRun s u ((wordCells p).take 3) ((wordCons p).take 1) bs := by
  have h := PRun.refl s
  rw [ha] at h
  obtain ⟨u1, h1, r1⟩ := h.assigned (g := .d) (cmd := encode .word) (v := v) hf (by simp)
  obtain ⟨u2, h2, r2⟩ := r1.assigned (g := .lo) (cmd := encode .word) (v := (witnessVal s.mode v).map lo16) hf
    (by simp [cell_inj])
  obtain ⟨u3, h3, r3⟩ := r2.assigned (g := .hi) (cmd := encode .word) (v := (witnessVal s.mode v).map hi16) hf
    (by simp [cell_inj])
  obtain ⟨u4, h4, r4⟩ := r3.recorded (cmd := encode .recomb) (k := .recomb (p.cell .d) (p.cell .lo) (p.cell .hi)) hb
    (by simp [Constraint.kind]) (by simp [Constraint.cells])
  refine ⟨u4, ?_, r4⟩
  rw [opWord, bind_get, bind_ok h1, bind_ok h2, bind_ok h3, opRecomb, bind_ok h4]

/-- WORD whose host refuses one of the four cells its LOOKUPs write. -/
theorem opWord_lookup_refused {n : Nat} (ha : s.hostAnswers = List.replicate (n + 3) true ++ false :: as) (hn : n < 4)
    (hb : s.booted = true) (hf : s.Fresh p) :
    RefusedAfter s as (encode (.lookup 0)) ((wordCells p).take (n + 3)) ((wordCons p).take (if n < 2 then 1 else 2))
      (opWord p v s) := by
  obtain ⟨u, hu, r⟩ := opWord_of_accepted (v := v) ha hb hf
  rw [hu]
  by_cases hn2 : n < 2
  · have hcells : (wordCells p).take (n + 3) = (wordCells p).take 3 ++ [p.cell .tlo, p.cell .slo].take n := by
      interval_cases n <;> rfl
    rw [if_pos hn2, hcells]
    exact RefusedAfter.bind (r.lookup_refused hn2 hf (by simp [wordCells]) (by simp [wordCells, cell_inj])
      (by simp [wordCells, cell_inj]) (by decide))
  · obtain ⟨m, rfl⟩ := Nat.exists_eq_add_of_le' (Nat.le_of_not_lt hn2)
    obtain ⟨u', hu', r'⟩ := PRun.lookup_ok (e := 0) (g := .tlo) (g' := .slo) (d := p.cell .lo) r hb hf
      (by simp [wordCells]) (by simp [wordCells, cell_inj]) (by simp [wordCells, cell_inj]) (by decide)
    have hm : m < 2 := by omega
    have hcells : (wordCells p).take (m + 2 + 3) = (wordCells p).take 5 ++ [p.cell .thi, p.cell .shi].take m := by
      interval_cases m <;> rfl
    rw [if_neg hn2, hcells, bind_ok hu']
    exact r'.lookup_refused hm hf (by simp [wordCells]) (by simp [wordCells, cell_inj])
      (by simp [wordCells, cell_inj]) (by decide)

/-- A refusal inside an operation is the fault of the step that performs it (60_exceptions.md R253, R256). -/
theorem RefusedAfter.runEntry {q : QEntry} {rest : List QEntry} {body : OpRec → M Unit} (hq : s.q = q :: rest)
    (h : RefusedAfter { s with q := rest } as cmd cs ks (body q.opnd { s with q := rest })) :
    ∃ u, runEntry s body = .next u ∧
      u = faultEntry .assign cmd { s with
        q := rest, mem := u.mem, cons := u.cons, unsat := u.unsat, requests := u.requests, hostAnswers := as } ∧
      Wrote s u cs ∧ (∀ c ∈ cs, u.has c = true) ∧ u.cons = s.cons ++ ks := by
  obtain ⟨u, hu, hframe, honly, hmono, hcount, hhas, hlog⟩ := h
  exact ⟨_, runEntry_raised hq hu, congrArg (faultEntry .assign cmd) hframe, ⟨honly, hmono, hcount⟩, hhas, hlog⟩

end

/-- Settles O43: the refused cell is one of the three WORD writes itself, or one of its LOOKUPs'. -/
theorem wordRefused : Obligations.WordRefused := by
  intro s w rest p v n as hq hb hp hn ha
  have hf : ({ s with q := rest } : State).Fresh p := fresh_of hp
  rw [exec, execWord]
  by_cases hn3 : n < 3
  · simp only [if_pos hn3]
    exact RefusedAfter.runEntry hq (opWord_refused ha hn3 hf)
  · obtain ⟨k, rfl⟩ := Nat.exists_eq_add_of_le' (Nat.le_of_not_lt hn3)
    have hk : k + 3 < 5 ↔ k < 2 := by omega
    simp only [if_neg hn3, hk]
    exact RefusedAfter.runEntry hq (opWord_lookup_refused ha (by omega) hb hf)

/-! ### Fault entry of a busy block -/

/-- A fault entry has been performed: a code, Q and the outputs empty (60_exceptions.md R256). -/
def Faulted (s : State) : Prop :=
  s.faultCode ≠ .none ∧ s.q = [] ∧ s.dout = [] ∧ s.hout = []

/-- No update of an operation but the fault entry sets HALTED. -/
theorem closed_faulted : GateClosed (fun s => s.halted = false) Faulted where
  fault := fun _ _ _ hcause _ => ⟨hcause, rfl, rfl, rfl⟩
  host := fun _ _ _ h => h
  write := fun _ _ _ h _ _ => h
  record := fun _ _ h _ => h
  regs := fun _ _ _ _ _ _ _ _ h => h

/-- An operation of a block that was not halted halts it by a fault entry only. -/
theorem faulted_of_step {s t : State} {e : QEntry} {rest : List QEntry} (hr : s.resetIn = false) (hh : s.halted = false)
    (hq : s.q = e :: rest) (hst : step s = .next t) (ht : t.halted = true) : Faulted t := by
  rcases step_cases hr hst with ⟨_, _, i, -, -, hi, hexec⟩ | ⟨hnil, -⟩ | ⟨hnil, -⟩ | ⟨hnil, -⟩
  · exact (exec_internal_keeps closed_faulted hi hh hexec).resolve_left (by simp [ht])
  all_goals exact absurd (hq.symm.trans hnil) (List.cons_ne_nil e rest)

/-! ### The bits of STATUS -/

theorem Phase.code_lt (p : Phase) : p.code < 8 := by cases p <;> decide

theorem FaultCause.code_lt (c : FaultCause) : c.code < 8 := by cases c <;> decide

theorem Mode.bit_eq (m : Mode) : m.bit = (m == .witness).toNat := by cases m <;> rfl

theorem State.busy_eq (s : State) : s.busy = (s.q != []) := by
  cases h : s.q <;> simp [State.busy, h]

/-- The fields of `STATUS` are the digits of its number: none reaches into the next, and together they take 16 bits
(10_state.md R30). -/
theorem status_digits (s : State) :
    s.status.toNat / 2 ^ 0 % 2 = s.unsat.toNat ∧ s.status.toNat / 2 ^ 1 % 2 = s.halted.toNat ∧
    s.status.toNat / 2 ^ 2 % 2 = (s.mode == .witness).toNat ∧ s.status.toNat / 2 ^ 3 % 2 = (s.q != []).toNat ∧
    s.status.toNat / 2 ^ 4 % 2 ^ 3 = s.phase.code ∧ s.status.toNat / 2 ^ 7 % 2 = s.digValid.toNat ∧
    s.status.toNat / 2 ^ 8 % 2 ^ 8 = s.faultCode.code ∧ s.status.toNat / 2 ^ 16 % 2 ^ 16 = 0 := by
  have hunsat := s.unsat.toNat_le
  have hhalted := s.halted.toNat_le
  have hmode := (s.mode == .witness).toNat_le
  have hbusy := (s.q != []).toNat_le
  have hphase := s.phase.code_lt
  have hvalid := s.digValid.toNat_le
  have hcause := s.faultCode.code_lt
  rw [State.status, BitVec.toNat_ofNat, s.mode.bit_eq, s.busy_eq]
  omega

theorem getLsbD_eq_of_div {w i : Nat} {x : BitVec w} {b : Bool} (h : x.toNat / 2 ^ i % 2 = b.toNat) :
    x.getLsbD i = b := by
  rw [BitVec.getLsbD, Nat.testBit_eq_decide_div_mod_eq, h]
  cases b <;> rfl

theorem toNat_extractLsb'_eq {w : Nat} (start len : Nat) (x : BitVec w) :
    (x.extractLsb' start len).toNat = x.toNat / 2 ^ start % 2 ^ len := by
  rw [BitVec.extractLsb'_toNat, Nat.shiftRight_eq_div_pow]

/-- Settles O44: Q and the outputs by the fault entry, the control state by `queueStep`, cells and log by `stepOnlyAdds`;
then the fields of `STATUS` as the digits of its number. (The name `faultEntry` is the model's own.) -/
theorem faultEntry_and_status : Obligations.FaultEntry := by
  refine ⟨fun s t hr hh hne hst ht => ?_, fun s => ?_, rfl, rfl⟩
  · obtain ⟨e, rest, hq⟩ := List.exists_cons_of_ne_nil hne
    obtain ⟨hcode, htq, hdout, hhout⟩ := faulted_of_step hr hh hq hst ht
    obtain ⟨-, hphase, hblk, hmode, hconfig, htable, -⟩ := queueStep s t e rest hr hq hst
    obtain ⟨hcells, hlog, hsticky, -⟩ := stepOnlyAdds s t hr hst
    exact ⟨hcode, htq, hdout, hhout, hmode, hphase, hblk, hconfig, htable, hsticky, hcells, hlog⟩
  · obtain ⟨hunsat, hhalted, hmode, hbusy, hphase, hvalid, hcause, hzero⟩ := status_digits s
    exact ⟨getLsbD_eq_of_div hunsat, getLsbD_eq_of_div hhalted, getLsbD_eq_of_div hmode, getLsbD_eq_of_div hbusy,
      (toNat_extractLsb'_eq _ _ _).trans hphase, getLsbD_eq_of_div hvalid, (toNat_extractLsb'_eq _ _ _).trans hcause,
      BitVec.eq_of_toNat_eq ((toNat_extractLsb'_eq _ _ _).trans hzero), rfl, BitVec.toNat_ofNat _ _⟩

end Sys2Proof.Machine
end

section
/-!
PROOFS. Reset (70_reset_and_hazards.md R280, R281): what a reset leaves in every component and output, and that the reset
state has every invariant. The values of the components are the `resetBlock_…` lemmas of Laws/State.lean.
-/

namespace Sys2Proof.Machine

open Sys2Proof

/-! ### What a reset leaves -/

theorem handle?_replicate_none (n i : Nat) : handle? (Vector.replicate n none) i = none := by
  simp only [handle?, Vector.getElem?_replicate]
  split_ifs <;> rfl

/-- The empty store holds no cell, of a TABLE column or any other (10_state.md R41). -/
theorem Memory.get_empty (cuts : TagCuts) (c : CellName) : (⟨[], 0⟩ : Memory).get cuts c = none := by
  cases c with
  | tab col v => simp [Memory.get, Nat.blt]
  | _ => rfl

theorem resetBlock_cell (s : State) (c : CellName) : (resetBlock s).cell c = none :=
  Memory.get_empty s.tagCuts c

/-- Of `STATUS` a reset leaves the MODE bit at most (10_state.md R30). -/
theorem resetBlock_status (s : State) : (resetBlock s).status = if s.modeIn then 4 else 0 := by
  simp only [State.status, State.busy, resetBlock_unsat, resetBlock_halted, resetBlock_mode, resetBlock_q, resetBlock_phase,
    resetBlock_digValid, resetBlock_faultCode]
  cases s.modeIn <;> rfl

/-- Settles O7: the step is `resetBlock`, whose components and outputs are read off one by one. -/
theorem resetStep : Obligations.ResetStep := fun s hr =>
  ⟨resetBlock s, step_reset hr, resetBlock_mode s, resetBlock_phase s, resetBlock_q s, rfl, resetBlock_unsat s,
    resetBlock_halted s, rfl, resetBlock_faultInfo s, resetBlock_digValid s, resetBlock_status s, rfl, rfl,
    resetBlock_blk s,
    fun i _ => ⟨handle?_replicate_none 8 i, handle?_replicate_none 8 i, handle?_replicate_none 8 i⟩,
    fun i _ => handle?_replicate_none 64 i, resetBlock_config s, resetBlock_table s, resetBlock_cell s,
    resetBlock_cons s, resetBlock_dout s, resetBlock_hout s⟩

/-! ### The reset state -/

theorem resetBlock_sequencerInv (s : State) : (resetBlock s).sequencerInv :=
  sequencerInv_of_empty (resetBlock_q s) nofun fun h => absurd (resetBlock_phase s) h

/-- A reset of the reset state is itself. -/
theorem resetBlock_resetWith (pin : Bool) : resetBlock (State.resetWith pin) = State.resetWith pin := rfl

/-- Settles O53: the reset state is a reset block, which has every invariant, and a reset keeps the host's side. -/
theorem resetHasInvariants : Obligations.ResetHasInvariants := by
  refine ⟨fun pin => ?_, rfl, step_reset rfl, fun s t hr hst => ?_⟩
  · rw [← resetBlock_resetWith pin]
    exact ⟨reset_memory_wf pin, resetBlock_verdictInv _, resetBlock_valuesInv _, resetBlock_sequencerInv _⟩
  · rw [eq_resetBlock_of_step hr hst]
    exact ⟨resetBlock_resetIn s, resetBlock_modeIn s, resetBlock_cmds s, resetBlock_hostAnswers s, resetBlock_requests s,
      resetBlock_tagCuts s, resetBlock_inst s⟩

end Sys2Proof.Machine
end
